-- ==== Sys2Proof/Word.lean ====
section
/-! DEFINITION. The words of the AS-2408: bytes, the widths its registers and records use, and the bounded indices of its fixed tables. -/

namespace Sys2Proof

/-- A byte, which is also an element of GF(2^8) (R1). -/
abbrev Byte := BitVec 8
/-- A 16-bit field: request tags, the destination selector (R79). -/
abbrev U16 := BitVec 16
/-- A 32-bit field: CRC-32C values (R19), sequences (R41), written indices (R171). -/
abbrev U32 := BitVec 32
/-- A timebase value, 48 bits (R153); also a device counter (R172). -/
abbrev U48 := BitVec 48
/-- A 64-bit field: stripe ids (R40), buffer addresses (R140). -/
abbrev U64 := BitVec 64

/-- A port, 0 to 3. -/
abbrev PortId := Fin 4
/-- A node id, 0 to 255 (R21). -/
abbrev NodeId := Fin 256
/-- A rack id, 0 to 63 (R21). -/
abbrev RackId := Fin 64
/-- A profile index, 0 to 7 (R5). -/
abbrev ProfileId := Fin 8
/-- A bank index, 0 to 7 (R91). -/
abbrev BankId := Fin 8
/-- A staging cell, 0 to 511 (R123). -/
abbrev CellId := Fin 512
/-- A Decode Lane (R127). -/
abbrev LaneId := Fin 2
/-- A fetch tag, the index of a fetch table's slot (R106). -/
abbrev FetchTag := Fin 32

/-- A handle of the Repair Table; 0 to 4,095 where an entry stands (R40). -/
abbrev Handle := Nat
/-- A position of a stripe, 0 to n−1. -/
abbrev Position := Nat
/-- A chunk offset of a fragment, 0 to C−1 (R10). -/
abbrev Offset := Nat

/-- A set of ports: bit p stands for port p, as the QUERY layout shows it (R171). -/
abbrev PortSet := BitVec 4

end Sys2Proof
end

