-- ==== Sys2Proof/Syntax.lean ====
section
/-! DEFINITION. The commands: one constructor per row of spec/opcode_table.json, in the table's order. -/

namespace Sys2Proof

/-- One step of the part (95_what_each_step_holds.md). A request row names the port whose request queue's
head record it takes (R163, log 2); the record's own fields stand in that port's request slots. -/
inductive Instr where
  -- requests taken from a port's request queue
  | submit (p : PortId)
  | withdraw (p : PortId)
  | query (p : PortId)
  | offer (p : PortId)
  | decline (p : PortId)
  | postLanding (p : PortId)
  | stored (p : PortId)
  | refuseFragment (p : PortId)
  | defineNode (p : PortId)
  | reportDown (p : PortId)
  | reportRackDown (p : PortId)
  | retractDown (p : PortId)
  | reviveNode (p : PortId)
  | clearSuspect (p : PortId)
  | setProfile (p : PortId)
  | setDevice (p : PortId)
  | setLimits (p : PortId)
  | setPacing (p : PortId)
  | setPressureMode (p : PortId)
  | releasePressure (p : PortId)
  | snapshot (p : PortId)
  | readCounters (p : PortId)
  | portReset (p : PortId)
  | unknownKindRequest (p : PortId)
  -- host accesses to the port's function
  | requestTailWrite (p : PortId) (value : U32)
  | responseHeadWrite (p : PortId) (value : U32)
  | otherMemoryWrite (p : PortId) (offset : Nat) (data : List Byte)
  | eventEnableChange (p : PortId) (on : Bool)
  -- pins
  | linkUp (p : PortId)
  | linkLost (p : PortId)
  | pressureAssertion (p : PortId)
  | pressureDeassertion (p : PortId)
  | deviceReset
  | deviceResetRelease
  -- time
  | timebaseTick
  | epochBoundary
  | fetchExpiry (p : PortId) (tag : FetchTag)
  | landingTimeout (p : PortId)
  -- the part's own steps
  | planningAttempt
  | fetchIssue (p : PortId)
  | offerTransferEnd (cell : CellId) (data : List Byte)
  | passDispatch
  | passComplete (lane : LaneId)
  | deliveryBegin (p : PortId)
  | deliveryEnd (cell : CellId)
  | inversionBegin
  | inversionEnd
  | sweepBegin
  | sweepVisit (h : Handle)
  | sweepEnd
  | portResetEnd (p : PortId)
  | sendClosed (p : PortId)
  | sendVoid (p : PortId)
  | sendNodeState (p : PortId)
  deriving DecidableEq, Repr

end Sys2Proof
end

