-- ==== Sys2Proof/Decode.lean ====
section
/-! DEFINITION. The command that a word spells by the table's bits: no row of spec/opcode_table.json gives any. -/

namespace Sys2Proof

/-- The command a word of `nbits` bits spells. Every row's "fields" is empty and none has fixed bits, so no
word spells a command (log 30). -/
def decodeTableWord (_nbits _w : Nat) : Option Instr := none

end Sys2Proof
end

