-- ==== Sys2Proof/Config.lean ====
section
/-! DEFINITION. What the part fixes (sizes, ranges, values after device reset) and the free values the manual leaves open. -/

namespace Sys2Proof.Config

/-- Bytes of a whole chunk, and of a staging cell (R10, R123). -/
abbrev chunkBytes : Nat := 65536
/-- The longest fragment, 2^30 bytes (R10). -/
abbrev maxFragment : Nat := 1073741824
/-- Handles of the Repair Table (R40). -/
abbrev tableSize : Nat := 4096
/-- Active slots (R71). -/
abbrev slots : Nat := 16
/-- Records of a request queue (R163), and the range of its indices. -/
abbrev requestDepth : Nat := 64
abbrev requestRange : Nat := 128
/-- Records of a response queue (R163), and the range of its indices. -/
abbrev responseDepth : Nat := 160
abbrev responseRange : Nat := 320
/-- The shares of the response queue (R165). -/
abbrev responseShare : Nat := 64
abbrev fetchShare : Nat := 32
abbrev landedShare : Nat := 32
abbrev coalescedShare : Nat := 32
/-- Landing buffers of one port (R140). -/
abbrev landingDepth : Nat := 32
/-- The largest destination load (R35). -/
abbrev maxLoad : Nat := 8
/-- Bytes of a request record and of a response or notice record (R171). -/
abbrev requestBytes : Nat := 128
abbrev responseBytes : Nat := 512
/-- Where the slots stand in the function's memory space (R171). -/
abbrev requestBase : Nat := 0x1000
abbrev responseBase : Nat := 0x4000

/-- Values after device reset (R30, R107, R118, R145, R154, R79, R110). -/
abbrev resetQuorum : Nat := 2
abbrev resetWindow : Nat := 4
abbrev resetFetchTimeout : Nat := 200
abbrev resetLandingTimeout : Nat := 2000
abbrev resetEpochLength : Nat := 10
abbrev resetSelector : U16 := 0x5A3C#16
abbrev resetCredit : Nat := 16
abbrev resetQuota : Nat := 128

/-- Free value (log 13): whether byte `i` of a landing buffer had been written when a device reset
abandoned its delivery; the first argument is fresh at each abandoned delivery (R170). -/
opaque partlyWritten : Nat → Nat → Bool

/-- Free value (log 28): what byte `i` of response slot `n` of port `p` reads as while no waiting
record stands in the slot (R163 gives it no contents). -/
opaque staleResponseByte : PortId → Nat → Nat → Byte

end Sys2Proof.Config
end

