-- ==== Sys2Proof/Machine/State.lean ====
section
/-! DEFINITION. The state of the AS-2408 as plain data, and the state right after device reset. -/

namespace Sys2Proof.Machine

open Sys2Proof.Config

/-! ### Tables and memory -/

/-- Sparse data by number, listed by strictly rising key. -/
abbrev Table (α : Type) := List (Nat × α)

/-- Bytes by address, in the canonical form of `Memory.wf`. An unlisted byte reads as 0 (log 9). -/
abbrev Memory := List Host.Cell

/-- Addresses strictly rise, and no listed byte equals what an unlisted address reads as. -/
abbrev Memory.wf (m : Memory) : Prop := m.Pairwise (fun a b => a.1 < b.1) ∧ ∀ c ∈ m, c.2 ≠ 0#8

/-! ### Node Table (02) -/

/-- R21. -/
inductive NodeState where
  | undefined | up | suspect | down
  deriving DecidableEq, Repr

/-- A node record (R21), with the NODE-STATE marks the four ports hold for the node (R24). -/
structure Node where
  state : NodeState
  rack : Option RackId
  route : Option PortId
  /-- The down-report set. -/
  reports : PortSet
  /-- Window failures, 0 to 255. -/
  failures : Nat
  /-- Severe streak, 0 to 2. -/
  severe : Nat
  /-- Clean streak, 0 to 16. -/
  clean : Nat
  /-- Destination load, 0 to 8 (R35). -/
  load : Nat
  /-- The ports that hold a NODE-STATE pending mark for this node (R24, R166). -/
  marks : PortSet
  deriving DecidableEq, Repr

/-- R21: every record after device reset. -/
def Node.reset : Node := ⟨.undefined, none, none, 0, 0, 0, 0, 0, 0⟩

/-- A node sweep in progress: its node, and the handle the walk has reached (R36). -/
structure Sweep where
  node : NodeId
  next : Handle
  deriving DecidableEq, Repr

/-! ### Profile Table (01) -/

/-- The parameters of a DEFINED profile (R5). -/
structure Code where
  k : Nat
  m : Nat
  deriving DecidableEq, Repr

/-- A profile record (R5): UNDEFINED while `code` is absent. -/
structure Profile where
  code : Option Code
  users : Nat
  deriving DecidableEq, Repr

def Profile.reset : Profile := ⟨none, 0⟩

/-! ### Repair Table (03) -/

inductive MemberState where
  | held | lost | rebuilding
  deriving DecidableEq, Repr

inductive LostCause where
  | reported | nodeDown | corrupt | unresponsive
  deriving DecidableEq, Repr

/-- A target record (R43). -/
structure Target where
  dest : Option NodeId
  start : Offset
  /-- Offsets landed at the present destination, rising, without repetition. -/
  coverage : List Offset
  stored : Bool
  /-- Void pending (R44), by rising node id, each node at most once. -/
  voids : List (NodeId × PortId)
  deriving DecidableEq, Repr

/-- The target record as the Planner first creates it (R43). -/
def Target.fresh : Target := ⟨none, 0, [], false, []⟩

/-- A member record (R42). -/
structure Member where
  node : NodeId
  state : MemberState
  cause : Option LostCause
  strikes : Nat
  target : Option Target
  deriving DecidableEq, Repr

inductive EntryState where
  | queued | planning | active | draining | settling | closed
  deriving DecidableEq, Repr

inductive WaitReason where
  | noSources | noDestination | noSlot | noCells | noBank
  deriving DecidableEq, Repr

/-- The class of an entry (R18); `class` is a word of Lean's. -/
inductive Urgency where
  | critical | urgent | routine
  deriving DecidableEq, Repr

inductive FailCause where
  | unrecoverable | inconsistent | cancelled | orphaned
  deriving DecidableEq, Repr

inductive EntryOutcome where
  | done
  | failed (cause : FailCause)
  deriving DecidableEq, Repr

/-- The flags of an entry (R62). -/
structure EntryFlags where
  relaxed : Bool
  checkSkipped : Bool
  suspectUsed : Bool
  deriving DecidableEq, Repr

/-- The key of a bank (R92); positions in ascending order, so that equal sets are equal lists. -/
structure Key where
  profile : ProfileId
  sources : List Position
  targets : List Position
  check : Option Position
  deriving DecidableEq, Repr

/-- A plan (R73, R85): source set and bank are absent while the plan is incomplete in that part. -/
structure Plan where
  sources : Option (List Position)
  check : Option Position
  bank : Option BankId
  decodePoint : Offset
  /-- The floor size as last computed by R72. -/
  floorSize : Nat
  /-- The key formed at the activation or revision that made the plan; absent while it has no source set (R92, R85). -/
  key : Option Key
  deriving DecidableEq, Repr

/-- A stripe entry (R40); its handle is its key in the table. -/
structure Entry where
  stripe : U64
  sequence : U32
  profile : ProfileId
  /-- Fragment length L; the chunk count C is derived (R10). -/
  length : Nat
  members : List Member
  submitters : PortSet
  state : EntryState
  wait : Option WaitReason
  urgency : Urgency
  crossCheck : Bool
  plan : Option Plan
  /-- The replan-pending mark (R83). -/
  replan : Bool
  outcome : Option EntryOutcome
  flags : EntryFlags
  /-- Pending CLOSED marks (R62). -/
  closedMarks : PortSet
  deriving DecidableEq, Repr

/-! ### Bank Set and Matrix Unit (05) -/

inductive BankState where
  | empty | inverting | ready
  deriving DecidableEq, Repr

/-- A bank (R91). -/
structure Bank where
  state : BankState
  key : Option Key
  rows : List (List Byte)
  refs : Nat
  stamp : Nat
  discard : Bool
  deriving DecidableEq, Repr

/-- R91: bank `i` after device reset. -/
def Bank.reset (i : Nat) : Bank := ⟨.empty, none, [], 0, i, false⟩

/-- What the Matrix Unit holds while it inverts the bank at the head of the FIFO (R99, R14): the k and m it
has read and the working array [A | I]. -/
structure Inversion where
  code : Code
  array : List (List Byte)
  deriving DecidableEq, Repr

/-! ### Gather Unit and Staging Memory (06) -/

/-- A fetch record (R106): LIVE while it has its answer cell, WITHDRAWN once it has lost it. -/
structure Fetch where
  handle : Handle
  stripe : U64
  position : Position
  node : NodeId
  offset : Offset
  length : Nat
  expiry : U48
  cell : Option CellId
  deriving DecidableEq, Repr

/-- A mover transfer of an offer (R113). `answers` falls when a port reset drops the reserved response (R122). -/
structure Transfer where
  handle : Handle
  stripe : U64
  position : Position
  offset : Offset
  length : Nat
  cell : CellId
  port : PortId
  address : U64
  tag : U16
  checksum : U32
  answers : Bool
  deriving DecidableEq, Repr

/-- The reserve a cell was drawn from (R124). -/
inductive Charge where
  | floor | pool
  deriving DecidableEq, Repr

/-- What a cell that is not FREE serves (R123). The ports are those pool use is counted by (R110). -/
inductive CellUse where
  /-- RESERVED to the owner's floor itself. -/
  | floor
  /-- RESERVED to a LIVE fetch of port `p`. -/
  | fetch (p : PortId)
  /-- RESERVED to a mover transfer of an offer taken at port `p`. -/
  | transfer (p : PortId)
  /-- SOURCE: a verified chunk that arrived through port `p`. -/
  | source (pos : Position) (off : Offset) (p : PortId)
  /-- OUTPUT: a rebuilt chunk. -/
  | output (pos : Position) (off : Offset)
  deriving DecidableEq, Repr

/-- A cell that is not FREE: its owner's handle, its charge, its use and the chunk's bytes. -/
structure Cell where
  owner : Handle
  charge : Charge
  use : CellUse
  data : List Byte
  deriving DecidableEq, Repr

/-! ### Decode Lanes and Delivery Unit (07, 08) -/

/-- One output of a pass (R127). -/
structure PassOutput where
  position : Position
  cell : CellId
  /-- The destination the target had at dispatch. -/
  dest : NodeId
  row : List Byte
  deriving DecidableEq, Repr

/-- A pass record (R127). -/
structure Pass where
  handle : Handle
  stripe : U64
  offset : Offset
  length : Nat
  sources : List CellId
  /-- The check cell and the copied check row, when the plan names a check member. -/
  check : Option (CellId × List Byte)
  outputs : List PassOutput
  deriving DecidableEq, Repr

/-- A queued output (R141). -/
structure Output where
  handle : Handle
  stripe : U64
  position : Position
  offset : Offset
  length : Nat
  checksum : U32
  cell : CellId
  dest : NodeId
  deriving DecidableEq, Repr

/-- A delivery record (R142). -/
structure Delivery where
  port : PortId
  output : Output
  buffer : U64
  owned : Bool
  deriving DecidableEq, Repr

/-! ### Records the part places (10) -/

/-- The statuses of a response (R171), in the order of their codes. -/
inductive Status where
  | ok | merged | full | conflict | closing | nothingLost | unrecoverable | inUse | invalid | unknown | stale
  | late | mismatch | misrouted | gone | badsum | early | notSubmitter
  deriving DecidableEq, Repr

/-- What a QUERY reports of one member and its target record (R64). -/
structure MemberReport where
  node : NodeId
  state : MemberState
  cause : Option LostCause
  strikes : Nat
  targetPresent : Bool
  stored : Bool
  dest : Option NodeId
  start : Offset
  covered : Nat
  voids : Nat
  deriving DecidableEq, Repr

/-- What a QUERY reports (R64, R171). -/
structure QueryReport where
  stripe : U64
  handle : Handle
  state : EntryState
  wait : Option WaitReason
  urgency : Urgency
  lostCount : Nat
  margin : Int
  profile : ProfileId
  sequence : U32
  length : Nat
  chunks : Nat
  submitters : PortSet
  crossCheck : Bool
  flags : EntryFlags
  outcome : Option EntryOutcome
  planPresent : Bool
  parkPending : Bool
  replanPending : Bool
  sources : Option (List Position)
  check : Option Position
  bank : Option BankId
  decodePoint : Offset
  members : List MemberReport
  deriving DecidableEq, Repr

/-- The body of a response (R171). -/
inductive Body where
  | none
  /-- SUBMIT answered OK: handle and sequence. -/
  | created (h : Handle) (seq : U32)
  /-- SUBMIT answered MERGED or CONFLICT: handle. -/
  | existing (h : Handle)
  /-- SUBMIT answered CLOSING: handle and entry state. -/
  | closing (h : Handle) (st : EntryState)
  /-- SET-LIMITS: credit limit and cell quota as stored. -/
  | limits (credit quota : Nat)
  /-- SET-PACING: active budget. -/
  | budget (active : Nat)
  /-- SET-PRESSURE-MODE, RELEASE-PRESSURE: the hold. -/
  | hold (held : Bool)
  /-- READ-COUNTERS: the deltas. -/
  | deltas (d : Vector U48 18)
  | report (r : QueryReport)
  deriving DecidableEq, Repr

/-- A record of the response queue: a response or a notice (R171). -/
inductive Record where
  | response (kind : Byte) (tag : U16) (status : Status) (body : Body)
  | fetch (stripe : U64) (h : Handle) (tag : FetchTag) (pos : Position) (node : NodeId) (off : Offset) (length : Nat)
  | landed (stripe : U64) (h : Handle) (pos : Position) (off : Offset) (length : Nat) (checksum : U32) (buffer : U64)
  | closed (stripe : U64) (h : Handle) (outcome : Option EntryOutcome) (flags : EntryFlags) (lost : Nat)
  | nodeState (node : NodeId) (state : NodeState) (rack : Option RackId) (route : Option PortId)
  | void (stripe : U64) (pos : Position) (node : NodeId)
  deriving DecidableEq, Repr

/-! ### Port Units (10) with their limits (06), landing (08), pacing (09) and baseline (11) -/

/-- R162. -/
inductive PortState where
  | down | up | resetting
  deriving DecidableEq, Repr

/-- R158. -/
inductive PressureMode where
  | follow | holdEpoch | latch
  deriving DecidableEq, Repr

/-- A budget record (R155). -/
structure Budget where
  active : Nat
  used : Nat
  shadow : Nat
  switchPending : Bool
  deriving DecidableEq, Repr

def Budget.reset : Budget := ⟨0, 0, 0, false⟩

/-- One Port Unit and everything the part keeps per port. -/
structure Port where
  state : PortState
  /-- The PCIe link, as the Port Unit observes it (R162). -/
  link : Bool
  reqTail : Nat
  reqHead : Nat
  respTail : Nat
  respHead : Nat
  /-- The request slots' bytes, by offset in the function's memory space (R171). -/
  slots : Memory
  /-- The records of the response queue not yet taken, oldest first (R165). -/
  responses : List Record
  /-- The fetch table (R106). -/
  fetches : Vector (Option Fetch) 32
  credit : Nat
  quota : Nat
  /-- The landing list (R140). -/
  landing : List U64
  /-- The landing wait's deadline, while it runs (R145). -/
  wait : Option U48
  /-- The output queue (R141). -/
  outputs : List Output
  budget : Budget
  /-- The PRS input's level (R158). -/
  pressure : Bool
  mode : PressureMode
  /-- The pressure hold: HELD when true (R158). -/
  held : Bool
  epochMark : Bool
  eventEnable : Bool
  baseline : Vector U48 18
  /-- The model's own: message interrupts sent (log 14). -/
  interrupts : Nat
  /-- The model's own: bytes the mover has written into this host's memory (log 12). -/
  hostMem : Table Byte
  deriving DecidableEq, Repr

/-- A port after device reset with its input low and its link down (R170, R161, log 10). -/
def Port.reset : Port where
  state := .down
  link := false
  reqTail := 0
  reqHead := 0
  respTail := 0
  respHead := 0
  slots := []
  responses := []
  fetches := Vector.replicate 32 none
  credit := resetCredit
  quota := resetQuota
  landing := []
  wait := none
  outputs := []
  budget := Budget.reset
  pressure := false
  mode := .follow
  held := false
  epochMark := false
  eventEnable := false
  baseline := Vector.replicate 18 0
  interrupts := 0
  hostMem := []

end Sys2Proof.Machine

namespace Sys2Proof.Machine

/-! ### The machine -/

structure State where
  /-- RST_N is asserted (R170). -/
  inReset : Bool
  ports : Vector Port 4
  nodes : Vector Node 256
  /-- The down quorum (R30). -/
  quorum : Nat
  sweepFifo : List NodeId
  sweep : Option Sweep
  profiles : Vector Profile 8
  entries : Table Entry
  sequenceCounter : U32
  /-- A planning attempt has been caused and not yet taken (R68). -/
  attempt : Bool
  /-- The entry with a park pending (R81). -/
  park : Option Handle
  /-- The destination selector (R79). -/
  selector : U16
  banks : Vector Bank 8
  inversionFifo : List BankId
  /-- The Matrix Unit: idle when absent (R99). -/
  matrix : Option Inversion
  /-- The alignment window W (R107). -/
  window : Nat
  fetchTimeout : Nat
  transfers : List Transfer
  /-- Staging Memory; an absent cell is FREE (R123). -/
  cells : Vector (Option Cell) 512
  /-- The Decode Lanes; an absent pass is IDLE (R127). -/
  lanes : Vector (Option Pass) 2
  deliveries : List Delivery
  landingTimeout : Nat
  timebase : U48
  nextBoundary : U48
  epochLength : Nat
  /-- The device counters, in READ-COUNTERS order (R172). -/
  counters : Vector U48 18
  /-- The model's own: the free values drawn so far (log 13). -/
  fresh : Nat
  /-- The commands still to be taken, first in, first out. -/
  pending : List Instr
  deriving DecidableEq, Repr

/-- Why the machine stops with a fault. -/
inductive Fault where
  /-- Raised by OTHER_MEMORY_WRITE for bytes outside the indices and slots, where the function's memory space
  has nothing (10.2: "and nothing else"; log 17). Safe: the hardware goes on, the model stops. -/
  | outsideMemorySpace
  deriving DecidableEq, Repr

/-- Why a command has no meaning. -/
inductive Refusal where
  /-- Raised by OTHER_MEMORY_WRITE for bytes of the request tail or the response head, which that row does not
  write: REQUEST_TAIL_WRITE and RESPONSE_HEAD_WRITE do (log 17). Safe: the command is none of the table's. -/
  | hostOwnedIndex
  /-- Raised by an arm of exec whose command has no meaning yet. Safe. -/
  | notModelled (mnemonic : String)
  deriving DecidableEq, Repr

/-- The part right after the release of RST_N (R170, and each chapter's reset values). -/
def State.reset : State where
  inReset := false
  ports := Vector.replicate 4 Port.reset
  nodes := Vector.replicate 256 Node.reset
  quorum := Config.resetQuorum
  sweepFifo := []
  sweep := none
  profiles := Vector.replicate 8 Profile.reset
  entries := []
  sequenceCounter := 0
  attempt := false
  park := none
  selector := Config.resetSelector
  banks := #v[Bank.reset 0, Bank.reset 1, Bank.reset 2, Bank.reset 3,
              Bank.reset 4, Bank.reset 5, Bank.reset 6, Bank.reset 7]
  inversionFifo := []
  matrix := none
  window := Config.resetWindow
  fetchTimeout := Config.resetFetchTimeout
  transfers := []
  cells := Vector.replicate 512 none
  lanes := Vector.replicate 2 none
  deliveries := []
  landingTimeout := Config.resetLandingTimeout
  timebase := 0
  nextBoundary := BitVec.ofNat 48 Config.resetEpochLength
  epochLength := Config.resetEpochLength
  counters := Vector.replicate 18 0
  fresh := 0
  pending := []

end Sys2Proof.Machine
end

