-- ==== Sys2Proof/Machine/Checksum.lean ====
section
/-! DEFINITION. CRC-32C as the Integrity unit computes it (01 R19). -/

namespace Sys2Proof.Machine

/-- R19: one shift of the register. -/
def crcShift (r : U32) : U32 := if r.getLsbD 0 then (r >>> 1) ^^^ 0x82F63B78#32 else r >>> 1

/-- `n` shifts. -/
def crcShifts : Nat → U32 → U32
  | 0, r => r
  | n + 1, r => crcShifts n (crcShift r)

/-- R19: one byte, XORed into the low eight bits and shifted out. -/
def crcByte (r : U32) (b : Byte) : U32 := crcShifts 8 (r ^^^ b.setWidth 32)

/-- R19: the checksum of a chunk. -/
def crc32c (bytes : List Byte) : U32 := bytes.foldl crcByte 0xFFFFFFFF#32 ^^^ 0xFFFFFFFF#32

end Sys2Proof.Machine
end

