-- ==== Sys2Proof/Machine/Field.lean ====
section
/-! DEFINITION. GF(2^8), the generator, the inversion of a source matrix and the rows of a bank (01 R1 to R3, R12 to R16). -/

namespace Sys2Proof.Machine

/-- R1, doubling: shift left, and XOR 0x1D when a 1 is shifted out. -/
def gfDouble (a : Byte) : Byte := if a.msb then (a <<< 1) ^^^ 0x1D#8 else a <<< 1

/-- The XOR of a·x^i over the set bits of `b`, `n` bits to go. -/
def gfMulBits : Nat → Byte → Byte → Byte
  | 0, _, _ => 0
  | n + 1, a, b => (if b.getLsbD 0 then a else 0) ^^^ gfMulBits n (gfDouble a) (b >>> 1)

/-- R1, multiplication. -/
def gfMul (a b : Byte) : Byte := gfMulBits 8 a b

/-- R2: the element whose product with `a` is 0x01 (0x00 for 0x00, which nothing asks for). -/
def gfInv (a : Byte) : Byte :=
  (((List.range 256).map (BitVec.ofNat 8)).find? (fun x => gfMul a x == 1#8)).getD 0

/-- The field sum of a list. -/
def gfSum (l : List Byte) : Byte := l.foldr (fun a b => a ^^^ b) 0

/-- The field sum of the products of two lists, place by place. -/
def gfDot (r c : List Byte) : Byte := gfSum (List.zipWith gfMul r c)

/-- R3: row `i` of the generator of a profile. -/
def generatorRow (c : Code) (i : Position) : List Byte :=
  (List.range c.k).map fun j =>
    if i < c.k then (if j = i then 1 else 0)
    else gfInv (BitVec.ofNat 8 (i - c.k) ^^^ BitVec.ofNat 8 (c.m + j))

/-- The k×k unit matrix. -/
def unitMatrix (k : Nat) : List (List Byte) :=
  (List.range k).map fun i => (List.range k).map fun j => if j = i then 1 else 0

/-- R12, R14: the array [A | I] for a source set in ascending order. -/
def augmented (c : Code) (sources : List Position) : List (List Byte) :=
  List.zipWith (fun a b => a ++ b) (sources.map (generatorRow c)) (unitMatrix c.k)

/-- Entry (r, c) of an array. -/
def entryAt (a : List (List Byte)) (r c : Nat) : Byte := (a.getD r []).getD c 0

/-- R14 step 1: the first row from `c` downward whose entry in column `c` is nonzero. -/
def pivotRow (a : List (List Byte)) (c : Nat) : Nat :=
  ((List.range a.length).find? (fun r => decide (c ≤ r) && entryAt a r c != 0)).getD c

/-- R14 step 2. -/
def swapRows (a : List (List Byte)) (r c : Nat) : List (List Byte) :=
  (a.set c (a.getD r [])).set r (a.getD c [])

/-- A row times a field element. -/
def scaleRow (x : Byte) (row : List Byte) : List Byte := row.map (gfMul x)

/-- The sum of two rows. -/
def addRow (a b : List Byte) : List Byte := List.zipWith (fun x y => x ^^^ y) a b

/-- R14 steps 3 and 4, after the swap: scale row `c`, then clear column `c` from every other row. -/
def scaleAndClear (a : List (List Byte)) (c : Nat) : List (List Byte) :=
  let pivot := scaleRow (gfInv (entryAt a c c)) (a.getD c [])
  (List.range a.length).map fun r =>
    if r = c then pivot
    else if entryAt a r c = 0 then a.getD r []
    else addRow (a.getD r []) (scaleRow (entryAt a r c) pivot)

/-- R14: the treatment of one column. -/
def eliminateColumn (a : List (List Byte)) (c : Nat) : List (List Byte) :=
  scaleAndClear (swapRows a (pivotRow a c) c) c

/-- R14: the right half of the array once every column has been treated. -/
def invertArray (k : Nat) (a : List (List Byte)) : List (List Byte) :=
  ((List.range k).foldl eliminateColumn a).map (List.drop k)

/-- R15: a row of G times A⁻¹. -/
def rowTimes (k : Nat) (row : List Byte) (inv : List (List Byte)) : List Byte :=
  (List.range k).map fun j => gfDot row (inv.map (fun r => r.getD j 0))

/-- The positions a key has rows for, in the order of R15: targets ascending, then the check member. -/
def Key.rowPositions (key : Key) : List Position := key.targets ++ key.check.toList

/-- R13: the rows of the fast path, straight from the generator. -/
def fastRows (c : Code) (key : Key) : List (List Byte) := key.rowPositions.map (generatorRow c)

/-- R15: the rows of a bank from A⁻¹. -/
def invertedRows (c : Code) (key : Key) (inv : List (List Byte)) : List (List Byte) :=
  key.rowPositions.map fun t => rowTimes c.k (generatorRow c t) inv

/-- R13: the source set is exactly the data positions. -/
def isDataSet (k : Nat) (sources : List Position) : Bool := sources == List.range k

/-- R16: one row applied to the source chunks of one offset, byte by byte. -/
def applyRow (row : List Byte) (chunks : List (List Byte)) (length : Nat) : List Byte :=
  (List.range length).map fun b => gfDot row (chunks.map (fun c => c.getD b 0))

end Sys2Proof.Machine
end

