-- ==== Sys2Proof/Machine/Flags.lean ====
section
/-! DEFINITION. The values that follow from the state: chunk sizes, lost count, margin, class, the order of entries, coverage, the event line. -/

namespace Sys2Proof.Machine

open Sys2Proof.Config

/-- R10: the chunk count C of a fragment length. -/
def chunkCount (length : Nat) : Nat := (length + (chunkBytes - 1)) / chunkBytes

/-- R10: the length of chunk `o`. -/
def chunkLength (length : Nat) (o : Offset) : Nat :=
  if o + 1 < chunkCount length then chunkBytes else length - chunkBytes * (chunkCount length - 1)

def Entry.chunks (e : Entry) : Nat := chunkCount e.length

/-- LOST or REBUILDING (R17). -/
def Member.gone (m : Member) : Bool := m.state != .held

/-- R17: the lost count. -/
def Entry.lostCount (e : Entry) : Nat := e.members.countP Member.gone

/-- R17: the margin, for `m` parity positions. -/
def marginOf (m lost : Nat) : Int := (m : Int) - (lost : Int)

/-- R18: the class for a lost count of 1 to `m`. -/
def urgencyOf (m lost : Nat) : Urgency :=
  if marginOf m lost ≤ 0 then .critical else if marginOf m lost = 1 then .urgent else .routine

/-- R18: CRITICAL, then URGENT, then ROUTINE. -/
def Urgency.rank : Urgency → Nat
  | .critical => 0
  | .urgent => 1
  | .routine => 2

/-- R41: whether entry `a` is older than entry `b`, by serial comparison and then by handle. -/
def older (a b : Handle × Entry) : Bool :=
  let d := (b.2.sequence - a.2.sequence).toNat
  if d = 0 ∨ d = 2147483648 then decide (a.1 < b.1) else decide (d < 2147483648)

/-- R67: `a` stands before `b` in queue order. -/
def moreUrgent (a b : Handle × Entry) : Bool :=
  if a.2.urgency = b.2.urgency then older a b else decide (a.2.urgency.rank < b.2.urgency.rank)

/-- The first in queue order of a list of entries. -/
def mostUrgent : List (Handle × Entry) → Option (Handle × Entry)
  | [] => none
  | x :: rest =>
    match mostUrgent rest with
    | none => some x
    | some y => if moreUrgent y x then some y else some x

/-- Insertion into a list in queue order. -/
def insertByUrgency (x : Handle × Entry) : List (Handle × Entry) → List (Handle × Entry)
  | [] => [x]
  | y :: rest => if moreUrgent y x then y :: insertByUrgency x rest else x :: y :: rest

/-- R67: entries in queue order. -/
def queueOrder : List (Handle × Entry) → List (Handle × Entry)
  | [] => []
  | x :: rest => insertByUrgency x (queueOrder rest)

/-- R71: the states that hold a slot. -/
def EntryState.holdsSlot : EntryState → Bool
  | .planning | .active | .draining => true
  | .queued | .settling | .closed => false

/-- R43: the entry's targets, the target records whose stored is no, with their positions. -/
def Entry.targets (e : Entry) : List (Position × Target) :=
  e.members.zipIdx.filterMap fun mi =>
    match mi.1.target with
    | some t => if t.stored then none else some (mi.2, t)
    | none => none

/-- R43: the target covers every offset. -/
def Target.coversAll (t : Target) (chunks : Nat) : Bool := (List.range chunks).all (fun o => t.coverage.contains o)

/-- R53: every target covers every offset. -/
def Entry.allCovered (e : Entry) : Bool := e.targets.all (fun pt => pt.2.coversAll e.chunks)

/-- The target record of a position, if it is one of the entry's targets (R43). -/
def Entry.target? (e : Entry) (pos : Position) : Option Target :=
  match e.members[pos]? with
  | some m => match m.target with
    | some t => if t.stored then none else some t
    | none => none
  | none => none

/-- R107: the gather set of a plan. -/
def Plan.gathers (pl : Plan) (pos : Position) : Bool :=
  (match pl.sources with | some l => l.contains pos | none => false) || pl.check == some pos

/-- The gather set in ascending position, out of `n` positions. -/
def Plan.gatherSet (pl : Plan) (n : Nat) : List Position := (List.range n).filter pl.gathers

/-- R92: the positions of a key's targets, LOST or REBUILDING, ascending. -/
def Entry.targetPositions (e : Entry) : List Position :=
  e.members.zipIdx.filterMap fun mi => if mi.1.gone then some mi.2 else none

/-- R85: some member being rebuilt has no destination. -/
def Entry.lacksDestination (e : Entry) : Bool :=
  e.members.any fun m => m.gone && (match m.target with | some t => t.dest.isNone | none => true)

/-- R84, R85: every part of the plan is there. -/
def Entry.planComplete (e : Entry) : Bool :=
  match e.plan with
  | some pl => pl.sources.isSome && pl.bank.isSome && !e.lacksDestination
  | none => false

/-- R141: an output is current when its destination node is not DOWN; here, of the node's state. -/
def NodeState.current (st : NodeState) : Bool := st != .down

/-- R74, R108: UP or SUSPECT. -/
def NodeState.serves : NodeState → Bool
  | .up | .suspect => true
  | .undefined | .down => false

/-- R167: the level of a port's event line. -/
def Port.line (q : Port) : Bool := q.state == .up && !q.responses.isEmpty && q.eventEnable

/-- R157: the Pacing Unit allows a transfer to begin on the port. -/
def Port.allowsTransfer (q : Port) : Bool :=
  !q.held && (q.budget.active == 0 || decide (q.budget.used < q.budget.active))

/-- R163: records posted and not yet taken. -/
def Port.posted (q : Port) : Nat := (q.reqTail + requestRange - q.reqHead % requestRange) % requestRange

/-- R153: the timebase has reached a deadline (log 4: and has not lost it by going on). -/
def deadlineReached (now deadline : U48) : Bool := decide ((now - deadline).toNat < 2 ^ 47)

/-- The shares of R165, by the record's kind. -/
def Record.isResponse : Record → Bool
  | .response .. => true
  | .fetch .. | .landed .. | .closed .. | .nodeState .. | .void .. => false

def Record.isFetch : Record → Bool
  | .fetch .. => true
  | .response .. | .landed .. | .closed .. | .nodeState .. | .void .. => false

def Record.isLanded : Record → Bool
  | .landed .. => true
  | .response .. | .fetch .. | .closed .. | .nodeState .. | .void .. => false

def Record.isCoalesced : Record → Bool
  | .closed .. | .nodeState .. | .void .. => true
  | .response .. | .fetch .. | .landed .. => false

/-- R32, R21: a count that stays at its ceiling. -/
def bump (ceiling n : Nat) : Nat := if n < ceiling then n + 1 else ceiling

/-- Insertion into a rising list without repetition. -/
def insertSorted (x : Nat) : List Nat → List Nat
  | [] => [x]
  | y :: rest => if x < y then x :: y :: rest else if x = y then y :: rest else y :: insertSorted x rest

/-- R44: a pair joins void pending unless its node stands there already; rising node id. -/
def insertVoid (v : NodeId × PortId) : List (NodeId × PortId) → List (NodeId × PortId)
  | [] => [v]
  | w :: rest =>
    if v.1 < w.1 then v :: w :: rest else if v.1 = w.1 then w :: rest else w :: insertVoid v rest

/-! Sets of ports. -/

def PortSet.single (p : PortId) : PortSet := BitVec.ofNat 4 (2 ^ p.val)
def PortSet.has (s : PortSet) (p : PortId) : Bool := s.getLsbD p.val
def PortSet.add (s : PortSet) (p : PortId) : PortSet := s ||| PortSet.single p
def PortSet.remove (s : PortSet) (p : PortId) : PortSet := s &&& ~~~ PortSet.single p
/-- The four ports. -/
def PortSet.all : PortSet := 15#4
def allPorts : List PortId := [0, 1, 2, 3]
def PortSet.size (s : PortSet) : Nat := allPorts.countP (PortSet.has s)

end Sys2Proof.Machine
end

