-- ==== Sys2Proof/Machine/Ops.lean ====
section
/-! DEFINITION. The named operations over the state: tables and memory, one record of each table, the response queue, the cells, the counters. -/

namespace Sys2Proof.Machine

open Sys2Proof.Config

/-! ### Tables and memory -/

/-- What stands under a key. -/
def Table.find {α : Type} : Table α → Nat → Option α
  | [], _ => none
  | (k, v) :: rest, i => if k = i then some v else Table.find rest i

/-- Write under a key, keeping the keys rising. -/
def Table.put {α : Type} : Table α → Nat → α → Table α
  | [], i, x => [(i, x)]
  | (k, v) :: rest, i, x =>
    if i < k then (i, x) :: (k, v) :: rest
    else if i = k then (i, x) :: rest
    else (k, v) :: Table.put rest i x

/-- Remove a key. -/
def Table.erase {α : Type} : Table α → Nat → Table α
  | [], _ => []
  | (k, v) :: rest, i => if k = i then rest else (k, v) :: Table.erase rest i

/-- One byte; an unlisted address reads as 0 (log 9). -/
def Memory.read (m : Memory) (a : Nat) : Byte := (Table.find m a).getD 0

/-- Write one byte, keeping the canonical form. -/
def Memory.write (m : Memory) (a : Nat) (b : Byte) : Memory := if b = 0#8 then Table.erase m a else Table.put m a b

/-- What the mover writes into a host's memory: byte `i` at `address + i`, the address taken modulo 2^64
(log 12), where `pick i` says that the byte has been written. -/
def landBytes (mem : Table Byte) (address : U64) (pick : Nat → Bool) : Nat → List Byte → Table Byte
  | _, [] => mem
  | i, b :: rest =>
    landBytes (if pick i then Table.put mem (address + BitVec.ofNat 64 i).toNat b else mem) address pick (i + 1) rest

/-- A vector with every element changed; the kernel evaluates it as a list. -/
def mapVec {α β : Type} {n : Nat} (f : α → β) (v : Vector α n) : Vector β n :=
  ⟨⟨v.toList.map f⟩, by simp⟩

/-! ### One record of each table -/

def State.port (s : State) (p : PortId) : Port := s.ports[p]
def State.setPort (s : State) (p : PortId) (q : Port) : State := { s with ports := s.ports.set p q }
def State.modPort (s : State) (p : PortId) (f : Port → Port) : State := s.setPort p (f (s.port p))

def State.node (s : State) (n : NodeId) : Node := s.nodes[n]
def State.setNode (s : State) (n : NodeId) (x : Node) : State := { s with nodes := s.nodes.set n x }
def State.modNode (s : State) (n : NodeId) (f : Node → Node) : State := s.setNode n (f (s.node n))

def State.profile (s : State) (i : ProfileId) : Profile := s.profiles[i]
def State.setProfile (s : State) (i : ProfileId) (x : Profile) : State := { s with profiles := s.profiles.set i x }
def State.modProfile (s : State) (i : ProfileId) (f : Profile → Profile) : State := s.setProfile i (f (s.profile i))
/-- The k and m of a profile; an entry's profile is DEFINED (R8), so the zeros are never met there. -/
def State.code (s : State) (i : ProfileId) : Code := (s.profile i).code.getD ⟨0, 0⟩

def State.bank (s : State) (b : BankId) : Bank := s.banks[b]
def State.setBank (s : State) (b : BankId) (x : Bank) : State := { s with banks := s.banks.set b x }
def State.modBank (s : State) (b : BankId) (f : Bank → Bank) : State := s.setBank b (f (s.bank b))

def State.entry? (s : State) (h : Handle) : Option Entry := Table.find s.entries h
def State.setEntry (s : State) (h : Handle) (e : Entry) : State := { s with entries := Table.put s.entries h e }
/-- Change the entry at a handle, if one stands there. -/
def State.modEntry (s : State) (h : Handle) (f : Entry → Entry) : State :=
  match s.entry? h with
  | some e => s.setEntry h (f e)
  | none => s
def State.modMember (s : State) (h : Handle) (pos : Position) (f : Member → Member) : State :=
  s.modEntry h fun e => { e with members := e.members.modify pos f }
def State.modTarget (s : State) (h : Handle) (pos : Position) (f : Target → Target) : State :=
  s.modMember h pos fun m => { m with target := m.target.map f }
def State.modPlan (s : State) (h : Handle) (f : Plan → Plan) : State :=
  s.modEntry h fun e => { e with plan := e.plan.map f }

def State.cell (s : State) (c : CellId) : Option Cell := s.cells[c]
def State.setCell (s : State) (c : CellId) (x : Option Cell) : State := { s with cells := s.cells.set c x }
def State.modCell (s : State) (c : CellId) (f : Cell → Cell) : State := s.setCell c ((s.cell c).map f)

def State.lane (s : State) (l : LaneId) : Option Pass := s.lanes[l]
def State.setLane (s : State) (l : LaneId) (x : Option Pass) : State := { s with lanes := s.lanes.set l x }

/-- Causes a planning attempt (R68). -/
def State.causeAttempt (s : State) : State := { s with attempt := true }

/-- R172: counter `i` rises by 1, modulo 2^48. -/
def State.count (s : State) (i : Fin 18) : State := { s with counters := s.counters.set i (s.counters[i] + 1) }

/-- The counter of a close (R172). -/
def EntryOutcome.counter : EntryOutcome → Fin 18
  | .done => 2
  | .failed .unrecoverable => 3
  | .failed .inconsistent => 4
  | .failed .cancelled => 5
  | .failed .orphaned => 6

/-! ### The response queue (R163, R165) -/

/-- Place a record at the response tail. -/
def Port.place (q : Port) (r : Record) : Port :=
  { q with responses := q.responses ++ [r], respTail := (q.respTail + 1) % responseRange }
def State.place (s : State) (p : PortId) (r : Record) : State := s.modPort p (fun q => q.place r)

/-- R165: reserved response slots (each a transfer that still owes its OFFER an answer) and waiting responses. -/
def State.responseShareUsed (s : State) (p : PortId) : Nat :=
  (s.port p).responses.countP Record.isResponse
    + s.transfers.countP (fun t => decide (t.port = p) && t.answers)

/-- R165: slots reserved at delivery start and waiting LANDED notices. -/
def State.landedShareUsed (s : State) (p : PortId) : Nat :=
  (s.port p).responses.countP Record.isLanded + s.deliveries.countP (fun d => decide (d.port = p))

/-- R167: a message interrupt for a port whose event line has risen from `s` to `t`. -/
def riseAt (s t : State) (p : PortId) : State :=
  if !(s.port p).line && (t.port p).line then t.modPort p fun q => { q with interrupts := q.interrupts + 1 } else t

/-- R167: a message interrupt for each port whose event line has risen from `s` to `t`. -/
def countRises (s t : State) : State := allPorts.foldl (riseAt s) t

/-- A step of the part's own, a pin or a host access: taken when it arises and the part is not held in reset;
otherwise nothing happens (log 1, log 11). -/
def event (s : State) (arises : Bool) (result : State) : Host.Outcome State Fault Refusal :=
  .next (if !s.inReset && arises then countRises s result else s)

/-! ### Cells (R123 to R125) -/

/-- The numbers below `n` in order, in a form the kernel counts through quickly. -/
def allBelow (n : Nat) [NeZero n] : List (Fin n) := (List.range n).map (Fin.ofNat n)

def cellIds : List CellId := allBelow 512

/-- The indices of the elements of a vector that satisfy a test, rising; one walk along the list, which keeps the
kernel's evaluation short. -/
def indicesWhere {α : Type} {n : Nat} [NeZero n] (v : Vector α n) (f : Fin n → α → Bool) : List (Fin n) :=
  (((allBelow n).zip v.toList).filter fun x => f x.1 x.2).map Prod.fst

/-- The first index of an element that satisfies a test. -/
def firstWhere {α : Type} {n : Nat} [NeZero n] (v : Vector α n) (f : α → Bool) : Option (Fin n) :=
  (((allBelow n).zip v.toList).find? fun x => f x.2).map Prod.fst

/-- Whether a cell is not FREE and satisfies a test. -/
def cellIs (f : Cell → Bool) : Option Cell → Bool
  | some x => f x
  | none => false

def State.cellsWhere (s : State) (f : Cell → Bool) : List CellId := indicesWhere s.cells fun _ x => cellIs f x
def State.cellCount (s : State) (f : Cell → Bool) : Nat := s.cells.toList.countP (cellIs f)

/-- The lowest-numbered FREE cell (log 8). -/
def State.freeCell (s : State) : Option CellId := firstWhere s.cells Option.isNone
def State.freeCount (s : State) : Nat := s.cells.toList.countP Option.isNone

/-- R124: the floor count of an entry, its cells with the FLOOR charge. -/
def State.floorCount (s : State) (h : Handle) : Nat :=
  s.cellCount (fun x => decide (x.owner = h) && decide (x.charge = .floor))

/-- R124: an unused floor cell of an entry, the lowest-numbered (log 8), and how many there are. -/
def Cell.unusedFloorOf (h : Handle) (x : Cell) : Bool := decide (x.owner = h) && decide (x.use = .floor)
def State.unusedFloorCell (s : State) (h : Handle) : Option CellId := firstWhere s.cells (cellIs (Cell.unusedFloorOf h))
def State.unusedFloorCount (s : State) (h : Handle) : Nat := s.cellCount (Cell.unusedFloorOf h)

/-- The port a cell is counted for in pool use, while it holds, awaits or carries a source chunk (R110). -/
def CellUse.via : CellUse → Option PortId
  | .fetch p | .transfer p | .source _ _ p => some p
  | .floor | .output _ _ => none

/-- R110: the pool use of a port. -/
def State.poolUse (s : State) (p : PortId) : Nat :=
  s.cellCount (fun x => decide (x.charge = .pool) && x.use.via == some p)

def CellUse.isSource : CellUse → Bool
  | .source .. => true
  | .floor | .fetch _ | .transfer _ | .output .. => false

/-- The cell that holds a chunk for an entry (R107: held). -/
def State.sourceCell (s : State) (h : Handle) (pos : Position) (off : Offset) : Option CellId :=
  firstWhere s.cells <| cellIs fun x => decide (x.owner = h) &&
    (match x.use with | .source p o _ => decide (p = pos ∧ o = off) | _ => false)

/-- R131: a cell in use by a pass. -/
def State.inUse (s : State) (c : CellId) : Bool :=
  s.lanes.toList.any fun l => match l with
    | some p => p.sources.contains c || (match p.check with | some k => k.1 == c | none => false)
    | none => false

/-- An unused cell of an entry's floor. -/
def floorCell (h : Handle) : Cell := ⟨h, .floor, .floor, []⟩

/-- The entries that hold a plan and have a floor shortfall (R72, R124). -/
def State.shortfalls (s : State) : List (Handle × Entry) :=
  s.entries.filter fun he => match he.2.plan with
    | some pl => decide (s.floorCount he.1 < pl.floorSize)
    | none => false

/-- R124 step 1: the cell goes back to its entry's floor. -/
def State.returnsToFloor (s : State) (x : Cell) : Bool :=
  decide (x.charge = .floor) &&
    (match s.entry? x.owner with
     | some e => match e.plan with
       | some pl => decide (s.floorCount x.owner ≤ pl.floorSize)
       | none => false
     | none => false)

/-- R124: a cell is released, to its floor, to the oldest shortfall, or to the free pool. -/
def State.release (s : State) (c : CellId) : State :=
  match s.cell c with
  | none => s
  | some x =>
    if s.returnsToFloor x then s.setCell c (some (floorCell x.owner))
    else match mostUrgent s.shortfalls with
      | some he => s.setCell c (some (floorCell he.1))
      | none => (s.setCell c none).causeAttempt

def State.releaseAll (s : State) (cs : List CellId) : State := cs.foldl State.release s

/-- The charge of a cell (POOL for a FREE one: R124, drawn from the free pool). -/
def State.chargeOf (s : State) (c : CellId) : Charge :=
  match s.cell c with
  | some x => x.charge
  | none => .pool

/-- R124: a cell drawn from a floor or from the free pool takes its new owner and use; an unused floor cell
keeps the FLOOR charge, a FREE cell takes POOL. -/
def State.draw (s : State) (c : CellId) (h : Handle) (use : CellUse) : State :=
  s.setCell c (some ⟨h, s.chargeOf c, use, []⟩)

/-- The bytes of the chunk a cell holds. -/
def State.bytesOf (s : State) (c : CellId) : List Byte :=
  match s.cell c with
  | some x => x.data
  | none => []

/-! ### Queries across tables -/

/-- A pass of the entry is in flight (R88). -/
def State.passInFlight (s : State) (h : Handle) : Bool :=
  s.lanes.toList.any fun l => match l with | some p => decide (p.handle = h) | none => false

/-- An output of the entry awaits delivery or is being delivered (R59, log 18). -/
def State.outputsRemain (s : State) (h : Handle) : Bool :=
  s.ports.toList.any (fun q => q.outputs.any (fun o => decide (o.handle = h)))
    || s.deliveries.any (fun d => decide (d.output.handle = h))

/-- A delivery of a target to a node is in progress (R44, R148, log 26). -/
def State.deliveryTo (s : State) (h : Handle) (pos : Position) (n : NodeId) : Bool :=
  s.deliveries.any fun d => decide (d.output.handle = h ∧ d.output.position = pos ∧ d.output.dest = n)

/-- R87: the target of a position needs an offset (log 19: a disowned delivery does not serve it). -/
def State.targetNeeds (s : State) (h : Handle) (pos : Position) (t : Target) (o : Offset) : Bool :=
  t.dest.isSome && !t.coverage.contains o
    && !(s.ports.toList.any fun q => q.outputs.any fun x => decide (x.handle = h ∧ x.position = pos ∧ x.offset = o))
    && !(s.deliveries.any fun d => d.owned && decide (d.output.handle = h ∧ d.output.position = pos ∧ d.output.offset = o))

/-- R87: the offset is needed by the entry. -/
def State.needed (s : State) (h : Handle) (e : Entry) (o : Offset) : Bool :=
  e.targets.any (fun pt => s.targetNeeds h pt.1 pt.2 o)

/-- R88: the pass order from a decode point (log 20). -/
def State.passOrder (s : State) (h : Handle) (e : Entry) (d : Offset) : List Offset :=
  let all := (List.range e.chunks).filter (s.needed h e)
  all.filter (fun o => decide (d ≤ o)) ++ all.filter (fun o => decide (o < d))

/-- A node's route port is UP. -/
def State.routeUp (s : State) (n : Node) : Bool :=
  match n.route with
  | some p => (s.port p).state == .up
  | none => false

/-- R23: the node has a user, a member on it or a target bound for it, in any entry present. -/
def State.nodeUsed (s : State) (n : NodeId) : Bool :=
  s.entries.any fun he => he.2.members.any fun m =>
    decide (m.node = n) || (match m.target with | some t => t.dest == some n | none => false)

/-- R112: the entry uses the member, by the entry as it stands. -/
def State.usesMember (s : State) (h : Handle) (pos : Position) : Bool :=
  match s.entry? h with
  | some e => match e.plan, e.members[pos]? with
    | some pl, some m => decide (m.state = .held) && (s.node m.node).state.current && pl.gathers pos
    | _, _ => false
  | none => false

/-- R145: the oldest current output of a port's queue. -/
def State.oldestCurrent (s : State) (p : PortId) : Option Output :=
  (s.port p).outputs.find? (fun o => (s.node o.dest).state.current)

/-- R145: a landing wait begins, goes on or ends by its three conditions. -/
def State.refreshWait (s : State) (p : PortId) : State :=
  let q := s.port p
  if q.state == .up && (s.oldestCurrent p).isSome && q.landing.isEmpty then
    (match q.wait with
     | some _ => s
     | none => s.setPort p { q with wait := some (s.timebase + BitVec.ofNat 48 s.landingTimeout) })
  else s.setPort p { q with wait := none }

def State.refreshWaits (s : State) : State := allPorts.foldl State.refreshWait s

/-! ### Fetches, banks, loads -/

/-- The answer cells of the LIVE fetches of a port that satisfy a test. -/
def Port.liveCells (q : Port) (f : Fetch → Bool) : List CellId :=
  q.fetches.toList.filterMap fun x => match x with
    | some y => if f y then y.cell else none
    | none => none

/-- A slot after the fetches that satisfy a test are gone. -/
def emptySlot (f : Fetch → Bool) : Option Fetch → Option Fetch
  | some y => if f y then none else some y
  | none => none

/-- A slot after an entry's fetch in it is WITHDRAWN: the record keeps all but its answer cell (R120). -/
def withdrawSlot (h : Handle) : Option Fetch → Option Fetch
  | some y => if y.handle = h then some { y with cell := none } else some y
  | none => none

/-- Empty the slots whose fetch satisfies a test (R121, R122); LIVE ones release their answer cells. -/
def State.emptyFetches (s : State) (p : PortId) (f : Fetch → Bool) : State :=
  (s.modPort p fun q => { q with fetches := mapVec (emptySlot f) q.fetches }).releaseAll ((s.port p).liveCells f)

/-- R120, at one port: every LIVE fetch of an entry becomes WITHDRAWN and releases its answer cell. -/
def State.withdrawAt (h : Handle) (s : State) (p : PortId) : State :=
  (s.modPort p fun q => { q with fetches := mapVec (withdrawSlot h) q.fetches }).releaseAll
    ((s.port p).liveCells (fun y => decide (y.handle = h)))

/-- R120. -/
def State.withdrawFetches (s : State) (h : Handle) : State := allPorts.foldl (State.withdrawAt h) s

/-- R93: a reference is released, which causes a planning attempt. -/
def State.releaseBank (s : State) (b : Option BankId) : State :=
  match b with
  | some i => (s.modBank i fun x => { x with refs := x.refs - 1 }).causeAttempt
  | none => s

/-- R35: a destination load decreases by 1, which causes a planning attempt. -/
def State.lowerLoad (s : State) (n : NodeId) : State :=
  (s.modNode n fun x => { x with load := x.load - 1 }).causeAttempt

/-- R141: the queued outputs of one port that satisfy a test are freed. -/
def State.freeOutputsAt (f : Output → Bool) (s : State) (p : PortId) : State :=
  (s.modPort p fun q => { q with outputs := q.outputs.filter (fun o => !f o) }).releaseAll
    (((s.port p).outputs.filter f).map (fun o => o.cell))

def State.freeOutputs (s : State) (f : Output → Bool) : State := allPorts.foldl (State.freeOutputsAt f) s

end Sys2Proof.Machine
end

