-- ==== Sys2Proof/Machine/Lifecycle.lean ====
section
/-! DEFINITION. The shared operations of an entry's life: lost members, margin, replan triggers, destination loss, closing, removal, settling, parks (03, 04, 08). -/

namespace Sys2Proof.Machine

/-! ### Removal (R63) -/

/-- R63: a CLOSED entry owes nothing and holds nothing. -/
def State.mayRemove (s : State) (h : Handle) (e : Entry) : Bool :=
  e.state == .closed && e.closedMarks == 0
    && e.members.all (fun m => match m.target with | some t => t.voids.isEmpty | none => true)
    && !s.passInFlight h
    && !s.transfers.any (fun t => decide (t.handle = h))
    && !s.deliveries.any (fun d => decide (d.output.handle = h))
    && s.cellCount (fun x => decide (x.owner = h)) == 0

/-- R63: the entry at a handle is removed if nothing keeps it. -/
def State.removeIfDone (s : State) (h : Handle) : State :=
  match s.entry? h with
  | some e =>
    if s.mayRemove h e then
      ({ s with entries := Table.erase s.entries h } : State).modProfile e.profile fun x => { x with users := x.users - 1 }
    else s
  | none => s

/-! ### Plans (R51, R61, R82) -/

/-- The cells an entry gives up with its plan: its unused floor cells and its SOURCE cells that no pass is
using (R125, R139). -/
def State.planCells (s : State) (h : Handle) : List CellId :=
  (s.cellsWhere (fun x => decide (x.owner = h) && (decide (x.use = .floor) || x.use.isSource))).filter (fun c => !s.inUse c)

/-- R51: the plan is dropped: slot freed, bank reference released, cells released under R124. -/
def State.dropPlan (s : State) (h : Handle) : State :=
  match s.entry? h with
  | some e => match e.plan with
    | some pl =>
      let s1 := ((s.setEntry h { e with plan := none }).releaseBank pl.bank).causeAttempt
      s1.releaseAll (s1.planCells h)
    | none => s
  | none => s

/-- R51: an entry enters QUEUED, with wait reason NO-SLOT and a planning attempt to follow. -/
def State.enterQueued (s : State) (h : Handle) : State :=
  (s.modEntry h fun e => { e with state := .queued, wait := some .noSlot, replan := false }).causeAttempt

/-! ### Closing (R61) -/

/-- R61 step 5 for one target: its VOID is recorded where it is owed, and its destination released. -/
def State.releaseTarget (h : Handle) (s : State) (pos : Position) : State :=
  match s.entry? h with
  | some e => match e.target? pos with
    | some t => match t.dest with
      | some n =>
        let owed := !t.coverage.isEmpty || s.deliveryTo h pos n
        let voids := match (s.node n).route with
          | some p => if owed then insertVoid (n, p) t.voids else t.voids
          | none => t.voids
        (s.modTarget h pos fun x => { x with dest := none, voids := voids }).lowerLoad n
      | none => s
    | none => s
  | none => s

/-- R61 step 5. -/
def State.releaseTargets (s : State) (h : Handle) : State :=
  match s.entry? h with
  | some e => (List.range e.members.length).foldl (State.releaseTarget h) s
  | none => s

/-- R61: an entry that is not CLOSED closes with an outcome, and is removed at once if nothing keeps it. -/
def State.closeEntry (s : State) (h : Handle) (o : EntryOutcome) : State :=
  match s.entry? h with
  | some e =>
    if e.state = .closed then s
    else
      let s1 := s.setEntry h { e with state := .closed, wait := none, replan := false, outcome := some o, closedMarks := e.submitters }
      let s2 := if s1.park = some h then { s1 with park := none } else s1
      let s3 := (s2.dropPlan h).withdrawFetches h
      let s4 := (s3.freeOutputs (fun x => decide (x.handle = h))).releaseTargets h
      (s4.count o.counter).removeIfDone h
  | none => s

/-! ### Lost members (R42, R52, R55, R119) -/

/-- R42, R43: a HELD member becomes LOST; a target record it carries takes stored no, with no destination and
empty coverage, its void pending kept. -/
def Member.lose (cause : LostCause) (m : Member) : Member :=
  if m.state = .held then
    { m with state := .lost, cause := some cause,
             target := m.target.map fun t => { t with stored := false, dest := none, coverage := [] } }
  else m

/-- R52: lost count and margin of an entry that is not CLOSED act: it closes, keeping the class it had (log 35), or
takes its class. -/
def State.reckon (s : State) (h : Handle) : State :=
  match s.entry? h with
  | some e =>
    if e.state = .closed then s
    else
      let m := (s.code e.profile).m
      if m < e.lostCount then s.closeEntry h (.failed .unrecoverable)
      else if e.lostCount = 0 then s.closeEntry h .done
      else s.setEntry h { e with urgency := urgencyOf m e.lostCount }
  | none => s

/-- R55, R82, R83: a replan trigger is passed on by the entry's state; under a pending park the Planner makes no
revision. -/
def State.trigger (s : State) (h : Handle) : State :=
  match s.entry? h with
  | some e =>
    match e.state with
    | .planning | .active =>
      if s.park = some h then s
      else (s.setEntry h { e with state := .planning, replan := true }).causeAttempt
    | .settling => s.enterQueued h
    | .queued | .draining | .closed => s
  | none => s

/-- The step in which a member has become LOST: R52, and then R55 where the entry lives on. -/
def State.afterLoss (s : State) (h : Handle) : State := (s.reckon h).trigger h

/-- R119: a strike; the third makes the member LOST with the cause given. -/
def State.strike (s : State) (h : Handle) (pos : Position) (cause : LostCause) : State :=
  match (s.entry? h).bind (fun e => e.members[pos]?) with
  | some m =>
    if m.strikes + 1 < 3 then s.modMember h pos fun x => { x with strikes := x.strikes + 1 }
    else (s.modMember h pos fun x => Member.lose cause { x with strikes := 3 }).afterLoss h
  | none => s

/-! ### Destination loss (R146) and draining (R59) -/

/-- R146 steps 1 to 5: the target of a position loses its destination; `owesVoid` is false for a port reset. -/
def State.dropDestination (s : State) (owesVoid : Bool) (h : Handle) (pos : Position) : State :=
  match s.entry? h with
  | some e => match e.target? pos with
    | some t => match t.dest with
      | some n =>
        let owed := owesVoid && (!t.coverage.isEmpty || s.deliveryTo h pos n)
        let voids := match (s.node n).route with
          | some p => if owed then insertVoid (n, p) t.voids else t.voids
          | none => t.voids
        let s1 := s.freeOutputs fun x => decide (x.handle = h ∧ x.position = pos)
        let s2 := { s1 with deliveries := s1.deliveries.map fun (d : Delivery) =>
          if d.output.handle = h ∧ d.output.position = pos then { d with owned := false } else d }
        (s2.modTarget h pos fun x => { x with dest := none, coverage := [], voids := voids }).lowerLoad n
      | none => s
    | none => s
  | none => s

/-- R59: a DRAINING entry closes CANCELLED once no pass and no output of it remains. -/
def State.closeIfDrained (s : State) (h : Handle) : State :=
  match s.entry? h with
  | some e =>
    if e.state = .draining ∧ s.passInFlight h = false ∧ s.outputsRemain h = false then s.closeEntry h (.failed .cancelled) else s
  | none => s

/-- R146: a destination loss outside a sweep, with its trigger and R59. -/
def State.loseDestination (s : State) (owesVoid : Bool) (h : Handle) (pos : Position) : State :=
  ((s.dropDestination owesVoid h pos).trigger h).closeIfDrained h

/-! ### Entering ACTIVE and SETTLING (R53), parks (R82) -/

/-- R53: an ACTIVE entry whose targets cover every offset, with no pass in flight, enters SETTLING;
a LIVE fetch of it stays (log 36). -/
def State.settleIfDone (s : State) (h : Handle) : State :=
  match s.entry? h with
  | some e =>
    if e.state = .active ∧ e.allCovered = true ∧ s.passInFlight h = false then
      (s.setEntry h { e with state := .settling }).dropPlan h
    else s
  | none => s

/-- An entry enters ACTIVE, and SETTLING in the same step where R53 says so. -/
def State.enterActive (s : State) (h : Handle) : State :=
  (s.modEntry h fun e => { e with state := .active }).settleIfDone h

/-- R84, R85, R86, R100: a PLANNING entry with no replan pending, a complete plan and a READY bank enters ACTIVE. -/
def State.activateIfReady (s : State) (h : Handle) : State :=
  match s.entry? h with
  | some e =>
    if e.state = .planning ∧ e.replan = false ∧ e.planComplete = true
        ∧ (match e.plan.bind Plan.bank with | some b => (s.bank b).state | none => .empty) = .ready
    then s.enterActive h else s
  | none => s

/-- R82: a park completes. -/
def State.completePark (s : State) (h : Handle) : State :=
  ({ s with park := none } : State).dropPlan h |>.enterQueued h

/-! ### Node state changes (R24, R27) -/

/-- R24: the NODE-STATE mark is set at every port. -/
def State.markNode (s : State) (n : NodeId) : State := s.modNode n fun x => { x with marks := PortSet.all }

/-- R27: an UP or SUSPECT node becomes DOWN. -/
def State.nodeGoesDown (s : State) (n : NodeId) : State :=
  (({ s with sweepFifo := s.sweepFifo ++ [n] } : State).modNode n fun x =>
    { x with state := .down, failures := 0, severe := 0, clean := 0, marks := PortSet.all }).causeAttempt

/-- R25, R26, R30: an UP or SUSPECT node whose down-report set meets the quorum becomes DOWN. -/
def State.downIfQuorum (s : State) (n : NodeId) : State :=
  if (s.node n).state.serves && decide (s.quorum ≤ PortSet.size (s.node n).reports) then s.nodeGoesDown n else s

/-- R25: the port joins the down-report set of an UP or SUSPECT node, which may meet the quorum. -/
def State.reportNode (p : PortId) (s : State) (n : NodeId) : State :=
  if (s.node n).state.serves then
    (s.modNode n fun x => { x with reports := PortSet.add x.reports p }).downIfQuorum n
  else s

def allNodes : List NodeId := allBelow 256

end Sys2Proof.Machine
end

