-- ==== Sys2Proof/Machine/Operands.lean ====
section
/-! DEFINITION. The request record at a port's request head, its fields by the layouts of R171, and the taking of a request (R163). -/

namespace Sys2Proof.Machine

open Sys2Proof.Config

/-- A request record of 128 bytes as read when it is taken. -/
structure Request where
  bytes : List Byte
  deriving DecidableEq, Repr

/-- A little-endian number in a list of bytes (R171). -/
def littleEndian : List Byte → Nat
  | [] => 0
  | b :: rest => b.toNat + 256 * littleEndian rest

/-- The field of `n` bytes at byte `off`. -/
def Request.field (r : Request) (off n : Nat) : Nat := littleEndian ((r.bytes.drop off).take n)

/-- Byte 0: the kind; bytes 2–3: the request tag. -/
def Request.kind (r : Request) : Byte := BitVec.ofNat 8 (r.field 0 1)
def Request.tag (r : Request) : U16 := BitVec.ofNat 16 (r.field 2 2)

/-- SUBMIT, WITHDRAW, QUERY, OFFER, DECLINE, STORED, REFUSE-FRAGMENT: 8–15 stripe id. -/
def Request.stripe (r : Request) : U64 := BitVec.ofNat 64 (r.field 8 8)
/-- WITHDRAW, QUERY, STORED, REFUSE-FRAGMENT: 16–17 handle. -/
def Request.handle (r : Request) : Nat := r.field 16 2
/-- STORED, REFUSE-FRAGMENT: 18 position. -/
def Request.position (r : Request) : Nat := r.field 18 1
/-- WITHDRAW: 18 mode. -/
def Request.withdrawMode (r : Request) : Nat := r.field 18 1
/-- SUBMIT: 16 profile; 17 member count; 18 cross-check; 20–23 L; 24–26 known-lost positions. -/
def Request.submitProfile (r : Request) : Nat := r.field 16 1
def Request.memberCount (r : Request) : Nat := r.field 17 1
def Request.crossCheck (r : Request) : Nat := r.field 18 1
def Request.length (r : Request) : Nat := r.field 20 4
def Request.knownLost (r : Request) (pos : Position) : Bool := (r.field 24 3).testBit pos
/-- SUBMIT: 32–79, the node id of a position, 2 bytes each. -/
def Request.memberNode (r : Request) (pos : Position) : Nat := r.field (32 + 2 * pos) 2
/-- OFFER, DECLINE: 16 fetch tag. OFFER: 20–23 CRC-32C. DECLINE: 17 cause. -/
def Request.fetchTag (r : Request) : Nat := r.field 16 1
def Request.checksum (r : Request) : U32 := BitVec.ofNat 32 (r.field 20 4)
def Request.declineCause (r : Request) : Nat := r.field 17 1
/-- OFFER, POST-LANDING: 24–31 buffer address. -/
def Request.address (r : Request) : U64 := BitVec.ofNat 64 (r.field 24 8)
/-- DEFINE-NODE and the one-node requests: 16–17 node id; 18 rack id (REPORT-RACK-DOWN too); 19 route port. -/
def Request.nodeId (r : Request) : Nat := r.field 16 2
def Request.rackId (r : Request) : Nat := r.field 18 1
def Request.routePort (r : Request) : Nat := r.field 19 1
/-- SET-PROFILE: 16 index; 17 k; 18 m. -/
def Request.profileIndex (r : Request) : Nat := r.field 16 1
def Request.profileK (r : Request) : Nat := r.field 17 1
def Request.profileM (r : Request) : Nat := r.field 18 1
/-- SET-DEVICE: 16 quorum; 17 window; 20–21 fetch timeout; 22–23 landing timeout; 24–25 epoch length. -/
def Request.quorum (r : Request) : Nat := r.field 16 1
def Request.window (r : Request) : Nat := r.field 17 1
def Request.fetchTimeout (r : Request) : Nat := r.field 20 2
def Request.landingTimeout (r : Request) : Nat := r.field 22 2
def Request.epochLength (r : Request) : Nat := r.field 24 2
/-- SET-LIMITS: 16 credit limit; 20–21 cell quota. SET-PACING: 20–21 budget. SET-PRESSURE-MODE: 16 mode. -/
def Request.creditLimit (r : Request) : Nat := r.field 16 1
def Request.cellQuota (r : Request) : Nat := r.field 20 2
def Request.budget (r : Request) : Nat := r.field 20 2
def Request.pressureMode (r : Request) : Nat := r.field 16 1

/-- A number as an index of a table of `n` records, if it is in range. -/
def asFin (n x : Nat) : Option (Fin n) := if h : x < n then some ⟨x, h⟩ else none

/-- R163: the record at the request head, read from its slot. -/
def Port.request (q : Port) : Request :=
  ⟨(List.range requestBytes).map fun i => Memory.read q.slots (requestBase + requestBytes * (q.reqHead % requestDepth) + i)⟩

/-- R163: the Port Unit takes the record at the request head when the port is UP, a record is posted and the
response share has a free slot; and the part is not held in reset. -/
def State.mayTake (s : State) (p : PortId) : Bool :=
  !s.inReset && (s.port p).state == .up && decide (0 < (s.port p).posted)
    && decide (s.responseShareUsed p < responseShare)

/-- A record of a kind that `f` admits stands at the head and may be taken. -/
def State.takes (s : State) (p : PortId) (f : Byte → Bool) : Bool := s.mayTake p && f (s.port p).request.kind

/-- R163: taking a record advances the request head by 1. -/
def State.advance (s : State) (p : PortId) : State := s.modPort p fun q => { q with reqHead := (q.reqHead + 1) % requestRange }

/-- A request row: the record is taken and `body` decides it, if such a record can be taken; otherwise nothing
happens (log 1). -/
def withRequest (p : PortId) (f : Byte → Bool) (s : State) (body : Request → State → State) :
    Host.Outcome State Fault Refusal :=
  .next (if s.takes p f then countRises s (body (s.port p).request (s.advance p)) else s)

/-- What a block decides of a request: the state it leaves, and the response. -/
structure Answer where
  state : State
  status : Status
  body : Body

/-- A refusal or another answer that changes nothing. -/
def Answer.only (s : State) (st : Status) : Answer := ⟨s, st, .none⟩

/-- R163: the response is placed at the response tail with the request's kind and tag. -/
def State.respond (s : State) (p : PortId) (kind : Byte) (tag : U16) (st : Status) (b : Body) : State :=
  s.place p (.response kind tag st b)

/-- A request answered in the step that takes it. -/
def withAnswer (p : PortId) (kind : Byte) (s : State) (decision : Request → State → Answer) :
    Host.Outcome State Fault Refusal :=
  withRequest p (fun k => k == kind) s fun r t =>
    let a := decision r t
    a.state.respond p kind r.tag a.status a.body

/-- R45: the staleness check of WITHDRAW, QUERY, STORED and REFUSE-FRAGMENT. -/
def State.named (s : State) (r : Request) : Except Status Entry :=
  if tableSize ≤ r.handle then .error .invalid
  else match s.entry? r.handle with
    | none => .error .unknown
    | some e => if e.stripe = r.stripe then .ok e else .error .stale

end Sys2Proof.Machine
end

