-- ==== Sys2Proof/Machine/Nodes.lean ====
section
/-! DEFINITION. The requests of the Node Table and the node sweep (02). -/

namespace Sys2Proof.Machine

open Sys2Proof.Config

/-- R22, R23: DEFINE-NODE. -/
def defineNodeDecide (r : Request) (s : State) : Answer :=
  match asFin 256 r.nodeId, asFin 64 r.rackId, asFin 4 r.routePort with
  | some n, some rack, some route =>
    let x := s.node n
    if x.state = .undefined then
      Answer.only ((s.setNode n { x with state := .up, rack := some rack, route := some route, marks := PortSet.all }).causeAttempt) .ok
    else if x.rack = some rack ∧ x.route = some route then Answer.only s .ok
    else if s.nodeUsed n then Answer.only s .inUse
    else Answer.only (s.setNode n { x with rack := some rack, route := some route, marks := PortSet.all }) .ok
  | _, _, _ => Answer.only s .invalid

/-- DEFINE-NODE (R22, R23). -/
def execDefineNode (p : PortId) (s : State) : Host.Outcome State Fault Refusal := withAnswer p 9 s defineNodeDecide

/-- R25, R28, R29, R34: a request naming one node: INVALID above 255, UNKNOWN where UNDEFINED, else an action and OK. -/
def oneNode (act : NodeId → State → State) (r : Request) (s : State) : Answer :=
  match asFin 256 r.nodeId with
  | none => Answer.only s .invalid
  | some n => if (s.node n).state = .undefined then Answer.only s .unknown else Answer.only (act n s) .ok

/-- REPORT-DOWN (R25, R27). -/
def execReportDown (p : PortId) (s : State) : Host.Outcome State Fault Refusal :=
  withAnswer p 10 s (oneNode fun n t => (t.reportNode p n).refreshWaits)

/-- R26: the nodes of a rack, in ascending node id. -/
def State.rackNodes (s : State) (rack : RackId) : List NodeId :=
  indicesWhere s.nodes fun _ x => x.state != .undefined && x.rack == some rack

/-- R26. -/
def reportRackDecide (p : PortId) (r : Request) (s : State) : Answer :=
  match asFin 64 r.rackId with
  | none => Answer.only s .invalid
  | some rack => Answer.only ((s.rackNodes rack).foldl (State.reportNode p) s).refreshWaits .ok

/-- REPORT-RACK-DOWN (R26). -/
def execReportRackDown (p : PortId) (s : State) : Host.Outcome State Fault Refusal :=
  withAnswer p 11 s (reportRackDecide p)

/-- R28: the port leaves the down-report set of an UP or SUSPECT node. -/
def State.retract (p : PortId) (s : State) (n : NodeId) : State :=
  if (s.node n).state.serves then s.modNode n fun x => { x with reports := PortSet.remove x.reports p } else s

/-- RETRACT-DOWN (R28). -/
def execRetractDown (p : PortId) (s : State) : Host.Outcome State Fault Refusal :=
  withAnswer p 12 s (oneNode fun n t => t.retract p n)

/-- R29: a DOWN node returns to UP, and its id leaves the sweep FIFO. -/
def State.revive (s : State) (n : NodeId) : State :=
  if (s.node n).state = .down then
    (({ s with sweepFifo := s.sweepFifo.filter (fun x => x != n) } : State).modNode n fun x =>
      { x with state := .up, reports := 0, marks := PortSet.all }).causeAttempt
  else s

/-- REVIVE-NODE (R29). -/
def execReviveNode (p : PortId) (s : State) : Host.Outcome State Fault Refusal :=
  withAnswer p 13 s (oneNode fun n t => (t.revive n).refreshWaits)

/-- R34: a SUSPECT node returns to UP; its window failures are kept. -/
def State.clearSuspect (s : State) (n : NodeId) : State :=
  if (s.node n).state = .suspect then
    (s.modNode n fun x => { x with state := .up, severe := 0, clean := 0, marks := PortSet.all }).causeAttempt
  else s

/-- CLEAR-SUSPECT (R34). -/
def execClearSuspect (p : PortId) (s : State) : Host.Outcome State Fault Refusal :=
  withAnswer p 14 s (oneNode fun n t => t.clearSuspect n)

/-! ### Health windows (R32 to R34) -/

/-- R32: a BADSUM is charged to a node that is UP or SUSPECT. -/
def State.chargeFailure (s : State) (n : NodeId) : State :=
  if (s.node n).state.serves then s.modNode n fun x => { x with failures := bump 255 x.failures } else s

/-- R33: the streaks after a window has been classified. -/
def Node.streaks (x : Node) : Node :=
  if x.failures = 0 then { x with severe := 0, clean := bump 16 x.clean }
  else if x.failures ≤ 3 then { x with severe := 0, clean := 0 }
  else { x with severe := bump 2 x.severe, clean := 0 }

/-- R34: the state after the streaks have been updated. -/
def Node.judge (x : Node) : Node :=
  if x.state = .up ∧ x.severe = 2 then { x with state := .suspect, severe := 0, clean := 0, marks := PortSet.all }
  else if x.state = .suspect ∧ x.clean = 16 then { x with state := .up, severe := 0, clean := 0, marks := PortSet.all }
  else x

/-- R33: the ending window of one node is evaluated. -/
def Node.endWindow (x : Node) : Node :=
  if x.state.serves then { x.streaks.judge with failures := 0 } else x

/-- R33: all nodes at one boundary; a change of state causes a planning attempt (R34). -/
def State.endWindows (s : State) : State :=
  let s1 := { s with nodes := mapVec Node.endWindow s.nodes }
  if s.nodes.toList.any (fun x => decide (x.endWindow.state ≠ x.state)) then s1.causeAttempt else s1

/-! ### Sweeps (R36 to R38) -/

/-- R36: with no sweep in progress the node at the head of the FIFO, if there is one, leaves it and its sweep begins. -/
def State.startSweep (s : State) : State :=
  match s.sweep, s.sweepFifo with
  | none, n :: rest => { s with sweepFifo := rest, sweep := some ⟨n, 0⟩ }
  | _, _ => s

/-- SWEEP_BEGIN (R36): the start of a sweep that no other sweep's end begins (log 6). -/
def execSweepBegin (s : State) : Host.Outcome State Fault Refusal := event s true s.startSweep

/-- A live entry stands at the handle. -/
def State.liveAt (s : State) (h : Handle) : Bool :=
  match s.entry? h with
  | some e => e.state != .closed
  | none => false

/-- A live entry stands at a handle from `a` up to but not including `b`. -/
def State.liveBetween (s : State) (a b : Handle) : Bool :=
  s.entries.any fun he => decide (a ≤ he.1 ∧ he.1 < b) && he.2.state != .closed

/-- R37 step 1: HELD members on the node become LOST. -/
def sweepMembers (x : NodeId) (e : Entry) : Entry :=
  { e with members := e.members.map fun m => if m.node = x then m.lose .nodeDown else m }

/-- R37: some HELD member lies on the node. -/
def sweepHits (x : NodeId) (e : Entry) : Bool := e.members.any fun m => decide (m.node = x ∧ m.state = .held)

/-- The positions of the targets bound for a node. -/
def Entry.boundFor (e : Entry) (x : NodeId) : List Position :=
  e.targets.filterMap fun pt => if pt.2.dest = some x then some pt.1 else none

/-- R37: the visit to the live entry at a handle: members, destinations, margin, replan, and R59 (log 25). -/
def State.sweepEntry (s : State) (x : NodeId) (h : Handle) (e : Entry) : State :=
  let s1 := s.setEntry h (sweepMembers x e)
  let s2 := (e.boundFor x).foldl (fun t pos => t.dropDestination true h pos) s1
  let s3 := if sweepHits x e then s2.reckon h else s2
  if sweepHits x e || !(e.boundFor x).isEmpty then (s3.trigger h).closeIfDrained h else s3

/-- R36, R37: the walk reaches a handle and treats the live entry there, if one stands at it. -/
def State.sweepAt (s : State) (w : Sweep) (h : Handle) : State :=
  let s1 := { s with sweep := some { w with next := h + 1 } }
  match s.entry? h with
  | some e => if e.state = .closed then s1 else (s1.sweepEntry w.node h e).refreshWaits
  | none => s1

/-- SWEEP_VISIT (R37): handles between the walk and `h` hold no live entry and are passed over (log 5). -/
def execSweepVisit (h : Handle) (s : State) : Host.Outcome State Fault Refusal :=
  match s.sweep with
  | some w => event s (decide (w.next ≤ h ∧ h < tableSize) && !s.liveBetween w.next h) (s.sweepAt w h)
  | none => event s false s

/-- SWEEP_END (R36): no live entry is left ahead; a planning attempt follows, and the next sweep begins if the FIFO
holds one. -/
def execSweepEnd (s : State) : Host.Outcome State Fault Refusal :=
  match s.sweep with
  | some w => event s (!s.liveBetween w.next tableSize) (({ s with sweep := none } : State).causeAttempt).startSweep
  | none => event s false s

end Sys2Proof.Machine
end

