-- ==== Sys2Proof/Machine/Gather.lean ====
section
/-! DEFINITION. The Gather Unit: fetch issue, offers, declines, expiries and the ends of offer transfers (06). -/

namespace Sys2Proof.Machine

open Sys2Proof.Config

/-! ### The fetch table -/

def Port.fetch (q : Port) (t : FetchTag) : Option Fetch := q.fetches[t]
def Port.setFetch (q : Port) (t : FetchTag) (x : Option Fetch) : Port := { q with fetches := q.fetches.set t x }

/-- R106: the outstanding fetches, LIVE and WITHDRAWN together. -/
def Port.outstanding (q : Port) : Nat := q.fetches.toList.countP Option.isSome

/-- R106, R111: the lowest-numbered empty slot. -/
def Port.emptyTag (q : Port) : Option FetchTag := (allBelow 32).find? fun t => (q.fetch t).isNone

/-- A slot empties, and a LIVE fetch releases its answer cell (R112, R117, R118). -/
def State.emptySlotAt (s : State) (p : PortId) (t : FetchTag) (f : Fetch) : State :=
  (s.modPort p fun q => q.setFetch t none).releaseAll f.cell.toList

/-- A LIVE fetch whose entry uses its member (R112 check 4). -/
def State.usesFetch (s : State) (f : Fetch) : Bool := f.cell.isSome && s.usesMember f.handle f.position

/-! ### Offers and declines (R112, R113, R117) -/

/-- What the checks of R112 come to. -/
inductive OfferCheck where
  | refused (st : Status)
  | gone (t : FetchTag) (f : Fetch)
  | passes (t : FetchTag) (f : Fetch) (c : CellId)

/-- R112: the checks on the slot that an OFFER or DECLINE names, in their order. -/
def State.checkOffer (s : State) (p : PortId) (r : Request) : OfferCheck :=
  match asFin 32 r.fetchTag with
  | none => .refused .invalid
  | some t => match (s.port p).fetch t with
    | none => .refused .late
    | some f =>
      if f.stripe ≠ r.stripe then .refused .mismatch
      else if (s.node f.node).route ≠ some p then .refused .misrouted
      else match f.cell with
        | none => .gone t f
        | some c => if s.usesMember f.handle f.position then .passes t f c else .gone t f

/-- R113: the offer is taken; its answer cell passes to a mover transfer, which keeps the charge. -/
def State.takeOffer (s : State) (p : PortId) (r : Request) (t : FetchTag) (f : Fetch) (c : CellId) : State :=
  let s1 := (s.modPort p fun q => q.setFetch t none).modCell c fun x => { x with use := .transfer p }
  let x : Transfer :=
    { handle := f.handle
      stripe := f.stripe
      position := f.position
      offset := f.offset
      length := f.length
      cell := c
      port := p
      address := r.address
      tag := r.tag
      checksum := r.checksum
      answers := true }
  { s1 with transfers := s1.transfers ++ [x] }

/-- R112, R113: an OFFER refused is answered at once; one taken keeps its response slot reserved. -/
def offerDecide (p : PortId) (r : Request) (s : State) : State :=
  match s.checkOffer p r with
  | .refused st => s.respond p 4 r.tag st .none
  | .gone t f => (s.emptySlotAt p t f).respond p 4 r.tag .gone .none
  | .passes t f c => s.takeOffer p r t f c

/-- OFFER (R112, R113). -/
def execOffer (p : PortId) (s : State) : Host.Outcome State Fault Refusal := withRequest p (fun k => k == 4) s (offerDecide p)

/-- R117: the member that a DECLINE names becomes LOST with cause CORRUPT. -/
def State.loseMember (s : State) (h : Handle) (pos : Position) (cause : LostCause) : State :=
  (s.modMember h pos (Member.lose cause)).afterLoss h

/-- R117, R112: a DECLINE is checked as an OFFER is, and loses the member. -/
def declineDecide (p : PortId) (r : Request) (s : State) : Answer :=
  if r.declineCause ≠ 1 then Answer.only s .invalid
  else match s.checkOffer p r with
    | .refused st => Answer.only s st
    | .gone t f => Answer.only (s.emptySlotAt p t f) .gone
    | .passes t f _ => Answer.only ((s.emptySlotAt p t f).loseMember f.handle f.position .corrupt).refreshWaits .ok

/-- DECLINE (R117). -/
def execDecline (p : PortId) (s : State) : Host.Outcome State Fault Refusal := withAnswer p 5 s (declineDecide p)

/-! ### Expiry (R118) -/

/-- R118: the slot empties, and a LIVE fetch whose entry uses the member charges a strike and is counted. -/
def State.expire (s : State) (p : PortId) (t : FetchTag) (f : Fetch) : State :=
  if s.usesFetch f then (((s.emptySlotAt p t f).strike f.handle f.position .unresponsive).count 10).refreshWaits
  else s.emptySlotAt p t f

/-- FETCH_EXPIRY (R118): the slot named is occupied and the timebase has reached its expiry time. -/
def execFetchExpiry (p : PortId) (tag : FetchTag) (s : State) : Host.Outcome State Fault Refusal :=
  match (s.port p).fetch tag with
  | some f => event s (deadlineReached s.timebase f.expiry) (s.expire p tag f)
  | none => event s false s

/-! ### Fetch issue (R107 to R111) -/

/-- A wanted chunk, with what its fetch needs of its entry and plan. -/
structure Wanted where
  handle : Handle
  stripe : U64
  position : Position
  node : NodeId
  offset : Offset
  length : Nat
  atDecodePoint : Bool

/-- R107: a LIVE fetch for the chunk occupies a slot. -/
def State.solicited (s : State) (h : Handle) (pos : Position) (o : Offset) : Bool :=
  s.ports.toList.any fun q => q.fetches.toList.any fun x => match x with
    | some f => f.cell.isSome && decide (f.handle = h ∧ f.position = pos ∧ f.offset = o)
    | none => false

/-- R107: the chunk is arriving. -/
def State.arriving (s : State) (h : Handle) (pos : Position) (o : Offset) : Bool :=
  s.transfers.any fun t => decide (t.handle = h ∧ t.position = pos ∧ t.offset = o)

/-- R107: the chunk is missing. -/
def State.missing (s : State) (h : Handle) (pos : Position) (o : Offset) : Bool :=
  (s.sourceCell h pos o).isNone && !s.arriving h pos o && !s.solicited h pos o

/-- The wanted chunk of a position and an offset, if it is missing. -/
def State.wantedChunk (s : State) (h : Handle) (e : Entry) (pl : Plan) (o : Offset) (pos : Position) : Option Wanted :=
  match e.members[pos]? with
  | some m =>
    if s.missing h pos o then some ⟨h, e.stripe, pos, m.node, o, chunkLength e.length o, decide (o = pl.decodePoint)⟩ else none
  | none => none

/-- R107, R109: the wanted chunks of an entry, by offset in pass order and then ascending position. -/
def State.wantedOf (s : State) (h : Handle) : List Wanted :=
  match s.entry? h with
  | some e => match e.plan with
    | some pl =>
      if s.park = some h then []
      else ((s.passOrder h e pl.decodePoint).take s.window).flatMap fun o =>
        (pl.gatherSet e.members.length).filterMap (s.wantedChunk h e pl o)
    | none => []
  | none => []

/-- R109: the wanted chunks of the ACTIVE entries, in the order in which they are issued. -/
def State.wanted (s : State) : List Wanted :=
  (queueOrder (s.entries.filter fun he => decide (he.2.state = .active))).flatMap fun he => s.wantedOf he.1

/-- R110: the cell a fetch through port `p` would take as its answer cell (log 8). -/
def State.answerCell (s : State) (p : PortId) (w : Wanted) : Option CellId :=
  match (if w.atDecodePoint then s.unusedFloorCell w.handle else none) with
  | some c => some c
  | none => if s.poolUse p < (s.port p).quota then s.freeCell else none

/-- R108 condition 1 for a chunk, and that port `p` is its route port. -/
def State.memberServes (s : State) (p : PortId) (w : Wanted) : Bool :=
  (match (s.entry? w.handle).bind fun e => e.members[w.position]? with
   | some m => decide (m.state = .held)
   | none => false)
    && (s.node w.node).state.serves && (s.node w.node).route == some p

/-- R108 conditions 2, 3, 4 and 6, those of the route port alone. -/
def State.mayFetch (s : State) (p : PortId) : Bool :=
  let q := s.port p
  q.state == .up && decide (q.outstanding < q.credit) && decide (q.responses.countP Record.isFetch < fetchShare) && q.allowsTransfer

/-- R109: the first wanted chunk behind port `p`, in the order of R109, whose fetch can be issued, with its answer
cell (log 24). -/
def State.nextFetch (s : State) (p : PortId) : Option (Wanted × CellId) :=
  if s.mayFetch p then
    s.wanted.findSome? fun w =>
      if s.memberServes p w then (s.answerCell p w).map fun c => (w, c) else none
  else none

/-- R157: one transfer is charged to a port's budget for the epoch. -/
def Port.charge (q : Port) : Port := { q with budget := { q.budget with used := bump 65535 q.budget.used } }

/-- R106: the fetch record of a chunk, issued now. -/
def State.newFetch (s : State) (w : Wanted) (c : CellId) : Fetch :=
  { handle := w.handle
    stripe := w.stripe
    position := w.position
    node := w.node
    offset := w.offset
    length := w.length
    expiry := s.timebase + BitVec.ofNat 48 s.fetchTimeout
    cell := some c }

/-- R111: the issue. -/
def State.issue (s : State) (p : PortId) (t : FetchTag) (w : Wanted) (c : CellId) : State :=
  ((s.draw c w.handle (.fetch p)).modPort p fun q => (q.setFetch t (some (s.newFetch w c))).charge).place p
    (.fetch w.stripe w.handle t w.position w.node w.offset w.length)

/-- FETCH_ISSUE (R108 to R111). -/
def execFetchIssue (p : PortId) (s : State) : Host.Outcome State Fault Refusal :=
  match s.nextFetch p, (s.port p).emptyTag with
  | some (w, c), some t => event s true (s.issue p t w c)
  | _, _ => event s false s

/-! ### The end of an offer's transfer (R114 to R116, R122) -/

/-- R114: the entry uses the chunk of a transfer, by the entry as it stands at the transfer's end, a park between or
not (log 37). -/
def State.usesChunk (s : State) (x : Transfer) : Bool :=
  (match s.entry? x.handle with
   | some e => e.state == .active || e.state == .planning
   | none => false)
    && s.park != some x.handle && s.usesMember x.handle x.position

/-- R115: the chunk is held. -/
def State.verify (s : State) (x : Transfer) (data : List Byte) : State :=
  ((s.modCell x.cell fun y => { y with use := .source x.position x.offset x.port, data := data }).count 7).respond
    x.port 4 x.tag .ok .none

/-- The node of a member. -/
def State.memberNode (s : State) (h : Handle) (pos : Position) : Option NodeId :=
  ((s.entry? h).bind fun e => e.members[pos]?).map fun m => m.node

/-- R116: the checksums differ. -/
def State.badsum (s : State) (x : Transfer) : State :=
  let s1 := (s.respond x.port 4 x.tag .badsum .none).release x.cell
  let s2 := match s1.memberNode x.handle x.position with
    | some n => s1.chargeFailure n
    | none => s1
  ((s2.strike x.handle x.position .corrupt).count 9).refreshWaits

/-- R114 to R116, and R122 for a transfer whose request a port reset dropped. -/
def State.endTransfer (s : State) (x : Transfer) (data : List Byte) : State :=
  let s1 := { s with transfers := s.transfers.filter fun (t : Transfer) => decide (t.cell ≠ x.cell) }
  if x.answers = false then (s1.release x.cell).removeIfDone x.handle
  else if s1.usesChunk x = false then ((s1.release x.cell).respond x.port 4 x.tag .gone .none).removeIfDone x.handle
  else if crc32c data = x.checksum then s1.verify x data
  else s1.badsum x

/-- OFFER_TRANSFER_END (R114 to R116): the transfer of the cell named ends, the mover having read the chunk's
length of bytes (log 29). -/
def execOfferTransferEnd (cell : CellId) (data : List Byte) (s : State) : Host.Outcome State Fault Refusal :=
  match s.transfers.find? fun x => decide (x.cell = cell) with
  | some x => event s (decide (data.length = x.length)) (s.endTransfer x data)
  | none => event s false s

end Sys2Proof.Machine
end

