-- ==== Sys2Proof/Machine/Delivery.lean ====
section
/-! DEFINITION. The Delivery Unit: landing buffers, deliveries, the landing timeout, STORED and REFUSE-FRAGMENT (08). -/

namespace Sys2Proof.Machine

open Sys2Proof.Config

/-! ### Requests -/

/-- R140. -/
def postLandingDecide (p : PortId) (r : Request) (s : State) : Answer :=
  if landingDepth ≤ (s.port p).landing.length then Answer.only s .full
  else Answer.only (s.modPort p fun q => { q with landing := q.landing ++ [r.address] }).refreshWaits .ok

/-- POST-LANDING (R140). -/
def execPostLanding (p : PortId) (s : State) : Host.Outcome State Fault Refusal := withAnswer p 6 s (postLandingDecide p)

/-- R147, R149: conditions 1 to 4, which STORED and REFUSE-FRAGMENT share; the target and its destination. -/
def State.boundTarget (s : State) (p : PortId) (r : Request) (e : Entry) : Except Status (Target × NodeId) :=
  if e.members.length ≤ r.position then .error .invalid
  else if e.state = .closed then .error .gone
  else match e.members[r.position]? with
    | some m => match m.state, m.target with
      | .rebuilding, some t => match t.dest with
        | some n => if (s.node n).route = some p then .ok (t, n) else .error .misrouted
        | none => .error .gone
      | _, _ => .error .gone
    | none => .error .invalid

/-- R149: the member as an accepted STORED leaves it. -/
def Member.restored (n : NodeId) (m : Member) : Member :=
  { m with node := n, state := .held, cause := none, strikes := 0,
           target := m.target.map fun t => { t with stored := true, dest := none } }

/-- R149, R54: an accepted STORED. -/
def State.store (s : State) (h : Handle) (pos : Position) (n : NodeId) : State :=
  ((s.modMember h pos (Member.restored n)).lowerLoad n).reckon h

/-- R149. -/
def storedDecide (p : PortId) (r : Request) (s : State) : Answer :=
  match s.named r with
  | .error st => Answer.only s st
  | .ok e => match s.boundTarget p r e with
    | .error st => Answer.only s st
    | .ok (t, n) =>
      if t.coversAll e.chunks then Answer.only (s.store r.handle r.position n).refreshWaits .ok
      else Answer.only s .early

/-- STORED (R149, R54). -/
def execStored (p : PortId) (s : State) : Host.Outcome State Fault Refusal := withAnswer p 7 s (storedDecide p)

/-- R147. -/
def refuseDecide (p : PortId) (r : Request) (s : State) : Answer :=
  match s.named r with
  | .error st => Answer.only s st
  | .ok e => match s.boundTarget p r e with
    | .error st => Answer.only s st
    | .ok _ => Answer.only (s.loseDestination true r.handle r.position).refreshWaits .ok

/-- REFUSE-FRAGMENT (R147, R146). -/
def execRefuseFragment (p : PortId) (s : State) : Host.Outcome State Fault Refusal := withAnswer p 8 s (refuseDecide p)

/-! ### Deliveries (R142 to R144) -/

/-- R142 conditions 1, 4 and 5; conditions 2 and 3 are an output and a buffer to take. -/
def State.mayDeliver (s : State) (p : PortId) : Bool :=
  (s.port p).state == .up && decide (s.landedShareUsed p < landedShare) && (s.port p).allowsTransfer

/-- R142: the delivery of an output into a buffer begins. -/
def State.beginDelivery (s : State) (p : PortId) (o : Output) (buffer : U64) (rest : List U64) : State :=
  let s1 := s.modPort p fun q => { q with outputs := q.outputs.filter (fun x => x.cell != o.cell), landing := rest }.charge
  ({ s1 with deliveries := s1.deliveries ++ [⟨p, o, buffer, true⟩] } : State).refreshWaits

/-- DELIVERY_BEGIN (R142). -/
def execDeliveryBegin (p : PortId) (s : State) : Host.Outcome State Fault Refusal :=
  match s.oldestCurrent p, (s.port p).landing with
  | some o, buffer :: rest => event s (s.mayDeliver p) (s.beginDelivery p o buffer rest)
  | _, _ => event s false s

/-- R143: the offset joins the target's coverage, and the counter counts a chunk delivered. -/
def State.cover (s : State) (o : Output) : State :=
  (s.modTarget o.handle o.position fun t => { t with coverage := insertSorted o.offset t.coverage }).count 8

/-- R143, R144: what the end of a delivery adds to its entry. -/
def State.creditDelivery (s : State) (d : Delivery) : State :=
  match s.entry? d.output.handle with
  | some e =>
    if e.state = .closed then s.removeIfDone d.output.handle
    else if d.owned then ((s.cover d.output).settleIfDone d.output.handle).closeIfDrained d.output.handle
    else s.closeIfDrained d.output.handle
  | none => s

/-- R143: the LANDED notice of a delivery. -/
def Delivery.notice (d : Delivery) : Record :=
  .landed d.output.stripe d.output.handle d.output.position d.output.offset d.output.length d.output.checksum d.buffer

/-- R143: the mover has written the chunk into the buffer (log 12), the notice is posted and the cell released. -/
def State.endDelivery (s : State) (d : Delivery) : State :=
  let bytes := (s.bytesOf d.output.cell).take d.output.length
  let s1 := { s with deliveries := s.deliveries.filter fun (x : Delivery) => decide (x.output.cell ≠ d.output.cell) }
  let s2 := s1.modPort d.port fun q => { q with hostMem := landBytes q.hostMem d.buffer (fun _ => true) 0 bytes }
  ((s2.place d.port d.notice).release d.output.cell).creditDelivery d

/-- DELIVERY_END (R143, R144): the delivery of the cell named ends. -/
def execDeliveryEnd (cell : CellId) (s : State) : Host.Outcome State Fault Refusal :=
  match s.deliveries.find? fun d => decide (d.output.cell = cell) with
  | some d => event s true (s.endDelivery d).refreshWaits
  | none => event s false s

/-! ### The landing timeout (R145) -/

/-- R145: the wait of a port has reached its deadline. -/
def State.waitReached (s : State) (p : PortId) : Bool :=
  match (s.port p).wait with
  | some d => deadlineReached s.timebase d
  | none => false

/-- R145: the expiry of a landing wait; a new wait begins in the step where its conditions still hold. -/
def State.expireWait (s : State) (p : PortId) (o : Output) : State :=
  (((s.loseDestination true o.handle o.position).count 11).modPort p fun q => { q with wait := none }).refreshWaits

/-- LANDING_TIMEOUT (R145). -/
def execLandingTimeout (p : PortId) (s : State) : Host.Outcome State Fault Refusal :=
  match s.oldestCurrent p with
  | some o => event s (s.waitReached p) (s.expireWait p o)
  | none => event s false s

end Sys2Proof.Machine
end

