-- ==== Sys2Proof/Machine/Pacing.lean ====
section
/-! DEFINITION. The Pacing Unit: timebase, epochs, budgets and pressure (09). -/

namespace Sys2Proof.Machine

/-! ### Time (R153, R154) -/

/-- R153: the timebase rises by 1 and wraps. -/
def State.tick (s : State) : State := { s with timebase := s.timebase + 1 }

/-- TIMEBASE_TICK (R153). -/
def execTimebaseTick (s : State) : Host.Outcome State Fault Refusal := event s true s.tick

/-- R156: a budget record at an epoch boundary. -/
def Budget.boundary (b : Budget) : Budget :=
  if b.switchPending then { b with used := 0, active := b.shadow, switchPending := false } else { b with used := 0 }

/-- R158: the hold of a port at an epoch boundary, before the mark of the new epoch is set. -/
def Port.holdAtBoundary (q : Port) : Bool :=
  match q.mode with
  | .holdEpoch => q.held && (q.pressure || q.epochMark)
  | .follow | .latch => q.held

/-- R154 step 2: budget, hold and mark of a port at an epoch boundary. -/
def Port.endEpoch (q : Port) : Port :=
  { q with budget := q.budget.boundary, held := q.holdAtBoundary, epochMark := q.pressure }

/-- R154: the boundary, in its three steps. -/
def State.endEpoch (s : State) : State :=
  State.endWindows
    { s with nextBoundary := s.nextBoundary + BitVec.ofNat 48 s.epochLength, ports := mapVec Port.endEpoch s.ports }

/-- EPOCH_BOUNDARY (R154): taken when the timebase has reached the next boundary. -/
def execEpochBoundary (s : State) : Host.Outcome State Fault Refusal :=
  event s (deadlineReached s.timebase s.nextBoundary) s.endEpoch

/-! ### Budgets (R155) -/

/-- R155. -/
def setPacingDecide (p : PortId) (r : Request) (s : State) : Answer :=
  ⟨s.modPort p fun q => { q with budget := { q.budget with shadow := r.budget, switchPending := true } }, .ok,
   .budget (s.port p).budget.active⟩

/-- SET-PACING (R155). -/
def execSetPacing (p : PortId) (s : State) : Host.Outcome State Fault Refusal := withAnswer p 18 s (setPacingDecide p)

/-! ### Pressure (R158, R159) -/

/-- R159: the mode a request names. -/
def pressureModeOf (x : Nat) : Option PressureMode :=
  if x = 1 then some .follow else if x = 2 then some .holdEpoch else if x = 3 then some .latch else none

/-- R159: the hold after a change to a mode. -/
def Port.holdUnder (q : Port) : PressureMode → Bool
  | .follow => q.pressure
  | .holdEpoch => q.held || q.epochMark
  | .latch => q.held || q.pressure

/-- R159: the port takes a mode; the present mode changes nothing. -/
def Port.takeMode (q : Port) (m : PressureMode) : Port :=
  if q.mode = m then q else { q with mode := m, held := q.holdUnder m }

/-- R159. -/
def setModeDecide (p : PortId) (r : Request) (s : State) : Answer :=
  match pressureModeOf r.pressureMode with
  | none => Answer.only s .invalid
  | some m => ⟨s.modPort p fun q => q.takeMode m, .ok, .hold ((s.port p).takeMode m).held⟩

/-- SET-PRESSURE-MODE (R159). -/
def execSetPressureMode (p : PortId) (s : State) : Host.Outcome State Fault Refusal := withAnswer p 19 s (setModeDecide p)

/-- R159: in LATCH the hold clears if the input is not asserted. -/
def Port.releaseHold (q : Port) : Port :=
  match q.mode with
  | .latch => { q with held := q.held && q.pressure }
  | .follow | .holdEpoch => q

/-- R159. -/
def releaseDecide (p : PortId) (_r : Request) (s : State) : Answer :=
  ⟨s.modPort p Port.releaseHold, .ok, .hold (s.port p).releaseHold.held⟩

/-- RELEASE-PRESSURE (R159). -/
def execReleasePressure (p : PortId) (s : State) : Host.Outcome State Fault Refusal := withAnswer p 20 s (releaseDecide p)

/-- R158: an assertion makes the hold HELD and sets the mark, in every mode. -/
def Port.assertPressure (q : Port) : Port := { q with pressure := true, held := true, epochMark := true }

/-- R158: a deassertion clears the hold in FOLLOW. -/
def Port.deassertPressure (q : Port) : Port :=
  match q.mode with
  | .follow => { q with pressure := false, held := false }
  | .holdEpoch | .latch => { q with pressure := false }

/-- R158, R161: a change of an input's level. While RST_N is asserted the hold and the mark stand as the input
does (log 11). -/
def pinChange (p : PortId) (level : Bool) (f : Port → Port) (s : State) : Host.Outcome State Fault Refusal :=
  .next
    (if (s.port p).pressure = level then s
     else if s.inReset then s.modPort p fun q => { q with pressure := level, held := level, epochMark := level }
     else s.modPort p f)

/-- PRESSURE_ASSERTION (R158). -/
def execPressureAssertion (p : PortId) (s : State) : Host.Outcome State Fault Refusal :=
  pinChange p true Port.assertPressure s

/-- PRESSURE_DEASSERTION (R158). -/
def execPressureDeassertion (p : PortId) (s : State) : Host.Outcome State Fault Refusal :=
  pinChange p false Port.deassertPressure s

end Sys2Proof.Machine
end

