-- ==== Sys2Proof/Machine/Passes.lean ====
section
/-! DEFINITION. The Decode Lanes: dispatch and completion of a pass (07). -/

namespace Sys2Proof.Machine

open Sys2Proof.Config

/-! ### Readiness (R128) and the arbiter (R130) -/

/-- The targets that need the entry's decode point, ascending (R128 condition 3, R89). -/
def State.needing (s : State) (h : Handle) (e : Entry) (o : Offset) : List (Position × Target) :=
  e.targets.filter fun pt => s.targetNeeds h pt.1 pt.2 o

/-- R128 conditions 3 to 6, for an entry with a plan. -/
def State.readyAt (s : State) (h : Handle) (e : Entry) (pl : Plan) : Bool :=
  let wanting := (s.needing h e pl.decodePoint).length
  decide (0 < wanting)
    && (pl.gatherSet e.members.length).all (fun pos => (s.sourceCell h pos pl.decodePoint).isSome)
    && decide (wanting ≤ s.unusedFloorCount h + s.freeCount)

/-- R128: the entry is ready for a pass. -/
def State.ready (s : State) (he : Handle × Entry) : Bool :=
  decide (he.2.state = .active) && s.park != some he.1 && !s.passInFlight he.1
    && (match he.2.plan with
        | some pl => s.readyAt he.1 he.2 pl
        | none => false)

/-- R130: the lowest-numbered IDLE lane. -/
def State.idleLane (s : State) : Option LaneId := [0, 1].find? fun l => (s.lane l).isNone

/-- R130: the entry the arbiter chooses. -/
def State.chosen (s : State) : Option (Handle × Entry) := mostUrgent (s.entries.filter s.ready)

/-! ### Dispatch (R131) -/

/-- R129: the cell an output takes: an unused floor cell of the entry, or else a FREE cell (log 8). -/
def State.outputCell (s : State) (h : Handle) : Option CellId :=
  match s.unusedFloorCell h with
  | some c => some c
  | none => s.freeCell

/-- R131: the row that a bank holds for a target position. -/
def Bank.rowOf (b : Bank) (pos : Position) : List Byte :=
  match b.key with
  | some k => b.rows.getD (k.targets.idxOf pos) []
  | none => []

/-- R131: the check row of a bank, behind the rows of its targets. -/
def Bank.checkRow (b : Bank) : List Byte :=
  match b.key with
  | some k => b.rows.getD k.targets.length []
  | none => []

/-- R129, R131: one target that needs the offset receives an output: its cell is drawn, its row copied. -/
def drawOutput (h : Handle) (o : Offset) (bank : Bank) (a : State × List PassOutput) (pt : Position × Target) :
    State × List PassOutput :=
  match pt.2.dest, a.1.outputCell h with
  | some n, some c => (a.1.draw c h (.output pt.1 o), a.2 ++ [⟨pt.1, c, n, bank.rowOf pt.1⟩])
  | _, _ => a

/-- R129, R131: the outputs of a pass, in ascending target position. -/
def State.drawOutputs (s : State) (h : Handle) (o : Offset) (bank : Bank) (l : List (Position × Target)) :
    State × List PassOutput := l.foldl (drawOutput h o bank) (s, [])

/-- The bank a plan names (READY for an ACTIVE entry: R84, R100). -/
def State.planBank (s : State) (pl : Plan) : Bank :=
  match pl.bank with
  | some b => s.bank b
  | none => Bank.reset 0

/-- R127, R131: the pass record. -/
def State.passRecord (s : State) (h : Handle) (e : Entry) (pl : Plan) (outs : List PassOutput) : Pass :=
  { handle := h
    stripe := e.stripe
    offset := pl.decodePoint
    length := chunkLength e.length pl.decodePoint
    sources := (pl.sources.getD []).filterMap fun pos => s.sourceCell h pos pl.decodePoint
    check := pl.check.bind fun pos => (s.sourceCell h pos pl.decodePoint).map fun c => (c, (s.planBank pl).checkRow)
    outputs := outs }

/-- R131: the dispatch of an entry's pass on a lane. -/
def State.dispatch (s : State) (l : LaneId) (h : Handle) (e : Entry) (pl : Plan) : State :=
  let (s1, outs) := s.drawOutputs h pl.decodePoint (s.planBank pl) (s.needing h e pl.decodePoint)
  s1.setLane l (some (s.passRecord h e pl outs))

/-- PASS_DISPATCH (R128 to R131): the arbiter's choice, when a lane is IDLE and an entry is ready. -/
def execPassDispatch (s : State) : Host.Outcome State Fault Refusal :=
  match s.idleLane, s.chosen with
  | some l, some (h, e) => match e.plan with
    | some pl => event s true (s.dispatch l h e pl)
    | none => event s false s
  | _, _ => event s false s

/-! ### Completion (R132 to R138) -/

/-- R132: the chunks a pass reads. -/
def State.sourceChunks (s : State) (x : Pass) : List (List Byte) := x.sources.map s.bytesOf

/-- R132: the chunk of one output. -/
def State.outputChunk (s : State) (x : Pass) (row : List Byte) : List Byte := applyRow row (s.sourceChunks x) x.length

/-- R134: the check value agrees with the check member's chunk over the pass's length, or is not made. -/
def State.checkAgrees (s : State) (x : Pass) : Bool :=
  match x.check with
  | some (c, row) => s.outputChunk x row == (s.bytesOf c).take x.length
  | none => true

/-- R132: every output is written into its cell. -/
def State.writeOutputs (s : State) (x : Pass) : State :=
  x.outputs.foldl (fun t (o : PassOutput) => t.modCell o.cell fun y => { y with data := s.outputChunk x o.row }) s

/-- The source cells and the check cell of a pass. -/
def Pass.cellsRead (x : Pass) : List CellId := x.sources ++ (x.check.map fun k => k.1).toList

/-- The output cells of a pass. -/
def Pass.outputCells (x : Pass) : List CellId := x.outputs.map fun o => o.cell

/-- R136, R133: one output joins its destination's queue, with the CRC-32C of its bytes, or is released. -/
def State.settleOutput (x : Pass) (s : State) (o : PassOutput) : State :=
  match (s.entry? x.handle).bind fun e => e.target? o.position with
  | some t => match t.dest, t.dest.bind fun n => (s.node n).route with
    | some n, some p =>
      if s.targetNeeds x.handle o.position t x.offset then
        let out : Output :=
          { handle := x.handle
            stripe := x.stripe
            position := o.position
            offset := x.offset
            length := x.length
            checksum := crc32c (s.bytesOf o.cell)
            cell := o.cell
            dest := n }
        s.modPort p fun q => { q with outputs := q.outputs ++ [out] }
      else s.release o.cell
    | _, _ => s.release o.cell
  | none => s.release o.cell

/-- R88: where the decode point goes after the pass at `d`. -/
def State.nextPoint (s : State) (h : Handle) (e : Entry) (d : Offset) : Offset :=
  let all := (List.range e.chunks).filter (s.needed h e)
  match all.find? fun o => decide (d < o) with
  | some o => o
  | none => all.headD d

/-- R88: the decode point advances. -/
def State.advancePoint (s : State) (h : Handle) : State :=
  match s.entry? h with
  | some e => s.modPlan h fun pl => { pl with decodePoint := s.nextPoint h e pl.decodePoint }
  | none => s

/-- R135 steps 1 and 2. -/
def State.keepOutputs (s : State) (x : Pass) : State := (x.outputs.foldl (State.settleOutput x) s).releaseAll x.cellsRead

/-- R135, R138: the results of a pass whose comparison agrees or was not made, by the state of its entry. -/
def State.passStands (s : State) (x : Pass) (e : Entry) : State :=
  match e.state with
  | .active =>
    if s.park = some x.handle then (s.keepOutputs x).completePark x.handle
    else ((s.keepOutputs x).advancePoint x.handle).settleIfDone x.handle
  | .draining => (s.keepOutputs x).closeIfDrained x.handle
  | .planning | .queued | .settling => (s.keepOutputs x).advancePoint x.handle
  | .closed => s

/-- R138, the row CLOSED: everything of the pass is released. -/
def State.passDropped (s : State) (x : Pass) : State := s.releaseAll (x.outputCells ++ x.cellsRead)

/-- R135 to R138: the decision of a pass's results. -/
def State.decidePass (s : State) (x : Pass) (agrees : Bool) : State :=
  match s.entry? x.handle with
  | some e =>
    if e.state = .closed then (s.passDropped x).removeIfDone x.handle
    else if agrees then s.passStands x e
    else (s.passDropped x).closeEntry x.handle (.failed .inconsistent)
  | none => s.passDropped x

/-- R132 to R135: the completion of the pass on a lane. -/
def State.completePass (s : State) (l : LaneId) (x : Pass) : State :=
  ((((s.writeOutputs x).setLane l none).count 15).decidePass x (s.checkAgrees x)).refreshWaits

/-- PASS_COMPLETE (R135). -/
def execPassComplete (lane : LaneId) (s : State) : Host.Outcome State Fault Refusal :=
  match s.lane lane with
  | some x => event s true (s.completePass lane x)
  | none => event s false s

end Sys2Proof.Machine
end

