-- ==== Sys2Proof/Machine/Banks.lean ====
section
/-! DEFINITION. Bank lookup and replacement, and the Matrix Unit (05). -/

namespace Sys2Proof.Machine

def bankIds : List BankId := [0, 1, 2, 3, 4, 5, 6, 7]

/-- R95: the bank that holds a key, READY or INVERTING, with its discard mark clear. -/
def Bank.hits (key : Key) (b : Bank) : Bool := decide (b.key = some key) && b.state != .empty && !b.discard
def State.bankHit (s : State) (key : Key) : Option BankId := bankIds.find? fun b => (s.bank b).hits key

/-- R96 case 2: of the READY banks with reference count 0, the one with the lowest stamp. -/
def State.oldestIdle (s : State) : Option BankId :=
  bankIds.foldl (fun best b =>
    if (s.bank b).state = .ready ∧ (s.bank b).refs = 0 then
      (match best with
       | none => some b
       | some a => if (s.bank b).stamp < (s.bank a).stamp then some b else some a)
    else best) none

/-- R96: the bank a new key takes. -/
def State.bankForNew (s : State) : Option BankId :=
  match bankIds.find? (fun b => decide ((s.bank b).state = .empty)) with
  | some b => some b
  | none => s.oldestIdle

/-- R69 need 5: a bank can be had for the key. -/
def State.bankAvailable (s : State) (key : Key) : Bool := (s.bankHit key).isSome || s.bankForNew.isSome

/-- R94: a stamp above the used bank's old one falls by 1. -/
def Bank.ageAbove (old : Nat) (x : Bank) : Bank := if old < x.stamp then { x with stamp := x.stamp - 1 } else x

/-- R94: the bank used takes stamp 7, and the stamps above its old one fall by 1. -/
def State.useBank (s : State) (b : BankId) : State :=
  let aged := mapVec (Bank.ageAbove (s.bank b).stamp) s.banks
  { s with banks := aged.set b { s.bank b with stamp := 7 } }

/-- R95: the reference taken on a hit. -/
def State.takeHit (s : State) (b : BankId) : State :=
  ((s.modBank b fun x => { x with refs := x.refs + 1 }).useBank b).count 12

/-- R99: the Matrix Unit begins on a key: it reads k and m and builds [A | I]. -/
def State.beginInversion (s : State) (code : Code) (key : Key) : State :=
  ({ s with matrix := some ⟨code, augmented code key.sources⟩ } : State).count 14

/-- R99: the Matrix Unit, if it is idle, begins on the bank at the head of the FIFO, if there is one. -/
def State.startInversion (s : State) : State :=
  match s.matrix, s.inversionFifo with
  | none, b :: _ => match (s.bank b).key with
    | some key => s.beginInversion (s.code key.profile) key
    | none => s
  | _, _ => s

/-- R96, R97, R99: a bank taken for a new key, READY by the fast path or INVERTING behind the FIFO; an inversion begins
in the same step where the Matrix Unit is idle. -/
def State.takeMiss (s : State) (b : BankId) (key : Key) : State :=
  let code := s.code key.profile
  if isDataSet code.k key.sources then
    ((s.modBank b fun x => { x with state := .ready, key := some key, rows := fastRows code key, refs := 1, discard := false }).useBank
      b).count 13
  else
    (((({ s with inversionFifo := s.inversionFifo ++ [b] } : State).modBank b fun x =>
        { x with state := .inverting, key := some key, rows := [], refs := 1, discard := false }).useBank b).count 13).startInversion

/-- R95, R96: a lookup in earnest; the bank taken, if one can be had. -/
def State.lookup (s : State) (key : Key) : State × Option BankId :=
  match s.bankHit key with
  | some b => (s.takeHit b, some b)
  | none => match s.bankForNew with
    | some b => (s.takeMiss b key, some b)
    | none => (s, none)

/-- INVERSION_BEGIN (R99): the step in which a bank joins the empty FIFO, or the last inversion ends, begins the next
itself; by itself the row begins one only where none runs (log 33). -/
def execInversionBegin (s : State) : Host.Outcome State Fault Refusal := event s true s.startInversion

/-- R100: what the end of an inversion leaves in its bank. -/
def Bank.finish (inv : Inversion) (x : Bank) : Bank :=
  if x.discard then { x with state := .empty, key := none, rows := [], discard := false }
  else match x.key with
    | some key => { x with state := .ready, rows := invertedRows inv.code key (invertArray inv.code.k inv.array) }
    | none => x

/-- R100: the entries whose plan names a bank, in ascending handle. -/
def State.waitingOn (s : State) (b : BankId) : List Handle :=
  s.entries.filterMap fun he => match he.2.plan with
    | some pl => if pl.bank = some b then some he.1 else none
    | none => none

/-- R100, R99: the inversion of the bank at the head ends, and the next begins if the FIFO holds one. -/
def State.endInversion (s : State) (inv : Inversion) (b : BankId) (rest : List BankId) : State :=
  let s1 := ({ s with matrix := none, inversionFifo := rest } : State).modBank b (Bank.finish inv)
  (((s1.waitingOn b).foldl State.activateIfReady s1).causeAttempt).startInversion

/-- INVERSION_END (R100). -/
def execInversionEnd (s : State) : Host.Outcome State Fault Refusal :=
  match s.matrix, s.inversionFifo with
  | some inv, b :: rest => event s true (s.endInversion inv b rest)
  | _, _ => event s false s

end Sys2Proof.Machine
end

