-- ==== Sys2Proof/Machine/Planner.lean ====
section
/-! DEFINITION. The planning attempt: revisions, activations, critical hold and park (04). -/

namespace Sys2Proof.Machine

open Sys2Proof.Config

/-! ### Sources and the check member (R74 to R76) -/

/-- R74: the member is usable. -/
def State.usable (s : State) (m : Member) : Bool :=
  decide (m.state = .held) && (s.node m.node).state.serves && s.routeUp (s.node m.node)

/-- The usable positions whose node is in a given state, data or parity, ascending. -/
def State.usablePositions (s : State) (e : Entry) (k : Nat) (st : NodeState) (data : Bool) : List Position :=
  e.members.zipIdx.filterMap fun mi =>
    if s.usable mi.1 && decide ((s.node mi.1.node).state = st) && (decide (mi.2 < k) == data) then some mi.2 else none

/-- R75: the ranking of the usable members. -/
def State.ranking (s : State) (e : Entry) (k : Nat) : List Position :=
  s.usablePositions e k .up true ++ s.usablePositions e k .up false
    ++ s.usablePositions e k .suspect true ++ s.usablePositions e k .suspect false

/-- The choice of sources and check member, with the flags it calls for. -/
structure SourceChoice where
  sources : List Position
  check : Option Position
  skipped : Bool
  suspect : Bool

/-- A position lies on a SUSPECT node. -/
def State.onSuspect (s : State) (e : Entry) (pos : Position) : Bool :=
  match e.members[pos]? with
  | some m => decide ((s.node m.node).state = .suspect)
  | none => false

/-- R75, R76: the source set in ascending order and the check member; absent with fewer than k usable members. -/
def State.chooseSources (s : State) (e : Entry) (k : Nat) : Option SourceChoice :=
  let ranked := s.ranking e k
  if ranked.length < k then none
  else
    let sources := (List.range e.members.length).filter (fun p => (ranked.take k).contains p)
    let check := if e.crossCheck then ranked[k]? else none
    some { sources := sources
           check := check
           skipped := e.crossCheck && check.isNone
           suspect := sources.any (s.onSuspect e) || (match check with | some c => s.onSuspect e c | none => false) }

/-! ### Destinations (R77 to R80) -/

/-- R79: one step of the destination selector. -/
def lfsrStep (x : U16) : U16 :=
  let new : Bool := xor (xor (x.getLsbD 15) (x.getLsbD 14)) (xor (x.getLsbD 12) (x.getLsbD 3))
  (x <<< 1) ||| (if new then 1#16 else 0#16)

/-- R77, R78: the nodes whose racks are occupied when a plan's choices begin: HELD and REBUILDING members and
present destinations. -/
def Entry.occupants (e : Entry) : List NodeId :=
  (e.members.filterMap fun m => if m.state = .lost then none else some m.node)
    ++ e.targets.filterMap fun pt => pt.2.dest

/-- R78: the occupants of a node's rack. -/
def State.rackCount (s : State) (occ : List NodeId) (n : NodeId) : Nat :=
  occ.countP fun x => decide ((s.node x).rack = (s.node n).rack)

/-- The nodes in a target's void pending. -/
def Entry.voidNodes (e : Entry) (pos : Position) : List NodeId :=
  match e.target? pos with
  | some t => t.voids.map fun v => v.1
  | none => []

/-- R77: every condition of eligibility but the one on racks; `chosen` are the destinations already chosen in the
plan, which count towards their nodes' loads alone (R80, log 23). -/
def State.candidate (s : State) (e : Entry) (pos : Position) (chosen : List NodeId) (n : NodeId) (x : Node) : Bool :=
  decide (x.state = .up) && s.routeUp x
    && decide (x.load + chosen.countP (fun x => decide (x = n)) < maxLoad)
    && !(e.members.any fun m => decide (m.node = n))
    && !(e.targets.any fun pt => decide (pt.2.dest = some n))
    && !(e.voidNodes pos).contains n

/-- The lowest of a list of numbers, `d` for an empty one. -/
def minimumOr (d : Nat) (l : List Nat) : Nat := l.foldr (fun a b => if a ≤ b then a else b) d

/-- R77, R78: the nodes listed for a target in ascending node id, and whether the rack rule was relaxed. -/
def State.listed (s : State) (e : Entry) (pos : Position) (chosen : List NodeId) : List NodeId × Bool :=
  let cands := indicesWhere s.nodes (s.candidate e pos chosen)
  let occ := e.occupants ++ chosen
  let strict := cands.filter (fun n => decide (s.rackCount occ n = 0))
  if strict.isEmpty then
    let low := minimumOr occ.length (cands.map (s.rackCount occ))
    (cands.filter (fun n => decide (s.rackCount occ n = low)), true)
  else (strict, false)

/-- The choosing of destinations: the choices made, the selector after them, whether the rack rule was relaxed, and
whether every target found a node. -/
structure DestChoice where
  chosen : List (Position × NodeId)
  selector : U16
  relaxed : Bool
  complete : Bool

/-- R80: the targets in ascending position, one at a time; one that finds no node ends the choosing. -/
def State.chooseDests (s : State) (e : Entry) : List Position → List (Position × NodeId) → U16 → Bool → DestChoice
  | [], chosen, sel, relaxed => ⟨chosen, sel, relaxed, true⟩
  | pos :: rest, chosen, sel, relaxed =>
    let (nodes, isRelaxed) := s.listed e pos (chosen.map fun c => c.2)
    let sel' := lfsrStep sel
    match nodes[sel'.toNat % nodes.length]? with
    | some n => State.chooseDests s e rest (chosen ++ [(pos, n)]) sel' (relaxed || isRelaxed)
    | none => ⟨chosen, sel, relaxed, false⟩

/-- R73, R84: the positions that lack a destination, ascending. -/
def Entry.destless (e : Entry) : List Position :=
  e.members.zipIdx.filterMap fun mi =>
    if mi.1.gone && (match mi.1.target with | some t => t.dest.isNone | none => true) then some mi.2 else none

/-- R80 from the committed selector. -/
def State.destChoice (s : State) (e : Entry) : DestChoice := s.chooseDests e e.destless [] s.selector false

/-- R73 step 3, R84 step 3, R42, R35: one position takes a destination, at a start offset. -/
def giveDest (h : Handle) (start : Offset) (s : State) (c : Position × NodeId) : State :=
  (s.modMember h c.1 fun m =>
    { m with state := .rebuilding,
             target := some { m.target.getD Target.fresh with dest := some c.2, start := start, coverage := [] } }).modNode c.2
    fun x => { x with load := x.load + 1 }

/-- R84 step 3, R43: each LOST member without a target record has one (log 22). -/
def Entry.withRecords (e : Entry) : Entry :=
  { e with members := e.members.map fun m =>
      if m.state = .lost ∧ m.target.isNone then { m with target := some Target.fresh } else m }

/-- R62: a flag once set stays set. -/
def EntryFlags.join (f : EntryFlags) (relaxed skipped suspect : Bool) : EntryFlags :=
  ⟨f.relaxed || relaxed, f.checkSkipped || skipped, f.suspectUsed || suspect⟩

/-! ### Floors (R72) -/

/-- R72: the floor size of a plan. -/
def floorSizeOf (k : Nat) (check : Option Position) (targets : Nat) : Nat :=
  k + (if check.isSome then 1 else 0) + targets

/-- R72: a FREE cell, if there is one, becomes RESERVED to a floor (log 8). -/
def State.reserveOne (h : Handle) (s : State) : State :=
  match s.freeCell with
  | some c => s.setCell c (some (floorCell h))
  | none => s

/-- R72: up to `n` FREE cells become RESERVED to a floor. -/
def reserveFloor (h : Handle) : Nat → State → State
  | 0, s => s
  | n + 1, s => reserveFloor h n (s.reserveOne h)

/-- R72: an unused floor cell, if there is one, is released under R124 (log 8). -/
def State.shrinkOne (h : Handle) (s : State) : State :=
  match s.unusedFloorCell h with
  | some c => s.release c
  | none => s

/-- R72: up to `n` surplus unused floor cells are released under R124. -/
def shrinkFloor (h : Handle) : Nat → State → State
  | 0, s => s
  | n + 1, s => shrinkFloor h n (s.shrinkOne h)

/-- R72: at a revision the floor takes its new size, compared with the floor count (log 40). -/
def State.resizeFloor (s : State) (h : Handle) (size : Nat) : State :=
  let s1 := s.modPlan h fun pl => { pl with floorSize := size }
  let have_ := s1.floorCount h
  if size < have_ then shrinkFloor h (have_ - size) s1 else reserveFloor h (size - have_) s1

/-! ### Activation (R69, R73) -/

/-- What an entry's provisional choices come to. -/
structure Trial where
  sources : SourceChoice
  dests : DestChoice
  key : Key
  floor : Nat

/-- R71: the entries that hold a slot. -/
def State.slotsHeld (s : State) : Nat := s.entries.countP fun he => he.2.state.holdsSlot

/-- R92: the key of an entry's plan. -/
def Entry.keyFor (e : Entry) (c : SourceChoice) : Key := ⟨e.profile, c.sources, e.targetPositions, c.check⟩

/-- R69: the five needs in order; the first that fails is the wait reason. -/
def State.tryEntry (s : State) (e : Entry) : Except WaitReason Trial :=
  let code := s.code e.profile
  match s.chooseSources e code.k with
  | none => .error .noSources
  | some src =>
    let dests := s.destChoice e
    if dests.complete = false then .error .noDestination
    else if slots ≤ s.slotsHeld then .error .noSlot
    else
      let floor := floorSizeOf code.k src.check e.lostCount
      if s.freeCount < floor then .error .noCells
      else if s.bankAvailable (e.keyFor src) = false then .error .noBank
      else .ok ⟨src, dests, e.keyFor src, floor⟩

/-- R73 step 6: the lowest offset that some target needs, or 0. -/
def State.firstNeeded (s : State) (h : Handle) : Offset :=
  match s.entry? h with
  | some e => ((List.range e.chunks).find? (s.needed h e)).getD 0
  | none => 0

/-- R73 step 3: the destinations chosen are given, in ascending position. -/
def State.giveDests (s : State) (h : Handle) (start : Offset) (c : DestChoice) : State :=
  ({ c.chosen.foldl (giveDest h start) s with selector := c.selector } : State)

/-- R73 step 6 sets the start offset of the destinations just given to the decode point. -/
def State.setStarts (s : State) (h : Handle) (start : Offset) (c : DestChoice) : State :=
  c.chosen.foldl (fun t x => t.modTarget h x.1 fun y => { y with start := start }) s

/-- R73: an entry whose needs are all met is activated. -/
def State.activate (s : State) (h : Handle) (e : Entry) (t : Trial) : State :=
  let flags := e.flags.join t.dests.relaxed t.sources.skipped t.sources.suspect
  let s1 := (s.setEntry h { e.withRecords with state := .planning, wait := none, replan := false, flags := flags }).giveDests h 0 t.dests
  let d := s1.firstNeeded h
  let s2 := s1.setStarts h d t.dests
  let (s3, bank) := (reserveFloor h t.floor s2).lookup t.key
  (s3.modEntry h fun x => { x with plan := some ⟨some t.sources.sources, t.sources.check, bank, d, t.floor, some t.key⟩ }).activateIfReady h

/-! ### The walk (R68, R70) -/

/-- The walk of one attempt: the state, whether an entry has been left waiting, the reason of a critical hold, and
whether a CRITICAL entry was given NO-SLOT. -/
structure Walk where
  state : State
  blocked : Bool
  hold : Option WaitReason
  starved : Bool

/-- The wait reason of an entry is recorded. -/
def State.setWait (s : State) (h : Handle) (w : WaitReason) : State := s.modEntry h fun e => { e with wait := some w }

/-- R70: a first entry left waiting that is CRITICAL for cells or a bank places the hold. -/
def holdAfter (e : Entry) (w : WaitReason) : Option WaitReason :=
  if e.urgency = .critical ∧ (w = .noCells ∨ w = .noBank) then some w else none

/-- R69, R70: one entry of the walk is decided. -/
def walkStep (w : Walk) (h : Handle) : Walk :=
  match w.state.entry? h with
  | none => w
  | some e =>
    match w.state.tryEntry e with
    | .error reason =>
      { state := w.state.setWait h reason
        blocked := true
        hold := if w.blocked then w.hold else holdAfter e reason
        starved := w.starved || (decide (e.urgency = .critical) && decide (reason = .noSlot)) }
    | .ok t =>
      match w.hold with
      | some reason =>
        if e.urgency = .critical then { w with state := w.state.activate h e t }
        else { w with state := w.state.setWait h reason, blocked := true }
      | none => { w with state := w.state.activate h e t }

/-- R67: the handles of the entries in a state, in queue order. -/
def State.inOrder (s : State) (f : Entry → Bool) : List Handle :=
  (queueOrder (s.entries.filter fun he => f he.2)).map fun he => he.1

def State.walkQueue (s : State) : Walk :=
  (s.inOrder fun e => decide (e.state = .queued)).foldl walkStep ⟨s, false, none, false⟩

/-! ### Revisions (R84, R85) -/

/-- R84 step 2, R121: the chunks and fetches of members that have left the gather set are given up. -/
def State.dropOutside (s : State) (h : Handle) (keeps : Position → Bool) : State :=
  let cells := (s.cellsWhere fun x => decide (x.owner = h) &&
    (match x.use with | .source p _ _ => !keeps p | _ => false)).filter (fun c => !s.inUse c)
  allPorts.foldl (fun t p => t.emptyFetches p fun f => decide (f.handle = h) && f.cell.isSome && !keeps f.position)
    (s.releaseAll cells)

/-- R84 step 5, R85: the plan takes the bank of its new key, keeping it where the key is unchanged. -/
def State.rebank (s : State) (h : Handle) (old : Option BankId) (key : Key) : State :=
  match old with
  | some b =>
    if (s.bank b).key = some key then s
    else
      let (s1, bank) := (s.releaseBank (some b)).lookup key
      s1.modPlan h fun pl => { pl with bank := bank }
  | none =>
    let (s1, bank) := s.lookup key
    s1.modPlan h fun pl => { pl with bank := bank }

/-- R84 step 3: missing target records and destinations, the start offset the present decode point. -/
def State.reviseDests (s : State) (h : Handle) (d : Offset) : State :=
  match s.entry? h with
  | some e =>
    let c := s.destChoice e
    ((s.setEntry h e.withRecords).giveDests h d c).modEntry h fun x => { x with flags := x.flags.join c.relaxed false false }
  | none => s

/-- R84, R85, R92: the whole revision of an entry with a plan; one without a source set forms no key and sets no flag
for its check member (log 38). -/
def State.revise (s : State) (h : Handle) (e : Entry) (pl : Plan) : State :=
  let code := s.code e.profile
  let choice := s.chooseSources e code.k
  let sources := choice.map SourceChoice.sources
  let check := choice.bind SourceChoice.check
  let skipped := (choice.map SourceChoice.skipped).getD false
  let suspect := (choice.map SourceChoice.suspect).getD false
  let plan : Plan := { pl with sources := sources, check := check, key := choice.map e.keyFor }
  let s1 := s.setEntry h { e with replan := false, plan := some plan, flags := e.flags.join false skipped suspect }
  let s2 := (s1.dropOutside h plan.gathers).reviseDests h pl.decodePoint
  let s3 := s2.resizeFloor h (floorSizeOf code.k check e.lostCount)
  let s4 := match choice with
    | some c => s3.rebank h pl.bank (e.keyFor c)
    | none => (s3.releaseBank pl.bank).modPlan h fun x => { x with bank := none }
  (s4.count 17).activateIfReady h

/-- R85, R92: an incomplete plan that has its sources is served: the missing destinations, and a bank for the key its
revision formed. -/
def State.completePlan (s : State) (h : Handle) (pl : Plan) : State :=
  let s1 := s.reviseDests h pl.decodePoint
  let s2 := match pl.bank, pl.key with
    | none, some key => s1.rebank h none key
    | _, _ => s1
  s2.activateIfReady h

/-- R68 step 1: an entry in PLANNING with replan pending or an incomplete plan is served. -/
def State.serve (s : State) (h : Handle) : State :=
  match s.entry? h with
  | some e => match e.plan with
    | some pl =>
      if e.state = .planning ∧ (e.replan = true ∨ e.planComplete = false) then
        (if e.replan = true ∨ pl.sources = none then s.revise h e pl else s.completePlan h pl)
      else s
    | none => s
  | none => s

def State.servePlanning (s : State) : State :=
  (s.inOrder fun e => decide (e.state = .planning)).foldl State.serve s

/-! ### Parks (R81, R82) -/

/-- R81: the youngest of the ACTIVE ROUTINE entries. -/
def State.youngestRoutine (s : State) : Option Handle :=
  (s.inOrder fun e => decide (e.state = .active ∧ e.urgency = .routine)).getLast?

/-- R82: the mark: fetches withdrawn, and the park completes at once if no pass is in flight. -/
def State.markPark (s : State) (h : Handle) : State :=
  let s1 := (({ s with park := some h } : State).withdrawFetches h).count 16
  if s1.passInFlight h then s1 else s1.completePark h

/-- R81: a park is marked where a CRITICAL entry was given NO-SLOT. -/
def State.parkIfStarved (s : State) (starved : Bool) : State :=
  if starved = true ∧ s.park = none then
    (match s.youngestRoutine with
     | some h => s.markPark h
     | none => s)
  else s

/-- R68: one planning attempt, in its three parts. -/
def State.plan (s : State) : State :=
  let w := ({ s with attempt := false } : State).servePlanning.walkQueue
  w.state.parkIfStarved w.starved

/-- PLANNING_ATTEMPT (R68): taken when one has been caused (log 7). -/
def execPlanningAttempt (s : State) : Host.Outcome State Fault Refusal := event s s.attempt s.plan

end Sys2Proof.Machine
end

