-- ==== Sys2Proof/WellFormed.lean ====
section
/-! DEFINITION. Which commands are well formed: the bounds that the operand types do not carry already. -/

namespace Sys2Proof

open Config

/-- The bytes of the function's memory space that OTHER_MEMORY_WRITE may name: an index the part owns
(offsets 4 to 11), a request slot or a response slot (R163, R171). -/
def otherOffset (a : Nat) : Bool :=
  (4 ≤ a && a < 12)
    || (requestBase ≤ a && a < requestBase + requestDepth * requestBytes)
    || (responseBase ≤ a && a < responseBase + responseDepth * responseBytes)

/-- The bytes of the two indices the host owns: request tail and response head (R171). -/
def hostIndexOffset (a : Nat) : Bool := a < 4 || (12 ≤ a && a < 16)

/-- The check on one command. -/
def Instr.wellFormed : Instr → Bool
  | .otherMemoryWrite _ offset data =>
      !data.isEmpty && (List.range data.length).all (fun i => otherOffset (offset + i))
  | .offerTransferEnd _ data => !data.isEmpty && data.length ≤ chunkBytes
  | .sweepVisit h => h < tableSize
  | .submit _ | .withdraw _ | .query _ | .offer _ | .decline _ | .postLanding _ | .stored _ | .refuseFragment _
  | .defineNode _ | .reportDown _ | .reportRackDown _ | .retractDown _ | .reviveNode _ | .clearSuspect _
  | .setProfile _ | .setDevice _ | .setLimits _ | .setPacing _ | .setPressureMode _ | .releasePressure _
  | .snapshot _ | .readCounters _ | .portReset _ | .unknownKindRequest _
  | .requestTailWrite _ _ | .responseHeadWrite _ _ | .eventEnableChange _ _
  | .linkUp _ | .linkLost _ | .pressureAssertion _ | .pressureDeassertion _ | .deviceReset | .deviceResetRelease
  | .timebaseTick | .epochBoundary | .fetchExpiry _ _ | .landingTimeout _
  | .planningAttempt | .fetchIssue _ | .passDispatch | .passComplete _ | .deliveryBegin _ | .deliveryEnd _
  | .inversionBegin | .inversionEnd | .sweepBegin | .sweepEnd
  | .portResetEnd _ | .sendClosed _ | .sendVoid _ | .sendNodeState _ => true

end Sys2Proof
end

