-- ==== Sys2Proof/Machine/Ports.lean ====
section
/-! DEFINITION. The Port Units: host accesses, coalesced notices, links, port reset and device reset, SET-DEVICE and SET-LIMITS (10). -/

namespace Sys2Proof.Machine

open Sys2Proof.Config

/-! ### SET-DEVICE, SET-LIMITS and an unknown kind (R164) -/

/-- A field of SET-DEVICE: 0, or a value in its range. -/
def fieldBad (low high x : Nat) : Bool := decide (x ≠ 0) && (decide (x < low) || decide (high < x))

/-- R164: some nonzero field lies outside its range. -/
def deviceBad (r : Request) : Bool :=
  fieldBad 1 4 r.quorum || fieldBad 1 8 r.window || fieldBad 10 5000 r.fetchTimeout
    || fieldBad 100 60000 r.landingTimeout || fieldBad 1 1000 r.epochLength

/-- A field of 0 leaves the value unchanged. -/
def unlessZero (x old : Nat) : Nat := if x = 0 then old else x

/-- R164: the five values written in one step. -/
def State.writeDevice (s : State) (r : Request) : State :=
  { s with quorum := unlessZero r.quorum s.quorum
           window := unlessZero r.window s.window
           fetchTimeout := unlessZero r.fetchTimeout s.fetchTimeout
           landingTimeout := unlessZero r.landingTimeout s.landingTimeout
           epochLength := unlessZero r.epochLength s.epochLength }

/-- R164, R30: a lower quorum makes DOWN the nodes whose reports already meet it. -/
def setDeviceDecide (r : Request) (s : State) : Answer :=
  if deviceBad r then Answer.only s .invalid
  else
    let t := s.writeDevice r
    if t.quorum < s.quorum then Answer.only (allNodes.foldl State.downIfQuorum t).refreshWaits .ok else Answer.only t .ok

/-- SET-DEVICE (R164). -/
def execSetDevice (p : PortId) (s : State) : Host.Outcome State Fault Refusal := withAnswer p 16 s setDeviceDecide

/-- R164: a value is clamped to a range. -/
def clamp (low high x : Nat) : Nat := if x < low then low else if high < x then high else x

/-- R164. -/
def setLimitsDecide (p : PortId) (r : Request) (s : State) : Answer :=
  let credit := clamp 1 32 r.creditLimit
  let quota := clamp 16 512 r.cellQuota
  ⟨s.modPort p fun q => { q with credit := credit, quota := quota }, .ok, .limits credit quota⟩

/-- SET-LIMITS (R164). -/
def execSetLimits (p : PortId) (s : State) : Host.Outcome State Fault Refusal := withAnswer p 17 s (setLimitsDecide p)

/-- R164: none of the 23 kinds. -/
def unknownKind (k : Byte) : Bool := k == 0 || decide (23 < k.toNat)

/-- UNKNOWN_KIND_REQUEST (R164). -/
def execUnknownKindRequest (p : PortId) (s : State) : Host.Outcome State Fault Refusal :=
  withRequest p unknownKind s fun r t => t.respond p r.kind r.tag .invalid .none

/-! ### Host accesses (R163, R167) -/

/-- R163: the index accepts host writes, the port being UP (log 16). -/
def State.indexOpen (s : State) (p : PortId) : Bool := (s.port p).state == .up && (s.port p).link

/-- R163: a request tail in range (log 15) that makes the queue hold at most 64 records. -/
def Port.tailFits (q : Port) (v : Nat) : Bool :=
  decide (v < requestRange) && decide ((v + requestRange - q.reqHead % requestRange) % requestRange ≤ requestDepth)

/-- REQUEST_TAIL_WRITE (R163). -/
def execRequestTailWrite (p : PortId) (value : U32) (s : State) : Host.Outcome State Fault Refusal :=
  event s (s.indexOpen p && (s.port p).tailFits value.toNat) (s.modPort p fun q => { q with reqTail := value.toNat })

/-- R163: the records that a response head takes. -/
def Port.headTakes (q : Port) (v : Nat) : Nat := (v + responseRange - q.respHead % responseRange) % responseRange

/-- R163: a response head in range (log 15) that does not pass the response tail. -/
def Port.headFits (q : Port) (v : Nat) : Bool := decide (v < responseRange) && decide (q.headTakes v ≤ q.responses.length)

/-- R163, R167: the records before the new head are taken; a write that leaves records counts as a fall and a rise
of the event line. -/
def Port.takeResponses (q : Port) (v : Nat) : Port :=
  let q' := { q with respHead := v, responses := q.responses.drop (q.headTakes v) }
  if q.line && q'.line then { q' with interrupts := q'.interrupts + 1 } else q'

/-- RESPONSE_HEAD_WRITE (R163, R167). -/
def execResponseHeadWrite (p : PortId) (value : U32) (s : State) : Host.Outcome State Fault Refusal :=
  event s (s.indexOpen p && (s.port p).headFits value.toNat) (s.modPort p fun q => q.takeResponses value.toNat)

/-- A byte of a request slot (R171). -/
def slotOffset (a : Nat) : Bool := decide (requestBase ≤ a) && decide (a < requestBase + requestDepth * requestBytes)

/-- R163: bytes of request slots are stored; the others, the part's indices and the response slots, are discarded. -/
def storeSlots (m : Memory) (a : Nat) : List Byte → Memory
  | [] => m
  | b :: rest => storeSlots (if slotOffset a then Memory.write m a b else m) (a + 1) rest

/-- The offsets an OTHER_MEMORY_WRITE covers. -/
def written (offset : Nat) (data : List Byte) : List Nat := (List.range data.length).map fun i => offset + i

/-- OTHER_MEMORY_WRITE (R163): it stops at a host-owned index and outside the memory space (log 17), and is
discarded while the link is down (log 16). -/
def execOtherMemoryWrite (p : PortId) (offset : Nat) (data : List Byte) (s : State) : Host.Outcome State Fault Refusal :=
  if (written offset data).any hostIndexOffset then .refused .hostOwnedIndex
  else if (written offset data).any (fun a => !otherOffset a) then .fault .outsideMemorySpace
  else event s (s.port p).link (s.modPort p fun q => { q with slots := storeSlots q.slots offset data })

/-- EVENT_ENABLE_CHANGE (R167): taken while the function can be reached (log 16). -/
def execEventEnableChange (p : PortId) (on : Bool) (s : State) : Host.Outcome State Fault Refusal :=
  event s (s.port p).link (s.modPort p fun q => { q with eventEnable := on })

/-! ### Port reset (R168) -/

/-- R168 step 1. -/
def State.resetQueues (s : State) (p : PortId) : State :=
  let s1 := s.modPort p fun q =>
    { q with state := .resetting, reqTail := 0, reqHead := 0, respTail := 0, respHead := 0, responses := [] }
  { s1 with transfers := s1.transfers.map fun (t : Transfer) => if t.port = p then { t with answers := false } else t }

/-- R83: the entry has a source or check member routed through the port. -/
def State.gathersVia (s : State) (p : PortId) (e : Entry) : Bool :=
  match e.plan with
  | some pl => e.members.zipIdx.any fun mi => pl.gathers mi.2 && (s.node mi.1.node).route == some p
  | none => false

/-- R168 step 2: an entry in PLANNING or ACTIVE that gathers through the port receives a trigger. -/
def State.triggerVia (p : PortId) (s : State) (h : Handle) : State :=
  match s.entry? h with
  | some e => if s.gathersVia p e then s.trigger h else s
  | none => s

/-- The positions of an entry's targets whose destination is routed through a port. -/
def State.boundVia (s : State) (p : PortId) (e : Entry) : List Position :=
  e.targets.filterMap fun pt => match pt.2.dest with
    | some n => if (s.node n).route = some p then some pt.1 else none
    | none => none

/-- R168 step 3, R151: an entry loses the destinations routed through the port, owing no VOID. -/
def State.unbindVia (p : PortId) (s : State) (h : Handle) : State :=
  match s.entry? h with
  | some e =>
    if (s.boundVia p e).isEmpty then s
    else (((s.boundVia p e).foldl (fun t pos => t.dropDestination false h pos) s).trigger h).closeIfDrained h
  | none => s

/-- R65 step 1: the port leaves a live entry's submitters, and the entry closes ORPHANED if none is left. -/
def State.orphan (p : PortId) (s : State) (h : Handle) : State :=
  match s.entry? h with
  | some e =>
    if e.state = .closed ∨ PortSet.has e.submitters p = false then s
    else
      let s1 := s.setEntry h { e with submitters := PortSet.remove e.submitters p }
      if PortSet.remove e.submitters p = 0 then s1.closeEntry h (.failed .orphaned) else s1
  | none => s

/-- R65 step 3: the pairs recorded with a port leave a member's void pending. -/
def Member.dropVoids (p : PortId) (m : Member) : Member :=
  { m with target := m.target.map fun t => { t with voids := t.voids.filter fun v => v.2 != p } }

/-- R65 steps 2 and 3, for one entry. -/
def Entry.dropItems (p : PortId) (e : Entry) : Entry :=
  { e with closedMarks := PortSet.remove e.closedMarks p, members := e.members.map (Member.dropVoids p) }

/-- R65 steps 2 to 4, for one entry. -/
def State.forget (p : PortId) (s : State) (h : Handle) : State := (s.modEntry h (Entry.dropItems p)).removeIfDone h

/-- R31: the port leaves the down-report set of an UP or SUSPECT node. -/
def Node.dropReport (p : PortId) (x : Node) : Node :=
  if x.state.serves then { x with reports := PortSet.remove x.reports p } else x

/-- R168 step 6, R161, R175: limits, pacing and baseline return to their defaults; the epoch mark is kept. -/
def Port.defaults (q : Port) : Port :=
  { q with credit := resetCredit, quota := resetQuota, budget := Budget.reset, mode := .follow, held := q.pressure,
           baseline := Vector.replicate 18 0 }

/-- The handles at which entries stand, ascending. -/
def State.handles (s : State) : List Handle := s.entries.map fun he => he.1

/-- R168 steps 2 and 3. -/
def State.resetFetching (s : State) (p : PortId) : State :=
  let s1 := s.emptyFetches p fun _ => true
  let s2 := (s1.handles.foldl (State.triggerVia p) s1).modPort p fun q => { q with landing := [], wait := none }
  s2.handles.foldl (State.unbindVia p) s2

/-- R168 step 4. -/
def State.resetSubmitters (s : State) (p : PortId) : State :=
  let s1 := s.handles.foldl (State.orphan p) s
  s1.handles.foldl (State.forget p) s1

/-- R168: a port reset begins; a planning attempt follows. -/
def State.beginReset (s : State) (p : PortId) : State :=
  let s1 := (((s.resetQueues p).resetFetching p).resetSubmitters p).modPort p Port.defaults
  (({ s1 with nodes := mapVec (Node.dropReport p) s1.nodes } : State).causeAttempt).refreshWaits

/-- PORT-RESET (R168): it is answered by nothing. -/
def execPortReset (p : PortId) (s : State) : Host.Outcome State Fault Refusal :=
  withRequest p (fun k => k == 23) s fun _ t => t.beginReset p

/-- R162: the effects of entering UP. -/
def Node.markFor (p : PortId) (x : Node) : Node :=
  if x.state = .undefined then x else { x with marks := PortSet.add x.marks p }

/-- R162: the port enters UP. -/
def State.enterUp (s : State) (p : PortId) : State :=
  let s1 := s.modPort p fun q => { q with state := .up }
  (({ s1 with nodes := mapVec (Node.markFor p) s1.nodes } : State).causeAttempt).refreshWaits

/-- R169: the port enters UP or DOWN by its link. -/
def State.endReset (s : State) (p : PortId) : State :=
  if (s.port p).link then s.enterUp p else s.modPort p fun q => { q with state := .down }

/-- PORT_RESET_END (R169). -/
def execPortResetEnd (p : PortId) (s : State) : Host.Outcome State Fault Refusal :=
  event s ((s.port p).state == .resetting) (s.endReset p)

/-! ### Links (R162) -/

/-- R162: the link comes up; a DOWN port enters UP. -/
def State.raiseLink (s : State) (p : PortId) : State :=
  let s1 := s.modPort p fun q => { q with link := true }
  if (s.port p).state = .down then s1.enterUp p else s1

/-- LINK_UP (R162; log 32). -/
def execLinkUp (p : PortId) (s : State) : Host.Outcome State Fault Refusal := event s (!(s.port p).link) (s.raiseLink p)

/-- R162, R167: the link is lost; the event enable clears, and an UP port begins its reset. -/
def State.loseLink (s : State) (p : PortId) : State :=
  let s1 := s.modPort p fun q => { q with link := false, eventEnable := false }
  if (s.port p).state = .up then s1.beginReset p else s1

/-- LINK_LOST (R162, R168; log 32). -/
def execLinkLost (p : PortId) (s : State) : Host.Outcome State Fault Refusal := event s (s.port p).link (s.loseLink p)

/-! ### Device reset (R170) -/

/-- R170, R161: a port held at its reset state, its hold and mark as its input stands; what lies outside the part is
kept. -/
def Port.afterReset (q : Port) : Port :=
  { Port.reset with pressure := q.pressure, held := q.pressure, epochMark := q.pressure, interrupts := q.interrupts,
                    hostMem := q.hostMem }

/-- R170: a delivery abandoned may leave its landing buffer partly written (log 13). -/
def State.abandon (s : State) (d : Delivery) : State :=
  let bytes := (s.bytesOf d.output.cell).take d.output.length
  let s1 := s.modPort d.port fun q => { q with hostMem := landBytes q.hostMem d.buffer (partlyWritten s.fresh) 0 bytes }
  { s1 with fresh := s.fresh + 1 }

/-- R170: every block at its reset state. -/
def State.resetDevice (s : State) : State :=
  let s1 := s.deliveries.foldl State.abandon s
  { State.reset with inReset := true, ports := mapVec Port.afterReset s1.ports, fresh := s1.fresh, pending := s1.pending }

/-- DEVICE_RESET (R170). -/
def execDeviceReset (s : State) : Host.Outcome State Fault Refusal := event s true s.resetDevice

/-- DEVICE_RESET_RELEASE (R170): the blocks stand at their reset state and begin to act. -/
def execDeviceResetRelease (s : State) : Host.Outcome State Fault Refusal :=
  .next (if s.inReset then { s with inReset := false } else s)

/-! ### Coalesced notices (R165, R166) -/

/-- R166: the port is UP and the coalesced share has room. -/
def State.maySend (s : State) (p : PortId) : Bool :=
  (s.port p).state == .up && decide ((s.port p).responses.countP Record.isCoalesced < coalescedShare)

/-- R166: the lowest pending CLOSED mark of a port. -/
def State.closedItem (s : State) (p : PortId) : Option (Handle × Entry) :=
  s.entries.find? fun he => PortSet.has he.2.closedMarks p

/-- A sendable VOID. -/
structure VoidItem where
  handle : Handle
  stripe : U64
  position : Position
  node : NodeId
  deriving DecidableEq, Repr

/-- The lowest of some node ids. -/
def lowestNode : List NodeId → Option NodeId
  | [] => none
  | n :: rest => match lowestNode rest with
    | some k => some (if k < n then k else n)
    | none => some n

/-- R148: the lowest node of a target's sendable pairs recorded with a port. -/
def State.sendableVoid (s : State) (p : PortId) (h : Handle) (pos : Position) (t : Target) : Option NodeId :=
  lowestNode ((t.voids.filter fun v => decide (v.2 = p) && !s.deliveryTo h pos v.1).map Prod.fst)

/-- R166: the lowest sendable VOID of a port. -/
def State.voidItem (s : State) (p : PortId) : Option VoidItem :=
  s.entries.findSome? fun he => he.2.members.zipIdx.findSome? fun mi => match mi.1.target with
    | some t => (s.sendableVoid p he.1 mi.2 t).map fun n => ⟨he.1, he.2.stripe, mi.2, n⟩
    | none => none

/-- R166: the lowest pending NODE-STATE mark of a port. -/
def State.nodeItem (s : State) (p : PortId) : Option NodeId := firstWhere s.nodes fun x => PortSet.has x.marks p

/-- R62, R166, R63: the CLOSED notice is sent and its mark cleared. -/
def State.sendClosedItem (s : State) (p : PortId) (h : Handle) (e : Entry) : State :=
  ((s.setEntry h { e with closedMarks := PortSet.remove e.closedMarks p }).place p
    (.closed e.stripe h e.outcome e.flags e.lostCount)).removeIfDone h

/-- SEND_CLOSED (R62, R166). -/
def execSendClosed (p : PortId) (s : State) : Host.Outcome State Fault Refusal :=
  match s.closedItem p with
  | some (h, e) => event s (s.maySend p) (s.sendClosedItem p h e)
  | none => event s false s

/-- R44, R166: the pair leaves the target's void pending. -/
def dropVoid (n : NodeId) (t : Target) : Target := { t with voids := t.voids.filter fun v => v.1 != n }

/-- R44, R148, R166, R63: the VOID notice is sent. -/
def State.sendVoidItem (s : State) (p : PortId) (v : VoidItem) : State :=
  ((s.modTarget v.handle v.position (dropVoid v.node)).place p (.void v.stripe v.position v.node)).removeIfDone v.handle

/-- SEND_VOID (R148, R166): with no CLOSED notice pending. -/
def execSendVoid (p : PortId) (s : State) : Host.Outcome State Fault Refusal :=
  match s.closedItem p, s.voidItem p with
  | none, some v => event s (s.maySend p) (s.sendVoidItem p v)
  | _, _ => event s false s

/-- R24, R166: the NODE-STATE notice is sent, with the node as it now stands, and its mark cleared. -/
def State.sendNodeItem (s : State) (p : PortId) (n : NodeId) : State :=
  let x := s.node n
  (s.setNode n { x with marks := PortSet.remove x.marks p }).place p (.nodeState n x.state x.rack x.route)

/-- SEND_NODE_STATE (R24, R166): with no CLOSED notice and no sendable VOID pending. -/
def execSendNodeState (p : PortId) (s : State) : Host.Outcome State Fault Refusal :=
  match s.closedItem p, s.voidItem p, s.nodeItem p with
  | none, none, some n => event s (s.maySend p) (s.sendNodeItem p n)
  | _, _, _ => event s false s

end Sys2Proof.Machine
end

