-- ==== Sys2Proof/Machine/Profiles.lean ====
section
/-! DEFINITION. SET_PROFILE (01 R6, R7; 05 R102). -/

namespace Sys2Proof.Machine

/-- R6: the values of a SET-PROFILE that are refused INVALID. -/
def profileBad (r : Request) : Bool :=
  decide (7 < r.profileIndex) || decide (r.profileK < 2) || decide (20 < r.profileK)
    || decide (r.profileM < 1) || decide (6 < r.profileM) || decide (24 < r.profileK + r.profileM)

/-- The bank's key names a profile. -/
def Bank.keyedOn (i : ProfileId) (b : Bank) : Bool :=
  match b.key with
  | some k => decide (k.profile = i)
  | none => false

/-- R91: what an EMPTY bank keeps is its stamp; every count concerned is 0 (R102). -/
def Bank.emptied (b : Bank) : Bank := { b with state := .empty, key := none, rows := [], discard := false }

/-- R99: the bank's inversion is running; it is that of the bank at the head of the FIFO. -/
def State.running (s : State) (b : BankId) : Bool := s.inversionFifo.head? == some b

/-- R102: one bank as a profile takes new values. -/
def State.emptyKeyed (i : ProfileId) (s : State) (b : BankId) : State :=
  if (s.bank b).keyedOn i then
    (match (s.bank b).state with
     | .ready => (s.setBank b (s.bank b).emptied).causeAttempt
     | .inverting =>
       if s.running b then s.setBank b { s.bank b with discard := true }
       else (({ s with inversionFifo := s.inversionFifo.filter (fun x => x != b) } : State).setBank b (s.bank b).emptied).causeAttempt
     | .empty => s)
  else s

def allBanks : List BankId := [0, 1, 2, 3, 4, 5, 6, 7]

/-- R7. -/
def setProfileDecide (r : Request) (s : State) : Answer :=
  if profileBad r then Answer.only s .invalid
  else match asFin 8 r.profileIndex with
    | none => Answer.only s .invalid
    | some i =>
      let new : Code := ⟨r.profileK, r.profileM⟩
      match (s.profile i).code with
      | none => Answer.only (s.modProfile i fun x => { x with code := some new }) .ok
      | some old =>
        if old = new then Answer.only s .ok
        else if 0 < (s.profile i).users then Answer.only s .inUse
        else Answer.only (allBanks.foldl (State.emptyKeyed i) (s.modProfile i fun x => { x with code := some new })) .ok

/-- SET-PROFILE (R6, R7, R102). -/
def execSetProfile (p : PortId) (s : State) : Host.Outcome State Fault Refusal := withAnswer p 15 s setProfileDecide

end Sys2Proof.Machine
end

