-- ==== Sys2Proof/Machine/Records.lean ====
section
/-! DEFINITION. The byte layouts of the records the part places, and the function's memory space as a host reads it (R171). -/

namespace Sys2Proof.Machine

open Sys2Proof.Config

/-- A number as `n` little-endian bytes. -/
def toBytes : Nat → Nat → List Byte
  | 0, _ => []
  | n + 1, x => BitVec.ofNat 8 x :: toBytes n (x / 256)

/-- A field of a layout: its byte offset and its bytes. -/
abbrev Placed := Nat × List Byte

/-- A field of `n` bytes holding a number. -/
def num (off n x : Nat) : Placed := (off, toBytes n x)

/-- Byte `i` of a record: the field that lists it, else 0. -/
def layoutByte (fields : List Placed) (i : Nat) : Byte :=
  match fields.find? (fun f => decide (f.1 ≤ i) && decide (i < f.1 + f.2.length)) with
  | some f => f.2.getD (i - f.1) 0
  | none => 0

/-! Value codes (R171), each list numbered from 0. -/

def Status.code : Status → Nat
  | .ok => 0 | .merged => 1 | .full => 2 | .conflict => 3 | .closing => 4 | .nothingLost => 5 | .unrecoverable => 6
  | .inUse => 7 | .invalid => 8 | .unknown => 9 | .stale => 10 | .late => 11 | .mismatch => 12 | .misrouted => 13
  | .gone => 14 | .badsum => 15 | .early => 16 | .notSubmitter => 17

def EntryState.code : EntryState → Nat
  | .queued => 0 | .planning => 1 | .active => 2 | .draining => 3 | .settling => 4 | .closed => 5

def waitCode : Option WaitReason → Nat
  | none => 0
  | some .noSources => 1
  | some .noDestination => 2
  | some .noSlot => 3
  | some .noCells => 4
  | some .noBank => 5

def MemberState.code : MemberState → Nat
  | .held => 0 | .lost => 1 | .rebuilding => 2

def lostCauseCode : Option LostCause → Nat
  | none => 0
  | some .reported => 1
  | some .nodeDown => 2
  | some .corrupt => 3
  | some .unresponsive => 4

def outcomeCode : Option EntryOutcome → Nat
  | none => 0
  | some .done => 1
  | some (.failed _) => 2

def FailCause.code : FailCause → Nat
  | .unrecoverable => 1 | .inconsistent => 2 | .cancelled => 3 | .orphaned => 4

def failCode : Option EntryOutcome → Nat
  | some (.failed c) => c.code
  | some .done | none => 0

def flag (b : Bool) (i : Nat) : Nat := if b then 2 ^ i else 0

def EntryFlags.code (f : EntryFlags) : Nat := flag f.relaxed 0 + flag f.checkSkipped 1 + flag f.suspectUsed 2

def NodeState.code : NodeState → Nat
  | .undefined => 0 | .up => 1 | .suspect => 2 | .down => 3

/-- The number of an optional index, `d` where it is absent. -/
def optFin {n : Nat} (d : Nat) (x : Option (Fin n)) : Nat := match x with | some i => i.val | none => d

/-- The source set as a mask, bit p for position p. -/
def positionMask (l : List Position) : Nat := l.foldl (fun a p => a ||| 2 ^ p) 0

/-- One member of a QUERY response, 16 bytes from `base`; absent fields are 0 (log 34). -/
def MemberReport.fields (base : Nat) (m : MemberReport) : List Placed :=
  [num base 2 m.node.val, num (base + 2) 1 m.state.code, num (base + 3) 1 (lostCauseCode m.cause),
   num (base + 4) 1 m.strikes, num (base + 5) 1 (flag m.targetPresent 0 + flag m.stored 1 + flag m.dest.isSome 2),
   num (base + 6) 2 (optFin 0 m.dest), num (base + 8) 2 m.start, num (base + 10) 2 m.covered, num (base + 12) 1 m.voids]

def memberFields : Nat → List MemberReport → List Placed
  | _, [] => []
  | base, m :: rest => m.fields base ++ memberFields (base + 16) rest

def QueryReport.fields (q : QueryReport) : List Placed :=
  [num 8 8 q.stripe.toNat, num 16 2 q.handle, num 18 1 q.state.code, num 19 1 (waitCode q.wait), num 20 1 q.urgency.rank,
   num 21 1 q.lostCount, num 22 1 (BitVec.ofInt 8 q.margin).toNat, num 23 1 q.profile.val, num 24 4 q.sequence.toNat,
   num 28 4 q.length, num 32 2 q.chunks, num 34 1 q.submitters.toNat, num 35 1 (flag q.crossCheck 0), num 36 1 q.flags.code,
   num 37 1 (outcomeCode q.outcome), num 38 1 (failCode q.outcome),
   num 39 1 (flag q.planPresent 0 + flag q.parkPending 1 + flag q.replanPending 2),
   num 40 3 (match q.sources with | some l => positionMask l | none => 0),
   num 43 1 (match q.check with | some c => c | none => 0xFF), num 44 1 (optFin 0xFF q.bank), num 46 2 q.decodePoint]
  ++ memberFields 64 q.members

def Body.fields : Body → List Placed
  | .none => []
  | .created h seq => [num 8 2 h, num 12 4 seq.toNat]
  | .existing h => [num 8 2 h]
  | .closing h st => [num 8 2 h, num 16 1 st.code]
  | .limits c q => [num 8 1 c, num 10 2 q]
  | .budget a => [num 8 2 a]
  | .hold b => [num 8 1 (flag b 0)]
  | .deltas d => (List.finRange 18).map fun i => num (8 + 8 * i.val) 6 d[i].toNat
  | .report r => r.fields

/-- The fields of a record. -/
def Record.fields : Record → List Placed
  | .response kind tag st b => [num 0 1 0x80, num 1 1 kind.toNat, num 2 2 tag.toNat, num 4 1 st.code] ++ b.fields
  | .fetch stripe h tag pos node off len =>
      [num 0 1 0x81, num 8 8 stripe.toNat, num 16 2 h, num 18 1 tag.val, num 19 1 pos, num 20 2 node.val, num 22 2 off, num 24 4 len]
  | .landed stripe h pos off len crc buf =>
      [num 0 1 0x82, num 8 8 stripe.toNat, num 16 2 h, num 18 1 pos, num 22 2 off, num 24 4 len, num 28 4 crc.toNat, num 32 8 buf.toNat]
  | .closed stripe h o f lost =>
      [num 0 1 0x83, num 8 8 stripe.toNat, num 16 2 h, num 18 1 (outcomeCode o), num 19 1 (failCode o), num 20 1 f.code, num 21 1 lost]
  | .nodeState n st rack route =>
      [num 0 1 0x84, num 16 2 n.val, num 18 1 st.code, num 19 1 (optFin 0 rack), num 20 1 (optFin 0 route)]
  | .void stripe pos n => [num 0 1 0x85, num 8 8 stripe.toNat, num 18 1 pos, num 20 2 n.val]

/-- Byte `i` of a record of 512 bytes. -/
def Record.byte (r : Record) (i : Nat) : Byte := layoutByte r.fields i

/-- The waiting record that stands in a response slot, if one does (R163). -/
def Port.recordIn (q : Port) (slot : Nat) : Option Record :=
  q.responses[(slot + responseDepth - q.respHead % responseDepth) % responseDepth]?

/-- One byte of a port's memory space as its host reads it (R171); nothing stands outside the indices and slots.
A response slot with no waiting record reads as a free value (log 28). -/
def State.hostRead (s : State) (p : PortId) (a : Nat) : Option Byte :=
  let q := s.port p
  let index (x : Nat) (i : Nat) : Option Byte := (toBytes 4 x)[i]?
  if a < 4 then index q.reqTail a
  else if a < 8 then index q.reqHead (a - 4)
  else if a < 12 then index q.respTail (a - 8)
  else if a < 16 then index q.respHead (a - 12)
  else if requestBase ≤ a ∧ a < requestBase + requestDepth * requestBytes then some (Memory.read q.slots a)
  else if responseBase ≤ a ∧ a < responseBase + responseDepth * responseBytes then
    let slot := (a - responseBase) / responseBytes
    let i := (a - responseBase) % responseBytes
    some (match q.recordIn slot with
      | some r => r.byte i
      | none => staleResponseByte p slot i)
  else none

end Sys2Proof.Machine
end

