-- ==== Sys2Proof/Machine/Repair.lean ====
section
/-! DEFINITION. SUBMIT, WITHDRAW and QUERY (03). -/

namespace Sys2Proof.Machine

open Sys2Proof.Config

/-! ### SUBMIT -/

/-- A SUBMIT whose form passes the INVALID checks of R46. -/
structure Submission where
  profile : ProfileId
  code : Code
  nodes : List NodeId

/-- R46: the conditions on the fields, for a DEFINED profile. -/
def submitFieldsBad (c : Code) (r : Request) : Bool :=
  let n := c.k + c.m
  let ids := (List.range n).map r.memberNode
  decide (r.length = 0) || decide (maxFragment < r.length) || decide (r.memberCount ≠ n)
    || ids.any (fun x => decide (256 ≤ x)) || !decide ids.Nodup
    || (List.range 24).any (fun p => decide (n ≤ p) && r.knownLost p)
    || decide (1 < r.crossCheck)

/-- R46, R8, R10: the INVALID checks of a SUBMIT's form. -/
def submission (s : State) (r : Request) : Option Submission :=
  match asFin 8 r.submitProfile with
  | none => none
  | some i => match (s.profile i).code with
    | none => none
    | some c =>
      if submitFieldsBad c r then none
      else some ⟨i, c, ((List.range (c.k + c.m)).map r.memberNode).filterMap (asFin 256)⟩

/-- The entry of a stripe, with its handle (R47). -/
def State.entryOfStripe (s : State) (stripe : U64) : Option (Handle × Entry) :=
  s.entries.find? (fun he => decide (he.2.stripe = stripe))

/-- R48 step 3: the flagged positions whose members are HELD become LOST. -/
def flagLost (r : Request) (e : Entry) : Entry :=
  { e with members := e.members.zipIdx.map fun mi => if r.knownLost mi.2 then mi.1.lose .reported else mi.1 }

/-- R48: some flagged position's member is HELD. -/
def flagsHeld (r : Request) (e : Entry) : Bool :=
  e.members.zipIdx.any fun mi => r.knownLost mi.2 && decide (mi.1.state = .held)

/-- R48: a SUBMIT answered MERGED. -/
def State.merge (s : State) (p : PortId) (r : Request) (h : Handle) (e : Entry) : State :=
  let s1 := s.setEntry h (flagLost r
    { e with submitters := PortSet.add e.submitters p, crossCheck := e.crossCheck || decide (r.crossCheck = 1) })
  (if flagsHeld r e then s1.afterLoss h else s1).count 1

/-- R49: the position would be created LOST. -/
def bornLost (s : State) (r : Request) (pos : Position) (n : NodeId) : Bool :=
  r.knownLost pos || decide ((s.node n).state = .down)

/-- R42: a member as SUBMIT creates it. -/
def newMember (s : State) (r : Request) (pos : Position) (n : NodeId) : Member :=
  if r.knownLost pos then ⟨n, .lost, some .reported, 0, none⟩
  else if (s.node n).state = .down then ⟨n, .lost, some .nodeDown, 0, none⟩
  else ⟨n, .held, none, 0, none⟩

/-- R41: the lowest-numbered handle from `h` at which no entry stands, `n` handles to try. -/
def lowestFree (t : Table Entry) : Nat → Handle → Handle
  | 0, h => h
  | n + 1, h => if (Table.find t h).isNone then h else lowestFree t n (h + 1)

/-- R49: the entry a SUBMIT creates. -/
def newEntry (s : State) (p : PortId) (r : Request) (sub : Submission) : Entry :=
  let members := sub.nodes.zipIdx.map fun np => newMember s r np.2 np.1
  { stripe := r.stripe
    sequence := s.sequenceCounter
    profile := sub.profile
    length := r.length
    members := members
    submitters := PortSet.single p
    state := .queued
    wait := some .noSlot
    urgency := urgencyOf sub.code.m (members.countP Member.gone)
    crossCheck := decide (r.crossCheck = 1)
    plan := none
    replan := false
    outcome := none
    flags := ⟨false, false, false⟩
    closedMarks := 0 }

/-- R49, R41: the creation, in one step. -/
def State.createEntry (s : State) (p : PortId) (r : Request) (sub : Submission) : State :=
  let s1 := s.setEntry (lowestFree s.entries tableSize 0) (newEntry s p r sub)
  ((({ s1 with sequenceCounter := s.sequenceCounter + 1 } : State).modProfile sub.profile
    fun x => { x with users := x.users + 1 }).causeAttempt).count 0

/-- R46 to R49: a SUBMIT is decided in four stages. -/
def submitDecide (p : PortId) (r : Request) (s : State) : Answer :=
  match submission s r with
  | none => Answer.only s .invalid
  | some sub =>
    if sub.nodes.any (fun n => decide ((s.node n).state = .undefined)) then Answer.only s .unknown
    else match s.entryOfStripe r.stripe with
      | some (h, e) =>
        if e.state = .closed ∨ e.state = .draining then ⟨s, .closing, .closing h e.state⟩
        else if e.profile = sub.profile ∧ e.length = r.length ∧ e.members.map Member.node = sub.nodes then
          ⟨(s.merge p r h e).refreshWaits, .merged, .existing h⟩
        else ⟨s, .conflict, .existing h⟩
      | none =>
        let lost := sub.nodes.zipIdx.countP (fun np => bornLost s r np.2 np.1)
        if lost = 0 then Answer.only s .nothingLost
        else if sub.code.m < lost then Answer.only s .unrecoverable
        else if tableSize ≤ s.entries.length then Answer.only s .full
        else ⟨s.createEntry p r sub, .ok, .created (lowestFree s.entries tableSize 0) s.sequenceCounter⟩

/-- SUBMIT (R46 to R50). -/
def execSubmit (p : PortId) (s : State) : Host.Outcome State Fault Refusal := withAnswer p 1 s (submitDecide p)

/-! ### WITHDRAW -/

/-- The offset of the entry's pass in flight. -/
def State.passOffset (s : State) (h : Handle) : Option Offset :=
  s.lanes.toList.findSome? fun l => match l with
    | some p => if p.handle = h then some p.offset else none
    | none => none

/-- R58: the SOURCE cells of offsets whose pass has not been dispatched. -/
def State.undispatched (s : State) (h : Handle) : List CellId :=
  s.cellsWhere fun x => decide (x.owner = h) &&
    (match x.use with | .source _ o _ => s.passOffset h != some o | _ => false)

/-- R58: DRAIN by the last submitter. -/
def State.drain (s : State) (h : Handle) (e : Entry) : State :=
  match e.state with
  | .queued | .planning | .settling => s.closeEntry h (.failed .cancelled)
  | .active =>
    let s1 := s.setEntry h { e with state := .draining }
    let s2 := if s1.park = some h then { s1 with park := none } else s1
    let s3 := s2.withdrawFetches h
    (s3.releaseAll (s3.undispatched h)).closeIfDrained h
  | .draining | .closed => s

/-- R57, R58, R60. -/
def withdrawDecide (p : PortId) (r : Request) (s : State) : Answer :=
  match s.named r with
  | .error st => Answer.only s st
  | .ok e =>
    if r.withdrawMode ≠ 1 ∧ r.withdrawMode ≠ 2 then Answer.only s .invalid
    else if PortSet.has e.submitters p = false then Answer.only s .notSubmitter
    else if e.state = .closed then Answer.only s .ok
    else if PortSet.remove e.submitters p ≠ 0 then
      Answer.only (s.setEntry r.handle { e with submitters := PortSet.remove e.submitters p }) .ok
    else if r.withdrawMode = 1 then Answer.only (s.drain r.handle e).refreshWaits .ok
    else Answer.only (s.closeEntry r.handle (.failed .cancelled)).refreshWaits .ok

/-- WITHDRAW (R57, R58, R60). -/
def execWithdraw (p : PortId) (s : State) : Host.Outcome State Fault Refusal := withAnswer p 2 s (withdrawDecide p)

/-! ### QUERY -/

/-- R64: what is reported of one member; a target record with no destination is reported with the start offset it
last had (log 39). -/
def Member.report (m : Member) : MemberReport :=
  match m.target with
  | some t => ⟨m.node, m.state, m.cause, m.strikes, true, t.stored, t.dest, t.start, t.coverage.length, t.voids.length⟩
  | none => ⟨m.node, m.state, m.cause, m.strikes, false, false, none, 0, 0, 0⟩

/-- R64: the entry as it stands. -/
def State.report (s : State) (h : Handle) (e : Entry) : QueryReport :=
  { stripe := e.stripe
    handle := h
    state := e.state
    wait := e.wait
    urgency := e.urgency
    lostCount := e.lostCount
    margin := marginOf (s.code e.profile).m e.lostCount
    profile := e.profile
    sequence := e.sequence
    length := e.length
    chunks := e.chunks
    submitters := e.submitters
    crossCheck := e.crossCheck
    flags := e.flags
    outcome := e.outcome
    planPresent := e.plan.isSome
    parkPending := s.park == some h
    replanPending := e.replan
    sources := e.plan.bind Plan.sources
    check := e.plan.bind Plan.check
    bank := e.plan.bind Plan.bank
    decodePoint := (e.plan.map Plan.decodePoint).getD 0
    members := e.members.map Member.report }

/-- R64: a QUERY changes nothing. -/
def queryDecide (r : Request) (s : State) : Answer :=
  match s.named r with
  | .error st => Answer.only s st
  | .ok e => ⟨s, .ok, .report (s.report r.handle e)⟩

/-- QUERY (R64). -/
def execQuery (p : PortId) (s : State) : Host.Outcome State Fault Refusal := withAnswer p 3 s queryDecide

end Sys2Proof.Machine
end

