-- ==== Sys2Proof/Machine/Statistics.lean ====
section
/-! DEFINITION. SNAPSHOT and READ-COUNTERS (11). -/

namespace Sys2Proof.Machine

/-- R173: the counters are copied into the port's baseline set. -/
def snapshotDecide (p : PortId) (_r : Request) (s : State) : Answer :=
  Answer.only (s.modPort p fun q => { q with baseline := s.counters }) .ok

/-- SNAPSHOT (R173). -/
def execSnapshot (p : PortId) (s : State) : Host.Outcome State Fault Refusal := withAnswer p 21 s (snapshotDecide p)

/-- R174: the 18 deltas, modulo 2^48. -/
def State.deltas (s : State) (p : PortId) : Vector U48 18 :=
  Vector.ofFn fun i => s.counters[i] - (s.port p).baseline[i]

/-- R174. -/
def readCountersDecide (p : PortId) (_r : Request) (s : State) : Answer := ⟨s, .ok, .deltas (s.deltas p)⟩

/-- READ-COUNTERS (R174). -/
def execReadCounters (p : PortId) (s : State) : Host.Outcome State Fault Refusal := withAnswer p 22 s (readCountersDecide p)

end Sys2Proof.Machine
end

