-- ==== Sys2Proof/Machine/Dispatch.lean ====
section
/-! DEFINITION. exec: one arm per command. -/

namespace Sys2Proof.Machine

def exec (i : Instr) (s : State) : Host.Outcome State Fault Refusal :=
  match i with
  | .submit p => Sys2Proof.Machine.execSubmit p s
  | .withdraw p => Sys2Proof.Machine.execWithdraw p s
  | .query p => Sys2Proof.Machine.execQuery p s
  | .offer p => Sys2Proof.Machine.execOffer p s
  | .decline p => Sys2Proof.Machine.execDecline p s
  | .postLanding p => Sys2Proof.Machine.execPostLanding p s
  | .stored p => Sys2Proof.Machine.execStored p s
  | .refuseFragment p => Sys2Proof.Machine.execRefuseFragment p s
  | .defineNode p => Sys2Proof.Machine.execDefineNode p s
  | .reportDown p => Sys2Proof.Machine.execReportDown p s
  | .reportRackDown p => Sys2Proof.Machine.execReportRackDown p s
  | .retractDown p => Sys2Proof.Machine.execRetractDown p s
  | .reviveNode p => Sys2Proof.Machine.execReviveNode p s
  | .clearSuspect p => Sys2Proof.Machine.execClearSuspect p s
  | .setProfile p => Sys2Proof.Machine.execSetProfile p s
  | .setDevice p => Sys2Proof.Machine.execSetDevice p s
  | .setLimits p => Sys2Proof.Machine.execSetLimits p s
  | .setPacing p => Sys2Proof.Machine.execSetPacing p s
  | .setPressureMode p => Sys2Proof.Machine.execSetPressureMode p s
  | .releasePressure p => Sys2Proof.Machine.execReleasePressure p s
  | .snapshot p => Sys2Proof.Machine.execSnapshot p s
  | .readCounters p => Sys2Proof.Machine.execReadCounters p s
  | .portReset p => Sys2Proof.Machine.execPortReset p s
  | .unknownKindRequest p => Sys2Proof.Machine.execUnknownKindRequest p s
  | .requestTailWrite p value => Sys2Proof.Machine.execRequestTailWrite p value s
  | .responseHeadWrite p value => Sys2Proof.Machine.execResponseHeadWrite p value s
  | .otherMemoryWrite p offset data => Sys2Proof.Machine.execOtherMemoryWrite p offset data s
  | .eventEnableChange p on => Sys2Proof.Machine.execEventEnableChange p on s
  | .linkUp p => Sys2Proof.Machine.execLinkUp p s
  | .linkLost p => Sys2Proof.Machine.execLinkLost p s
  | .pressureAssertion p => Sys2Proof.Machine.execPressureAssertion p s
  | .pressureDeassertion p => Sys2Proof.Machine.execPressureDeassertion p s
  | .deviceReset => Sys2Proof.Machine.execDeviceReset s
  | .deviceResetRelease => Sys2Proof.Machine.execDeviceResetRelease s
  | .timebaseTick => Sys2Proof.Machine.execTimebaseTick s
  | .epochBoundary => Sys2Proof.Machine.execEpochBoundary s
  | .fetchExpiry p tag => Sys2Proof.Machine.execFetchExpiry p tag s
  | .landingTimeout p => Sys2Proof.Machine.execLandingTimeout p s
  | .planningAttempt => Sys2Proof.Machine.execPlanningAttempt s
  | .fetchIssue p => Sys2Proof.Machine.execFetchIssue p s
  | .offerTransferEnd cell data => Sys2Proof.Machine.execOfferTransferEnd cell data s
  | .passDispatch => Sys2Proof.Machine.execPassDispatch s
  | .passComplete lane => Sys2Proof.Machine.execPassComplete lane s
  | .deliveryBegin p => Sys2Proof.Machine.execDeliveryBegin p s
  | .deliveryEnd cell => Sys2Proof.Machine.execDeliveryEnd cell s
  | .inversionBegin => Sys2Proof.Machine.execInversionBegin s
  | .inversionEnd => Sys2Proof.Machine.execInversionEnd s
  | .sweepBegin => Sys2Proof.Machine.execSweepBegin s
  | .sweepVisit h => Sys2Proof.Machine.execSweepVisit h s
  | .sweepEnd => Sys2Proof.Machine.execSweepEnd s
  | .portResetEnd p => Sys2Proof.Machine.execPortResetEnd p s
  | .sendClosed p => Sys2Proof.Machine.execSendClosed p s
  | .sendVoid p => Sys2Proof.Machine.execSendVoid p s
  | .sendNodeState p => Sys2Proof.Machine.execSendNodeState p s

end Sys2Proof.Machine
end

