-- ==== Sys2Proof/Safety.lean ====
section
/-! DEFINITION. What counts as a safe step, and the words in which statements about commands are made: when a request may be taken, what its answer does to its port, what a command leaves alone. -/

namespace Sys2Proof.Machine

/-- The step neither faults nor is refused. -/
def State.stepsOn (s : State) : Prop := ∃ t, step s = .next t

/-- Every waiting command is well formed. -/
def State.queueWellFormed (s : State) : Prop := ∀ i ∈ s.pending, i.wellFormed = true

/-! ### Requests and their answers (R163) -/

/-- R163: a record stands at the port's request head and may be taken. -/
abbrev State.mayTakeNext (s : State) (p : PortId) : Prop :=
  s.inReset = false ∧ (s.port p).state = .up ∧ 0 < (s.port p).posted ∧ s.responseShareUsed p < 64

/-- R163: a record of kind `k` may be taken. -/
abbrev State.offers (s : State) (p : PortId) (k : Byte) : Prop := s.mayTakeNext p ∧ (s.port p).request.kind = k

/-- R163, R167: a port after the record at its request head was taken and answered. -/
def Port.answered (q : Port) (k : Byte) (tag : U16) (st : Status) (b : Body) : Port :=
  { q with reqHead := (q.reqHead + 1) % 128
           respTail := (q.respTail + 1) % 320
           responses := q.responses ++ [.response k tag st b]
           interrupts := if q.responses = [] ∧ q.eventEnable = true then q.interrupts + 1 else q.interrupts }

/-- R163: a port after the record at its request head was taken, its answer still owed. -/
def Port.tookRequest (q : Port) : Port := { q with reqHead := (q.reqHead + 1) % 128 }

/-- R165, R167: a port after a record was placed at its response tail. -/
def Port.received (q : Port) (r : Record) : Port :=
  { q with respTail := (q.respTail + 1) % 320
           responses := q.responses ++ [r]
           interrupts := if q.state = .up ∧ q.responses = [] ∧ q.eventEnable = true then q.interrupts + 1 else q.interrupts }

/-- The state with port `p` answered and nothing else changed. -/
def State.answered (s : State) (p : PortId) (k : Byte) (st : Status) (b : Body) : State :=
  s.setPort p ((s.port p).answered k (s.port p).request.tag st b)

/-! ### Frames -/

/-- The device-wide values, the time, the lanes, the offer transfers, the Matrix Unit, the sweep in progress, the
sequence counter and the queue of commands are unchanged. -/
structure Untouched (s t : State) : Prop where
  inReset : t.inReset = s.inReset
  quorum : t.quorum = s.quorum
  sweep : t.sweep = s.sweep
  sequenceCounter : t.sequenceCounter = s.sequenceCounter
  matrix : t.matrix = s.matrix
  window : t.window = s.window
  fetchTimeout : t.fetchTimeout = s.fetchTimeout
  transfers : t.transfers = s.transfers
  lanes : t.lanes = s.lanes
  landingTimeout : t.landingTimeout = s.landingTimeout
  timebase : t.timebase = s.timebase
  nextBoundary : t.nextBoundary = s.nextBoundary
  epochLength : t.epochLength = s.epochLength
  fresh : t.fresh = s.fresh
  pending : t.pending = s.pending

/-- R145: the landing wait of port `q` after a step from `u` to `t`: none unless the port is UP with a current output and
no landing buffer; a running one keeps its deadline, and else one begins with the landing timeout in force. -/
def waitAfter (u t : State) (q : PortId) : Option U48 :=
  if (t.port q).state = .up ∧ (t.port q).landing = [] ∧ ∃ o ∈ (t.port q).outputs, (t.node o.dest).state ≠ .down then
    some ((u.port q).wait.getD (t.timebase + BitVec.ofNat 48 t.landingTimeout))
  else none

/-- `b` is `a` but for its fetch table and its output queue, and for its landing wait, which is `wait`. -/
def Port.worked (a b : Port) (wait : Option U48) : Prop :=
  b = { a with fetches := b.fetches, outputs := b.outputs, wait := wait }

/-- The frame of a request that acts on the Repair Table: port `p` is answered, and the ports otherwise keep all but
their fetch tables, their output queues and their landing waits, which follow R145. -/
def answeredFrame (s t : State) (p : PortId) (k : Byte) (st : Status) (b : Body) : Prop :=
  Untouched s t ∧ ∀ q, Port.worked ((s.answered p k st b).port q) (t.port q) (waitAfter s t q)

/-- The frame of a step of the part's own that places no record. -/
def workFrame (s t : State) : Prop := Untouched s t ∧ ∀ q, Port.worked (s.port q) (t.port q) (waitAfter s t q)

/-- The ports as `u` has them, but for their landing waits, which follow R145. -/
def portsButWaits (u t : State) : Prop := ∀ q, t.port q = { u.port q with wait := waitAfter u t q }

/-- Every port but `p` is unchanged. -/
def onlyPort (s t : State) (p : PortId) : Prop := ∀ q, q ≠ p → t.port q = s.port q

/-- No entry but the one at `h` is changed. -/
def onlyEntry (s t : State) (h : Handle) : Prop := ∀ k, k ≠ h → t.entry? k = s.entry? k

/-! ### Queue order and released cells (R41, R67, R124) -/

/-- The table lists its entries by rising handle. -/
abbrev State.rising (s : State) : Prop := s.entries.Pairwise fun a b => a.1 < b.1

/-- R67, R41: entry `a` stands before entry `b` in queue order: by class, then by the serial comparison of their
sequences, then, with sequences equal or 2^31 apart, by handle. -/
def comesFirst (a b : Handle × Entry) : Prop :=
  let d := (b.2.sequence - a.2.sequence).toNat
  a.2.urgency.rank < b.2.urgency.rank
  ∨ a.2.urgency = b.2.urgency ∧ if d = 0 ∨ d = 2 ^ 31 then a.1 < b.1 else d < 2 ^ 31

/-- The sequences of the entries lie within half the counter's range, so that queue order is an order (R41). -/
def State.oneEra (s : State) : Prop := ∃ first : U32, ∀ he ∈ s.entries, (he.2.sequence - first).toNat < 2 ^ 31

/-- R124: an entry of the table holds a plan and has a floor shortfall. -/
def State.short (s : State) (he : Handle × Entry) : Prop :=
  he ∈ s.entries ∧ ∃ pl, he.2.plan = some pl ∧ s.floorCount he.1 < pl.floorSize

/-- R124: a cell of a floor has its place in the floor of its entry's plan. -/
def State.hasHome (s : State) (x : Cell) : Prop :=
  x.charge = .floor ∧ ∃ e pl, s.entry? x.owner = some e ∧ e.plan = some pl ∧ s.floorCount x.owner ≤ pl.floorSize

/-- R124: in the step from `s` to `t` the cell `c` is released, and no other cell is changed: it goes to its own floor,
or to the shortfall that stands first in queue order, or becomes FREE and causes a planning attempt. -/
def givesUpCell (s t : State) (c : CellId) : Prop :=
  (∀ k, k ≠ c → t.cell k = s.cell k)
  ∧ (s.cell c = none → t.cell c = none)
  ∧ ∀ x, s.cell c = some x →
    (s.hasHome x → t.cell c = some ⟨x.owner, .floor, .floor, []⟩)
    ∧ (¬s.hasHome x → ∀ he, s.short he → (∀ k, s.short k → k = he ∨ comesFirst he k) →
        t.cell c = some ⟨he.1, .floor, .floor, []⟩)
    ∧ (¬s.hasHome x → (∃ he, s.short he) → ∃ he, s.short he ∧ t.cell c = some ⟨he.1, .floor, .floor, []⟩)
    ∧ (¬s.hasHome x → (¬∃ he, s.short he) → t.cell c = none ∧ t.attempt = true)

/-- R124: in the step from `s` to `t` the cells listed are released one after another, and no other cell is changed. -/
def releases (s : State) : List CellId → State → Prop
  | [], t => t.cells = s.cells ∧ (s.attempt = true → t.attempt = true)
  | c :: rest, t => ∃ u : State, givesUpCell s u c ∧ { s with cells := u.cells, attempt := u.attempt } = u
      ∧ (s.attempt = true → u.attempt = true) ∧ releases u rest t

/-- R68, R124: in the step from `u` to `v` some cell becomes FREE. -/
def someCellFreed (u v : State) : Prop := ∃ c, u.cell c ≠ none ∧ v.cell c = none

/-- `v` is `u` with the cells released that a test names; a planning attempt is caused where one of them becomes FREE. -/
structure afterRelease (u v : State) (given : CellId → Prop) : Prop where
  rest : { u with cells := v.cells, attempt := v.attempt } = v
  cells : ∃ l, (∀ c, c ∈ l ↔ given c) ∧ releases u l v
  attempt : v.attempt = true ↔ u.attempt = true ∨ someCellFreed u v

/-- R131: a pass reads the cell. -/
def State.readByPass (s : State) (c : CellId) : Prop :=
  ∃ l x, s.lane l = some x ∧ (c ∈ x.sources ∨ ∃ row, x.check = some (c, row))

/-- R51, R125: a cell that an entry gives up with its plan: an unused floor cell or a SOURCE cell that no pass reads. -/
def planCell (s : State) (h : Handle) (c : CellId) : Prop :=
  (∃ x, s.cell c = some x ∧ x.owner = h ∧ (x.use = .floor ∨ ∃ pos o p, x.use = .source pos o p)) ∧ ¬s.readByPass c

/-- R120: the answer cell of a LIVE fetch of an entry. -/
def liveCell (s : State) (h : Handle) (c : CellId) : Prop :=
  ∃ q, ∃ tag : FetchTag, ∃ f, (s.port q).fetches[tag] = some f ∧ f.handle = h ∧ f.cell = some c

/-- R141: the cell of a queued output of an entry, at a position that `lost` names. -/
def queuedCell (s : State) (h : Handle) (lost : Position → Bool) (c : CellId) : Prop :=
  ∃ q, ∃ o ∈ (s.port q).outputs, o.handle = h ∧ lost o.position = true ∧ o.cell = c

/-! ### Entries (R42 to R44, R55, R61, R63, R112) -/

/-- R42, R43: a HELD member that has become LOST with a cause. -/
def Member.lostNow (cause : LostCause) (m : Member) : Member :=
  { m with state := .lost, cause := some cause,
           target := m.target.map fun t => { t with stored := false, dest := none, coverage := [] } }

/-- R18: the class of an entry with `lost` lost positions under `m` parity positions, for 1 to `m` of them. -/
def classFor (m lost : Nat) : Urgency :=
  if m ≤ lost then .critical else if m = lost + 1 then .urgent else .routine

/-- R55: what a replan trigger makes of an entry; under a pending park it makes nothing of it (R82). -/
def Entry.triggered (parked : Bool) (e : Entry) : Entry :=
  match e.state with
  | .planning | .active => if parked then e else { e with state := .planning, replan := true }
  | .settling => { e with state := .queued, wait := some .noSlot, replan := false }
  | .queued | .draining | .closed => e

/-- R55, R82: a replan trigger is work for the Planner, and causes a planning attempt. -/
def Entry.heeds (parked : Bool) (e : Entry) : Prop :=
  e.state = .settling ∨ parked = false ∧ (e.state = .planning ∨ e.state = .active)

/-- R55: from the state `u` a replan trigger makes of the entry at `h`, which stands there as `e`, what it must, and
nothing but landing waits is changed besides. -/
structure takesTrigger (u t : State) (h : Handle) (e : Entry) : Prop where
  record : t.entry? h = some (e.triggered (u.park == some h))
  others : onlyEntry u t h
  attempt : t.attempt = true ↔ u.attempt = true ∨ e.heeds (u.park == some h)
  tables : ∀ q, (t.port q).fetches = (u.port q).fetches ∧ (t.port q).outputs = (u.port q).outputs
  rest : { u with entries := t.entries, ports := t.ports, attempt := t.attempt } = t

/-- R44: a VOID is owed for the target `t` of a position when it gives up the node `n`. -/
abbrev voidOwed (s : State) (h : Handle) (pos : Position) (n : NodeId) (t : Target) : Prop :=
  t.coverage ≠ [] ∨ ∃ d ∈ s.deliveries, d.output.handle = h ∧ d.output.position = pos ∧ d.output.dest = n

/-- R44: the void pending of a target that gives up the node `n`. -/
def voidsAfter (s : State) (h : Handle) (pos : Position) (n : NodeId) (t : Target) : List (NodeId × PortId) :=
  match (s.node n).route with
  | some p => if voidOwed s h pos n t then insertVoid (n, p) t.voids else t.voids
  | none => t.voids

/-- R61 step 5, R44: a member as the close of its entry leaves it. -/
def Member.closedIn (s : State) (h : Handle) (pos : Position) (m : Member) : Member :=
  { m with target := m.target.map fun t =>
      match t.dest with
      | some n => if t.stored then t else { t with dest := none, voids := voidsAfter s h pos n t }
      | none => t }

/-- R61, R62: the entry `e` as its close leaves all but its targets. -/
def Entry.outOfPlan (e : Entry) (o : EntryOutcome) : Entry :=
  { e with state := .closed, wait := none, plan := none, replan := false, outcome := some o, closedMarks := e.submitters }

/-- R61, R62: the entry `e` at `h` as its close leaves it. -/
def Entry.closedWith (s : State) (h : Handle) (e : Entry) (o : EntryOutcome) : Entry :=
  { e.outOfPlan o with members := e.members.mapIdx (Member.closedIn s h) }

/-- R61: from the state `u` the entry `e` at `h` has closed with an outcome: its record, its fetches WITHDRAWN, its
queued outputs freed, its bank reference and its targets' loads given up, its close counted, and the cells of its plan,
of its fetches and of its outputs released. -/
structure closes (u t : State) (h : Handle) (e : Entry) (o : EntryOutcome) : Prop where
  record : t.entry? h = some (e.closedWith u h o)
  others : onlyEntry u t h
  park : t.park = if u.park = some h then none else u.park
  counters : t.counters = u.counters.set o.counter (u.counters[o.counter] + 1)
  fetches : ∀ q (tag : FetchTag), (t.port q).fetches[tag] =
    (u.port q).fetches[tag].map fun f => if f.handle = h then { f with cell := none } else f
  outputs : ∀ q, (t.port q).outputs = (u.port q).outputs.filter fun x => decide (x.handle ≠ h)
  loads : ∀ n, t.node n =
    { u.node n with load := (u.node n).load - e.targets.countP fun pt => decide (pt.2.dest = some n) }
  banks : ∀ b, t.bank b = if e.plan.bind Plan.bank = some b then { u.bank b with refs := (u.bank b).refs - 1 } else u.bank b
  cells : ∃ l, (∀ c, c ∈ l ↔ (e.plan ≠ none ∧ planCell u h c) ∨ liveCell u h c ∨ queuedCell u h (fun _ => true) c)
    ∧ releases (u.setEntry h (e.outOfPlan o)) l t
  attempt : t.attempt = true ↔
    u.attempt = true ∨ e.plan ≠ none ∨ (∃ pt ∈ e.targets, pt.2.dest ≠ none) ∨ someCellFreed u t
  rest : t.profiles = u.profiles ∧ t.deliveries = u.deliveries ∧ t.selector = u.selector ∧ t.sweepFifo = u.sweepFifo
    ∧ t.inversionFifo = u.inversionFifo

/-- R53, R82, R51: from the state `u` the entry that stood at `h` as `e` stands there as `f`, which has no plan: the
bank reference is released, the floor and SOURCE cells are, and a planning attempt follows. -/
structure givesUpPlan (u t : State) (h : Handle) (e f : Entry) : Prop where
  record : t.entry? h = some f
  others : onlyEntry u t h
  banks : ∀ b, t.bank b = if e.plan.bind Plan.bank = some b then { u.bank b with refs := (u.bank b).refs - 1 } else u.bank b
  cells : ∃ l, (∀ c, c ∈ l ↔ e.plan ≠ none ∧ planCell u h c) ∧ releases (u.setEntry h f) l t
  attempt : e.plan ≠ none → t.attempt = true

/-- A pass of the entry is in flight, or an output of it awaits delivery or is being delivered (R59, log 18). -/
abbrev State.busyWith (s : State) (h : Handle) : Prop :=
  (∃ x, some x ∈ s.lanes.toList ∧ x.handle = h) ∨ (∃ q, ∃ o ∈ (s.port q).outputs, o.handle = h)
    ∨ ∃ d ∈ s.deliveries, d.output.handle = h

/-- R112: the entry uses the member. -/
abbrev usesMemberNow (s : State) (h : Handle) (pos : Position) : Prop :=
  ∃ e m pl, s.entry? h = some e ∧ e.members[pos]? = some m ∧ e.plan = some pl ∧ m.state = .held
    ∧ (s.node m.node).state ≠ .down ∧ ((∃ l, pl.sources = some l ∧ pos ∈ l) ∨ pl.check = some pos)

/-- R63: a CLOSED entry owes nothing and holds nothing. -/
def owesNothing (s : State) (h : Handle) (e : Entry) : Prop :=
  e.state = .closed ∧ e.closedMarks = 0 ∧ (∀ m ∈ e.members, ∀ t, m.target = some t → t.voids = [])
    ∧ (∀ l x, s.lane l = some x → x.handle ≠ h) ∧ (∀ x ∈ s.transfers, x.handle ≠ h)
    ∧ (∀ d ∈ s.deliveries, d.output.handle ≠ h) ∧ ∀ c x, s.cell c = some x → x.owner ≠ h

/-- R63: after the step to `t` the entry at `h`, being `e`, is removed where it owes nothing, and else stands. -/
def staysUnlessDone (s t : State) (h : Handle) (e : Entry) : Prop :=
  (owesNothing t h e → t.entry? h = none ∧ ∀ i, t.profile i =
      if i = e.profile then { s.profile i with users := (s.profile i).users - 1 } else s.profile i)
  ∧ (¬owesNothing t h e → t.entry? h = some e ∧ t.profiles = s.profiles)

/-- R146 steps 1, 2 and 5, R35: the outputs, the deliveries, the load and the planning attempt after the targets at the positions that `lost`
names have lost their destination `n`, `count` in number. -/
def lossState (s : State) (h : Handle) (lost : Position → Bool) (n : NodeId) (count : Nat) : State :=
  { s with
    nodes := s.nodes.set n { s.node n with load := (s.node n).load - count }
    attempt := s.attempt || decide (0 < count)
    deliveries := s.deliveries.map fun (d : Delivery) =>
      if d.output.handle = h ∧ lost d.output.position = true then { d with owned := false } else d
    ports := mapVec (fun (q : Port) => { q with
      outputs := q.outputs.filter fun o => !(decide (o.handle = h) && lost o.position) }) s.ports }

/-- R146 steps 3 and 4: a target that has lost its destination `n`. -/
def Target.unbound (s : State) (h : Handle) (pos : Position) (n : NodeId) (t : Target) : Target :=
  { t with dest := none, coverage := [], voids := voidsAfter s h pos n t }

/-- R55, R59: from the state `u`, with the entry changed to `e` at `h` and a replan trigger raised: the entry is
triggered, or, DRAINING with nothing under way, closes CANCELLED. -/
structure passesOn (u t : State) (h : Handle) (e : Entry) : Prop where
  others : onlyEntry u t h
  stands : e.state ≠ .draining ∨ u.busyWith h → takesTrigger u t h e
  drained : e.state = .draining → ¬u.busyWith h → closes u t h e (.failed .cancelled)

/-! ### Port resets (R65, R151, R168) -/

/-- R151: the target at a position of an entry is bound for a node routed through port `p`. -/
def Entry.boundThrough (s : State) (p : PortId) (e : Entry) (pos : Position) : Prop :=
  ∃ t n, e.target? pos = some t ∧ t.dest = some n ∧ (s.node n).route = some p

/-- R168 step 2: an entry with a plan gathers from a member routed through port `p`. -/
def Entry.gathersThrough (s : State) (p : PortId) (e : Entry) : Prop :=
  ∃ pl pos m, e.plan = some pl ∧ e.members[pos]? = some m ∧ (s.node m.node).route = some p
    ∧ ((∃ l, pl.sources = some l ∧ pos ∈ l) ∨ pl.check = some pos)

/-- R151, R146: a member whose target loses a destination routed through port `p`, with no VOID recorded. -/
def Member.unboundFrom (s : State) (p : PortId) (m : Member) : Member :=
  { m with target := m.target.map fun t =>
      match t.dest with
      | some n => if t.stored = false ∧ (s.node n).route = some p then { t with dest := none, coverage := [] } else t
      | none => t }

/-- R65 steps 2 and 3: port `p`'s CLOSED mark and its void pairs leave an entry. -/
def Entry.forgottenBy (p : PortId) (e : Entry) : Entry :=
  { e with
    closedMarks := PortSet.remove e.closedMarks p
    members := e.members.map fun m =>
      { m with target := m.target.map fun t => { t with voids := t.voids.filter fun v => decide (v.2 ≠ p) } } }

/-- R151, R59: a DRAINING entry that loses a destination to the reset of port `p` and has nothing else under way
(log 25). -/
def drainedByReset (s : State) (p : PortId) (h : Handle) (e : Entry) : Prop :=
  e.state = .draining ∧ (∃ pos, e.boundThrough s p pos) ∧ (∀ l x, s.lane l = some x → x.handle ≠ h)
    ∧ (∀ q, ∀ o ∈ (s.port q).outputs, o.handle = h → e.boundThrough s p o.position)
    ∧ ∀ d ∈ s.deliveries, d.output.handle ≠ h

/-- R65: port `p` is the last submitter of an entry. -/
def Entry.orphanedBy (p : PortId) (e : Entry) : Prop := PortSet.has e.submitters p = true ∧ PortSet.remove e.submitters p = 0

/-- R65, R59: the reset of port `p` closes the entry. -/
def closedByReset (s : State) (p : PortId) (h : Handle) (e : Entry) : Prop :=
  e.state ≠ .closed ∧ (drainedByReset s p h e ∨ e.orphanedBy p)

/-- R151: a queued output or a delivery loses its target's destination to the reset of port `p`. -/
def unboundByReset (s : State) (p : PortId) (o : Output) : Prop :=
  ∃ e, s.entry? o.handle = some e ∧ e.boundThrough s p o.position

open Classical in
/-- R65, R151, R168 steps 2 to 4: the entry `e` at `h` as the reset of port `p` leaves it, where it is not removed. -/
noncomputable def Entry.afterReset (s : State) (p : PortId) (h : Handle) (e : Entry) : Entry :=
  let cleared : Entry := { e with members := e.members.map (Member.unboundFrom s p) }
  let moved : Entry :=
    if e.gathersThrough s p ∨ ∃ pos, e.boundThrough s p pos then cleared.triggered (s.park == some h) else cleared
  Entry.forgottenBy p
    (if e.state = .closed then cleared
     else if drainedByReset s p h e then cleared.closedWith s h (.failed .cancelled)
     else if e.orphanedBy p then
      { cleared with submitters := PortSet.remove e.submitters p }.closedWith s h (.failed .orphaned)
     else { moved with submitters := PortSet.remove e.submitters p })

/-- R122, R151, R61: a cell that the reset of port `p` gives up: the answer cell of a LIVE fetch of the port, the cell of
an output that is freed, or a cell that an entry gives up with its close. -/
def givenUpByReset (s : State) (p : PortId) (c : CellId) : Prop :=
  (∃ tag : FetchTag, ∃ f, (s.port p).fetches[tag] = some f ∧ f.cell = some c)
  ∨ (∃ q, ∃ o ∈ (s.port q).outputs, o.cell = c
      ∧ (unboundByReset s p o ∨ ∃ e, s.entry? o.handle = some e ∧ closedByReset s p o.handle e))
  ∨ ∃ h e, s.entry? h = some e ∧ closedByReset s p h e ∧ (liveCell s h c ∨ e.plan ≠ none ∧ planCell s h c)

/-- R124: what has become in `t` of the cells of `s` that a reset, with all its closes, released: each is FREE or an
unused cell of the floor of an entry with a plan (but for one that a pass reads, which no floor holds in a run). For an
entry that keeps its plan: a cell of its floor comes back to it while the floor count is not above the floor size
(`home`), and leaves it while the count is (`surplus`); a cell from elsewhere joins its floor only where the floor was
short (`taken`); so the count moves only towards the size (`counts`). None becomes FREE while a floor is short, and one
that joined another floor went to the entry that comes first of those that are short. -/
structure cellsReleased (s t : State) (given : CellId → Prop) : Prop where
  kept : ∀ c, ¬given c → t.cell c = s.cell c
  free : ∀ c, s.cell c = none → t.cell c = none
  released : ∀ c, given c → t.cell c = none ∨ ∃ h, t.cell c = some ⟨h, .floor, .floor, []⟩
    ∧ (¬s.readByPass c → ∃ e pl, t.entry? h = some e ∧ e.plan = some pl)
  home : ∀ c x e pl, given c → s.cell c = some x → x.charge = .floor → t.entry? x.owner = some e → e.plan = some pl →
    s.floorCount x.owner ≤ pl.floorSize → t.cell c = some ⟨x.owner, .floor, .floor, []⟩
  surplus : ∀ c x e pl, given c → s.cell c = some x → x.charge = .floor → t.entry? x.owner = some e → e.plan = some pl →
    pl.floorSize < t.floorCount x.owner → t.cell c ≠ some ⟨x.owner, .floor, .floor, []⟩
  taken : ∀ c x h e pl, given c → s.cell c = some x → t.cell c = some ⟨h, .floor, .floor, []⟩ →
    x.owner ≠ h ∨ x.charge = .pool → t.entry? h = some e → e.plan = some pl → s.floorCount h < pl.floorSize
  counts : ∀ h e pl, t.entry? h = some e → e.plan = some pl →
    min (s.floorCount h) pl.floorSize ≤ t.floorCount h ∧ t.floorCount h ≤ max (s.floorCount h) pl.floorSize
  served : someCellFreed s t → ∀ he, ¬t.short he
  first : s.oneEra → ∀ c x h e, given c → s.cell c = some x → t.cell c = some ⟨h, .floor, .floor, []⟩ →
    x.owner ≠ h ∨ x.charge = .pool → t.entry? h = some e → ∀ k, t.short k → k.1 = h ∨ comesFirst (h, e) k

open Classical in
/-- R168, R122, R124, R151, R161, R175, R31, R65: what the reset of port `p` does: its own port, the fetch tables and
output queues of the others, the cells, the answers owed to its offers, the deliveries, the down reports and loads, every
entry, the banks, the profiles and the counts of the closes. -/
structure portResetFrame (s t : State) (p : PortId) (link enable : Bool) : Prop where
  own : t.port p = { s.port p with
    state := .resetting, link := link, reqTail := 0, reqHead := 0, respTail := 0, respHead := 0, responses := []
    fetches := Vector.replicate 32 none, credit := 16, quota := 128, landing := [], wait := none
    outputs := (t.port p).outputs, budget := ⟨0, 0, 0, false⟩, mode := .follow, held := (s.port p).pressure
    eventEnable := enable, baseline := Vector.replicate 18 0 }
  others : ∀ k, k ≠ p → Port.worked (s.port k) (t.port k) (waitAfter s t k)
  fetches : ∀ k, k ≠ p → ∀ tag : FetchTag, (t.port k).fetches[tag] = (s.port k).fetches[tag].map fun f =>
    if ∃ e, s.entry? f.handle = some e ∧ closedByReset s p f.handle e then { f with cell := none } else f
  outputs : ∀ k, (t.port k).outputs = (s.port k).outputs.filter fun o =>
    decide (¬(unboundByReset s p o ∨ ∃ e, s.entry? o.handle = some e ∧ closedByReset s p o.handle e))
  emptied : (∀ o ∈ (s.port p).outputs, ∃ e t0, s.entry? o.handle = some e ∧ e.target? o.position = some t0
      ∧ t0.dest = some o.dest ∧ (s.node o.dest).route = some p) → (t.port p).outputs = []
  cells : cellsReleased s t (givenUpByReset s p)
  transfers : t.transfers = s.transfers.map fun x => if x.port = p then { x with answers := false } else x
  deliveries : t.deliveries = s.deliveries.map fun (d : Delivery) =>
    if unboundByReset s p d.output then { d with owned := false } else d
  nodes : ∀ n, t.node n = { s.node n with
    reports := if (s.node n).state = .up ∨ (s.node n).state = .suspect then PortSet.remove (s.node n).reports p
      else (s.node n).reports
    load := (s.node n).load - (s.entries.map fun he =>
      if (s.node n).route = some p ∨ closedByReset s p he.1 he.2 then he.2.targets.countP fun pt => decide (pt.2.dest = some n)
      else 0).sum }
  absent : ∀ h, s.entry? h = none → t.entry? h = none
  entries : ∀ h e, s.entry? h = some e →
    (owesNothing t h (e.afterReset s p h) → t.entry? h = none)
    ∧ (¬owesNothing t h (e.afterReset s p h) → t.entry? h = some (e.afterReset s p h))
  profiles : ∀ i, t.profile i = { s.profile i with
    users := (s.profile i).users - s.entries.countP fun he => decide (he.2.profile = i ∧ t.entry? he.1 = none) }
  banks : ∀ b, t.bank b = { s.bank b with
    refs := (s.bank b).refs - s.entries.countP fun he =>
      decide (closedByReset s p he.1 he.2 ∧ he.2.plan.bind Plan.bank = some b) }
  park : t.park = if ∃ h e, s.park = some h ∧ s.entry? h = some e ∧ closedByReset s p h e then none else s.park
  counters : ∀ i : Fin 18, t.counters[i] = s.counters[i] + BitVec.ofNat 48 (s.entries.countP fun he =>
    decide (he.2.state ≠ .closed ∧ (i = 5 ∧ drainedByReset s p he.1 he.2
      ∨ i = 6 ∧ ¬drainedByReset s p he.1 he.2 ∧ he.2.orphanedBy p)))
  attempt : t.attempt = true
  rest : t.inReset = s.inReset ∧ t.quorum = s.quorum ∧ t.sweep = s.sweep ∧ t.sweepFifo = s.sweepFifo
    ∧ t.sequenceCounter = s.sequenceCounter ∧ t.inversionFifo = s.inversionFifo ∧ t.matrix = s.matrix
    ∧ t.window = s.window ∧ t.fetchTimeout = s.fetchTimeout ∧ t.lanes = s.lanes ∧ t.landingTimeout = s.landingTimeout
    ∧ t.timebase = s.timebase ∧ t.nextBoundary = s.nextBoundary ∧ t.epochLength = s.epochLength ∧ t.fresh = s.fresh
    ∧ t.pending = s.pending ∧ t.selector = s.selector

/-! ### What is gathered and in what order (R87, R88, R107, R109) -/

/-- R87: a target of the entry needs the offset (a disowned delivery does not serve it: log 19). -/
def offsetNeeded (s : State) (h : Handle) (e : Entry) (o : Offset) : Prop :=
  ∃ pos t, e.target? pos = some t ∧ t.dest ≠ none ∧ o ∉ t.coverage
    ∧ (∀ q, ∀ x ∈ (s.port q).outputs, ¬(x.handle = h ∧ x.position = pos ∧ x.offset = o))
    ∧ ∀ d ∈ s.deliveries, ¬(d.owned = true ∧ d.output.handle = h ∧ d.output.position = pos ∧ d.output.offset = o)

/-- R88: where an offset stands in the pass order that begins at `d`, out of `chunks` offsets. -/
def passRank (chunks d o : Nat) : Nat := if d ≤ o then o else o + chunks

/-- R109: the chunk `a` is issued before the chunk `b`: by the queue order of their entries, then by the offsets' places
in pass order, then by position. -/
def issuedBefore (s : State) (a b : Wanted) : Prop :=
  (∃ e f, s.entry? a.handle = some e ∧ s.entry? b.handle = some f ∧ comesFirst (a.handle, e) (b.handle, f))
  ∨ a.handle = b.handle ∧ ∃ e pl, s.entry? a.handle = some e ∧ e.plan = some pl ∧
      (passRank e.chunks pl.decodePoint a.offset < passRank e.chunks pl.decodePoint b.offset
        ∨ a.offset = b.offset ∧ a.position < b.position)

/-! ### Passes (R88, R132, R134, R136) -/

/-- R16, R132: the bytes a pass writes with a row. -/
def passBytes (s : State) (x : Pass) (row : List Byte) : List Byte :=
  (List.range x.length).map fun b => gfSum (List.zipWith gfMul row (x.sources.map fun c => (s.bytesOf c).getD b 0))

/-- R134: the comparison of a pass agrees, or there is none. -/
def passAgrees (s : State) (x : Pass) : Prop :=
  ∀ c row, x.check = some (c, row) → passBytes s x row = (s.bytesOf c).take x.length

/-- R133, R136, R141: what an output of a completing pass puts into the queue of port `q`. -/
def keptOn (s : State) (x : Pass) (e : Entry) (q : PortId) (o : PassOutput) : Option Output :=
  match e.target? o.position with
  | some t => match t.dest with
    | some n =>
      if (s.node n).route = some q ∧ s.targetNeeds x.handle o.position t x.offset = true then
        some ⟨x.handle, x.stripe, o.position, x.offset, x.length, crc32c (passBytes s x o.row), o.cell, n⟩
      else none
    | none => none
  | none => none

/-- R88: the decode point that follows `d`, over the offsets still needed. -/
def followsPoint (needed : Offset → Prop) (d d' : Offset) : Prop :=
  (needed d' ∧ d < d' ∧ ∀ o, needed o → d < o → d' ≤ o)
  ∨ ((∀ o, needed o → o ≤ d) ∧ needed d' ∧ ∀ o, needed o → d' ≤ o)
  ∨ ((∀ o, ¬needed o) ∧ d' = d)

/-! ### Planning (R67 to R85, R94 to R100) -/

/-- Each handle of a list is treated in its turn. -/
def inTurn {α : Type} (treat : α → Handle → α → Prop) : α → List Handle → α → Prop
  | a, [], b => b = a
  | a, h :: rest, b => ∃ c, treat a h c ∧ inTurn treat c rest b

/-- R67: the list holds, once each and in queue order, the entries that satisfy a test. -/
def State.inQueueOrder (s : State) (f : Entry → Prop) (l : List Handle) : Prop :=
  l.Nodup ∧ (∀ h, h ∈ l ↔ ∃ e, s.entry? h = some e ∧ f e)
  ∧ l.Pairwise fun a b => ∀ e f, s.entry? a = some e → s.entry? b = some f → comesFirst (a, e) (b, f)

/-- R99: the idle Matrix Unit begins on the bank at the head of the FIFO, and is counted; else nothing changes. -/
def beginsInversion (s t : State) : Prop :=
  (∀ b rest k, s.matrix = none → s.inversionFifo = b :: rest → (s.bank b).key = some k →
    t = { s with
      matrix := some ⟨s.code k.profile, augmented (s.code k.profile) k.sources⟩
      counters := s.counters.set 14 (s.counters[14] + 1) })
  ∧ (s.matrix ≠ none ∨ s.inversionFifo = [] → t = s)

/-- R94: in the step from `s` to `t` the bank `b` is used, and becomes `x` but for its stamp. -/
def usesBank (s t : State) (b : BankId) (x : Bank) : Prop :=
  t.bank b = { x with stamp := 7 } ∧ ∀ j, j ≠ b →
    t.bank j = if (s.bank b).stamp < (s.bank j).stamp then { s.bank j with stamp := (s.bank j).stamp - 1 } else s.bank j

/-- R95 to R97, R99: a lookup for a key takes a reference on the bank that holds it, or gives the key the lowest EMPTY
bank, else the READY bank without references used longest ago, READY at once on the fast path and else at the tail of
the FIFO; or finds no bank. -/
def looksUp (s t : State) (key : Key) (found : Option BankId) : Prop :=
  let holds (b : BankId) : Prop := (s.bank b).key = some key ∧ (s.bank b).state ≠ .empty ∧ (s.bank b).discard = false
  let empty (b : BankId) : Prop := (s.bank b).state = .empty
  let idle (b : BankId) : Prop := (s.bank b).state = .ready ∧ (s.bank b).refs = 0
  let code := s.code key.profile
  (∀ b, holds b → (∀ j < b, ¬holds j) →
    found = some b ∧ usesBank s t b { s.bank b with refs := (s.bank b).refs + 1 }
    ∧ { s with banks := t.banks, counters := s.counters.set 12 (s.counters[12] + 1) } = t)
  ∧ ((∀ j, ¬holds j) → ∀ b,
      (empty b ∧ ∀ j < b, ¬empty j) ∨ ((∀ j, ¬empty j) ∧ idle b ∧ ∀ j, j ≠ b → idle j → (s.bank b).stamp < (s.bank j).stamp) →
      let missed := s.counters.set 13 (s.counters[13] + 1)
      found = some b
      ∧ (key.sources = List.range code.k →
          usesBank s t b ⟨.ready, some key, (key.targets ++ key.check.toList).map (generatorRow code), 1, 7, false⟩
          ∧ { s with banks := t.banks, counters := missed } = t)
      ∧ (key.sources ≠ List.range code.k → ∃ u,
          usesBank s u b ⟨.inverting, some key, [], 1, 7, false⟩
          ∧ { s with banks := u.banks, inversionFifo := s.inversionFifo ++ [b], counters := missed } = u
          ∧ beginsInversion u t))
  ∧ ((∀ j, ¬holds j ∧ ¬empty j ∧ ¬idle j) → found = none ∧ t = s)

/-- R84 to R86, R100, R53: from the state `u` the PLANNING entry `e` at `h`, with no replan pending, a complete plan and a
READY bank, enters ACTIVE, or SETTLING where all is covered and no pass is in flight; any other stays as it is. -/
def activates (u t : State) (h : Handle) (e : Entry) : Prop :=
  let ready : Prop := e.state = .planning ∧ e.replan = false ∧ e.planComplete = true
    ∧ ∃ b, e.plan.bind Plan.bank = some b ∧ (u.bank b).state = .ready
  let done : Prop := e.allCovered = true ∧ ∀ l x, u.lane l = some x → x.handle ≠ h
  (¬ready → t = u) ∧ (ready → ¬done → t = u.setEntry h { e with state := .active })
  ∧ (ready → done → givesUpPlan u t h e { e with state := .settling, plan := none }
      ∧ { u with entries := t.entries, banks := t.banks, cells := t.cells, attempt := t.attempt } = t)

/-- R73 step 3, R84 step 3, R42, R43: a member that is given a destination `n`, or none. -/
def Member.given (start : Offset) (n : Option NodeId) (m : Member) : Member :=
  match n with
  | some n => { m with
      state := .rebuilding
      target := some { m.target.getD Target.fresh with dest := some n, start := start, coverage := [] } }
  | none => if m.state = .lost ∧ m.target = none then { m with target := some Target.fresh } else m

/-- An entry whose positions take the destinations chosen. -/
def Entry.given (e : Entry) (chosen : List (Position × NodeId)) (start : Offset) : Entry :=
  { e with members := e.members.mapIdx fun j m => m.given start ((chosen.find? fun c => decide (c.1 = j)).map Prod.snd) }

/-- R62: the flags that choices set, on top of those set before. -/
def EntryFlags.with (f : EntryFlags) (relaxed skipped suspect : Bool) : EntryFlags :=
  ⟨f.relaxed || relaxed, f.checkSkipped || skipped, f.suspectUsed || suspect⟩

/-- R73 steps 3 and 4, R35: in `t` the selector stands as the choices left it and every node carries the loads of the
destinations chosen. -/
def loadsGiven (s t : State) (d : DestChoice) : Prop :=
  t.selector = d.selector ∧ ∀ n, t.node n =
    { s.node n with load := (s.node n).load + d.chosen.countP fun c => decide (c.2 = n) }

/-- R72: `n` FREE cells, or as many as there are, become RESERVED to the floor of the entry at `h`. -/
def reserves (s t : State) (h : Handle) (n : Nat) : Prop :=
  ∃ l : List CellId, l.Nodup ∧ l.length = min n s.freeCount ∧ (∀ c ∈ l, s.cell c = none)
    ∧ (∀ c ∈ l, t.cell c = some ⟨h, .floor, .floor, []⟩) ∧ ∀ c, c ∉ l → t.cell c = s.cell c

/-- R72: at a revision the floor of the entry at `h` takes its new size, compared with its floor count (log 40): surplus
unused floor cells are released, or FREE cells, as many as there are, make up what is missing. -/
def resizesFloor (s t : State) (h : Handle) (size : Nat) : Prop :=
  (s.floorCount h ≤ size → reserves s t h (size - s.floorCount h))
  ∧ (size < s.floorCount h → ∃ l : List CellId, l.Nodup ∧ l.length = min (s.floorCount h - size) (s.unusedFloorCount h)
      ∧ (∀ c ∈ l, ∃ x, s.cell c = some x ∧ x.owner = h ∧ x.use = .floor) ∧ releases s l t)

/-- R73, R92: from the state `s` the entry `e` at `h`, whose needs are all met, is activated on the sources `x`. -/
def activated (s t : State) (h : Handle) (e : Entry) (x : SourceChoice) : Prop :=
  let d := s.destChoice e
  let floor := (s.code e.profile).k + (if x.check = none then 0 else 1) + e.lostCount
  let key : Key := ⟨e.profile, x.sources, e.targetPositions, x.check⟩
  ∃ (u v : State) (b : BankId) (o : Offset),
    let f : Entry := { e.given d.chosen o with
      state := .planning, wait := none, replan := false, flags := e.flags.with d.relaxed x.skipped x.suspect
      plan := some ⟨some x.sources, x.check, some b, o, floor, some key⟩ }
    ((o < (e.length + 65535) / 65536 ∧ s.needed h f o = true ∧ ∀ p < o, s.needed h f p = false)
      ∨ (o = 0 ∧ ∀ p < (e.length + 65535) / 65536, s.needed h f p = false))
    ∧ { s with nodes := v.nodes, selector := v.selector, cells := v.cells } = v
    ∧ loadsGiven s v d ∧ floor ≤ s.freeCount ∧ reserves s v h floor
    ∧ looksUp v u key (some b) ∧ activates (u.setEntry h f) t h f

/-- R69, R70: the walk decides the QUEUED entry at `h`: the first need that fails is its wait reason; with every need met
it is activated, unless a critical hold keeps an entry of another class waiting. -/
def decides (w : Walk) (h : Handle) (w' : Walk) : Prop :=
  ∀ e, w.state.entry? h = some e →
    let s := w.state
    let c := s.code e.profile
    let left (r : WaitReason) : Prop := w'.state = s.setEntry h { e with wait := some r } ∧ w'.blocked = true
    let waits (r : WaitReason) : Prop := left r
      ∧ w'.hold = (if w.blocked = true then w.hold
          else if e.urgency = .critical ∧ (r = .noCells ∨ r = .noBank) then some r else none)
      ∧ (w'.starved = true ↔ w.starved = true ∨ e.urgency = .critical ∧ r = .noSlot)
    (s.chooseSources e c.k = none → waits .noSources)
    ∧ ∀ x, s.chooseSources e c.k = some x →
      let floor := c.k + (if x.check = none then 0 else 1) + e.lostCount
      let key : Key := ⟨e.profile, x.sources, e.targetPositions, x.check⟩
      let slotsHeld := s.entries.countP fun he =>
        decide (he.2.state = .planning ∨ he.2.state = .active ∨ he.2.state = .draining)
      let bankToHave : Prop := ∃ b, ((s.bank b).key = some key ∧ (s.bank b).state ≠ .empty ∧ (s.bank b).discard = false)
        ∨ (s.bank b).state = .empty ∨ ((s.bank b).state = .ready ∧ (s.bank b).refs = 0)
      ((s.destChoice e).complete = false → waits .noDestination)
      ∧ ((s.destChoice e).complete = true →
        (16 ≤ slotsHeld → waits .noSlot)
        ∧ (slotsHeld < 16 → s.freeCount < floor → waits .noCells)
        ∧ (slotsHeld < 16 → floor ≤ s.freeCount → ¬bankToHave → waits .noBank)
        ∧ (slotsHeld < 16 → floor ≤ s.freeCount → bankToHave →
            w'.hold = w.hold ∧ w'.starved = w.starved
            ∧ (∀ r, w.hold = some r → e.urgency ≠ .critical → left r)
            ∧ (w.hold = none ∨ e.urgency = .critical → activated s w'.state h e x ∧ w'.blocked = w.blocked)))

/-- R84 step 2, R121: a SOURCE cell, or the answer cell of a LIVE fetch, of a member that has left the gather set. -/
def outsideCell (s : State) (h : Handle) (gathers : Position → Prop) (c : CellId) : Prop :=
  ((∃ x pos o p, s.cell c = some x ∧ x.owner = h ∧ x.use = .source pos o p ∧ ¬gathers pos) ∧ ¬s.readByPass c)
  ∨ ∃ q, ∃ tag : FetchTag, ∃ f, (s.port q).fetches[tag] = some f ∧ f.handle = h ∧ f.cell = some c ∧ ¬gathers f.position

/-- R84, R85, R92, R121: from the state `s` the entry `e` at `h`, with the plan `pl`, is revised: new sources and check
member, the chunks and fetches of members that have left the gather set given up, missing destinations chosen, the floor
resized, a bank for the new key, one replan counted, and ACTIVE where everything is there. -/
def revised (s t : State) (h : Handle) (e : Entry) (pl : Plan) : Prop :=
  let c := s.code e.profile
  let choice := s.chooseSources e c.k
  let check := choice.bind SourceChoice.check
  let key : Option Key := choice.map fun x => ⟨e.profile, x.sources, e.targetPositions, x.check⟩
  let plan : Plan := { pl with sources := choice.map SourceChoice.sources, check := check, key := key }
  let gathers (pos : Position) : Prop := (∃ l, plan.sources = some l ∧ pos ∈ l) ∨ check = some pos
  let chosen : Entry := { e with
    replan := false, plan := some plan
    flags := e.flags.with false (choice.any SourceChoice.skipped) (choice.any SourceChoice.suspect) }
  let d := s.destChoice e
  let size := c.k + (if check = none then 0 else 1) + e.lostCount
  let f (bank : Option BankId) : Entry := { chosen.given d.chosen pl.decodePoint with
    plan := some { plan with floorSize := size, bank := bank }, flags := chosen.flags.with d.relaxed false false }
  ∃ (v1 v2 u : State) (bank : Option BankId),
    ({ s with entries := v1.entries, ports := v1.ports, cells := v1.cells, attempt := v1.attempt } = v1
      ∧ v1.entries = (s.setEntry h chosen).entries
      ∧ (∀ q, v1.port q = { s.port q with fetches := (v1.port q).fetches })
      ∧ (∀ q (tag : FetchTag),
          ((v1.port q).fetches[tag] = none ↔ ∀ x, (s.port q).fetches[tag] = some x →
            x.handle = h ∧ x.cell ≠ none ∧ ¬gathers x.position)
          ∧ ∀ x, (v1.port q).fetches[tag] = some x → (s.port q).fetches[tag] = some x)
      ∧ ∃ l, (∀ k, k ∈ l ↔ outsideCell s h gathers k) ∧ releases (s.setEntry h chosen) l v1)
    ∧ { v1.setEntry h (f pl.bank) with nodes := v2.nodes, selector := v2.selector, cells := v2.cells, attempt := v2.attempt } = v2
    ∧ loadsGiven s v2 d ∧ resizesFloor (v1.setEntry h (f pl.bank)) v2 h size
    ∧ (∀ b, pl.bank = some b → key ≠ none → (s.bank b).key = key → bank = some b ∧ u = v2)
    ∧ (¬(∃ b, pl.bank = some b ∧ key ≠ none ∧ (s.bank b).key = key) → ∃ v3,
        { v2 with banks := v3.banks, attempt := v3.attempt } = v3
        ∧ (∀ b, v3.bank b = if pl.bank = some b then { s.bank b with refs := (s.bank b).refs - 1 } else s.bank b)
        ∧ (pl.bank ≠ none → v3.attempt = true)
        ∧ (key = none → bank = none ∧ u = v3) ∧ ∀ k, key = some k → looksUp v3 u k bank)
    ∧ activates { u.setEntry h (f bank) with counters := u.counters.set 17 (u.counters[17] + 1) } t h (f bank)

/-- R85, R92: from the state `s` the entry `e` at `h`, whose plan `pl` has its sources and lacks destinations or a bank,
is completed as far as it can be: the missing destinations, and a bank for the key its plan was made with. -/
def completed (s t : State) (h : Handle) (e : Entry) (pl : Plan) : Prop :=
  let d := s.destChoice e
  let f (bank : Option BankId) : Entry := { e.given d.chosen pl.decodePoint with
    plan := some { pl with bank := bank }, flags := e.flags.with d.relaxed false false }
  ∃ (v u : State) (bank : Option BankId),
    { s with nodes := v.nodes, selector := v.selector } = v ∧ loadsGiven s v d
    ∧ (pl.bank ≠ none ∨ pl.key = none → bank = pl.bank ∧ u = v)
    ∧ (∀ k, pl.bank = none → pl.key = some k → looksUp v u k bank)
    ∧ activates (u.setEntry h (f bank)) t h (f bank)

/-- R68 step 1, R84, R85: the entry at `h` is served: revised where a replan is pending or it lacks its sources, else
completed; one whose plan is complete is left as it is. -/
def serves (s : State) (h : Handle) (t : State) : Prop :=
  ∀ e, s.entry? h = some e → (e.plan = none → t = s) ∧ ∀ pl, e.plan = some pl →
    (e.replan = true ∨ pl.sources = none → revised s t h e pl)
    ∧ (e.replan = false → pl.sources ≠ none → e.planComplete = false → completed s t h e pl)
    ∧ (e.replan = false → e.planComplete = true → t = s)

/-- R82, R120: from the state `s` the entry `e` at `h` is marked for parking: its fetches are WITHDRAWN, one park is
counted, and it parks at once where no pass of it is in flight. -/
def marksPark (s t : State) (h : Handle) (e : Entry) : Prop :=
  let marked : State := { s with
    park := some h
    counters := s.counters.set 16 (s.counters[16] + 1)
    ports := mapVec (fun (q : Port) => { q with
      fetches := mapVec (fun x => x.map fun f => if f.handle = h then { f with cell := none } else f) q.fetches }) s.ports }
  ∃ v, afterRelease marked v (liveCell s h)
    ∧ ((∃ l x, s.lane l = some x ∧ x.handle = h) → t = v)
    ∧ ((∀ l x, s.lane l = some x → x.handle ≠ h) → t.park = none
        ∧ givesUpPlan v t h e { e with state := .queued, wait := some .noSlot, plan := none, replan := false }
        ∧ { v with entries := t.entries, banks := t.banks, cells := t.cells, attempt := t.attempt, park := none } = t)

/-- R81: the end of a planning attempt whose walk came to `w`: the youngest ACTIVE ROUTINE entry is marked for parking
where a CRITICAL entry was given NO-SLOT and no park is pending. -/
def endsAttempt (w : Walk) (t : State) : Prop :=
  let s := w.state
  let candidate (h : Handle) (e : Entry) : Prop := s.entry? h = some e ∧ e.state = .active ∧ e.urgency = .routine
  (w.starved = false ∨ s.park ≠ none ∨ (∀ h e, ¬candidate h e) → t = s)
  ∧ ∀ h e, w.starved = true → s.park = none → candidate h e →
      (∀ j f, candidate j f → j = h ∨ comesFirst (j, f) (h, e)) → marksPark s t h e

/-! ### Records in the memory space (R163, R171) -/

/-- R171: the little-endian number of `n` bytes at byte `off` of the request slot of index `head`. -/
def slotNumber (m : Memory) (head off n : Nat) : Nat :=
  ((List.range n).map fun i => (Memory.read m (0x1000 + 128 * (head % 64) + off + i)).toNat * 256 ^ i).sum

/-- R163, R171: the fields of the request record at a port's request head stand in its slot at the bytes R171 lists. -/
structure requestLaidOut (q : Port) : Prop where
  kind : q.request.kind.toNat = slotNumber q.slots q.reqHead 0 1
  tag : q.request.tag.toNat = slotNumber q.slots q.reqHead 2 2
  stripe : q.request.stripe.toNat = slotNumber q.slots q.reqHead 8 8
  submitProfile : q.request.submitProfile = slotNumber q.slots q.reqHead 16 1
  memberCount : q.request.memberCount = slotNumber q.slots q.reqHead 17 1
  crossCheck : q.request.crossCheck = slotNumber q.slots q.reqHead 18 1
  length : q.request.length = slotNumber q.slots q.reqHead 20 4
  knownLost : ∀ pos < 24, q.request.knownLost pos = (slotNumber q.slots q.reqHead 24 3).testBit pos
  memberNode : ∀ pos < 24, q.request.memberNode pos = slotNumber q.slots q.reqHead (32 + 2 * pos) 2
  handle : q.request.handle = slotNumber q.slots q.reqHead 16 2
  withdrawMode : q.request.withdrawMode = slotNumber q.slots q.reqHead 18 1
  fetchTag : q.request.fetchTag = slotNumber q.slots q.reqHead 16 1
  declineCause : q.request.declineCause = slotNumber q.slots q.reqHead 17 1
  checksum : q.request.checksum.toNat = slotNumber q.slots q.reqHead 20 4
  address : q.request.address.toNat = slotNumber q.slots q.reqHead 24 8
  position : q.request.position = slotNumber q.slots q.reqHead 18 1
  nodeId : q.request.nodeId = slotNumber q.slots q.reqHead 16 2
  rackId : q.request.rackId = slotNumber q.slots q.reqHead 18 1
  routePort : q.request.routePort = slotNumber q.slots q.reqHead 19 1
  profileIndex : q.request.profileIndex = slotNumber q.slots q.reqHead 16 1
  profileK : q.request.profileK = slotNumber q.slots q.reqHead 17 1
  profileM : q.request.profileM = slotNumber q.slots q.reqHead 18 1
  quorum : q.request.quorum = slotNumber q.slots q.reqHead 16 1
  window : q.request.window = slotNumber q.slots q.reqHead 17 1
  fetchTimeout : q.request.fetchTimeout = slotNumber q.slots q.reqHead 20 2
  landingTimeout : q.request.landingTimeout = slotNumber q.slots q.reqHead 22 2
  epochLength : q.request.epochLength = slotNumber q.slots q.reqHead 24 2
  creditLimit : q.request.creditLimit = slotNumber q.slots q.reqHead 16 1
  cellQuota : q.request.cellQuota = slotNumber q.slots q.reqHead 20 2
  budget : q.request.budget = slotNumber q.slots q.reqHead 20 2
  pressureMode : q.request.pressureMode = slotNumber q.slots q.reqHead 16 1

/-- A byte of a record from its fields, each an offset, a width and a little-endian number; a byte not listed is 0. -/
def bytesAt (fields : List (Nat × Nat × Nat)) (i : Nat) : Byte :=
  match fields.find? fun f => decide (f.1 ≤ i ∧ i < f.1 + f.2.1) with
  | some f => BitVec.ofNat 8 (f.2.2 / 256 ^ (i - f.1))
  | none => 0

/-- R171: the value codes of outcome and cause. -/
def outcomeCodes (o : Option EntryOutcome) : Nat × Nat :=
  match o with
  | none => (0, 0)
  | some .done => (1, 0)
  | some (.failed c) => (2, 1 + [FailCause.unrecoverable, .inconsistent, .cancelled, .orphaned].idxOf c)

/-- R171: a bit of a byte of flags. -/
def bit (b : Bool) (i : Nat) : Nat := if b then 2 ^ i else 0

/-- R171: the 16 bytes of a member in a QUERY response, from `base`; what is absent is 0 (log 34). -/
def memberLayout (base : Nat) (m : MemberReport) : List (Nat × Nat × Nat) :=
  [(base, 2, m.node.val), (base + 2, 1, [MemberState.held, .lost, .rebuilding].idxOf m.state),
   (base + 3, 1, [none, some LostCause.reported, some .nodeDown, some .corrupt, some .unresponsive].idxOf m.cause),
   (base + 4, 1, m.strikes), (base + 5, 1, bit m.targetPresent 0 + bit m.stored 1 + bit m.dest.isSome 2),
   (base + 6, 2, (m.dest.map Fin.val).getD 0), (base + 8, 2, m.start), (base + 10, 2, m.covered), (base + 12, 1, m.voids)]

/-- R171: the value codes of the entry states. -/
def entryStateCode (st : EntryState) : Nat :=
  [EntryState.queued, .planning, .active, .draining, .settling, .closed].idxOf st

/-- R171: the body of a response; what a report lacks is 0 unless R171 gives it a code (log 34), and a refused request
has none. -/
def bodyLayout : Body → List (Nat × Nat × Nat)
  | .none => []
  | .created h seq => [(8, 2, h), (12, 4, seq.toNat)]
  | .existing h => [(8, 2, h)]
  | .closing h st => [(8, 2, h), (16, 1, entryStateCode st)]
  | .limits credit quota => [(8, 1, credit), (10, 2, quota)]
  | .budget active => [(8, 2, active)]
  | .hold held => [(8, 1, bit held 0)]
  | .deltas d => (List.finRange 18).map fun i => (8 + 8 * i.val, 6, d[i].toNat)
  | .report q =>
    [(8, 8, q.stripe.toNat), (16, 2, q.handle), (18, 1, entryStateCode q.state),
     (19, 1, [none, some WaitReason.noSources, some .noDestination, some .noSlot, some .noCells, some .noBank].idxOf q.wait),
     (20, 1, [Urgency.critical, .urgent, .routine].idxOf q.urgency), (21, 1, q.lostCount),
     (22, 1, (BitVec.ofInt 8 q.margin).toNat), (23, 1, q.profile.val), (24, 4, q.sequence.toNat), (28, 4, q.length),
     (32, 2, q.chunks), (34, 1, q.submitters.toNat), (35, 1, bit q.crossCheck 0),
     (36, 1, bit q.flags.relaxed 0 + bit q.flags.checkSkipped 1 + bit q.flags.suspectUsed 2),
     (37, 1, (outcomeCodes q.outcome).1), (38, 1, (outcomeCodes q.outcome).2),
     (39, 1, bit q.planPresent 0 + bit q.parkPending 1 + bit q.replanPending 2),
     (40, 3, (q.sources.getD []).foldl (fun a pos => a ||| 2 ^ pos) 0), (43, 1, q.check.getD 0xFF),
     (44, 1, (q.bank.map Fin.val).getD 0xFF), (46, 2, q.decodePoint)]
    ++ (q.members.zipIdx.map fun mi => memberLayout (64 + 16 * mi.2) mi.1).flatten

/-- R171: the layouts of the response and the notices. -/
def recordLayout : Record → List (Nat × Nat × Nat)
  | .response kind tag st b =>
    [(0, 1, 0x80), (1, 1, kind.toNat), (2, 2, tag.toNat),
     (4, 1, [Status.ok, .merged, .full, .conflict, .closing, .nothingLost, .unrecoverable, .inUse, .invalid, .unknown, .stale,
       .late, .mismatch, .misrouted, .gone, .badsum, .early, .notSubmitter].idxOf st)] ++ bodyLayout b
  | .fetch stripe h tag pos node off len =>
    [(0, 1, 0x81), (8, 8, stripe.toNat), (16, 2, h), (18, 1, tag.val), (19, 1, pos), (20, 2, node.val), (22, 2, off), (24, 4, len)]
  | .landed stripe h pos off len crc buffer =>
    [(0, 1, 0x82), (8, 8, stripe.toNat), (16, 2, h), (18, 1, pos), (22, 2, off), (24, 4, len), (28, 4, crc.toNat),
     (32, 8, buffer.toNat)]
  | .closed stripe h o f lost =>
    [(0, 1, 0x83), (8, 8, stripe.toNat), (16, 2, h), (18, 1, (outcomeCodes o).1), (19, 1, (outcomeCodes o).2),
     (20, 1, bit f.relaxed 0 + bit f.checkSkipped 1 + bit f.suspectUsed 2), (21, 1, lost)]
  | .nodeState n st rack route =>
    [(0, 1, 0x84), (16, 2, n.val), (18, 1, [NodeState.undefined, .up, .suspect, .down].idxOf st),
     (19, 1, (rack.map Fin.val).getD 0), (20, 1, (route.map Fin.val).getD 0)]
  | .void stripe pos n => [(0, 1, 0x85), (8, 8, stripe.toNat), (18, 1, pos), (20, 2, n.val)]

/-! ### Invariants -/

/-- R79, R94, R30, R107, R110, R118, R145, R154, R155, R163: the selector is not zero, the stamps of the banks are a
permutation of 0 to 7, every setting lies in its range, the indices and the request slots keep their form, the table
lists its entries by rising handle. -/
def State.settingsHold (s : State) : Prop :=
  s.selector ≠ 0
  ∧ (∀ b, (s.bank b).stamp < 8) ∧ (∀ a b, (s.bank a).stamp = (s.bank b).stamp → a = b)
  ∧ (1 ≤ s.quorum ∧ s.quorum ≤ 4) ∧ (1 ≤ s.window ∧ s.window ≤ 8) ∧ (10 ≤ s.fetchTimeout ∧ s.fetchTimeout ≤ 5000)
  ∧ (100 ≤ s.landingTimeout ∧ s.landingTimeout ≤ 60000) ∧ (1 ≤ s.epochLength ∧ s.epochLength ≤ 1000)
  ∧ s.rising
  ∧ ∀ p, let q := s.port p
      (1 ≤ q.credit ∧ q.credit ≤ 32) ∧ (16 ≤ q.quota ∧ q.quota ≤ 512) ∧ q.landing.length ≤ 32
      ∧ q.budget.used ≤ 65535 ∧ q.budget.active ≤ 65535 ∧ q.budget.shadow ≤ 65535
      ∧ q.reqTail < 128 ∧ q.reqHead < 128 ∧ q.respTail < 320 ∧ q.respHead < 320
      ∧ (q.respHead + q.responses.length) % 320 = q.respTail ∧ Memory.wf q.slots

/-- R40, R56: every entry stands at a handle below 4,096, no two share a stripe id, a live entry has a submitter, and
a plan is present only in PLANNING, ACTIVE and DRAINING. -/
def State.tableHolds (s : State) : Prop :=
  s.rising ∧ (∀ he ∈ s.entries, he.1 < 4096)
  ∧ (∀ a ∈ s.entries, ∀ b ∈ s.entries, a.2.stripe = b.2.stripe → a.1 = b.1)
  ∧ ∀ he ∈ s.entries, (he.2.state ≠ .closed → he.2.submitters ≠ 0)
      ∧ (he.2.plan ≠ none → he.2.state = .planning ∨ he.2.state = .active ∨ he.2.state = .draining)

/-- R165: the shares of a port's response queue are within their sizes: 64 responses, 32 FETCH, 32 LANDED, 32
coalesced; so the queue never holds more than 160 records. -/
def State.sharesHold (s : State) : Prop :=
  ∀ p, let q := s.port p
    s.responseShareUsed p ≤ 64 ∧ q.responses.countP Record.isFetch ≤ 32 ∧ s.landedShareUsed p ≤ 32
    ∧ q.responses.countP Record.isCoalesced ≤ 32 ∧ q.responses.length ≤ 160

/-! ### Down reports (R25 to R27) -/

/-- R25, R27: an UP or SUSPECT node with `reports` becomes DOWN under a quorum. -/
def Node.falls (quorum : Nat) (x : Node) : Prop := (x.state = .up ∨ x.state = .suspect) ∧ quorum ≤ PortSet.size x.reports

/-- R27: a node that has become DOWN. -/
def Node.fallen (x : Node) : Node := { x with state := .down, failures := 0, severe := 0, clean := 0, marks := 15#4 }

/-- R25: a node with port `p` in its down-report set, where the set is open. -/
def Node.withReport (p : PortId) (x : Node) : Node :=
  if x.state = .up ∨ x.state = .suspect then { x with reports := PortSet.add x.reports p } else x

/-! ### The form of a SUBMIT (R46) -/

/-- The code that a SUBMIT's profile index names. -/
def submitCode (s : State) (r : Request) : Option Code := (asFin 8 r.submitProfile).bind fun i => (s.profile i).code

/-- The listed node of a position (for a form that passes R46, the id is below 256). -/
def nodeAt (r : Request) (i : Position) : NodeId := Fin.ofNat 256 (r.memberNode i)

/-- R46: the fields of a SUBMIT under a code with `n` positions. -/
def submitFieldsInvalid (n : Nat) (r : Request) : Prop :=
  r.length = 0 ∨ 2 ^ 30 < r.length ∨ r.memberCount ≠ n ∨ (∃ i < n, 255 < r.memberNode i)
    ∨ (∃ i < n, ∃ j < n, i ≠ j ∧ r.memberNode i = r.memberNode j)
    ∨ (∃ i, n ≤ i ∧ r.knownLost i = true) ∨ 1 < r.crossCheck

/-- R46: the form of a SUBMIT passes under code `c`, for profile `i`. -/
def submitPasses (s : State) (r : Request) (i : ProfileId) (c : Code) : Prop :=
  i.val = r.submitProfile ∧ (s.profile i).code = some c ∧ ¬submitFieldsInvalid (c.k + c.m) r
    ∧ ∀ j < c.k + c.m, (s.node (nodeAt r j)).state ≠ .undefined

/-- R49: the position would be created LOST. -/
def submitLoses (s : State) (r : Request) (j : Position) : Bool :=
  r.knownLost j || decide ((s.node (nodeAt r j)).state = .down)

/-- R49: the lost count that the new entry would have. -/
def submitLost (s : State) (r : Request) (c : Code) : Nat := (List.range (c.k + c.m)).countP (submitLoses s r)

/-- R47: the SUBMIT agrees with an entry in profile, length and every node id. -/
def submitAgrees (r : Request) (c : Code) (e : Entry) : Prop :=
  e.profile.val = r.submitProfile ∧ e.length = r.length ∧ e.members.map Member.node = (List.range (c.k + c.m)).map (nodeAt r)

/-- R49, R42: the entry a SUBMIT creates. -/
def submitEntry (s : State) (p : PortId) (r : Request) (i : ProfileId) (c : Code) : Entry :=
  { stripe := r.stripe
    sequence := s.sequenceCounter
    profile := i
    length := r.length
    members := (List.range (c.k + c.m)).map fun j =>
      { node := nodeAt r j
        state := if submitLoses s r j then .lost else .held
        cause := if r.knownLost j then some .reported else if submitLoses s r j then some .nodeDown else none
        strikes := 0
        target := none }
    submitters := PortSet.single p
    state := .queued
    wait := some .noSlot
    urgency := classFor c.m (submitLost s r c)
    crossCheck := decide (r.crossCheck = 1)
    plan := none
    replan := false
    outcome := none
    flags := ⟨false, false, false⟩
    closedMarks := 0 }

end Sys2Proof.Machine
end

