-- ==== Sys2Proof/Certificates/Slice0/Obligations.lean ====
section
/-! DEFINITION. The statements for the provers. -/

open Sys2Proof Sys2Proof.Machine Sys2Proof.Config

/-! ### The queue of commands, and reset -/

/-- A step takes the command at the front of the queue and executes it on the state with the queue's rest. -/
def Obligations.StepExecutesFrontCommand : Prop :=
  ∀ (s : State) (i : Instr) (rest : List Instr),
    s.pending = i :: rest → step s = exec i { s with pending := rest }

/-- With no command waiting the part idles; a request row with no record to take, or with a record of another kind
at the head, changes nothing (the model's choice, log 1; the kinds are those of R171, an unknown kind is none of them:
R164). -/
def Obligations.NothingToTakeChangesNothing : Prop :=
  (∀ s : State, s.pending = [] → step s = .next s)
  ∧ (∀ (s : State) (p : PortId), ¬s.mayTakeNext p →
      exec (.submit p) s = .next s ∧ exec (.withdraw p) s = .next s ∧ exec (.query p) s = .next s
      ∧ exec (.offer p) s = .next s ∧ exec (.decline p) s = .next s ∧ exec (.postLanding p) s = .next s
      ∧ exec (.stored p) s = .next s ∧ exec (.refuseFragment p) s = .next s ∧ exec (.defineNode p) s = .next s
      ∧ exec (.reportDown p) s = .next s ∧ exec (.reportRackDown p) s = .next s ∧ exec (.retractDown p) s = .next s
      ∧ exec (.reviveNode p) s = .next s ∧ exec (.clearSuspect p) s = .next s ∧ exec (.setProfile p) s = .next s
      ∧ exec (.setDevice p) s = .next s ∧ exec (.setLimits p) s = .next s ∧ exec (.setPacing p) s = .next s
      ∧ exec (.setPressureMode p) s = .next s ∧ exec (.releasePressure p) s = .next s
      ∧ exec (.snapshot p) s = .next s ∧ exec (.readCounters p) s = .next s ∧ exec (.portReset p) s = .next s
      ∧ exec (.unknownKindRequest p) s = .next s)
  ∧ ∀ (s : State) (p : PortId), let kind := (s.port p).request.kind
      (∀ (k : Byte) (i : Instr), (k, i) ∈ [(1#8, Instr.submit p), (2#8, .withdraw p), (3#8, .query p), (4#8, .offer p),
          (5#8, .decline p), (6#8, .postLanding p), (7#8, .stored p), (8#8, .refuseFragment p), (9#8, .defineNode p),
          (10#8, .reportDown p), (11#8, .reportRackDown p), (12#8, .retractDown p), (13#8, .reviveNode p),
          (14#8, .clearSuspect p), (15#8, .setProfile p), (16#8, .setDevice p), (17#8, .setLimits p), (18#8, .setPacing p),
          (19#8, .setPressureMode p), (20#8, .releasePressure p), (21#8, .snapshot p), (22#8, .readCounters p),
          (23#8, .portReset p)] → kind ≠ k → exec i s = .next s)
      ∧ (kind.toNat ≠ 0 → kind.toNat ≤ 23 → exec (.unknownKindRequest p) s = .next s)

/-- R170 and each chapter's values after device reset (the pins and the request slots as the model chose them: logs 9
and 10). -/
def Obligations.ResetStateHasTheStatedValues : Prop :=
  let s := State.reset
  (∀ n, s.node n = { state := .undefined, rack := none, route := none, reports := 0, failures := 0, severe := 0, clean := 0, load := 0, marks := 0 })
  ∧ (∀ i, s.profile i = ⟨none, 0⟩) ∧ s.entries = [] ∧ s.sequenceCounter = 0 ∧ s.attempt = false ∧ s.park = none
  ∧ s.selector = 0x5A3C#16 ∧ s.quorum = 2 ∧ s.window = 4 ∧ s.fetchTimeout = 200 ∧ s.landingTimeout = 2000
  ∧ s.epochLength = 10 ∧ s.timebase = 0 ∧ s.nextBoundary = 10#48 ∧ s.sweepFifo = [] ∧ s.sweep = none
  ∧ (∀ b, (s.bank b).state = .empty ∧ (s.bank b).key = none ∧ (s.bank b).rows = [] ∧ (s.bank b).refs = 0
        ∧ (s.bank b).stamp = b.val ∧ (s.bank b).discard = false)
  ∧ s.inversionFifo = [] ∧ s.matrix = none ∧ s.transfers = [] ∧ s.deliveries = [] ∧ (∀ c, s.cell c = none)
  ∧ (∀ l, s.lane l = none) ∧ (∀ i : Fin 18, s.counters[i] = 0)
  ∧ (∀ p, (s.port p).state = .down ∧ (s.port p).reqTail = 0 ∧ (s.port p).reqHead = 0 ∧ (s.port p).respTail = 0
        ∧ (s.port p).respHead = 0 ∧ (s.port p).responses = [] ∧ (∀ t : FetchTag, (s.port p).fetches[t] = none)
        ∧ (s.port p).credit = 16 ∧ (s.port p).quota = 128 ∧ (s.port p).landing = [] ∧ (s.port p).wait = none
        ∧ (s.port p).outputs = [] ∧ (s.port p).budget = ⟨0, 0, 0, false⟩ ∧ (s.port p).mode = .follow
        ∧ (s.port p).held = false ∧ (s.port p).epochMark = false ∧ (s.port p).eventEnable = false
        ∧ ∀ i : Fin 18, (s.port p).baseline[i] = 0)
  ∧ s.pending = []

/-! ### Requests that act on their own port -/

/-- R164: a record whose kind is none of the 23 is refused INVALID with the kind and tag as found. -/
def Obligations.UnknownKindIsRefusedInvalid : Prop :=
  ∀ (s : State) (p : PortId), s.mayTakeNext p →
    ((s.port p).request.kind.toNat = 0 ∨ 23 < (s.port p).request.kind.toNat) →
    exec (.unknownKindRequest p) s = .next (s.answered p (s.port p).request.kind .invalid .none)

/-- R164, R155: SET-LIMITS stores its values clamped to 1 to 32 and 16 to 512, and answers them; SET-PACING writes the
shadow budget and sets switch-pending, and its answer carries the active budget. -/
def Obligations.LimitsAndPacingAreStored : Prop :=
  (∀ (s : State) (p : PortId), s.offers p 17 →
      let r := (s.port p).request
      let credit := max 1 (min 32 r.creditLimit)
      let quota := max 16 (min 512 r.cellQuota)
      exec (.setLimits p) s =
        .next (s.setPort p (({ s.port p with credit := credit, quota := quota } : Port).answered 17 r.tag .ok (.limits credit quota))))
  ∧ (∀ (s : State) (p : PortId), s.offers p 18 →
      let q := s.port p
      let r := q.request
      exec (.setPacing p) s =
        .next (s.setPort p (({ q with budget := ⟨q.budget.active, q.budget.used, r.budget, true⟩ } : Port).answered 18 r.tag .ok
          (.budget q.budget.active))))

/-- R159, R171: SET-PRESSURE-MODE takes a mode and sets the hold by the table, another value is refused INVALID (with no
hold in its response: the model's choice, log 34); RELEASE-PRESSURE clears a LATCH hold whose input is not asserted, and
else changes nothing. -/
def Obligations.PressureRequestsMoveHold : Prop :=
  (∀ (s : State) (p : PortId), s.offers p 19 →
      let q := s.port p
      let r := q.request
      let becomes (m : PressureMode) (held : Bool) : Prop :=
        exec (.setPressureMode p) s =
          .next (s.setPort p (({ q with mode := m, held := held } : Port).answered 19 r.tag .ok (.hold held)))
      (r.pressureMode ≠ 1 ∧ r.pressureMode ≠ 2 ∧ r.pressureMode ≠ 3 →
        exec (.setPressureMode p) s = .next (s.answered p 19 .invalid .none))
      ∧ (r.pressureMode = 1 → becomes .follow (if q.mode = .follow then q.held else q.pressure))
      ∧ (r.pressureMode = 2 → becomes .holdEpoch (if q.mode = .holdEpoch then q.held else q.held || q.epochMark))
      ∧ (r.pressureMode = 3 → becomes .latch (if q.mode = .latch then q.held else q.held || q.pressure)))
  ∧ (∀ (s : State) (p : PortId), s.offers p 20 →
      let q := s.port p
      let held := if q.mode = .latch ∧ q.pressure = false then false else q.held
      exec (.releasePressure p) s =
        .next (s.setPort p (({ q with held := held } : Port).answered 20 q.request.tag .ok (.hold held))))

/-- R173, R174: SNAPSHOT copies the device counters into the baseline set of its own port; READ-COUNTERS answers the 18
deltas, each modulo 2^48, and changes no counter and no baseline. -/
def Obligations.SnapshotAndReadCountersUseBaseline : Prop :=
  (∀ (s : State) (p : PortId), s.offers p 21 →
      exec (.snapshot p) s =
        .next (s.setPort p (({ s.port p with baseline := s.counters } : Port).answered 21 (s.port p).request.tag .ok .none)))
  ∧ (∀ (s : State) (p : PortId), s.offers p 22 →
      ∃ d : Vector U48 18,
        (∀ i : Fin 18, (d[i].toNat + (s.port p).baseline[i].toNat) % 2 ^ 48 = s.counters[i].toNat)
        ∧ exec (.readCounters p) s = .next (s.answered p 22 .ok (.deltas d)))

/-! ### Host accesses (R163, R167) -/

/-- R163: a request tail that leaves at most 64 records posted is stored, and any other is discarded; while the port
is RESETTING every index write is discarded (values past the range, and a port that is DOWN: logs 15 and 16). -/
def Obligations.RequestTailWriteKeepsQueueDepth : Prop :=
  ∀ (s : State) (p : PortId) (v : U32), s.inReset = false →
    let q := s.port p
    let open_ := q.state = .up ∧ q.link = true ∧ v.toNat < 128 ∧ (v.toNat + 128 - q.reqHead % 128) % 128 ≤ 64
    (open_ → exec (.requestTailWrite p v) s = .next (s.setPort p { q with reqTail := v.toNat }))
    ∧ (¬open_ → exec (.requestTailWrite p v) s = .next s)

/-- R163, R167: a response head that does not pass the tail takes the records before it; a write that leaves records
while the line is asserted sends one message interrupt; any other head is discarded. The model's own readings and
choices in it: message interrupts are counted (log 14). -/
def Obligations.ResponseHeadWriteTakesRecords : Prop :=
  ∀ (s : State) (p : PortId) (v : U32), s.inReset = false →
    let q := s.port p
    let n := (v.toNat + 320 - q.respHead % 320) % 320
    let open_ := q.state = .up ∧ q.link = true ∧ v.toNat < 320 ∧ n ≤ q.responses.length
    (open_ → exec (.responseHeadWrite p v) s =
      .next (s.setPort p { q with
        respHead := v.toNat
        responses := q.responses.drop n
        interrupts := if q.responses.drop n ≠ [] ∧ q.eventEnable = true then q.interrupts + 1 else q.interrupts }))
    ∧ (¬open_ → exec (.responseHeadWrite p v) s = .next s)

/-- R163, R171: a host write of bytes that all lie in request slots, the part's own indices or response slots changes
the bytes of request slots it covers and nothing else. One that covers a byte of a host-owned index is none of this
row's, one outside the memory space faults (log 17), one while the link is down is discarded (log 16). A host reads the
four indices, the request slots, and in the slots of the waiting records their bytes as R171 lays them out, with what is
absent 0 (log 34); a slot with no waiting record reads as some byte (the free value of log 28); elsewhere nothing
stands. The part reads the fields of the request record at the head from the slot of the head modulo 64 as R171 lays
them out. -/
def Obligations.OtherMemoryWriteStoresOrStops : Prop :=
  (∀ (s : State) (p : PortId) (off : Nat) (data : List Byte), s.inReset = false → (s.port p).link = true →
      Memory.wf (s.port p).slots → (∀ i < data.length, otherOffset (off + i) = true) →
      ∃ m : Memory, exec (.otherMemoryWrite p off data) s = .next (s.setPort p { s.port p with slots := m })
        ∧ ∀ a, Memory.read m a =
            if 0x1000 ≤ a ∧ a < 0x3000 ∧ off ≤ a ∧ a < off + data.length then data.getD (a - off) 0
            else Memory.read (s.port p).slots a)
  ∧ (∀ (s : State) (p : PortId) (off : Nat) (data : List Byte),
      ((∃ i < data.length, hostIndexOffset (off + i) = true) →
        exec (.otherMemoryWrite p off data) s = .refused .hostOwnedIndex)
      ∧ ((∀ i < data.length, hostIndexOffset (off + i) = false) → (∃ i < data.length, otherOffset (off + i) = false) →
        exec (.otherMemoryWrite p off data) s = .fault .outsideMemorySpace)
      ∧ ((∀ i < data.length, hostIndexOffset (off + i) = false ∧ otherOffset (off + i) = true) →
        s.inReset = true ∨ (s.port p).link = false → exec (.otherMemoryWrite p off data) s = .next s))
  ∧ (∀ q : Port, requestLaidOut q)
  ∧ ∀ (s : State) (p : PortId),
      let q := s.port p
      (∀ i < 4, ∀ j x, [q.reqTail, q.reqHead, q.respTail, q.respHead][j]? = some x →
        s.hostRead p (4 * j + i) = some (BitVec.ofNat 8 (x / 256 ^ i)))
      ∧ (∀ a, 0x1000 ≤ a → a < 0x3000 → s.hostRead p a = some (Memory.read q.slots a))
      ∧ (∀ i < 512, ∀ j r, j < 160 → q.responses[j]? = some r →
          s.hostRead p (0x4000 + 512 * ((q.respHead + j) % 160) + i) = some (bytesAt (recordLayout r) i))
      ∧ (∀ a, 0x4000 ≤ a → a < 0x18000 → s.hostRead p a ≠ none)
      ∧ ∀ a, (16 ≤ a ∧ a < 0x1000) ∨ (0x3000 ≤ a ∧ a < 0x4000) ∨ 0x18000 ≤ a → s.hostRead p a = none

/-- R167: the host sets and clears the event enable; setting it while records wait sends a message interrupt. The
model's own readings and choices in it: message interrupts are counted (log 14), and the enable follows the link alone
(log 16). -/
def Obligations.EventEnableChangeMovesLine : Prop :=
  ∀ (s : State) (p : PortId) (on : Bool), s.inReset = false → (s.port p).link = true →
    let q := s.port p
    exec (.eventEnableChange p on) s =
      .next (s.setPort p { q with
        eventEnable := on
        interrupts := if q.state = .up ∧ q.responses ≠ [] ∧ q.eventEnable = false ∧ on = true then q.interrupts + 1 else q.interrupts })

/-! ### Pressure and time -/

/-- R158, R161: an assertion makes the hold HELD and sets the mark in every mode; a deassertion clears a FOLLOW hold.
While RST_N is asserted the hold and the mark stand as the input does (log 11). A level an input has already is no
change. -/
def Obligations.PressureInputsMoveHold : Prop :=
  ∀ (s : State) (p : PortId),
    let q := s.port p
    (q.pressure = false →
      exec (.pressureAssertion p) s = .next (s.setPort p { q with pressure := true, held := true, epochMark := true }))
    ∧ (q.pressure = true → s.inReset = false →
      exec (.pressureDeassertion p) s =
        .next (s.setPort p { q with pressure := false, held := if q.mode = .follow then false else q.held }))
    ∧ (q.pressure = true → s.inReset = true →
      exec (.pressureDeassertion p) s = .next (s.setPort p { q with pressure := false, held := false, epochMark := false }))
    ∧ (q.pressure = true → exec (.pressureAssertion p) s = .next s)
    ∧ (q.pressure = false → exec (.pressureDeassertion p) s = .next s)

/-- R153: the timebase rises by 1 and wraps from 2^48 − 1 to 0. -/
def Obligations.TimebaseTickAddsOne : Prop :=
  ∀ s : State, s.inReset = false →
    ∃ t, exec .timebaseTick s = .next { s with timebase := t } ∧ t.toNat = (s.timebase.toNat + 1) % 2 ^ 48

/-! ### The Node Table (02) -/

/-- R22, R23, R24: DEFINE-NODE refuses values out of range, defines an UNDEFINED node, and redefines one that has no
user. -/
def Obligations.DefineNodeDefinesOrRefuses : Prop :=
  ∀ (s : State) (p : PortId), s.offers p 9 →
    let r := (s.port p).request
    (255 < r.nodeId ∨ 63 < r.rackId ∨ 3 < r.routePort → exec (.defineNode p) s = .next (s.answered p 9 .invalid .none))
    ∧ ∀ (n : NodeId) (rack : RackId) (route : PortId), n.val = r.nodeId → rack.val = r.rackId → route.val = r.routePort →
      let x := s.node n
      let same := x.rack = some rack ∧ x.route = some route
      let used := ∃ he ∈ s.entries, ∃ m ∈ he.2.members, m.node = n ∨ ∃ t, m.target = some t ∧ t.dest = some n
      (x.state = .undefined → exec (.defineNode p) s =
        .next (({ s.setNode n { x with state := .up, rack := some rack, route := some route, marks := 15#4 } with
          attempt := true } : State).answered p 9 .ok .none))
      ∧ (x.state ≠ .undefined → same → exec (.defineNode p) s = .next (s.answered p 9 .ok .none))
      ∧ (x.state ≠ .undefined → ¬same → used → exec (.defineNode p) s = .next (s.answered p 9 .inUse .none))
      ∧ (x.state ≠ .undefined → ¬same → ¬used → exec (.defineNode p) s =
        .next ((s.setNode n { x with rack := some rack, route := some route, marks := 15#4 }).answered p 9 .ok .none))

/-- R25, R28, R29, R34: a request naming one node is refused INVALID above 255 and UNKNOWN for an UNDEFINED node, with
nothing changed. -/
def Obligations.OneNodeRequestsRefuseUnknownNodes : Prop :=
  ∀ (s : State) (p : PortId) (k : Byte) (i : Instr),
    (k, i) ∈ [(10#8, Instr.reportDown p), (12#8, .retractDown p), (13#8, .reviveNode p), (14#8, .clearSuspect p)] →
    s.offers p k →
      let r := (s.port p).request
      (255 < r.nodeId → exec i s = .next (s.answered p k .invalid .none))
      ∧ ∀ n : NodeId, n.val = r.nodeId → (s.node n).state = .undefined → exec i s = .next (s.answered p k .unknown .none)

/-- R25, R27: REPORT-DOWN puts the port into the down-report set of an UP or SUSPECT node, and a set that meets the
quorum makes the node DOWN and queues its sweep; a DOWN node is left as it stands. Landing waits follow R145. -/
def Obligations.ReportDownAddsReportAndMeetsQuorum : Prop :=
  ∀ (s : State) (p : PortId) (n : NodeId), s.offers p 10 → n.val = (s.port p).request.nodeId →
    (s.node n).state ≠ .undefined →
    let x := (s.node n).withReport p
    ∃ t, exec (.reportDown p) s = .next t ∧ portsButWaits (s.answered p 10 .ok .none) t
      ∧ (x.falls s.quorum → { s.setNode n x.fallen with
          sweepFifo := s.sweepFifo ++ [n], attempt := true, ports := t.ports } = t)
      ∧ (¬x.falls s.quorum → { s.setNode n x with ports := t.ports } = t)

/-- R26: REPORT-RACK-DOWN treats every node of the rack as R25 does, and queues the sweeps in ascending node id.
Landing waits follow R145. -/
def Obligations.ReportRackDownTreatsWholeRack : Prop :=
  ∀ (s : State) (p : PortId), s.offers p 11 →
    let r := (s.port p).request
    (63 < r.rackId → exec (.reportRackDown p) s = .next (s.answered p 11 .invalid .none))
    ∧ ∀ rack : RackId, rack.val = r.rackId →
      let member (n : NodeId) : Prop := (s.node n).state ≠ .undefined ∧ (s.node n).rack = some rack
      let falls (n : NodeId) : Prop := member n ∧ ((s.node n).withReport p).falls s.quorum
      ∃ t, exec (.reportRackDown p) s = .next t ∧ portsButWaits (s.answered p 11 .ok .none) t
        ∧ { s with nodes := t.nodes, sweepFifo := t.sweepFifo, attempt := t.attempt, ports := t.ports } = t
        ∧ (∀ n, (falls n → t.node n = ((s.node n).withReport p).fallen)
            ∧ (member n → ¬falls n → t.node n = (s.node n).withReport p) ∧ (¬member n → t.node n = s.node n))
        ∧ ∃ l : List NodeId, t.sweepFifo = s.sweepFifo ++ l ∧ l.Pairwise (· < ·) ∧ (∀ n, n ∈ l ↔ falls n)
            ∧ (l ≠ [] → t.attempt = true) ∧ (l = [] → t.attempt = s.attempt)

/-- R28, R34: RETRACT-DOWN takes the port out of the down-report set of an UP or SUSPECT node; CLEAR-SUSPECT returns a
SUSPECT node to UP with both streaks 0, its window failures kept; a node in another state is left. -/
def Obligations.RetractAndClearSuspectActOnNode : Prop :=
  (∀ (s : State) (p : PortId) (n : NodeId), s.offers p 12 → n.val = (s.port p).request.nodeId →
      let x := s.node n
      (x.state = .up ∨ x.state = .suspect → exec (.retractDown p) s =
        .next ((s.setNode n { x with reports := PortSet.remove x.reports p }).answered p 12 .ok .none))
      ∧ (x.state = .down → exec (.retractDown p) s = .next (s.answered p 12 .ok .none)))
  ∧ (∀ (s : State) (p : PortId) (n : NodeId), s.offers p 14 → n.val = (s.port p).request.nodeId →
      let x := s.node n
      (x.state = .suspect → exec (.clearSuspect p) s =
        .next (({ s.setNode n { x with state := .up, severe := 0, clean := 0, marks := 15#4 } with
          attempt := true } : State).answered p 14 .ok .none))
      ∧ (x.state = .up ∨ x.state = .down → exec (.clearSuspect p) s = .next (s.answered p 14 .ok .none)))

/-- R29: REVIVE-NODE returns a DOWN node to UP with an empty down-report set, takes its id out of the sweep FIFO and
causes a planning attempt; an UP or SUSPECT node keeps all its fields. Landing waits follow R145. -/
def Obligations.ReviveNodeReturnsDownNodeToUp : Prop :=
  ∀ (s : State) (p : PortId) (n : NodeId), s.offers p 13 → n.val = (s.port p).request.nodeId →
    let x := s.node n
    ∃ t, (x.state ≠ .undefined → exec (.reviveNode p) s = .next t) ∧ portsButWaits (s.answered p 13 .ok .none) t
      ∧ (x.state = .down → { s.setNode n { x with state := .up, reports := 0, marks := 15#4 } with
          sweepFifo := s.sweepFifo.filter (· ≠ n), attempt := true, ports := t.ports } = t)
      ∧ (x.state ≠ .down → { s with ports := t.ports } = t)

/-- R36: with no sweep in progress the id at the head of the FIFO leaves it and its sweep begins at handle 0; a sweep
with no live entry ahead ends and causes a planning attempt, and the next one begins in the same step if the FIFO holds
an id. (The start of a sweep that follows no other is a step of its own: log 6.) -/
def Obligations.SweepBeginsAtFifoHeadAndEnds : Prop :=
  ∀ s : State, s.inReset = false →
    (∀ (n : NodeId) (rest : List NodeId), s.sweep = none → s.sweepFifo = n :: rest →
      exec .sweepBegin s = .next { s with sweepFifo := rest, sweep := some ⟨n, 0⟩ })
    ∧ (s.sweep ≠ none ∨ s.sweepFifo = [] → exec .sweepBegin s = .next s)
    ∧ (∀ w : Sweep, s.sweep = some w → (∀ he ∈ s.entries, w.next ≤ he.1 → he.1 < 4096 → he.2.state = .closed) →
      (s.sweepFifo = [] → exec .sweepEnd s = .next { s with sweep := none, attempt := true })
      ∧ ∀ (n : NodeId) (rest : List NodeId), s.sweepFifo = n :: rest →
        exec .sweepEnd s = .next { s with sweepFifo := rest, sweep := some ⟨n, 0⟩, attempt := true })
    ∧ (s.sweep = none ∨ (∃ w, s.sweep = some w ∧ ∃ he ∈ s.entries, w.next ≤ he.1 ∧ he.1 < 4096 ∧ he.2.state ≠ .closed) →
      exec .sweepEnd s = .next s)

/-! ### Profiles and the device-wide values -/

/-- R6, R7, R102: SET-PROFILE refuses values out of range INVALID, defines an UNDEFINED profile, takes equal values
without effect, refuses to change a profile in use, and empties the banks keyed on a profile it changes; the bank at the
head of the FIFO, whose inversion runs, is discarded instead (with the Matrix Unit idle, to which no run comes, too:
log 33). -/
def Obligations.SetProfileDefinesOrRefuses : Prop :=
  ∀ (s : State) (p : PortId), s.offers p 15 →
    let r := (s.port p).request
    let bad := 7 < r.profileIndex ∨ r.profileK < 2 ∨ 20 < r.profileK ∨ r.profileM < 1 ∨ 6 < r.profileM
      ∨ 24 < r.profileK + r.profileM
    (bad → exec (.setProfile p) s = .next (s.answered p 15 .invalid .none))
    ∧ ∀ i : ProfileId, i.val = r.profileIndex → ¬bad →
      let new : Code := ⟨r.profileK, r.profileM⟩
      let record : Profile := { s.profile i with code := some new }
      ((s.profile i).code = none → exec (.setProfile p) s = .next ((s.setProfile i record).answered p 15 .ok .none))
      ∧ ((s.profile i).code = some new → exec (.setProfile p) s = .next (s.answered p 15 .ok .none))
      ∧ ∀ old : Code, (s.profile i).code = some old → old ≠ new →
        (0 < (s.profile i).users → exec (.setProfile p) s = .next (s.answered p 15 .inUse .none))
        ∧ ((s.profile i).users = 0 →
          let keyed (b : BankId) : Prop := ∃ k, (s.bank b).key = some k ∧ k.profile = i
          let running (b : BankId) : Prop := s.inversionFifo.head? = some b
          let empties (b : BankId) : Prop := keyed b ∧
            ((s.bank b).state = .ready ∨ ((s.bank b).state = .inverting ∧ ¬running b))
          ∃ t : State, exec (.setProfile p) s = .next (t.answered p 15 .ok .none)
            ∧ { s.setProfile i record with banks := t.banks, inversionFifo := t.inversionFifo, attempt := t.attempt } = t
            ∧ (∀ b, (empties b → t.bank b = ⟨.empty, none, [], (s.bank b).refs, (s.bank b).stamp, false⟩)
                ∧ (keyed b → (s.bank b).state = .inverting → running b → t.bank b = { s.bank b with discard := true })
                ∧ (¬keyed b → t.bank b = s.bank b))
            ∧ (∀ b, b ∈ t.inversionFifo ↔ b ∈ s.inversionFifo ∧ ¬(empties b ∧ (s.bank b).state = .inverting))
            ∧ t.inversionFifo.Sublist s.inversionFifo
            ∧ ((∃ b, empties b) → t.attempt = true) ∧ ((∀ b, ¬empties b) → t.attempt = s.attempt))

/-- R164, R30: SET-DEVICE refuses INVALID a nonzero value out of range; else it writes the nonzero values, and a lower
quorum makes DOWN the nodes whose reports meet it, their sweeps queued in ascending node id. Landing waits follow
R145. -/
def Obligations.SetDeviceWritesNonzeroValues : Prop :=
  ∀ (s : State) (p : PortId), s.offers p 16 →
    let r := (s.port p).request
    let out (low high x : Nat) : Prop := x ≠ 0 ∧ (x < low ∨ high < x)
    let bad := out 1 4 r.quorum ∨ out 1 8 r.window ∨ out 10 5000 r.fetchTimeout ∨ out 100 60000 r.landingTimeout
      ∨ out 1 1000 r.epochLength
    let written (x old : Nat) : Nat := if x = 0 then old else x
    let quorum := written r.quorum s.quorum
    let falls (n : NodeId) : Prop := quorum < s.quorum ∧ (s.node n).falls quorum
    (bad → exec (.setDevice p) s = .next (s.answered p 16 .invalid .none))
    ∧ (¬bad → ∃ t, exec (.setDevice p) s = .next t
      ∧ (quorum < s.quorum → portsButWaits (s.answered p 16 .ok .none) t)
      ∧ (¬quorum < s.quorum → t.ports = (s.answered p 16 .ok .none).ports)
      ∧ { s with quorum := quorum, window := written r.window s.window, fetchTimeout := written r.fetchTimeout s.fetchTimeout,
                 landingTimeout := written r.landingTimeout s.landingTimeout,
                 epochLength := written r.epochLength s.epochLength,
                 nodes := t.nodes, sweepFifo := t.sweepFifo, attempt := t.attempt, ports := t.ports } = t
      ∧ (∀ n, (falls n → t.node n = (s.node n).fallen) ∧ (¬falls n → t.node n = s.node n))
      ∧ ∃ l : List NodeId, t.sweepFifo = s.sweepFifo ++ l ∧ l.Pairwise (· < ·) ∧ (∀ n, n ∈ l ↔ falls n)
          ∧ (l ≠ [] → t.attempt = true) ∧ (l = [] → t.attempt = s.attempt))

/-! ### Links and resets (10) -/

/-- R162, R169, R167: a DOWN port whose link comes up, and a RESETTING port whose reset ends with its link up, enter
UP, set their own NODE-STATE mark for every defined node and cause a planning attempt, and landing waits begin as R145
says; link events that open or close no port change the link alone (a loss clears the event enable), and a reset that
ends with the link down leaves the port DOWN (links in other states: log 32). The model's own readings and choices in
it: message interrupts are counted (log 14). -/
def Obligations.LinkAndResetEndMovePort : Prop :=
  (∀ (s : State) (p : PortId) (i : Instr), s.inReset = false →
      let q := s.port p
      (i = .linkUp p ∧ q.link = false ∧ q.state = .down) ∨ (i = .portResetEnd p ∧ q.link = true ∧ q.state = .resetting) →
      ∃ t, exec i s = .next t
        ∧ { s with nodes := t.nodes, attempt := true, ports := t.ports } = t
        ∧ (∀ n, t.node n = if (s.node n).state = .undefined then s.node n
              else { s.node n with marks := PortSet.add (s.node n).marks p })
        ∧ (∀ k, k ≠ p → t.port k = { s.port k with wait := waitAfter s t k })
        ∧ t.port p = { q with
            state := .up, link := true, wait := waitAfter s t p
            interrupts := if q.responses ≠ [] ∧ q.eventEnable = true then q.interrupts + 1 else q.interrupts })
  ∧ (∀ (s : State) (p : PortId), s.inReset = false →
      let q := s.port p
      (q.link = false → q.state ≠ .down → q.state ≠ .up →
        exec (.linkUp p) s = .next (s.setPort p { q with link := true }))
      ∧ (q.link = true → q.state ≠ .up →
        exec (.linkLost p) s = .next (s.setPort p { q with link := false, eventEnable := false }))
      ∧ (q.link = false → q.state = .resetting →
        exec (.portResetEnd p) s = .next (s.setPort p { q with state := .down })))

/-- R168, R122, R151, R65, R161, R175, R31: what a port reset, begun by a PORT-RESET or by the loss of an UP port's
link, does to its own port, to the offers' answers, to the down reports, to every entry and to what the closes and the
destination losses free, and which landing waits begin or end (R145). The model's own readings and choices in it: of
two closes of a DRAINING entry which comes first (log 25), and what counts as a delivery to the node for a VOID (log
26). -/
def Obligations.PortResetReturnsPortToDefaults : Prop :=
  ∀ (s : State) (p : PortId), s.rising →
    (s.offers p 23 →
      ∃ t, exec (.portReset p) s = .next t ∧ portResetFrame s t p (s.port p).link (s.port p).eventEnable)
    ∧ (s.inReset = false → (s.port p).state = .up → (s.port p).link = true →
      ∃ t, exec (.linkLost p) s = .next t ∧ portResetFrame s t p false false)

/-- R170, R161: RST_N brings every block to its reset state and keeps only what lies outside the part: the pressure
levels, the interrupts already sent and the hosts' memories, in which an abandoned delivery may have written some
bytes of its chunk into its landing buffer (the free value of log 13; addresses modulo 2^64: log 12); the release lets
the part act; until it every command but the pressure inputs changes nothing (another memory write: O10; the inputs:
O12). The model's own readings and choices in it: the request slots are emptied (log 9), links are down from the
assertion on and nothing but the release and the pressure inputs acts until the release (log 11), the bytes that an
abandoned delivery has written are free (log 13), addresses are taken modulo 2^64 (log 12), and the count of
interrupts sent is kept (log 14). -/
def Obligations.DeviceResetReturnsEveryBlock : Prop :=
  ∀ s : State,
    (s.inReset = false → ∃ t, exec .deviceReset s = .next t
      ∧ { State.reset with inReset := true, ports := t.ports, fresh := t.fresh, pending := s.pending } = t
      ∧ ∀ p, t.port p = { Port.reset with
            pressure := (s.port p).pressure, held := (s.port p).pressure, epochMark := (s.port p).pressure
            interrupts := (s.port p).interrupts, hostMem := (t.port p).hostMem }
          ∧ ∀ a, Table.find (t.port p).hostMem a = Table.find (s.port p).hostMem a
              ∨ ∃ d ∈ s.deliveries, d.port = p ∧ ∃ i b, ((s.bytesOf d.output.cell).take d.output.length)[i]? = some b
                  ∧ a = (d.buffer + BitVec.ofNat 64 i).toNat ∧ Table.find (t.port p).hostMem a = some b)
    ∧ (s.inReset = true → exec .deviceResetRelease s = .next { s with inReset := false }
      ∧ ∀ i : Instr, i ≠ .deviceResetRelease → (∀ p, i ≠ .pressureAssertion p ∧ i ≠ .pressureDeassertion p) →
          (∀ p off data, i ≠ .otherMemoryWrite p off data) → exec i s = .next s)
    ∧ (s.inReset = false → exec .deviceResetRelease s = .next s)

/-! ### Epochs (09, 02) -/

/-- R154, R156, R158, R33, R34: the boundary moves on by the epoch length, every budget swaps, every hold and mark is
treated by its mode, and every UP or SUSPECT node's window is classified and its streaks updated. -/
def Obligations.EpochBoundaryTreatsPortsAndWindows : Prop :=
  ∀ s : State, s.inReset = false → s.timebase = s.nextBoundary →
    ∃ t, exec .epochBoundary s = .next t
      ∧ { s with nextBoundary := s.nextBoundary + BitVec.ofNat 48 s.epochLength, ports := t.ports, nodes := t.nodes,
                 attempt := t.attempt } = t
      ∧ (∀ p, let q := s.port p
          t.port p = { q with
            budget := if q.budget.switchPending then ⟨q.budget.shadow, 0, q.budget.shadow, false⟩ else { q.budget with used := 0 }
            held := if q.mode = .holdEpoch ∧ q.pressure = false ∧ q.epochMark = false then false else q.held
            epochMark := q.pressure })
      ∧ (∀ n, let x := s.node n
          let severe := if x.failures ≤ 3 then 0 else min 2 (x.severe + 1)
          let clean := if x.failures = 0 then min 16 (x.clean + 1) else 0
          (x.state = .undefined ∨ x.state = .down → t.node n = x)
          ∧ (x.state = .up →
              t.node n = if severe = 2 then { x with state := .suspect, failures := 0, severe := 0, clean := 0, marks := 15#4 }
                else { x with failures := 0, severe := severe, clean := clean })
          ∧ (x.state = .suspect →
              t.node n = if clean = 16 then { x with state := .up, failures := 0, severe := 0, clean := 0, marks := 15#4 }
                else { x with failures := 0, severe := severe, clean := clean }))
      ∧ ((∃ n, (t.node n).state ≠ (s.node n).state) → t.attempt = true)
      ∧ ((∀ n, (t.node n).state = (s.node n).state) → t.attempt = s.attempt)

/-! ### SUBMIT, WITHDRAW and QUERY (03) -/

/-- R46, R47, R49: the answers of a SUBMIT that changes nothing: INVALID and UNKNOWN by its form, CLOSING and CONFLICT
by an entry with its stripe id, NOTHING-LOST, UNRECOVERABLE and FULL for a new stripe. -/
def Obligations.SubmitAnswersWithoutCreating : Prop :=
  ∀ (s : State) (p : PortId), s.offers p 1 →
    let r := (s.port p).request
    let present := s.entries.find? fun he => decide (he.2.stripe = r.stripe)
    let answers (st : Status) (b : Body) : Prop := exec (.submit p) s = .next (s.answered p 1 st b)
    (submitCode s r = none → answers .invalid .none)
    ∧ ∀ (i : ProfileId) (c : Code), i.val = r.submitProfile → (s.profile i).code = some c →
      (submitFieldsInvalid (c.k + c.m) r → answers .invalid .none)
      ∧ (¬submitFieldsInvalid (c.k + c.m) r → (∃ j < c.k + c.m, (s.node (nodeAt r j)).state = .undefined) →
        answers .unknown .none)
      ∧ (submitPasses s r i c →
        (∀ h e, present = some (h, e) →
          (e.state = .closed ∨ e.state = .draining → answers .closing (.closing h e.state))
          ∧ (e.state ≠ .closed → e.state ≠ .draining → ¬submitAgrees r c e → answers .conflict (.existing h)))
        ∧ (present = none →
          (submitLost s r c = 0 → answers .nothingLost .none)
          ∧ (c.m < submitLost s r c → answers .unrecoverable .none)
          ∧ (0 < submitLost s r c → submitLost s r c ≤ c.m → 4096 ≤ s.entries.length → answers .full .none)))

/-- R49, R41: a SUBMIT of a new stripe with 1 to m losses creates its entry at the lowest-numbered free handle, with
the present sequence, counts its profile's user and causes a planning attempt. -/
def Obligations.SubmitCreatesEntryAtLowestHandle : Prop :=
  ∀ (s : State) (p : PortId) (i : ProfileId) (c : Code) (h : Handle), s.offers p 1 →
    let r := (s.port p).request
    submitPasses s r i c → (s.entries.find? fun he => decide (he.2.stripe = r.stripe)) = none →
    0 < submitLost s r c → submitLost s r c ≤ c.m → s.entries.length < 4096 →
    h < 4096 → s.entry? h = none → (∀ k < h, s.entry? k ≠ none) →
    ∃ t, exec (.submit p) s = .next (t.answered p 1 .ok (.created h s.sequenceCounter))
      ∧ { s.setProfile i { s.profile i with users := (s.profile i).users + 1 } with
          entries := t.entries, sequenceCounter := s.sequenceCounter + 1, attempt := true
          counters := s.counters.set 0 (s.counters[0] + 1) } = t
      ∧ t.entry? h = some (submitEntry s p r i c) ∧ onlyEntry s t h

/-- R48, R52, R55: a SUBMIT answered MERGED adds its port and its cross-check request; flagged HELD members become
LOST, which closes the entry UNRECOVERABLE above m losses and else gives it its class and a replan trigger. The
model's own readings and choices in it: an entry that closes UNRECOVERABLE keeps the class stored before that step
(log 35), and what counts as a delivery to the node for a VOID (log 26). -/
def Obligations.SubmitMergesIntoPresentEntry : Prop :=
  ∀ (s : State) (p : PortId) (i : ProfileId) (c : Code) (h : Handle) (e : Entry), s.offers p 1 →
    let r := (s.port p).request
    submitPasses s r i c → (s.entries.find? fun he => decide (he.2.stripe = r.stripe)) = some (h, e) →
    e.state ≠ .closed → e.state ≠ .draining → submitAgrees r c e →
    let hits (j : Position) (m : Member) : Prop := m.state = .held ∧ r.knownLost j = true
    let joined : Entry := { e with
      submitters := PortSet.add e.submitters p, crossCheck := e.crossCheck || decide (r.crossCheck = 1) }
    let flagged : Entry := { joined with
      members := e.members.mapIdx fun j m => if m.state = .held ∧ r.knownLost j = true then m.lostNow .reported else m }
    let some_ : Prop := ∃ j m, e.members[j]? = some m ∧ hits j m
    let counted := s.counters.set 1 (s.counters[1] + 1)
    ∃ t, exec (.submit p) s = .next t ∧ answeredFrame s t p 1 .merged (.existing h) ∧ onlyEntry s t h
      ∧ (¬some_ → t.entry? h = some joined ∧ portsButWaits (s.answered p 1 .merged (.existing h)) t
          ∧ { s with entries := t.entries, counters := counted, ports := t.ports } = t)
      ∧ (some_ → 0 < flagged.lostCount → flagged.lostCount ≤ c.m →
          takesTrigger { s with counters := counted } t h { flagged with urgency := classFor c.m flagged.lostCount })
      ∧ (some_ → c.m < flagged.lostCount →
          closes { s with counters := counted } t h flagged (.failed .unrecoverable))

/-- R45, R171: the staleness check of WITHDRAW, QUERY, STORED and REFUSE-FRAGMENT, in its order; a refusal changes
nothing, and a refused QUERY reports no entry (the model's choice, log 34). -/
def Obligations.StaleNamesAreRefused : Prop :=
  ∀ (s : State) (p : PortId) (k : Byte) (i : Instr),
    (k, i) ∈ [(2#8, Instr.withdraw p), (3#8, .query p), (7#8, .stored p), (8#8, .refuseFragment p)] →
    s.offers p k →
      let r := (s.port p).request
      (4095 < r.handle → exec i s = .next (s.answered p k .invalid .none))
      ∧ (r.handle ≤ 4095 → s.entry? r.handle = none → exec i s = .next (s.answered p k .unknown .none))
      ∧ ∀ e, r.handle ≤ 4095 → s.entry? r.handle = some e → e.stripe ≠ r.stripe →
          exec i s = .next (s.answered p k .stale .none)

/-- R57: a WITHDRAW with neither mode is INVALID, one by a port outside the set NOT-SUBMITTER, one of a CLOSED entry
OK; a port that is not the last submitter leaves the set; a DRAIN of a DRAINING entry does nothing (R58). -/
def Obligations.WithdrawLeavesOrKeepsEntry : Prop :=
  ∀ (s : State) (p : PortId) (e : Entry), s.offers p 2 →
    let r := (s.port p).request
    let answers (t : State) (st : Status) : Prop := exec (.withdraw p) s = .next (t.answered p 2 st .none)
    let isIn (q : PortId) : Prop := PortSet.has e.submitters q = true
    r.handle ≤ 4095 → s.entry? r.handle = some e → e.stripe = r.stripe →
      (r.withdrawMode ≠ 1 → r.withdrawMode ≠ 2 → answers s .invalid)
      ∧ (r.withdrawMode = 1 ∨ r.withdrawMode = 2 →
        (¬isIn p → answers s .notSubmitter)
        ∧ (isIn p → e.state = .closed → answers s .ok)
        ∧ (isIn p → e.state ≠ .closed → (∃ q, q ≠ p ∧ isIn q) →
          answers (s.setEntry r.handle { e with submitters := PortSet.remove e.submitters p }) .ok)
        ∧ (isIn p → e.state = .draining → (∀ q, isIn q → q = p) → r.withdrawMode = 1 →
          ∃ t, exec (.withdraw p) s = .next t ∧ portsButWaits (s.answered p 2 .ok .none) t ∧ { s with ports := t.ports } = t))

/-- R58, R60, R120: ABORT by the last submitter closes the entry CANCELLED; DRAIN closes it so unless it is ACTIVE
with work under way, which enters DRAINING (deliveries count as such work: log 18); the DRAIN of an ACTIVE entry
withdraws its fetches and releases their cells and the SOURCE cells of offsets whose pass has not been dispatched. The
model's own readings and choices in it: what counts as a delivery to the node for a VOID (log 26). -/
def Obligations.LastSubmitterWithdrawsEntry : Prop :=
  ∀ (s : State) (p : PortId) (e : Entry), s.offers p 2 →
    let r := (s.port p).request
    let h := r.handle
    r.handle ≤ 4095 → s.entry? h = some e → e.stripe = r.stripe → e.state ≠ .closed →
    PortSet.has e.submitters p = true → (∀ q, PortSet.has e.submitters q = true → q = p) →
      (r.withdrawMode = 2 ∨ r.withdrawMode = 1 ∧ (e.state = .queued ∨ e.state = .planning ∨ e.state = .settling) →
        ∃ t, exec (.withdraw p) s = .next t ∧ answeredFrame s t p 2 .ok .none ∧ closes s t h e (.failed .cancelled))
      ∧ (r.withdrawMode = 1 → e.state = .active →
          (∀ j k x y, s.lane j = some x → s.lane k = some y → x.handle = h → y.handle = h → j = k) →
        let draining : Entry := { e with state := .draining }
        let drained : State := { s.setEntry h draining with
          park := if s.park = some h then none else s.park
          ports := mapVec (fun (q : Port) => { q with
            fetches := mapVec (fun x => x.map fun f => if f.handle = h then { f with cell := none } else f) q.fetches }) s.ports }
        let undispatched (c : CellId) : Prop := ∃ x pos o v, s.cell c = some x ∧ x.owner = h ∧ x.use = .source pos o v
          ∧ ∀ k y, s.lane k = some y → y.handle = h → y.offset ≠ o
        ∃ t v, exec (.withdraw p) s = .next t ∧ answeredFrame s t p 2 .ok .none
          ∧ afterRelease drained v (fun c => liveCell s h c ∨ undispatched c)
          ∧ (¬s.busyWith h → closes v t h draining (.failed .cancelled))
          ∧ (s.busyWith h → { v with ports := t.ports } = t
              ∧ ∀ q, (t.port q).fetches = (v.port q).fetches ∧ (t.port q).outputs = (s.port q).outputs))

/-- R64, R171: QUERY answers OK with the entry, its plan, its members and its targets as they stand, and changes nothing.
A target record with no destination reports the start offset it held last (the model's choice, log 39). -/
def Obligations.QueryReportsEntryUnchanged : Prop :=
  ∀ (s : State) (p : PortId) (e : Entry), s.offers p 3 →
    let r := (s.port p).request
    r.handle ≤ 4095 → s.entry? r.handle = some e → e.stripe = r.stripe →
    ∃ q : QueryReport, exec (.query p) s = .next (s.answered p 3 .ok (.report q))
      ∧ (q.stripe = e.stripe ∧ q.handle = r.handle ∧ q.state = e.state ∧ q.wait = e.wait ∧ q.urgency = e.urgency
          ∧ q.lostCount = e.lostCount ∧ q.margin = ((s.code e.profile).m : Int) - e.lostCount ∧ q.sequence = e.sequence
          ∧ q.profile = e.profile ∧ q.length = e.length ∧ q.chunks = (e.length + 65535) / 65536
          ∧ q.submitters = e.submitters ∧ q.crossCheck = e.crossCheck ∧ q.flags = e.flags ∧ q.outcome = e.outcome)
      ∧ (q.planPresent = e.plan.isSome ∧ q.parkPending = decide (s.park = some r.handle) ∧ q.replanPending = e.replan)
      ∧ (∀ pl, e.plan = some pl →
          q.sources = pl.sources ∧ q.check = pl.check ∧ q.bank = pl.bank ∧ q.decodePoint = pl.decodePoint)
      ∧ q.members.length = e.members.length
      ∧ ∀ (j : Position) (m : Member) (x : MemberReport), e.members[j]? = some m → q.members[j]? = some x →
          x.node = m.node ∧ x.state = m.state ∧ x.cause = m.cause ∧ x.strikes = m.strikes
          ∧ x.targetPresent = m.target.isSome
          ∧ ∀ t, m.target = some t → x.stored = t.stored ∧ x.dest = t.dest ∧ x.start = t.start
              ∧ x.covered = t.coverage.length ∧ x.voids = t.voids.length

/-! ### The Gather Unit (06) -/

/-- R112, R117, R124: the checks of an OFFER and of a DECLINE, in their order; INVALID above tag 31 and for another
cause; for a WITHDRAWN slot or a member the entry no longer uses GONE: the slot empties, its answer cell is released,
and no strike is charged. -/
def Obligations.OfferChecksRefuseOrEmptySlot : Prop :=
  (∀ (s : State) (p : PortId) (k : Byte) (i : Instr), (k, i) ∈ [(4#8, Instr.offer p), (5#8, .decline p)] → s.offers p k →
      let r := (s.port p).request
      let answers (st : Status) : Prop := exec i s = .next (s.answered p k st .none)
      (k = 5 → r.declineCause ≠ 1 → answers .invalid)
      ∧ ((k = 5 → r.declineCause = 1) →
        (31 < r.fetchTag → answers .invalid)
        ∧ ∀ tag : FetchTag, tag.val = r.fetchTag →
          ((s.port p).fetches[tag] = none → answers .late)
          ∧ ∀ f, (s.port p).fetches[tag] = some f →
            (f.stripe ≠ r.stripe → answers .mismatch)
            ∧ (f.stripe = r.stripe → (s.node f.node).route ≠ some p → answers .misrouted)))
  ∧ (∀ (s : State) (p : PortId) (k : Byte) (i : Instr), (k, i) ∈ [(4#8, Instr.offer p), (5#8, .decline p)] → s.offers p k →
      let q := s.port p
      let r := q.request
      ∀ (tag : FetchTag) (f : Fetch), (k = 5 → r.declineCause = 1) → tag.val = r.fetchTag → q.fetches[tag] = some f →
        f.stripe = r.stripe → (s.node f.node).route = some p → (f.cell = none ∨ ¬usesMemberNow s f.handle f.position) →
        ∃ v, exec i s = .next (v.answered p k .gone .none)
          ∧ afterRelease (s.setPort p { q with fetches := q.fetches.set tag none }) v (fun c => f.cell = some c))

/-- R113: an OFFER that passes every check empties its slot and begins a transfer that owns the answer cell; it is not
yet answered. -/
def Obligations.OfferTakenBeginsTransfer : Prop :=
  ∀ (s : State) (p : PortId), s.offers p 4 →
    let q := s.port p
    let r := q.request
    ∀ (tag : FetchTag) (f : Fetch) (c : CellId) (x : Cell), tag.val = r.fetchTag → q.fetches[tag] = some f →
      f.stripe = r.stripe → (s.node f.node).route = some p → f.cell = some c → s.cell c = some x →
      usesMemberNow s f.handle f.position →
      exec (.offer p) s = .next
        { s.setPort p (({ q with fetches := q.fetches.set tag none } : Port).tookRequest) with
          cells := s.cells.set c (some { x with use := .transfer p })
          transfers := s.transfers ++ [⟨f.handle, f.stripe, f.position, f.offset, f.length, c, p, r.address, r.tag, r.checksum, true⟩] }

/-- R117, R52, R55: a DECLINE that passes every check empties the slot, releases its cell and loses the member with
cause CORRUPT, its strikes kept, which closes the entry UNRECOVERABLE above m losses and else triggers a replan. The
model's own readings and choices in it: an entry that closes UNRECOVERABLE keeps the class stored before that step
(log 35), and what counts as a delivery to the node for a VOID (log 26). -/
def Obligations.DeclineLosesMember : Prop :=
  ∀ (s : State) (p : PortId), s.offers p 5 →
    let q := s.port p
    let r := q.request
    ∀ (tag : FetchTag) (f : Fetch) (e : Entry) (m : Member), r.declineCause = 1 → tag.val = r.fetchTag →
      q.fetches[tag] = some f → f.stripe = r.stripe → (s.node f.node).route = some p → f.cell ≠ none →
      usesMemberNow s f.handle f.position → s.entry? f.handle = some e → e.members[f.position]? = some m →
      e.state ≠ .closed → e.submitters ≠ 0 →
      let lost : Entry := { e with members := e.members.set f.position (m.lostNow .corrupt) }
      let pm := (s.code e.profile).m
      let emptied := s.setPort p { q with fetches := q.fetches.set tag none }
      ∃ t v, exec (.decline p) s = .next t ∧ answeredFrame s t p 5 .ok .none ∧ onlyEntry s t f.handle
        ∧ afterRelease emptied v (fun c => f.cell = some c)
        ∧ (lost.lostCount ≤ pm → takesTrigger v t f.handle { lost with urgency := classFor pm lost.lostCount })
        ∧ (pm < lost.lostCount → closes v t f.handle lost (.failed .unrecoverable))

/-- R118, R119: at its expiry time an occupied slot empties and its answer cell is released; a LIVE fetch of a member
the entry uses charges a strike and is counted, and the third strike loses the member with cause UNRESPONSIVE. The
model's own readings and choices in it: an entry that closes UNRECOVERABLE keeps the class stored before that step
(log 35), and what counts as a delivery to the node for a VOID (log 26). -/
def Obligations.FetchExpiryEmptiesSlot : Prop :=
  ∀ (s : State) (p : PortId) (tag : FetchTag) (f : Fetch), s.inReset = false → (s.port p).fetches[tag] = some f →
    s.timebase = f.expiry →
    let q := s.port p
    let emptied := s.setPort p { q with fetches := q.fetches.set tag none }
    (f.cell = none ∨ ¬usesMemberNow s f.handle f.position →
      ∃ v, exec (.fetchExpiry p tag) s = .next v ∧ afterRelease emptied v (fun c => f.cell = some c))
    ∧ ∀ (c : CellId) (e : Entry) (m : Member), f.cell = some c → usesMemberNow s f.handle f.position →
      s.entry? f.handle = some e → e.members[f.position]? = some m → e.state ≠ .closed → e.submitters ≠ 0 →
      let counted : State := { emptied with counters := s.counters.set 10 (s.counters[10] + 1) }
      let struck (x : Member) : Entry := { e with members := e.members.set f.position x }
      let lost := struck (Member.lostNow .unresponsive { m with strikes := 3 })
      let pm := (s.code e.profile).m
      ∃ t v, exec (.fetchExpiry p tag) s = .next t ∧ workFrame counted t ∧ onlyEntry s t f.handle
        ∧ afterRelease counted v (· = c)
        ∧ (m.strikes < 2 → t.entry? f.handle = some (struck { m with strikes := m.strikes + 1 })
            ∧ portsButWaits emptied t ∧ { v with entries := t.entries, ports := t.ports } = t)
        ∧ (2 ≤ m.strikes → lost.lostCount ≤ pm →
            takesTrigger v t f.handle { lost with urgency := classFor pm lost.lostCount })
        ∧ (2 ≤ m.strikes → pm < lost.lostCount → closes v t f.handle lost (.failed .unrecoverable))

/-- R108 to R111, R157: behind an UP port with credit, notice room, budget and no hold, the first wanted chunk in the
order of R109 whose member is HELD on a node that serves and for which an answer cell can be had, an unused floor cell
first at the decode point, is fetched: the lowest empty slot, the cell, the charge, the notice. There is none only
where R108 holds for none (each port issues for itself: log 24). The model's own readings and choices in it: which
cell of the kind is drawn (log 8). -/
def Obligations.FetchIssueTakesSlotCellAndCharge : Prop :=
  ∀ (s : State) (p : PortId), s.inReset = false →
    let q := s.port p
    let mayIssue : Prop := q.state = .up ∧ q.outstanding < q.credit ∧ q.responses.countP Record.isFetch < 32
      ∧ q.held = false ∧ (q.budget.active = 0 ∨ q.budget.used < q.budget.active)
    let serves (w : Wanted) : Prop :=
      (∃ e m, s.entry? w.handle = some e ∧ e.members[w.position]? = some m ∧ m.state = .held)
      ∧ ((s.node w.node).state = .up ∨ (s.node w.node).state = .suspect) ∧ (s.node w.node).route = some p
    let fromFloor (w : Wanted) (c : CellId) : Prop :=
      w.atDecodePoint = true ∧ ∃ x, s.cell c = some x ∧ x.owner = w.handle ∧ x.use = .floor
    let fromPool (c : CellId) : Prop := s.cell c = none ∧ s.poolUse p < q.quota
    let issuable (w : Wanted) : Prop := serves w ∧ ∃ c, fromFloor w c ∨ fromPool c
    (s.nextFetch p = none ↔ ¬(mayIssue ∧ ∃ w ∈ s.wanted, issuable w))
    ∧ (s.nextFetch p = none → exec (.fetchIssue p) s = .next s)
    ∧ ∀ (w : Wanted) (c : CellId), s.nextFetch p = some (w, c) →
      (w ∈ s.wanted ∧ serves w ∧ mayIssue ∧ (fromFloor w c ∨ (∀ k, ¬fromFloor w k) ∧ fromPool c))
      ∧ (s.rising → s.oneEra → ∀ v ∈ s.wanted, issuable v → v = w ∨ issuedBefore s w v)
      ∧ ∀ tag : FetchTag, q.fetches[tag] = none → (∀ k : FetchTag, k < tag → q.fetches[k] ≠ none) →
        exec (.fetchIssue p) s = .next
          { s.setPort p ({ q with
              fetches := q.fetches.set tag
                (some ⟨w.handle, w.stripe, w.position, w.node, w.offset, w.length, s.timebase + BitVec.ofNat 48 s.fetchTimeout, some c⟩)
              budget := { q.budget with used := if q.budget.used < 65535 then q.budget.used + 1 else 65535 } }
              |>.received (.fetch w.stripe w.handle tag w.position w.node w.offset w.length)) with
            cells := s.cells.set c (some ⟨w.handle, s.chargeOf c, .fetch p, []⟩) }

/-- R107, R87, R88, R10: what is wanted is exactly this: a chunk of the gather set of an ACTIVE entry with no park pending,
at a needed offset before which fewer than W needed offsets stand in pass order (a decode point that no target needs is
none of them: log 20), that no SOURCE cell holds, no transfer brings and no LIVE fetch solicits. -/
def Obligations.WantedChunksAreMissingInWindow : Prop :=
  (∀ (s : State) (h : Handle) (e : Entry) (o : Offset), s.needed h e o = true ↔ offsetNeeded s h e o)
  ∧ ∀ s : State, s.rising → ∀ w : Wanted, w ∈ s.wanted ↔
    ∃ e pl m, s.entry? w.handle = some e ∧ e.state = .active ∧ s.park ≠ some w.handle ∧ e.plan = some pl
      ∧ e.members[w.position]? = some m ∧ ((∃ l, pl.sources = some l ∧ w.position ∈ l) ∨ pl.check = some w.position)
      ∧ w.offset < (e.length + 65535) / 65536 ∧ s.needed w.handle e w.offset = true
      ∧ ((List.range ((e.length + 65535) / 65536)).countP fun o => s.needed w.handle e o &&
          decide (passRank ((e.length + 65535) / 65536) pl.decodePoint o
            < passRank ((e.length + 65535) / 65536) pl.decodePoint w.offset)) < s.window
      ∧ (∀ c x, s.cell c = some x → x.owner = w.handle → ∀ v, x.use ≠ .source w.position w.offset v)
      ∧ (∀ x ∈ s.transfers, ¬(x.handle = w.handle ∧ x.position = w.position ∧ x.offset = w.offset))
      ∧ (∀ k (tag : FetchTag) f, (s.port k).fetches[tag] = some f → f.cell ≠ none →
          ¬(f.handle = w.handle ∧ f.position = w.position ∧ f.offset = w.offset))
      ∧ w.stripe = e.stripe ∧ w.node = m.node ∧ w.atDecodePoint = decide (w.offset = pl.decodePoint)
      ∧ w.length = if (w.offset + 1) * 65536 < e.length then 65536 else e.length - w.offset * 65536

/-- R114, R115, R122, R63: an offer's transfer ends: dropped after a port reset, GONE where the entry no longer uses
the chunk, OK with the chunk held where the checksums agree. The model's own readings and choices in it: a transfer in
progress at a park mark that ends after the entry was activated again is decided by R114's test at its end, so it can
be answered OK (log 37), and the mover brings exactly the chunk's length of bytes (log 29). -/
def Obligations.OfferTransferEndsUnusedOrHeld : Prop :=
  ∀ (s : State) (x : Transfer) (data : List Byte), s.inReset = false →
    (s.transfers.find? fun y => decide (y.cell = x.cell)) = some x → data.length = x.length →
    let ended : State := { s with transfers := s.transfers.filter fun (y : Transfer) => decide (y.cell ≠ x.cell) }
    let uses : Prop := (∃ e, s.entry? x.handle = some e ∧ (e.state = .active ∨ e.state = .planning))
      ∧ s.park ≠ some x.handle ∧ usesMemberNow s x.handle x.position
    let told (st : Status) (k : PortId) : Port := if k = x.port then (s.port k).received (.response 4 x.tag st .none) else s.port k
    (x.answers = false ∨ ¬uses →
      ∃ t v, exec (.offerTransferEnd x.cell data) s = .next t
        ∧ (∀ k, t.port k = if x.answers = true then told .gone k else s.port k)
        ∧ afterRelease ended v (· = x.cell) ∧ { v with ports := t.ports, entries := t.entries, profiles := t.profiles } = t
        ∧ (s.rising → onlyEntry s t x.handle ∧ ∀ e, s.entry? x.handle = some e → staysUnlessDone s t x.handle e))
    ∧ (x.answers = true → uses → crc32c data = x.checksum →
      exec (.offerTransferEnd x.cell data) s = .next
        { ended with
          ports := (s.setPort x.port (told .ok x.port)).ports
          cells := s.cells.set x.cell ((s.cell x.cell).map fun y => { y with use := .source x.position x.offset x.port, data := data })
          counters := s.counters.set 7 (s.counters[7] + 1) })

/-- R116, R32, R119: an offer whose checksums differ is answered BADSUM; its node's window failures rise, its member
is struck, and the third strike loses the member with cause CORRUPT. The model's own readings and choices in it: an
entry that closes UNRECOVERABLE keeps the class stored before that step (log 35), a transfer in progress at a park
mark that ends after the entry was activated again is decided by R114's test at its end, so it can be answered BADSUM
(log 37), the mover brings exactly the chunk's length of bytes (log 29), and what counts as a delivery to the node for
a VOID (log 26). -/
def Obligations.BadChecksumStrikesMember : Prop :=
  ∀ (s : State) (x : Transfer) (data : List Byte) (e : Entry) (m : Member), s.inReset = false →
    (s.transfers.find? fun y => decide (y.cell = x.cell)) = some x → data.length = x.length → x.answers = true →
    s.entry? x.handle = some e → (e.state = .active ∨ e.state = .planning) → s.park ≠ some x.handle →
    usesMemberNow s x.handle x.position → e.members[x.position]? = some m → e.submitters ≠ 0 →
    crc32c data ≠ x.checksum →
    let charged (n : NodeId) : Node :=
      if n = m.node then { s.node n with failures := if (s.node n).failures < 255 then (s.node n).failures + 1 else 255 } else s.node n
    let counted : State := { s with
      transfers := s.transfers.filter fun (y : Transfer) => decide (y.cell ≠ x.cell)
      nodes := Vector.ofFn charged
      counters := s.counters.set 9 (s.counters[9] + 1)
      ports := (s.setPort x.port ((s.port x.port).received (.response 4 x.tag .badsum .none))).ports }
    let struck (y : Member) : Entry := { e with members := e.members.set x.position y }
    let lost := struck (Member.lostNow .corrupt { m with strikes := 3 })
    let pm := (s.code e.profile).m
    ((s.node m.node).state = .up ∨ (s.node m.node).state = .suspect) →
    ∃ t v, exec (.offerTransferEnd x.cell data) s = .next t ∧ workFrame counted t ∧ onlyEntry s t x.handle
      ∧ afterRelease counted v (· = x.cell)
      ∧ (m.strikes < 2 → t.entry? x.handle = some (struck { m with strikes := m.strikes + 1 })
          ∧ portsButWaits counted t ∧ { v with entries := t.entries, ports := t.ports } = t)
      ∧ (2 ≤ m.strikes → lost.lostCount ≤ pm →
          takesTrigger v t x.handle { lost with urgency := classFor pm lost.lostCount })
      ∧ (2 ≤ m.strikes → pm < lost.lostCount → closes v t x.handle lost (.failed .unrecoverable))

/-! ### Decode passes (07) -/

/-- R128 to R131: with a lane IDLE and an entry ready, of the ready entries the one that comes first is dispatched on
the lowest IDLE lane: the output cells are drawn, unused floor cells before FREE ones, the rows copied, the pass
record written, and nothing else is changed. The model's own readings and choices in it: which cell of a kind is drawn
(log 8), and a disowned delivery serves no offset (log 19). -/
def Obligations.PassDispatchDrawsOutputsAndRows : Prop :=
  ∀ s : State, s.inReset = false →
    let holds (h : Handle) (d : Offset) (pos : Position) (c : CellId) : Prop :=
      ∃ x v, s.cell c = some x ∧ x.owner = h ∧ x.use = .source pos d v
    let wanting (h : Handle) (e : Entry) (d : Offset) : List (Position × Target) :=
      e.targets.filter fun pt => s.targetNeeds h pt.1 pt.2 d
    let ready (h : Handle) (e : Entry) : Prop := (h, e) ∈ s.entries ∧ e.state = .active ∧ s.park ≠ some h
      ∧ (∀ j x, s.lane j = some x → x.handle ≠ h) ∧ ∃ pl, e.plan = some pl ∧ wanting h e pl.decodePoint ≠ []
      ∧ (∀ pos < e.members.length, ((∃ l, pl.sources = some l ∧ pos ∈ l) ∨ pl.check = some pos) →
          ∃ c, holds h pl.decodePoint pos c)
      ∧ (wanting h e pl.decodePoint).length ≤ s.unusedFloorCount h + s.freeCount
    (s.chosen = none ↔ ∀ h e, ¬ready h e)
    ∧ (s.chosen = none ∨ (∀ l, s.lane l ≠ none) → exec .passDispatch s = .next s)
    ∧ ∀ (l : LaneId) (h : Handle) (e : Entry) (pl : Plan) (b : BankId) (k : Key),
      s.lane l = none → (∀ k < l, s.lane k ≠ none) → s.chosen = some (h, e) → e.plan = some pl → pl.bank = some b →
      (s.bank b).key = some k →
      let d := pl.decodePoint
      (ready h e ∧ (s.rising → s.oneEra → ∀ j f, ready j f → j = h ∨ comesFirst (h, e) (j, f)))
      ∧ ∃ t x, exec .passDispatch s = .next t ∧ t.lane l = some x ∧ (∀ j, j ≠ l → t.lane j = s.lane j)
        ∧ { s with cells := t.cells, lanes := t.lanes } = t
        ∧ x.handle = h ∧ x.stripe = e.stripe ∧ x.offset = d ∧ x.length = chunkLength e.length d
        ∧ (∀ src, pl.sources = some src → (∀ pos ∈ src, pos < e.members.length) → List.Forall₂ (holds h d) src x.sources)
        ∧ (pl.check = none → x.check = none)
        ∧ (∀ pos, pl.check = some pos → pos < e.members.length →
            ∃ c, holds h d pos c ∧ x.check = some (c, (s.bank b).rows.getD k.targets.length []))
        ∧ x.outputs.map PassOutput.position = (wanting h e d).map Prod.fst
        ∧ (x.outputs.map PassOutput.cell).Nodup
        ∧ (∀ o ∈ x.outputs, o.row = (s.bank b).rows.getD (k.targets.idxOf o.position) []
            ∧ (∃ pt ∈ wanting h e d, pt.1 = o.position ∧ pt.2.dest = some o.dest)
            ∧ t.cell o.cell = some ⟨h, s.chargeOf o.cell, .output o.position d, []⟩)
        ∧ (∀ (i : Nat) (o : PassOutput), x.outputs[i]? = some o →
            (i < s.unusedFloorCount h → ∃ y, s.cell o.cell = some y ∧ y.owner = h ∧ y.use = .floor)
            ∧ (s.unusedFloorCount h ≤ i → s.cell o.cell = none))
        ∧ ∀ c, c ∉ x.outputs.map PassOutput.cell → t.cell c = s.cell c

/-- R132 to R138, R88, R53, R59, R82, R124: a pass completes: its lane falls IDLE, it is counted, every output cell
holds its decoded bytes, the source and check cells and the cells of outputs not kept are released, and its results
are decided by its entry as it then stands. The pass's output cells are distinct and not FREE, as its dispatch leaves
them. The model's own readings and choices in it: where the entry settles, its LIVE fetches stay LIVE with their
answer cells (log 36), a disowned delivery serves no offset (log 19), and what counts as a delivery to the node for a
VOID (log 26). -/
def Obligations.PassCompletionDecidesResults : Prop :=
  ∀ (s : State) (l : LaneId) (x : Pass), s.inReset = false → s.lane l = some x →
    (x.outputs.map PassOutput.position).Nodup → (x.outputs.map PassOutput.cell).Nodup →
    (∀ o ∈ x.outputs, s.cell o.cell ≠ none) →
    let h := x.handle
    let counted : State := { s with lanes := s.lanes.set l none, counters := s.counters.set 15 (s.counters[15] + 1) }
    let written : State := { counted with
      cells := Vector.ofFn fun c => match x.outputs.find? fun o => decide (o.cell = c) with
        | some o => (s.cell c).map fun y => { y with data := passBytes s x o.row }
        | none => s.cell c }
    let keeps (o : PassOutput) : Prop :=
      passAgrees s x ∧ ∃ e q, s.entry? h = some e ∧ e.state ≠ .closed ∧ keptOn s x e q o ≠ none
    let reads (c : CellId) : Prop := c ∈ x.sources ∨ ∃ row, x.check = some (c, row)
    ∃ t v, exec (.passComplete l) s = .next t ∧ workFrame counted t ∧ (s.rising → onlyEntry s t h)
      ∧ afterRelease written v (fun c => reads c ∨ ∃ o ∈ x.outputs, o.cell = c ∧ ¬keeps o)
      ∧ (∀ o ∈ x.outputs, keeps o → ¬reads o.cell →
          v.cell o.cell = (s.cell o.cell).map fun y => { y with data := passBytes s x o.row })
      ∧ (s.entry? h = none → portsButWaits s t ∧ { v with ports := t.ports } = t)
      ∧ ∀ e, s.entry? h = some e →
        let kept (q : PortId) : List Output := x.outputs.filterMap (keptOn s x e q)
        let joined : Prop := ∀ q, (t.port q).fetches = (s.port q).fetches ∧ (t.port q).outputs = (s.port q).outputs ++ kept q
        let needed (o : Offset) : Prop := o < (e.length + 65535) / 65536 ∧ t.needed h e o = true
        let stands (f : Entry) : Prop := t.entry? h = some f ∧ { v with entries := t.entries, ports := t.ports } = t
        let moves (pl : Plan) : Prop := ∃ d, followsPoint needed pl.decodePoint d
          ∧ stands { e with plan := some { pl with decodePoint := d } }
        (e.state = .closed → portsButWaits s t ∧ { v with entries := t.entries, profiles := t.profiles, ports := t.ports } = t
          ∧ (s.rising → staysUnlessDone s t h e))
        ∧ (e.state ≠ .closed → ¬passAgrees s x → e.submitters ≠ 0 → closes v t h e (.failed .inconsistent))
        ∧ (e.state ≠ .closed → e.state ≠ .draining → passAgrees s x → joined)
        ∧ (passAgrees s x → e.state = .planning ∨ e.state = .queued ∨ e.state = .settling →
          (e.plan = none → stands e) ∧ ∀ pl, e.plan = some pl → moves pl)
        ∧ (passAgrees s x → e.state = .active → ∀ pl, e.plan = some pl →
          (s.park ≠ some h →
              (e.allCovered = true → (∀ j y, j ≠ l → s.lane j = some y → y.handle ≠ h) →
                givesUpPlan v t h e { e with state := .settling, plan := none }
                ∧ { v with entries := t.entries, banks := t.banks, cells := t.cells, ports := t.ports, attempt := t.attempt } = t)
              ∧ (e.allCovered = false ∨ (∃ j y, j ≠ l ∧ s.lane j = some y ∧ y.handle = h) → moves pl))
          ∧ (s.park = some h →
              givesUpPlan v t h e { e with state := .queued, wait := some .noSlot, plan := none, replan := false }
              ∧ t.park = none
              ∧ { v with entries := t.entries, banks := t.banks, cells := t.cells, ports := t.ports, attempt := t.attempt,
                         park := none } = t))
        ∧ (e.state = .draining → passAgrees s x → e.submitters ≠ 0 →
          (counted.busyWith h ∨ (∃ q, kept q ≠ []) → joined ∧ stands e)
          ∧ (¬counted.busyWith h → (∀ q, kept q = []) → closes v t h e (.failed .cancelled)))

/-! ### Delivery and restoration (08) -/

/-- R140, R145: a landing buffer joins the tail of a list of fewer than 32, which ends the port's landing wait; a full
list refuses it. -/
def Obligations.PostLandingJoinsListTail : Prop :=
  ∀ (s : State) (p : PortId), s.offers p 6 →
    let q := s.port p
    let r := q.request
    (32 ≤ q.landing.length → exec (.postLanding p) s = .next (s.answered p 6 .full .none))
    ∧ (q.landing.length < 32 →
      ∃ t, exec (.postLanding p) s = .next t ∧ { s with ports := t.ports } = t
        ∧ t.port p = { q.answered 6 r.tag .ok .none with landing := q.landing ++ [r.address], wait := none }
        ∧ ∀ k, k ≠ p → t.port k = { s.port k with wait := waitAfter s t k })

/-- R147, R149: the conditions on which STORED and REFUSE-FRAGMENT are refused, in their order, and EARLY. -/
def Obligations.StoredAndRefuseCheckTarget : Prop :=
  ∀ (s : State) (p : PortId) (k : Byte) (i : Instr), (k, i) ∈ [(7#8, Instr.stored p), (8#8, .refuseFragment p)] →
    s.offers p k → ∀ e,
    let r := (s.port p).request
    let answers (st : Status) : Prop := exec i s = .next (s.answered p k st .none)
    r.handle ≤ 4095 → s.entry? r.handle = some e → e.stripe = r.stripe →
      (e.members.length ≤ r.position → answers .invalid)
      ∧ (r.position < e.members.length → e.state = .closed → answers .gone)
      ∧ ∀ m, e.members[r.position]? = some m → e.state ≠ .closed →
        (m.state ≠ .rebuilding ∨ m.target = none ∨ (∃ t, m.target = some t ∧ t.dest = none) → answers .gone)
        ∧ ∀ t n, m.state = .rebuilding → m.target = some t → t.dest = some n →
          ((s.node n).route ≠ some p → answers .misrouted)
          ∧ ((s.node n).route = some p → k = 7 → (∃ o < (e.length + 65535) / 65536, o ∉ t.coverage) → answers .early)

/-- R149, R52, R54: an accepted STORED makes the member HELD on its destination, lowers the node's load, and closes
the entry DONE when no lost position is left. The model's own readings and choices in it: an entry that closes DONE
keeps the class stored before that step (log 35). -/
def Obligations.StoredRestoresMember : Prop :=
  ∀ (s : State) (p : PortId) (e : Entry) (m : Member) (t0 : Target) (n : NodeId), s.offers p 7 →
    let r := (s.port p).request
    let h := r.handle
    r.handle ≤ 4095 → s.entry? h = some e → e.stripe = r.stripe → e.state ≠ .closed → e.submitters ≠ 0 →
    e.members[r.position]? = some m → m.state = .rebuilding → m.target = some t0 → t0.dest = some n →
    (s.node n).route = some p → (∀ o < (e.length + 65535) / 65536, o ∈ t0.coverage) →
    let kept : Member := { m with
      node := n, state := .held, cause := none, strikes := 0, target := some { t0 with stored := true, dest := none } }
    let stored : Entry := { e with members := e.members.set r.position kept }
    let pm := (s.code e.profile).m
    let lowered : State := { s with nodes := s.nodes.set n { s.node n with load := (s.node n).load - 1 }, attempt := true }
    ∃ t, exec (.stored p) s = .next t ∧ answeredFrame s t p 7 .ok .none ∧ onlyEntry s t h
      ∧ (0 < stored.lostCount → stored.lostCount ≤ pm →
          t.entry? h = some { stored with urgency := classFor pm stored.lostCount }
          ∧ portsButWaits (s.answered p 7 .ok .none) t ∧ { lowered with entries := t.entries, ports := t.ports } = t)
      ∧ (stored.lostCount = 0 → closes lowered t h stored .done)

/-- R147, R146, R44, R55: an accepted REFUSE-FRAGMENT takes the destination away: the target's outputs are freed,
their cells released, its deliveries disowned, its VOID recorded where one is owed, its coverage emptied, the load
lowered, a replan triggered. The model's own readings and choices in it: what counts as a delivery to the node for a
VOID (log 26). -/
def Obligations.RefuseFragmentLosesDestination : Prop :=
  ∀ (s : State) (p : PortId) (e : Entry) (m : Member) (t0 : Target) (n : NodeId), s.offers p 8 →
    let r := (s.port p).request
    let h := r.handle
    r.handle ≤ 4095 → s.entry? h = some e → e.stripe = r.stripe → e.state ≠ .closed → e.submitters ≠ 0 →
    e.members[r.position]? = some m → m.state = .rebuilding → m.target = some t0 → t0.stored = false →
    t0.dest = some n → (s.node n).route = some p →
    let lost : Entry := { e with
      members := e.members.set r.position { m with target := some (t0.unbound s h r.position n) } }
    ∃ t v, exec (.refuseFragment p) s = .next t ∧ answeredFrame s t p 8 .ok .none ∧ t.attempt = true
      ∧ afterRelease (lossState s h (· == r.position) n 1) v (queuedCell s h (· == r.position)) ∧ passesOn v t h lost

/-- R142, R157, R145: a delivery begins: the oldest current output leaves the queue, the buffer at the head leaves the
list, one transfer is charged, and an owned delivery record is written. -/
def Obligations.DeliveryBeginTakesOutputAndBuffer : Prop :=
  ∀ (s : State) (p : PortId), s.inReset = false →
    let q := s.port p
    let current (o : Output) : Prop := (s.node o.dest).state ≠ .down
    let may : Prop := q.state = .up ∧ q.responses.countP Record.isLanded + s.deliveries.countP (fun d => decide (d.port = p)) < 32
      ∧ q.held = false ∧ (q.budget.active = 0 ∨ q.budget.used < q.budget.active)
    (¬may ∨ q.landing = [] ∨ (∀ o ∈ q.outputs, ¬current o) → exec (.deliveryBegin p) s = .next s)
    ∧ ∀ (pre post : List Output) (o : Output) (buffer : U64) (rest : List U64), may → q.outputs = pre ++ o :: post →
      (∀ x ∈ pre, ¬current x) → current o → q.landing = buffer :: rest →
      let left := q.outputs.filter fun x => decide (x.cell ≠ o.cell)
      ∃ t, exec (.deliveryBegin p) s = .next t
        ∧ { s with ports := t.ports, deliveries := s.deliveries ++ [⟨p, o, buffer, true⟩] } = t
        ∧ (∀ k, k ≠ p → t.port k = { s.port k with wait := waitAfter s t k })
        ∧ t.port p = { q with
            outputs := left, landing := rest, wait := waitAfter s t p
            budget := { q.budget with used := if q.budget.used < 65535 then q.budget.used + 1 else 65535 } }
        ∧ (rest ≠ [] ∨ (∀ x ∈ left, ¬current x) → (t.port p).wait = none)
        ∧ (rest = [] → (∃ x ∈ left, current x) → q.wait = none →
            (t.port p).wait = some (s.timebase + BitVec.ofNat 48 s.landingTimeout))

/-- R143, R144, R53, R59, R63: a delivery ends: the bytes stand in the buffer, the LANDED notice is placed, the
output's cell is released, and an owned delivery of a live entry adds its offset to the coverage and is counted; a
disowned one counts for nothing, and a CLOSED entry that then owes nothing is removed. The model's own readings and
choices in it: where the entry settles, its LIVE fetches stay LIVE with their answer cells (log 36), and addresses are
taken modulo 2^64 (log 12). -/
def Obligations.DeliveryEndLandsChunk : Prop :=
  ∀ (s : State) (d : Delivery), s.inReset = false →
    (s.deliveries.find? fun y => decide (y.output.cell = d.output.cell)) = some d → d.output.length ≤ 65536 →
    let o := d.output
    let h := o.handle
    let bytes := (s.bytesOf o.cell).take o.length
    let others := s.deliveries.filter fun (y : Delivery) => decide (y.output.cell ≠ o.cell)
    ∃ t mem, exec (.deliveryEnd o.cell) s = .next t
      ∧ (∀ a : U64, Table.find mem a.toNat =
          if (a - d.buffer).toNat < bytes.length then bytes[(a - d.buffer).toNat]? else Table.find (s.port d.port).hostMem a.toNat)
      ∧ let landed : Port := Port.received { s.port d.port with hostMem := mem }
          (.landed o.stripe h o.position o.offset o.length o.checksum d.buffer)
        let ended : State := { s.setPort d.port landed with deliveries := others }
        let counted : State := { ended with counters := s.counters.set 8 (s.counters[8] + 1) }
        workFrame ended t ∧ t.deliveries = others ∧ (s.rising → onlyEntry s t h)
        ∧ (s.entry? h = none →
            ∃ v, afterRelease ended v (· = o.cell) ∧ portsButWaits ended t ∧ { v with ports := t.ports } = t)
        ∧ ∀ e, s.entry? h = some e →
          (e.state = .closed → ∃ v, afterRelease ended v (· = o.cell) ∧ portsButWaits ended t
            ∧ { v with entries := t.entries, profiles := t.profiles, ports := t.ports } = t
            ∧ (s.rising → staysUnlessDone s t h e))
          ∧ (e.state ≠ .closed → d.owned = false → ∃ v, afterRelease ended v (· = o.cell)
              ∧ (e.state ≠ .draining ∨ ended.busyWith h → t.entry? h = some e ∧ portsButWaits ended t
                  ∧ { v with entries := t.entries, ports := t.ports } = t)
              ∧ (e.state = .draining → ¬ended.busyWith h → e.submitters ≠ 0 → closes v t h e (.failed .cancelled)))
          ∧ ∀ m t0, e.state ≠ .closed → d.owned = true → e.members[o.position]? = some m → m.target = some t0 →
            let widened : Member := { m with target := some { t0 with coverage := insertSorted o.offset t0.coverage } }
            let covered : Entry := { e with members := e.members.set o.position widened }
            let settles : Prop := e.state = .active ∧ covered.allCovered = true ∧ ∀ l x, s.lane l = some x → x.handle ≠ h
            ∃ v, afterRelease counted v (· = o.cell)
              ∧ (settles → givesUpPlan v t h covered { covered with state := .settling, plan := none } ∧ portsButWaits ended t
                  ∧ { v with entries := t.entries, banks := t.banks, cells := t.cells, ports := t.ports, attempt := t.attempt } = t)
              ∧ (¬settles → e.state ≠ .draining ∨ ended.busyWith h → t.entry? h = some covered ∧ portsButWaits ended t
                  ∧ { v with entries := t.entries, ports := t.ports } = t)
              ∧ (e.state = .draining → ¬ended.busyWith h → e.submitters ≠ 0 → closes v t h covered (.failed .cancelled))

/-- R145, R146: at its deadline a landing wait expires: the target of the oldest current output loses its destination,
one landing timeout is counted, and a new wait begins where the conditions still hold. The model's own readings and
choices in it: what counts as a delivery to the node for a VOID (log 26). -/
def Obligations.LandingTimeoutTakesDestination : Prop :=
  ∀ (s : State) (p : PortId) (pre post : List Output) (o : Output) (e : Entry) (m : Member) (t0 : Target) (n : NodeId),
    s.inReset = false → (s.port p).wait = some s.timebase → (s.port p).outputs = pre ++ o :: post →
    (∀ x ∈ pre, (s.node x.dest).state = .down) → (s.node o.dest).state ≠ .down →
    s.entry? o.handle = some e → e.state ≠ .closed → e.submitters ≠ 0 → e.members[o.position]? = some m →
    m.target = some t0 → t0.stored = false → t0.dest = some n →
    let counted : State := { s.setPort p { s.port p with wait := none } with
      counters := s.counters.set 11 (s.counters[11] + 1) }
    let lost : Entry := { e with
      members := e.members.set o.position { m with target := some (t0.unbound s o.handle o.position n) } }
    ∃ t v, exec (.landingTimeout p) s = .next t ∧ workFrame counted t ∧ t.attempt = true
      ∧ afterRelease (lossState counted o.handle (· == o.position) n 1) v (queuedCell s o.handle (· == o.position))
      ∧ passesOn v t o.handle lost
      ∧ (t.port p).wait =
          if (s.port p).state = .up ∧ (s.port p).landing = [] ∧ ∃ x ∈ (t.port p).outputs, (s.node x.dest).state ≠ .down
          then some (s.timebase + BitVec.ofNat 48 s.landingTimeout) else none

/-! ### The Planner and the banks (04, 05) -/

/-- R74 to R80: what the Planner's choices for an entry come to: k usable members with those on UP nodes first, the next
usable member as check, and for each target without a destination, in ascending position, the eligible node at the index
that the stepped selector gives. A node that the plan has chosen already is barred by its rack, unless that is relaxed,
and by its load alone (log 23). -/
def Obligations.PlannerChoicesMeetTheirRules : Prop :=
  ∀ (s : State) (e : Entry),
    let c := s.code e.profile
    let usable (pos : Position) : Prop := ∃ m x, e.members[pos]? = some m ∧ m.state = .held
      ∧ ((s.node m.node).state = .up ∨ (s.node m.node).state = .suspect)
      ∧ (s.node m.node).route = some x ∧ (s.port x).state = .up
    let onUp (pos : Position) : Prop := ∃ m, e.members[pos]? = some m ∧ (s.node m.node).state = .up
    let weight (pos : Position) : Nat := (if pos < c.k then 0 else 1) +
      (match e.members[pos]? with
       | some m => if (s.node m.node).state = .up then 0 else 2
       | none => 2)
    let before (a b : Position) : Prop := weight a < weight b ∨ (weight a = weight b ∧ a < b)
    let count := (List.range e.members.length).countP fun pos => (s.ranking e c.k).contains pos
    (∀ pos, pos ∈ s.ranking e c.k ↔ usable pos)
    ∧ (s.chooseSources e c.k = none ↔ count < c.k)
    ∧ (∀ x, s.chooseSources e c.k = some x →
        x.sources.length = c.k ∧ x.sources.Pairwise (· < ·) ∧ (∀ pos ∈ x.sources, usable pos)
        ∧ (∀ a b, usable a → a ∉ x.sources → b ∈ x.sources → before b a)
        ∧ (e.crossCheck = false → x.check = none ∧ x.skipped = false)
        ∧ (e.crossCheck = true → (x.check = none ↔ count = c.k) ∧ (x.skipped = true ↔ count = c.k))
        ∧ (∀ pos, x.check = some pos → usable pos ∧ pos ∉ x.sources
            ∧ ∀ a, usable a → a ∉ x.sources → a ≠ pos → before pos a)
        ∧ (x.suspect = true ↔ ∃ pos, (pos ∈ x.sources ∨ x.check = some pos) ∧ ¬onUp pos))
    ∧ let d := s.destChoice e
      let rack (n : NodeId) := (s.node n).rack
      let others (n : NodeId) (chosen : List NodeId) : Nat :=
        (e.members.countP fun m => decide (m.state ≠ .lost ∧ rack m.node = rack n))
        + (e.targets.countP fun pt => pt.2.dest.any fun x => decide (rack x = rack n))
        + chosen.countP fun x => decide (rack x = rack n)
      let fits (pos : Position) (chosen : List NodeId) (n : NodeId) : Prop :=
        (s.node n).state = .up ∧ (∃ x, (s.node n).route = some x ∧ (s.port x).state = .up)
        ∧ (s.node n).load + chosen.countP (fun x => decide (x = n)) < 8
        ∧ (∀ m ∈ e.members, m.node ≠ n) ∧ (∀ pt ∈ e.targets, pt.2.dest ≠ some n)
        ∧ ∀ t, e.target? pos = some t → ∀ v ∈ t.voids, v.1 ≠ n
      let eligible (pos : Position) (chosen : List NodeId) (n : NodeId) : Prop := fits pos chosen n
        ∧ (others n chosen = 0 ∨ (∀ k, fits pos chosen k → others k chosen ≠ 0 ∧ others n chosen ≤ others k chosen))
      let step (x : U16) : U16 := (x <<< 1) |||
        (if xor (xor (x.getLsbD 15) (x.getLsbD 14)) (xor (x.getLsbD 12) (x.getLsbD 3)) then 1#16 else 0#16)
      let before (i : Nat) : List NodeId := (d.chosen.take i).map Prod.snd
      d.chosen.map Prod.fst = e.destless.take d.chosen.length
      ∧ (∀ (i : Nat) pos n, d.chosen[i]? = some (pos, n) →
          ∃ l : List NodeId, l.Pairwise (· < ·) ∧ (∀ k, k ∈ l ↔ eligible pos (before i) k)
            ∧ l[(step^[i + 1] s.selector).toNat % l.length]? = some n)
      ∧ (d.complete = true ↔ d.chosen.length = e.destless.length)
      ∧ (d.complete = false → ∃ pos, e.destless[d.chosen.length]? = some pos ∧ ∀ k, ¬fits pos (d.chosen.map Prod.snd) k)
      ∧ (d.relaxed = true ↔ ∃ (i : Nat) (pos : Position) (n : NodeId), d.chosen[i]? = some (pos, n) ∧ others n (before i) ≠ 0)
      ∧ d.selector = step^[d.chosen.length] s.selector

/-- R67 to R73, R81, R82, R84, R85, R92, R94 to R97: a planning attempt that was caused serves in queue order the
entries in PLANNING that await a revision or have an incomplete plan, decides in queue order the QUEUED entries, and
marks a park where R81 calls for one. The model's own readings in it: a revision that finds no source set has an empty
gather set and gives up every chunk and LIVE fetch (log 21), gives every LOST member its target record, with or
without a destination (log 22), and sets no CHECK-SKIPPED (log 38); LIVE fetches of an entry that goes from ACTIVE at
once to SETTLING stay (log 36); a destination chosen earlier in the plan is barred by rack and load alone (log 23); a
revised floor is sized against the floor count (log 40). -/
def Obligations.PlanningAttemptDecidesQueuedEntry : Prop :=
  ∀ s : State, s.inReset = false →
    (s.attempt = false → exec .planningAttempt s = .next s)
    ∧ (s.attempt = true → s.entries = [] → exec .planningAttempt s = .next { s with attempt := false })
    ∧ (s.attempt = true → s.rising → s.oneEra →
        ∃ (planning queued : List Handle) (v : State) (w : Walk) (t : State), exec .planningAttempt s = .next t
          ∧ s.inQueueOrder (fun e => e.state = .planning) planning
          ∧ s.inQueueOrder (fun e => e.state = .queued) queued
          ∧ inTurn serves { s with attempt := false } planning v
          ∧ inTurn decides ⟨v, false, none, false⟩ queued w
          ∧ endsAttempt w t)

/-- R99, R100, R12, R15, R53: the idle Matrix Unit begins on the bank at the head of the FIFO; an inversion's end
makes the bank READY with its rows, or EMPTY where it is discarded, activates the entries whose plan waited on it, and
begins the next inversion in the same step (a beginning by itself: log 33). The model's own readings and choices in
it: LIVE fetches of an entry that becomes ACTIVE and at once SETTLING stay LIVE with their answer cells (log 36), and
where INVERSION_BEGIN begins one by itself (log 33). -/
def Obligations.InversionsRunInFifoOrder : Prop :=
  ∀ s : State, s.inReset = false →
    (∃ t, exec .inversionBegin s = .next t ∧ beginsInversion s t)
    ∧ (s.matrix = none ∨ s.inversionFifo = [] → exec .inversionEnd s = .next s)
    ∧ ∀ inv b rest k, s.matrix = some inv → s.inversionFifo = b :: rest → (s.bank b).key = some k → s.rising →
      let inverse := invertArray inv.code.k inv.array
      ∃ (u v t : State) (planned : List Handle), exec .inversionEnd s = .next t
        ∧ { s with matrix := none, inversionFifo := rest, banks := u.banks } = u
        ∧ (∀ j, j ≠ b → u.bank j = s.bank j)
        ∧ ((s.bank b).discard = true → u.bank b = ⟨.empty, none, [], (s.bank b).refs, (s.bank b).stamp, false⟩)
        ∧ ((s.bank b).discard = false →
            u.bank b = ⟨.ready, some k, (k.targets ++ k.check.toList).map (fun i => rowTimes inv.code.k (generatorRow inv.code i) inverse),
              (s.bank b).refs, (s.bank b).stamp, false⟩)
        ∧ planned.Pairwise (· < ·)
        ∧ (∀ h, h ∈ planned ↔ ∃ e, s.entry? h = some e ∧ e.plan.bind Plan.bank = some b)
        ∧ inTurn (fun x h y => ∀ e, x.entry? h = some e → activates x y h e) u planned v
        ∧ beginsInversion { v with attempt := true } t

/-! ### Sweeps and coalesced notices (02, 10) -/

/-- R37, R42, R52, R55, R146: a sweep's visit to the live entry at a handle: HELD members on the node become LOST,
targets bound for it lose it, and the entry closes above m losses, is triggered, or is left as it stands. The model's
own readings and choices in it: an entry that closes UNRECOVERABLE keeps the class stored before that step (log 35),
the handles before the visited one that hold no live entry are passed over in the same step (log 5), of two closes of
a DRAINING entry which comes first (log 25), and what counts as a delivery to the node for a VOID (log 26). -/
def Obligations.SweepVisitTreatsEntry : Prop :=
  ∀ (s : State) (w : Sweep) (h : Handle) (e : Entry), s.inReset = false → s.sweep = some w → w.next ≤ h → h < 4096 →
    (∀ he ∈ s.entries, w.next ≤ he.1 → he.1 < h → he.2.state = .closed) → s.rising → s.entry? h = some e →
    e.state ≠ .closed → e.submitters ≠ 0 →
    let passed : State := { s with sweep := some { w with next := h + 1 } }
    let hits (m : Member) : Bool := decide (m.node = w.node ∧ m.state = .held)
    let bound (j : Position) : Bool :=
      match e.members[j]?, e.target? j with
      | some m, some t => !hits m && decide (t.dest = some w.node)
      | _, _ => false
    let swept (j : Position) (m : Member) : Member :=
      if hits m then m.lostNow .nodeDown
      else if bound j then { m with target := m.target.map (Target.unbound s h j w.node) }
      else m
    let count := (List.range e.members.length).countP bound
    let unbound := lossState passed h bound w.node count
    let e1 : Entry := { e with members := e.members.mapIdx swept }
    let pm := (s.code e.profile).m
    ∃ t v, exec (.sweepVisit h) s = .next t ∧ workFrame passed t ∧ afterRelease unbound v (queuedCell s h bound)
      ∧ (e.members.any hits = false → count = 0 →
          t.entry? h = some e ∧ onlyEntry s t h ∧ portsButWaits s t ∧ { passed with entries := t.entries, ports := t.ports } = t)
      ∧ (e.members.any hits = false → 0 < count → t.attempt = true ∧ passesOn v t h e1)
      ∧ (e.members.any hits = true → e1.lostCount ≤ pm → passesOn v t h { e1 with urgency := classFor pm e1.lostCount })
      ∧ (e.members.any hits = true → pm < e1.lostCount → closes v t h e1 (.failed .unrecoverable))

/-- R24, R44, R62, R63, R148, R166: an UP port whose coalesced share has room sends its pending items, CLOSED notices
first, then sendable VOIDs (a VOID waits while a delivery of its target to its node is in progress: log 26), then
NODE-STATE notices, each kind lowest first; the sending clears the item. -/
def Obligations.PendingNoticesAreSentInOrder : Prop :=
  ∀ (s : State) (p : PortId), s.inReset = false →
    let q := s.port p
    let may : Prop := q.state = .up ∧ q.responses.countP Record.isCoalesced < 32
    let sendable (h : Handle) (e : Entry) (pos : Position) (n : NodeId) : Prop :=
      (∃ m t, e.members[pos]? = some m ∧ m.target = some t ∧ (n, p) ∈ t.voids)
      ∧ ∀ d ∈ s.deliveries, ¬(d.output.handle = h ∧ d.output.position = pos ∧ d.output.dest = n)
    let noClosed : Prop := ∀ he ∈ s.entries, PortSet.has he.2.closedMarks p = false
    let noVoid : Prop := ∀ he ∈ s.entries, ∀ pos n, ¬sendable he.1 he.2 pos n
    let noMark : Prop := ∀ n, PortSet.has (s.node n).marks p = false
    (¬may ∨ noClosed → exec (.sendClosed p) s = .next s)
    ∧ (¬may ∨ ¬noClosed ∨ noVoid → exec (.sendVoid p) s = .next s)
    ∧ (¬may ∨ ¬noClosed ∨ ¬noVoid ∨ noMark → exec (.sendNodeState p) s = .next s)
    ∧ (∀ (pre post : Table Entry) (h : Handle) (e : Entry), may → s.rising → s.entries = pre ++ (h, e) :: post →
        (∀ he ∈ pre, PortSet.has he.2.closedMarks p = false) → PortSet.has e.closedMarks p = true →
        ∃ t, exec (.sendClosed p) s = .next t ∧ onlyPort s t p ∧ onlyEntry s t h
          ∧ t.port p = q.received (.closed e.stripe h e.outcome e.flags e.lostCount)
          ∧ staysUnlessDone s t h { e with closedMarks := PortSet.remove e.closedMarks p }
          ∧ { s with ports := t.ports, entries := t.entries, profiles := t.profiles } = t)
    ∧ (∀ (h : Handle) (pos : Position) (n : NodeId) (e : Entry) (m : Member) (t0 : Target), may → s.rising → noClosed →
        s.entry? h = some e → e.members[pos]? = some m → m.target = some t0 → sendable h e pos n →
        (∀ he ∈ s.entries, he.1 < h → ∀ j k, ¬sendable he.1 he.2 j k) → (∀ j < pos, ∀ k, ¬sendable h e j k) →
        (∀ k < n, ¬sendable h e pos k) →
        let sent : Member := { m with target := some { t0 with voids := t0.voids.filter fun v => decide (v.1 ≠ n) } }
        ∃ t, exec (.sendVoid p) s = .next t ∧ onlyPort s t p ∧ onlyEntry s t h
          ∧ t.port p = q.received (.void e.stripe pos n)
          ∧ staysUnlessDone s t h { e with members := e.members.set pos sent }
          ∧ { s with ports := t.ports, entries := t.entries, profiles := t.profiles } = t)
    ∧ ∀ n : NodeId, may → noClosed → noVoid → PortSet.has (s.node n).marks p = true →
        (∀ k < n, PortSet.has (s.node k).marks p = false) →
        let x := s.node n
        exec (.sendNodeState p) s = .next ((s.setNode n { x with marks := PortSet.remove x.marks p }).setPort p
          (q.received (.nodeState n x.state x.rack x.route)))

/-! ### Arithmetic (01) -/

/-- R1 to R5, R12, R14 to R16, R19: doubling shifts left and, where a 1 falls out, adds 0x1D; the product is commutative
and associative, distributes over addition and has 1 as its unit; every nonzero element times its inverse is 1; the
CRC-32C of "123456789"; and under every code of R5 the row that the Matrix Unit forms for any position, for any
ascending source set, rebuilds the byte of that position from the bytes of the sources, whatever the data. -/
def Obligations.FieldChecksumAndRowsAreRight : Prop :=
  (∀ a : Byte, gfMul a 2 = (a <<< 1) ^^^ (if a.getLsbD 7 = true then 0x1D#8 else 0#8))
  ∧ (∀ a : Byte, gfMul a 0 = 0 ∧ gfMul a 1 = a) ∧ (∀ a b : Byte, gfMul a b = gfMul b a)
  ∧ (∀ a b c : Byte, gfMul (gfMul a b) c = gfMul a (gfMul b c) ∧ gfMul a (b ^^^ c) = gfMul a b ^^^ gfMul a c)
  ∧ (∀ a : Byte, a ≠ 0 → gfMul a (gfInv a) = 1)
  ∧ crc32c [0x31#8, 0x32#8, 0x33#8, 0x34#8, 0x35#8, 0x36#8, 0x37#8, 0x38#8, 0x39#8] = 0xE3069283#32
  ∧ ∀ c : Code, 2 ≤ c.k → c.k ≤ 20 → 1 ≤ c.m → c.m ≤ 6 → c.k + c.m ≤ 24 →
      (∀ i < c.k + c.m, ∀ j < c.k, (generatorRow c i)[j]? =
        some (if i < c.k then (if j = i then 1 else 0) else gfInv (BitVec.ofNat 8 (i - c.k) ^^^ BitVec.ofNat 8 (c.m + j))))
      ∧ ∀ (l : List Position) (pos : Position) (data : List Byte), l.Pairwise (· < ·) → l.length = c.k →
          (∀ i ∈ l, i < c.k + c.m) → pos < c.k + c.m → data.length = c.k →
          let fragment (i : Position) : Byte := gfDot (generatorRow c i) data
          gfDot (rowTimes c.k (generatorRow c pos) (invertArray c.k (augmented c l))) (l.map fragment) = fragment pos

/-! ### Invariants -/

/-- The invariants hold right after device reset. -/
def Obligations.InvariantsHoldAtReset : Prop := State.reset.settingsHold ∧ State.reset.tableHolds ∧ State.reset.sharesHold

/-- Every step that answers a next state keeps the invariant. -/
def Obligations.EveryStepKeepsSettingsInvariant : Prop := ∀ s t : State, s.settingsHold → step s = .next t → t.settingsHold

/-- R165: every step that answers a next state keeps the shares within their sizes. -/
def Obligations.ResponseSharesNeverOverflow : Prop := ∀ s t : State, s.sharesHold → step s = .next t → t.sharesHold

/-- R40, R56: every step that answers a next state keeps the Repair Table's own invariant. -/
def Obligations.EveryStepKeepsTableInvariant : Prop :=
  ∀ s t : State, s.tableHolds → step s = .next t → t.tableHolds
end

