-- ==== Sys2Proof/Laws/Memory.lean ====
section
/-! SUPPORT. Tables and memory: what a write reads back, and that every operation keeps the canonical form. -/

namespace Sys2Proof.Machine

/-- The keys of a table rise strictly. -/
abbrev Table.sorted {α : Type} (t : Table α) : Prop := t.Pairwise (fun a b => a.1 < b.1)

/-! ### Tables -/

/-- Every number below `n`, once, in rising order. -/
theorem allBelow_eq (n : Nat) [NeZero n] : allBelow n = List.finRange n := by
  unfold allBelow
  apply List.ext_getElem
  · simp
  · intro i h1 h2
    simp only [List.length_map, List.length_range] at h1
    apply Fin.ext
    simp [Nat.mod_eq_of_lt h1]

theorem zip_allBelow {α : Type} {n : Nat} [NeZero n] (v : Vector α n) :
    (allBelow n).zip v.toList = (List.finRange n).map fun i => (i, v[i]) := by
  rw [allBelow_eq]
  apply List.ext_getElem
  · simp
  · intro i h1 h2
    simp

theorem indicesWhere_eq {α : Type} {n : Nat} [NeZero n] (v : Vector α n) (f : Fin n → α → Bool) :
    indicesWhere v f = (List.finRange n).filter fun i => f i v[i] := by
  simp [indicesWhere, zip_allBelow, List.filter_map, Function.comp_def]

theorem firstWhere_eq {α : Type} {n : Nat} [NeZero n] (v : Vector α n) (f : α → Bool) :
    firstWhere v f = (List.finRange n).find? fun i => f v[i] := by
  simp [firstWhere, zip_allBelow, List.find?_map, Function.comp_def]

theorem countP_toList_eq {α : Type} {n : Nat} (v : Vector α n) (f : α → Bool) :
    v.toList.countP f = (List.finRange n).countP fun i => f v[i] := by
  have : v.toList = (List.finRange n).map fun i => v[i] := by
    apply List.ext_getElem
    · simp
    · intro i h1 h2
      simp
  rw [this, List.countP_map]
  rfl

theorem mem_cellIds (c : CellId) : c ∈ cellIds := by simp [cellIds, allBelow_eq]

theorem Table.find_none_of_lt {α : Type} (t : Table α) (k : Nat) (h : ∀ c ∈ t, k < c.1) : Table.find t k = none := by
  induction t with
  | nil => rfl
  | cons a rest ih =>
    obtain ⟨i, x⟩ := a
    have hi : k < i := h (i, x) List.mem_cons_self
    simp only [Table.find, if_neg (Nat.ne_of_gt hi)]
    exact ih fun c hc => h c (by simp [hc])

theorem Table.mem_put {α : Type} (t : Table α) (k : Nat) (x : α) (c : Nat × α) (h : c ∈ Table.put t k x) :
    c = (k, x) ∨ c ∈ t := by
  induction t with
  | nil => simp [Table.put] at h; exact Or.inl h
  | cons a rest ih =>
    obtain ⟨i, y⟩ := a
    simp only [Table.put] at h
    split at h
    · simpa using h
    · split at h
      · rcases List.mem_cons.mp h with h | h
        · exact Or.inl h
        · exact Or.inr (by simp [h])
      · rcases List.mem_cons.mp h with h | h
        · exact Or.inr (by simp [h])
        · rcases ih h with h | h
          · exact Or.inl h
          · exact Or.inr (by simp [h])

theorem Table.mem_erase {α : Type} (t : Table α) (k : Nat) (c : Nat × α) (h : c ∈ Table.erase t k) : c ∈ t := by
  induction t with
  | nil => simp [Table.erase] at h
  | cons a rest ih =>
    obtain ⟨i, y⟩ := a
    simp only [Table.erase] at h
    split at h
    · simp [h]
    · rcases List.mem_cons.mp h with h | h
      · simp [h]
      · simp [ih h]

theorem Table.sorted_put {α : Type} (t : Table α) (k : Nat) (x : α) (h : Table.sorted t) : Table.sorted (Table.put t k x) := by
  induction t with
  | nil => simp [Table.put, Table.sorted]
  | cons a rest ih =>
    obtain ⟨i, y⟩ := a
    have hr := List.pairwise_cons.mp h
    simp only [Table.put]
    split
    · rename_i hki
      refine List.pairwise_cons.mpr ⟨?_, h⟩
      intro c hc
      rcases List.mem_cons.mp hc with hc | hc
      · subst hc; exact hki
      · exact Nat.lt_trans hki (hr.1 c hc)
    · split
      · rename_i hki
        subst hki
        exact List.pairwise_cons.mpr ⟨hr.1, hr.2⟩
      · rename_i h1 h2
        refine List.pairwise_cons.mpr ⟨?_, ih hr.2⟩
        intro c hc
        rcases Table.mem_put rest k x c hc with hc | hc
        · subst hc; show i < k; omega
        · exact hr.1 c hc

theorem Table.sorted_erase {α : Type} (t : Table α) (k : Nat) (h : Table.sorted t) : Table.sorted (Table.erase t k) := by
  induction t with
  | nil => simp [Table.erase, Table.sorted]
  | cons a rest ih =>
    obtain ⟨i, y⟩ := a
    have hr := List.pairwise_cons.mp h
    simp only [Table.erase]
    split
    · exact hr.2
    · exact List.pairwise_cons.mpr ⟨fun c hc => hr.1 c (Table.mem_erase rest k c hc), ih hr.2⟩

theorem Table.find_put {α : Type} (t : Table α) (k j : Nat) (x : α) :
    Table.find (Table.put t k x) j = if j = k then some x else Table.find t j := by
  induction t with
  | nil => simp [Table.put, Table.find, eq_comm]
  | cons a rest ih =>
    obtain ⟨i, y⟩ := a
    simp only [Table.put]
    split
    · simp only [Table.find]
      by_cases hjk : k = j
      · simp [hjk]
      · simp [hjk, Ne.symm hjk]
    · split
      · rename_i h1 h2
        subst h2
        simp only [Table.find]
        by_cases hjk : k = j
        · simp [hjk]
        · simp [hjk, Ne.symm hjk]
      · rename_i h1 h2
        simp only [Table.find, ih]
        by_cases hij : i = j
        · have : j ≠ k := by omega
          simp [hij, this]
        · simp [hij]

/-- Of two writes under one key the second stands. -/
theorem Table.put_put {α : Type} (t : Table α) (k : Nat) (x y : α) :
    Table.put (Table.put t k x) k y = Table.put t k y := by
  induction t with
  | nil => simp [Table.put]
  | cons a rest ih =>
    obtain ⟨j, v⟩ := a
    by_cases h1 : k < j
    · simp [Table.put, h1]
    · by_cases h2 : k = j
      · simp [Table.put, h2]
      · simp [Table.put, h1, h2, ih]

/-- What a write leaves of a table does not depend on what is written. -/
theorem Table.mem_put_congr {α : Type} (t : Table α) (k : Nat) (x y : α) {c : Nat × α} (hx : c ≠ (k, x)) :
    c ∈ Table.put t k x → c ∈ Table.put t k y := by
  induction t with
  | nil => exact fun h => absurd (by simpa [Table.put] using h) hx
  | cons a rest ih =>
    obtain ⟨j, v⟩ := a
    by_cases h1 : k < j
    · simp only [Table.put, h1, if_true, List.mem_cons]
      rintro (h | h)
      · exact absurd h hx
      · exact .inr h
    · by_cases h2 : k = j
      · simp only [Table.put, h2, if_true, if_false, List.mem_cons, Nat.lt_irrefl]
        rintro (h | h)
        · exact absurd (h2 ▸ h) hx
        · exact .inr h
      · simp only [Table.put, h1, h2, if_false, List.mem_cons]
        rintro (h | h)
        · exact .inl h
        · exact .inr (ih h)

theorem Table.find_erase {α : Type} (t : Table α) (k j : Nat) (h : Table.sorted t) :
    Table.find (Table.erase t k) j = if j = k then none else Table.find t j := by
  induction t with
  | nil => simp [Table.erase, Table.find]
  | cons a rest ih =>
    obtain ⟨i, y⟩ := a
    have hr := List.pairwise_cons.mp h
    simp only [Table.erase]
    split
    · rename_i hik
      subst hik
      by_cases hj : j = i
      · subst hj
        rw [if_pos rfl]
        exact Table.find_none_of_lt rest j hr.1
      · simp [Table.find, hj, Ne.symm hj]
    · rename_i hik
      simp only [Table.find, ih hr.2]
      by_cases hij : i = j
      · subst hij
        simp [hik]
      · simp [hij]

/-! ### Entries -/

@[simp] theorem State.entry_setEntry (s : State) (h k : Handle) (e : Entry) :
    (s.setEntry h e).entry? k = if k = h then some e else s.entry? k := Table.find_put s.entries h k e

/-! ### Memory -/

theorem Memory.wf_write (m : Memory) (a : Nat) (b : Byte) (h : Memory.wf m) : Memory.wf (Memory.write m a b) := by
  simp only [Memory.write]
  split
  · exact ⟨Table.sorted_erase m a h.1, fun c hc => h.2 c (Table.mem_erase m a c hc)⟩
  · rename_i hb
    refine ⟨Table.sorted_put m a b h.1, fun c hc => ?_⟩
    rcases Table.mem_put m a b c hc with hc | hc
    · subst hc; exact hb
    · exact h.2 c hc

theorem Memory.read_write (m : Memory) (a j : Nat) (b : Byte) (h : Memory.wf m) :
    Memory.read (Memory.write m a b) j = if j = a then b else Memory.read m j := by
  simp only [Memory.write]
  split
  · rename_i hb
    simp only [Memory.read, Table.find_erase m a j h.1]
    by_cases hj : j = a
    · simp [hj, hb]
    · simp [hj]
  · simp only [Memory.read, Table.find_put]
    by_cases hj : j = a
    · simp [hj]
    · simp [hj]

theorem Memory.wf_storeSlots (bytes : List Byte) (m : Memory) (a : Nat) (h : Memory.wf m) :
    Memory.wf (storeSlots m a bytes) := by
  induction bytes generalizing m a with
  | nil => exact h
  | cons b rest ih =>
    simp only [storeSlots]
    apply ih
    split
    · exact Memory.wf_write m a b h
    · exact h

/-- What a request slot's byte reads as after a host write: the byte written, where one was. -/
theorem Memory.read_storeSlots (bytes : List Byte) (m : Memory) (a j : Nat) (h : Memory.wf m) :
    Memory.read (storeSlots m a bytes) j =
      if slotOffset j = true ∧ a ≤ j ∧ j < a + bytes.length then bytes.getD (j - a) 0 else Memory.read m j := by
  induction bytes generalizing m a with
  | nil => simp only [storeSlots, List.length_nil]; rw [if_neg]; omega
  | cons b rest ih =>
    simp only [storeSlots]
    have hw : Memory.wf (if slotOffset a = true then Memory.write m a b else m) := by
      split
      · exact Memory.wf_write m a b h
      · exact h
    rw [ih _ _ hw]
    have hread : Memory.read (if slotOffset a = true then Memory.write m a b else m) j =
        if slotOffset a = true ∧ j = a then b else Memory.read m j := by
      by_cases hs : slotOffset a = true
      · simp only [hs, if_true, true_and]
        exact Memory.read_write m a j b h
      · simp [hs]
    rw [hread]
    by_cases hj : j = a
    · subst hj
      rw [if_neg (by omega)]
      simp
    · simp only [hj, and_false, if_false, List.length_cons]
      by_cases hin : slotOffset j = true ∧ a + 1 ≤ j ∧ j < a + 1 + rest.length
      · rw [if_pos hin, if_pos ⟨hin.1, by omega, by omega⟩]
        have : j - a = (j - (a + 1)) + 1 := by omega
        rw [this]
        simp
      · rw [if_neg hin, if_neg]
        intro hc
        exact hin ⟨hc.1, by omega, by omega⟩

/-- The request slots at reset are in the canonical form. -/
theorem Memory.wf_reset (p : PortId) : Memory.wf (State.reset.port p).slots := by
  have : (State.reset.port p).slots = [] := by
    simp [State.port, State.reset, Port.reset]
  rw [this]
  exact ⟨List.Pairwise.nil, fun c hc => by simp at hc⟩

/-- What the mover writes into a host's memory lies in the buffer: every other address is as before, and an address of the
buffer is as before or holds its byte. -/
theorem find_landBytes (bytes : List Byte) (mem : Table Byte) (address : U64) (pick : Nat → Bool) (k a : Nat) :
    Table.find (landBytes mem address pick k bytes) a = Table.find mem a
      ∨ ∃ i b, bytes[i]? = some b ∧ a = (address + BitVec.ofNat 64 (i + k)).toNat
          ∧ Table.find (landBytes mem address pick k bytes) a = some b := by
  induction bytes generalizing mem k with
  | nil => exact .inl rfl
  | cons b rest ih =>
    simp only [landBytes]
    rcases ih (if pick k then Table.put mem (address + BitVec.ofNat 64 k).toNat b else mem) (k + 1) with h | ⟨i, c, h1, h2, h3⟩
    · rw [h]
      by_cases hp : pick k = true
      · rw [if_pos hp, Table.find_put]
        by_cases ha : a = (address + BitVec.ofNat 64 k).toNat
        · exact .inr ⟨0, b, rfl, by simpa using ha, by rw [if_pos ha]⟩
        · exact .inl (if_neg ha)
      · rw [if_neg hp]
        exact .inl rfl
    · exact .inr ⟨i + 1, c, h1, by rw [h2, show i + (k + 1) = i + 1 + k by omega], h3⟩

end Sys2Proof.Machine
end

