-- ==== Sys2Proof/Laws/State.lean ====
section
/-! SUPPORT. One lemma per field per update of the state, each true by computation, and what each update reads back. -/

namespace Sys2Proof.Machine

/-! ### setPort -/

@[simp] theorem State.setPort_inReset (s : State) (p : PortId) (q : Port) : (s.setPort p q).inReset = s.inReset := rfl
@[simp] theorem State.setPort_nodes (s : State) (p : PortId) (q : Port) : (s.setPort p q).nodes = s.nodes := rfl
@[simp] theorem State.setPort_quorum (s : State) (p : PortId) (q : Port) : (s.setPort p q).quorum = s.quorum := rfl
@[simp] theorem State.setPort_sweepFifo (s : State) (p : PortId) (q : Port) : (s.setPort p q).sweepFifo = s.sweepFifo := rfl
@[simp] theorem State.setPort_sweep (s : State) (p : PortId) (q : Port) : (s.setPort p q).sweep = s.sweep := rfl
@[simp] theorem State.setPort_profiles (s : State) (p : PortId) (q : Port) : (s.setPort p q).profiles = s.profiles := rfl
@[simp] theorem State.setPort_entries (s : State) (p : PortId) (q : Port) : (s.setPort p q).entries = s.entries := rfl
@[simp] theorem State.setPort_sequenceCounter (s : State) (p : PortId) (q : Port) : (s.setPort p q).sequenceCounter = s.sequenceCounter := rfl
@[simp] theorem State.setPort_attempt (s : State) (p : PortId) (q : Port) : (s.setPort p q).attempt = s.attempt := rfl
@[simp] theorem State.setPort_park (s : State) (p : PortId) (q : Port) : (s.setPort p q).park = s.park := rfl
@[simp] theorem State.setPort_selector (s : State) (p : PortId) (q : Port) : (s.setPort p q).selector = s.selector := rfl
@[simp] theorem State.setPort_banks (s : State) (p : PortId) (q : Port) : (s.setPort p q).banks = s.banks := rfl
@[simp] theorem State.setPort_inversionFifo (s : State) (p : PortId) (q : Port) : (s.setPort p q).inversionFifo = s.inversionFifo := rfl
@[simp] theorem State.setPort_matrix (s : State) (p : PortId) (q : Port) : (s.setPort p q).matrix = s.matrix := rfl
@[simp] theorem State.setPort_window (s : State) (p : PortId) (q : Port) : (s.setPort p q).window = s.window := rfl
@[simp] theorem State.setPort_fetchTimeout (s : State) (p : PortId) (q : Port) : (s.setPort p q).fetchTimeout = s.fetchTimeout := rfl
@[simp] theorem State.setPort_transfers (s : State) (p : PortId) (q : Port) : (s.setPort p q).transfers = s.transfers := rfl
@[simp] theorem State.setPort_cells (s : State) (p : PortId) (q : Port) : (s.setPort p q).cells = s.cells := rfl
@[simp] theorem State.setPort_lanes (s : State) (p : PortId) (q : Port) : (s.setPort p q).lanes = s.lanes := rfl
@[simp] theorem State.setPort_deliveries (s : State) (p : PortId) (q : Port) : (s.setPort p q).deliveries = s.deliveries := rfl
@[simp] theorem State.setPort_landingTimeout (s : State) (p : PortId) (q : Port) : (s.setPort p q).landingTimeout = s.landingTimeout := rfl
@[simp] theorem State.setPort_timebase (s : State) (p : PortId) (q : Port) : (s.setPort p q).timebase = s.timebase := rfl
@[simp] theorem State.setPort_nextBoundary (s : State) (p : PortId) (q : Port) : (s.setPort p q).nextBoundary = s.nextBoundary := rfl
@[simp] theorem State.setPort_epochLength (s : State) (p : PortId) (q : Port) : (s.setPort p q).epochLength = s.epochLength := rfl
@[simp] theorem State.setPort_counters (s : State) (p : PortId) (q : Port) : (s.setPort p q).counters = s.counters := rfl
@[simp] theorem State.setPort_fresh (s : State) (p : PortId) (q : Port) : (s.setPort p q).fresh = s.fresh := rfl
@[simp] theorem State.setPort_pending (s : State) (p : PortId) (q : Port) : (s.setPort p q).pending = s.pending := rfl
@[simp] theorem State.setPort_node_other (s : State) (p : PortId) (q : Port) (k : NodeId) : (s.setPort p q).node k = s.node k := rfl
@[simp] theorem State.setPort_profile_other (s : State) (p : PortId) (q : Port) (k : ProfileId) : (s.setPort p q).profile k = s.profile k := rfl
@[simp] theorem State.setPort_bank_other (s : State) (p : PortId) (q : Port) (k : BankId) : (s.setPort p q).bank k = s.bank k := rfl
@[simp] theorem State.setPort_entry_other (s : State) (p : PortId) (q : Port) (k : Handle) : (s.setPort p q).entry? k = s.entry? k := rfl
@[simp] theorem State.setPort_cell_other (s : State) (p : PortId) (q : Port) (k : CellId) : (s.setPort p q).cell k = s.cell k := rfl
@[simp] theorem State.setPort_lane_other (s : State) (p : PortId) (q : Port) (k : LaneId) : (s.setPort p q).lane k = s.lane k := rfl

/-! ### setNode -/

@[simp] theorem State.setNode_inReset (s : State) (n : NodeId) (x : Node) : (s.setNode n x).inReset = s.inReset := rfl
@[simp] theorem State.setNode_ports (s : State) (n : NodeId) (x : Node) : (s.setNode n x).ports = s.ports := rfl
@[simp] theorem State.setNode_quorum (s : State) (n : NodeId) (x : Node) : (s.setNode n x).quorum = s.quorum := rfl
@[simp] theorem State.setNode_sweepFifo (s : State) (n : NodeId) (x : Node) : (s.setNode n x).sweepFifo = s.sweepFifo := rfl
@[simp] theorem State.setNode_sweep (s : State) (n : NodeId) (x : Node) : (s.setNode n x).sweep = s.sweep := rfl
@[simp] theorem State.setNode_profiles (s : State) (n : NodeId) (x : Node) : (s.setNode n x).profiles = s.profiles := rfl
@[simp] theorem State.setNode_entries (s : State) (n : NodeId) (x : Node) : (s.setNode n x).entries = s.entries := rfl
@[simp] theorem State.setNode_sequenceCounter (s : State) (n : NodeId) (x : Node) : (s.setNode n x).sequenceCounter = s.sequenceCounter := rfl
@[simp] theorem State.setNode_attempt (s : State) (n : NodeId) (x : Node) : (s.setNode n x).attempt = s.attempt := rfl
@[simp] theorem State.setNode_park (s : State) (n : NodeId) (x : Node) : (s.setNode n x).park = s.park := rfl
@[simp] theorem State.setNode_selector (s : State) (n : NodeId) (x : Node) : (s.setNode n x).selector = s.selector := rfl
@[simp] theorem State.setNode_banks (s : State) (n : NodeId) (x : Node) : (s.setNode n x).banks = s.banks := rfl
@[simp] theorem State.setNode_inversionFifo (s : State) (n : NodeId) (x : Node) : (s.setNode n x).inversionFifo = s.inversionFifo := rfl
@[simp] theorem State.setNode_matrix (s : State) (n : NodeId) (x : Node) : (s.setNode n x).matrix = s.matrix := rfl
@[simp] theorem State.setNode_window (s : State) (n : NodeId) (x : Node) : (s.setNode n x).window = s.window := rfl
@[simp] theorem State.setNode_fetchTimeout (s : State) (n : NodeId) (x : Node) : (s.setNode n x).fetchTimeout = s.fetchTimeout := rfl
@[simp] theorem State.setNode_transfers (s : State) (n : NodeId) (x : Node) : (s.setNode n x).transfers = s.transfers := rfl
@[simp] theorem State.setNode_cells (s : State) (n : NodeId) (x : Node) : (s.setNode n x).cells = s.cells := rfl
@[simp] theorem State.setNode_lanes (s : State) (n : NodeId) (x : Node) : (s.setNode n x).lanes = s.lanes := rfl
@[simp] theorem State.setNode_deliveries (s : State) (n : NodeId) (x : Node) : (s.setNode n x).deliveries = s.deliveries := rfl
@[simp] theorem State.setNode_landingTimeout (s : State) (n : NodeId) (x : Node) : (s.setNode n x).landingTimeout = s.landingTimeout := rfl
@[simp] theorem State.setNode_timebase (s : State) (n : NodeId) (x : Node) : (s.setNode n x).timebase = s.timebase := rfl
@[simp] theorem State.setNode_nextBoundary (s : State) (n : NodeId) (x : Node) : (s.setNode n x).nextBoundary = s.nextBoundary := rfl
@[simp] theorem State.setNode_epochLength (s : State) (n : NodeId) (x : Node) : (s.setNode n x).epochLength = s.epochLength := rfl
@[simp] theorem State.setNode_counters (s : State) (n : NodeId) (x : Node) : (s.setNode n x).counters = s.counters := rfl
@[simp] theorem State.setNode_fresh (s : State) (n : NodeId) (x : Node) : (s.setNode n x).fresh = s.fresh := rfl
@[simp] theorem State.setNode_pending (s : State) (n : NodeId) (x : Node) : (s.setNode n x).pending = s.pending := rfl
@[simp] theorem State.setNode_port_other (s : State) (n : NodeId) (x : Node) (k : PortId) : (s.setNode n x).port k = s.port k := rfl
@[simp] theorem State.setNode_profile_other (s : State) (n : NodeId) (x : Node) (k : ProfileId) : (s.setNode n x).profile k = s.profile k := rfl
@[simp] theorem State.setNode_bank_other (s : State) (n : NodeId) (x : Node) (k : BankId) : (s.setNode n x).bank k = s.bank k := rfl
@[simp] theorem State.setNode_entry_other (s : State) (n : NodeId) (x : Node) (k : Handle) : (s.setNode n x).entry? k = s.entry? k := rfl
@[simp] theorem State.setNode_cell_other (s : State) (n : NodeId) (x : Node) (k : CellId) : (s.setNode n x).cell k = s.cell k := rfl
@[simp] theorem State.setNode_lane_other (s : State) (n : NodeId) (x : Node) (k : LaneId) : (s.setNode n x).lane k = s.lane k := rfl

/-! ### setProfile -/

@[simp] theorem State.setProfile_inReset (s : State) (i : ProfileId) (x : Profile) : (s.setProfile i x).inReset = s.inReset := rfl
@[simp] theorem State.setProfile_ports (s : State) (i : ProfileId) (x : Profile) : (s.setProfile i x).ports = s.ports := rfl
@[simp] theorem State.setProfile_nodes (s : State) (i : ProfileId) (x : Profile) : (s.setProfile i x).nodes = s.nodes := rfl
@[simp] theorem State.setProfile_quorum (s : State) (i : ProfileId) (x : Profile) : (s.setProfile i x).quorum = s.quorum := rfl
@[simp] theorem State.setProfile_sweepFifo (s : State) (i : ProfileId) (x : Profile) : (s.setProfile i x).sweepFifo = s.sweepFifo := rfl
@[simp] theorem State.setProfile_sweep (s : State) (i : ProfileId) (x : Profile) : (s.setProfile i x).sweep = s.sweep := rfl
@[simp] theorem State.setProfile_entries (s : State) (i : ProfileId) (x : Profile) : (s.setProfile i x).entries = s.entries := rfl
@[simp] theorem State.setProfile_sequenceCounter (s : State) (i : ProfileId) (x : Profile) : (s.setProfile i x).sequenceCounter = s.sequenceCounter := rfl
@[simp] theorem State.setProfile_attempt (s : State) (i : ProfileId) (x : Profile) : (s.setProfile i x).attempt = s.attempt := rfl
@[simp] theorem State.setProfile_park (s : State) (i : ProfileId) (x : Profile) : (s.setProfile i x).park = s.park := rfl
@[simp] theorem State.setProfile_selector (s : State) (i : ProfileId) (x : Profile) : (s.setProfile i x).selector = s.selector := rfl
@[simp] theorem State.setProfile_banks (s : State) (i : ProfileId) (x : Profile) : (s.setProfile i x).banks = s.banks := rfl
@[simp] theorem State.setProfile_inversionFifo (s : State) (i : ProfileId) (x : Profile) : (s.setProfile i x).inversionFifo = s.inversionFifo := rfl
@[simp] theorem State.setProfile_matrix (s : State) (i : ProfileId) (x : Profile) : (s.setProfile i x).matrix = s.matrix := rfl
@[simp] theorem State.setProfile_window (s : State) (i : ProfileId) (x : Profile) : (s.setProfile i x).window = s.window := rfl
@[simp] theorem State.setProfile_fetchTimeout (s : State) (i : ProfileId) (x : Profile) : (s.setProfile i x).fetchTimeout = s.fetchTimeout := rfl
@[simp] theorem State.setProfile_transfers (s : State) (i : ProfileId) (x : Profile) : (s.setProfile i x).transfers = s.transfers := rfl
@[simp] theorem State.setProfile_cells (s : State) (i : ProfileId) (x : Profile) : (s.setProfile i x).cells = s.cells := rfl
@[simp] theorem State.setProfile_lanes (s : State) (i : ProfileId) (x : Profile) : (s.setProfile i x).lanes = s.lanes := rfl
@[simp] theorem State.setProfile_deliveries (s : State) (i : ProfileId) (x : Profile) : (s.setProfile i x).deliveries = s.deliveries := rfl
@[simp] theorem State.setProfile_landingTimeout (s : State) (i : ProfileId) (x : Profile) : (s.setProfile i x).landingTimeout = s.landingTimeout := rfl
@[simp] theorem State.setProfile_timebase (s : State) (i : ProfileId) (x : Profile) : (s.setProfile i x).timebase = s.timebase := rfl
@[simp] theorem State.setProfile_nextBoundary (s : State) (i : ProfileId) (x : Profile) : (s.setProfile i x).nextBoundary = s.nextBoundary := rfl
@[simp] theorem State.setProfile_epochLength (s : State) (i : ProfileId) (x : Profile) : (s.setProfile i x).epochLength = s.epochLength := rfl
@[simp] theorem State.setProfile_counters (s : State) (i : ProfileId) (x : Profile) : (s.setProfile i x).counters = s.counters := rfl
@[simp] theorem State.setProfile_fresh (s : State) (i : ProfileId) (x : Profile) : (s.setProfile i x).fresh = s.fresh := rfl
@[simp] theorem State.setProfile_pending (s : State) (i : ProfileId) (x : Profile) : (s.setProfile i x).pending = s.pending := rfl
@[simp] theorem State.setProfile_port_other (s : State) (i : ProfileId) (x : Profile) (k : PortId) : (s.setProfile i x).port k = s.port k := rfl
@[simp] theorem State.setProfile_node_other (s : State) (i : ProfileId) (x : Profile) (k : NodeId) : (s.setProfile i x).node k = s.node k := rfl
@[simp] theorem State.setProfile_bank_other (s : State) (i : ProfileId) (x : Profile) (k : BankId) : (s.setProfile i x).bank k = s.bank k := rfl
@[simp] theorem State.setProfile_entry_other (s : State) (i : ProfileId) (x : Profile) (k : Handle) : (s.setProfile i x).entry? k = s.entry? k := rfl
@[simp] theorem State.setProfile_cell_other (s : State) (i : ProfileId) (x : Profile) (k : CellId) : (s.setProfile i x).cell k = s.cell k := rfl
@[simp] theorem State.setProfile_lane_other (s : State) (i : ProfileId) (x : Profile) (k : LaneId) : (s.setProfile i x).lane k = s.lane k := rfl

/-! ### setBank -/

@[simp] theorem State.setBank_inReset (s : State) (b : BankId) (x : Bank) : (s.setBank b x).inReset = s.inReset := rfl
@[simp] theorem State.setBank_ports (s : State) (b : BankId) (x : Bank) : (s.setBank b x).ports = s.ports := rfl
@[simp] theorem State.setBank_nodes (s : State) (b : BankId) (x : Bank) : (s.setBank b x).nodes = s.nodes := rfl
@[simp] theorem State.setBank_quorum (s : State) (b : BankId) (x : Bank) : (s.setBank b x).quorum = s.quorum := rfl
@[simp] theorem State.setBank_sweepFifo (s : State) (b : BankId) (x : Bank) : (s.setBank b x).sweepFifo = s.sweepFifo := rfl
@[simp] theorem State.setBank_sweep (s : State) (b : BankId) (x : Bank) : (s.setBank b x).sweep = s.sweep := rfl
@[simp] theorem State.setBank_profiles (s : State) (b : BankId) (x : Bank) : (s.setBank b x).profiles = s.profiles := rfl
@[simp] theorem State.setBank_entries (s : State) (b : BankId) (x : Bank) : (s.setBank b x).entries = s.entries := rfl
@[simp] theorem State.setBank_sequenceCounter (s : State) (b : BankId) (x : Bank) : (s.setBank b x).sequenceCounter = s.sequenceCounter := rfl
@[simp] theorem State.setBank_attempt (s : State) (b : BankId) (x : Bank) : (s.setBank b x).attempt = s.attempt := rfl
@[simp] theorem State.setBank_park (s : State) (b : BankId) (x : Bank) : (s.setBank b x).park = s.park := rfl
@[simp] theorem State.setBank_selector (s : State) (b : BankId) (x : Bank) : (s.setBank b x).selector = s.selector := rfl
@[simp] theorem State.setBank_inversionFifo (s : State) (b : BankId) (x : Bank) : (s.setBank b x).inversionFifo = s.inversionFifo := rfl
@[simp] theorem State.setBank_matrix (s : State) (b : BankId) (x : Bank) : (s.setBank b x).matrix = s.matrix := rfl
@[simp] theorem State.setBank_window (s : State) (b : BankId) (x : Bank) : (s.setBank b x).window = s.window := rfl
@[simp] theorem State.setBank_fetchTimeout (s : State) (b : BankId) (x : Bank) : (s.setBank b x).fetchTimeout = s.fetchTimeout := rfl
@[simp] theorem State.setBank_transfers (s : State) (b : BankId) (x : Bank) : (s.setBank b x).transfers = s.transfers := rfl
@[simp] theorem State.setBank_cells (s : State) (b : BankId) (x : Bank) : (s.setBank b x).cells = s.cells := rfl
@[simp] theorem State.setBank_lanes (s : State) (b : BankId) (x : Bank) : (s.setBank b x).lanes = s.lanes := rfl
@[simp] theorem State.setBank_deliveries (s : State) (b : BankId) (x : Bank) : (s.setBank b x).deliveries = s.deliveries := rfl
@[simp] theorem State.setBank_landingTimeout (s : State) (b : BankId) (x : Bank) : (s.setBank b x).landingTimeout = s.landingTimeout := rfl
@[simp] theorem State.setBank_timebase (s : State) (b : BankId) (x : Bank) : (s.setBank b x).timebase = s.timebase := rfl
@[simp] theorem State.setBank_nextBoundary (s : State) (b : BankId) (x : Bank) : (s.setBank b x).nextBoundary = s.nextBoundary := rfl
@[simp] theorem State.setBank_epochLength (s : State) (b : BankId) (x : Bank) : (s.setBank b x).epochLength = s.epochLength := rfl
@[simp] theorem State.setBank_counters (s : State) (b : BankId) (x : Bank) : (s.setBank b x).counters = s.counters := rfl
@[simp] theorem State.setBank_fresh (s : State) (b : BankId) (x : Bank) : (s.setBank b x).fresh = s.fresh := rfl
@[simp] theorem State.setBank_pending (s : State) (b : BankId) (x : Bank) : (s.setBank b x).pending = s.pending := rfl
@[simp] theorem State.setBank_port_other (s : State) (b : BankId) (x : Bank) (k : PortId) : (s.setBank b x).port k = s.port k := rfl
@[simp] theorem State.setBank_node_other (s : State) (b : BankId) (x : Bank) (k : NodeId) : (s.setBank b x).node k = s.node k := rfl
@[simp] theorem State.setBank_profile_other (s : State) (b : BankId) (x : Bank) (k : ProfileId) : (s.setBank b x).profile k = s.profile k := rfl
@[simp] theorem State.setBank_entry_other (s : State) (b : BankId) (x : Bank) (k : Handle) : (s.setBank b x).entry? k = s.entry? k := rfl
@[simp] theorem State.setBank_cell_other (s : State) (b : BankId) (x : Bank) (k : CellId) : (s.setBank b x).cell k = s.cell k := rfl
@[simp] theorem State.setBank_lane_other (s : State) (b : BankId) (x : Bank) (k : LaneId) : (s.setBank b x).lane k = s.lane k := rfl

/-! ### setEntry -/

@[simp] theorem State.setEntry_inReset (s : State) (h : Handle) (e : Entry) : (s.setEntry h e).inReset = s.inReset := rfl
@[simp] theorem State.setEntry_ports (s : State) (h : Handle) (e : Entry) : (s.setEntry h e).ports = s.ports := rfl
@[simp] theorem State.setEntry_nodes (s : State) (h : Handle) (e : Entry) : (s.setEntry h e).nodes = s.nodes := rfl
@[simp] theorem State.setEntry_quorum (s : State) (h : Handle) (e : Entry) : (s.setEntry h e).quorum = s.quorum := rfl
@[simp] theorem State.setEntry_sweepFifo (s : State) (h : Handle) (e : Entry) : (s.setEntry h e).sweepFifo = s.sweepFifo := rfl
@[simp] theorem State.setEntry_sweep (s : State) (h : Handle) (e : Entry) : (s.setEntry h e).sweep = s.sweep := rfl
@[simp] theorem State.setEntry_profiles (s : State) (h : Handle) (e : Entry) : (s.setEntry h e).profiles = s.profiles := rfl
@[simp] theorem State.setEntry_sequenceCounter (s : State) (h : Handle) (e : Entry) : (s.setEntry h e).sequenceCounter = s.sequenceCounter := rfl
@[simp] theorem State.setEntry_attempt (s : State) (h : Handle) (e : Entry) : (s.setEntry h e).attempt = s.attempt := rfl
@[simp] theorem State.setEntry_park (s : State) (h : Handle) (e : Entry) : (s.setEntry h e).park = s.park := rfl
@[simp] theorem State.setEntry_selector (s : State) (h : Handle) (e : Entry) : (s.setEntry h e).selector = s.selector := rfl
@[simp] theorem State.setEntry_banks (s : State) (h : Handle) (e : Entry) : (s.setEntry h e).banks = s.banks := rfl
@[simp] theorem State.setEntry_inversionFifo (s : State) (h : Handle) (e : Entry) : (s.setEntry h e).inversionFifo = s.inversionFifo := rfl
@[simp] theorem State.setEntry_matrix (s : State) (h : Handle) (e : Entry) : (s.setEntry h e).matrix = s.matrix := rfl
@[simp] theorem State.setEntry_window (s : State) (h : Handle) (e : Entry) : (s.setEntry h e).window = s.window := rfl
@[simp] theorem State.setEntry_fetchTimeout (s : State) (h : Handle) (e : Entry) : (s.setEntry h e).fetchTimeout = s.fetchTimeout := rfl
@[simp] theorem State.setEntry_transfers (s : State) (h : Handle) (e : Entry) : (s.setEntry h e).transfers = s.transfers := rfl
@[simp] theorem State.setEntry_cells (s : State) (h : Handle) (e : Entry) : (s.setEntry h e).cells = s.cells := rfl
@[simp] theorem State.setEntry_lanes (s : State) (h : Handle) (e : Entry) : (s.setEntry h e).lanes = s.lanes := rfl
@[simp] theorem State.setEntry_deliveries (s : State) (h : Handle) (e : Entry) : (s.setEntry h e).deliveries = s.deliveries := rfl
@[simp] theorem State.setEntry_landingTimeout (s : State) (h : Handle) (e : Entry) : (s.setEntry h e).landingTimeout = s.landingTimeout := rfl
@[simp] theorem State.setEntry_timebase (s : State) (h : Handle) (e : Entry) : (s.setEntry h e).timebase = s.timebase := rfl
@[simp] theorem State.setEntry_nextBoundary (s : State) (h : Handle) (e : Entry) : (s.setEntry h e).nextBoundary = s.nextBoundary := rfl
@[simp] theorem State.setEntry_epochLength (s : State) (h : Handle) (e : Entry) : (s.setEntry h e).epochLength = s.epochLength := rfl
@[simp] theorem State.setEntry_counters (s : State) (h : Handle) (e : Entry) : (s.setEntry h e).counters = s.counters := rfl
@[simp] theorem State.setEntry_fresh (s : State) (h : Handle) (e : Entry) : (s.setEntry h e).fresh = s.fresh := rfl
@[simp] theorem State.setEntry_pending (s : State) (h : Handle) (e : Entry) : (s.setEntry h e).pending = s.pending := rfl
@[simp] theorem State.setEntry_port_other (s : State) (h : Handle) (e : Entry) (k : PortId) : (s.setEntry h e).port k = s.port k := rfl
@[simp] theorem State.setEntry_node_other (s : State) (h : Handle) (e : Entry) (k : NodeId) : (s.setEntry h e).node k = s.node k := rfl
@[simp] theorem State.setEntry_profile_other (s : State) (h : Handle) (e : Entry) (k : ProfileId) : (s.setEntry h e).profile k = s.profile k := rfl
@[simp] theorem State.setEntry_bank_other (s : State) (h : Handle) (e : Entry) (k : BankId) : (s.setEntry h e).bank k = s.bank k := rfl
@[simp] theorem State.setEntry_cell_other (s : State) (h : Handle) (e : Entry) (k : CellId) : (s.setEntry h e).cell k = s.cell k := rfl
@[simp] theorem State.setEntry_lane_other (s : State) (h : Handle) (e : Entry) (k : LaneId) : (s.setEntry h e).lane k = s.lane k := rfl

/-! ### setCell -/

@[simp] theorem State.setCell_inReset (s : State) (c : CellId) (x : Option Cell) : (s.setCell c x).inReset = s.inReset := rfl
@[simp] theorem State.setCell_ports (s : State) (c : CellId) (x : Option Cell) : (s.setCell c x).ports = s.ports := rfl
@[simp] theorem State.setCell_nodes (s : State) (c : CellId) (x : Option Cell) : (s.setCell c x).nodes = s.nodes := rfl
@[simp] theorem State.setCell_quorum (s : State) (c : CellId) (x : Option Cell) : (s.setCell c x).quorum = s.quorum := rfl
@[simp] theorem State.setCell_sweepFifo (s : State) (c : CellId) (x : Option Cell) : (s.setCell c x).sweepFifo = s.sweepFifo := rfl
@[simp] theorem State.setCell_sweep (s : State) (c : CellId) (x : Option Cell) : (s.setCell c x).sweep = s.sweep := rfl
@[simp] theorem State.setCell_profiles (s : State) (c : CellId) (x : Option Cell) : (s.setCell c x).profiles = s.profiles := rfl
@[simp] theorem State.setCell_entries (s : State) (c : CellId) (x : Option Cell) : (s.setCell c x).entries = s.entries := rfl
@[simp] theorem State.setCell_sequenceCounter (s : State) (c : CellId) (x : Option Cell) : (s.setCell c x).sequenceCounter = s.sequenceCounter := rfl
@[simp] theorem State.setCell_attempt (s : State) (c : CellId) (x : Option Cell) : (s.setCell c x).attempt = s.attempt := rfl
@[simp] theorem State.setCell_park (s : State) (c : CellId) (x : Option Cell) : (s.setCell c x).park = s.park := rfl
@[simp] theorem State.setCell_selector (s : State) (c : CellId) (x : Option Cell) : (s.setCell c x).selector = s.selector := rfl
@[simp] theorem State.setCell_banks (s : State) (c : CellId) (x : Option Cell) : (s.setCell c x).banks = s.banks := rfl
@[simp] theorem State.setCell_inversionFifo (s : State) (c : CellId) (x : Option Cell) : (s.setCell c x).inversionFifo = s.inversionFifo := rfl
@[simp] theorem State.setCell_matrix (s : State) (c : CellId) (x : Option Cell) : (s.setCell c x).matrix = s.matrix := rfl
@[simp] theorem State.setCell_window (s : State) (c : CellId) (x : Option Cell) : (s.setCell c x).window = s.window := rfl
@[simp] theorem State.setCell_fetchTimeout (s : State) (c : CellId) (x : Option Cell) : (s.setCell c x).fetchTimeout = s.fetchTimeout := rfl
@[simp] theorem State.setCell_transfers (s : State) (c : CellId) (x : Option Cell) : (s.setCell c x).transfers = s.transfers := rfl
@[simp] theorem State.setCell_lanes (s : State) (c : CellId) (x : Option Cell) : (s.setCell c x).lanes = s.lanes := rfl
@[simp] theorem State.setCell_deliveries (s : State) (c : CellId) (x : Option Cell) : (s.setCell c x).deliveries = s.deliveries := rfl
@[simp] theorem State.setCell_landingTimeout (s : State) (c : CellId) (x : Option Cell) : (s.setCell c x).landingTimeout = s.landingTimeout := rfl
@[simp] theorem State.setCell_timebase (s : State) (c : CellId) (x : Option Cell) : (s.setCell c x).timebase = s.timebase := rfl
@[simp] theorem State.setCell_nextBoundary (s : State) (c : CellId) (x : Option Cell) : (s.setCell c x).nextBoundary = s.nextBoundary := rfl
@[simp] theorem State.setCell_epochLength (s : State) (c : CellId) (x : Option Cell) : (s.setCell c x).epochLength = s.epochLength := rfl
@[simp] theorem State.setCell_counters (s : State) (c : CellId) (x : Option Cell) : (s.setCell c x).counters = s.counters := rfl
@[simp] theorem State.setCell_fresh (s : State) (c : CellId) (x : Option Cell) : (s.setCell c x).fresh = s.fresh := rfl
@[simp] theorem State.setCell_pending (s : State) (c : CellId) (x : Option Cell) : (s.setCell c x).pending = s.pending := rfl
@[simp] theorem State.setCell_port_other (s : State) (c : CellId) (x : Option Cell) (k : PortId) : (s.setCell c x).port k = s.port k := rfl
@[simp] theorem State.setCell_node_other (s : State) (c : CellId) (x : Option Cell) (k : NodeId) : (s.setCell c x).node k = s.node k := rfl
@[simp] theorem State.setCell_profile_other (s : State) (c : CellId) (x : Option Cell) (k : ProfileId) : (s.setCell c x).profile k = s.profile k := rfl
@[simp] theorem State.setCell_bank_other (s : State) (c : CellId) (x : Option Cell) (k : BankId) : (s.setCell c x).bank k = s.bank k := rfl
@[simp] theorem State.setCell_entry_other (s : State) (c : CellId) (x : Option Cell) (k : Handle) : (s.setCell c x).entry? k = s.entry? k := rfl
@[simp] theorem State.setCell_lane_other (s : State) (c : CellId) (x : Option Cell) (k : LaneId) : (s.setCell c x).lane k = s.lane k := rfl

/-! ### setLane -/

@[simp] theorem State.setLane_inReset (s : State) (l : LaneId) (x : Option Pass) : (s.setLane l x).inReset = s.inReset := rfl
@[simp] theorem State.setLane_ports (s : State) (l : LaneId) (x : Option Pass) : (s.setLane l x).ports = s.ports := rfl
@[simp] theorem State.setLane_nodes (s : State) (l : LaneId) (x : Option Pass) : (s.setLane l x).nodes = s.nodes := rfl
@[simp] theorem State.setLane_quorum (s : State) (l : LaneId) (x : Option Pass) : (s.setLane l x).quorum = s.quorum := rfl
@[simp] theorem State.setLane_sweepFifo (s : State) (l : LaneId) (x : Option Pass) : (s.setLane l x).sweepFifo = s.sweepFifo := rfl
@[simp] theorem State.setLane_sweep (s : State) (l : LaneId) (x : Option Pass) : (s.setLane l x).sweep = s.sweep := rfl
@[simp] theorem State.setLane_profiles (s : State) (l : LaneId) (x : Option Pass) : (s.setLane l x).profiles = s.profiles := rfl
@[simp] theorem State.setLane_entries (s : State) (l : LaneId) (x : Option Pass) : (s.setLane l x).entries = s.entries := rfl
@[simp] theorem State.setLane_sequenceCounter (s : State) (l : LaneId) (x : Option Pass) : (s.setLane l x).sequenceCounter = s.sequenceCounter := rfl
@[simp] theorem State.setLane_attempt (s : State) (l : LaneId) (x : Option Pass) : (s.setLane l x).attempt = s.attempt := rfl
@[simp] theorem State.setLane_park (s : State) (l : LaneId) (x : Option Pass) : (s.setLane l x).park = s.park := rfl
@[simp] theorem State.setLane_selector (s : State) (l : LaneId) (x : Option Pass) : (s.setLane l x).selector = s.selector := rfl
@[simp] theorem State.setLane_banks (s : State) (l : LaneId) (x : Option Pass) : (s.setLane l x).banks = s.banks := rfl
@[simp] theorem State.setLane_inversionFifo (s : State) (l : LaneId) (x : Option Pass) : (s.setLane l x).inversionFifo = s.inversionFifo := rfl
@[simp] theorem State.setLane_matrix (s : State) (l : LaneId) (x : Option Pass) : (s.setLane l x).matrix = s.matrix := rfl
@[simp] theorem State.setLane_window (s : State) (l : LaneId) (x : Option Pass) : (s.setLane l x).window = s.window := rfl
@[simp] theorem State.setLane_fetchTimeout (s : State) (l : LaneId) (x : Option Pass) : (s.setLane l x).fetchTimeout = s.fetchTimeout := rfl
@[simp] theorem State.setLane_transfers (s : State) (l : LaneId) (x : Option Pass) : (s.setLane l x).transfers = s.transfers := rfl
@[simp] theorem State.setLane_cells (s : State) (l : LaneId) (x : Option Pass) : (s.setLane l x).cells = s.cells := rfl
@[simp] theorem State.setLane_deliveries (s : State) (l : LaneId) (x : Option Pass) : (s.setLane l x).deliveries = s.deliveries := rfl
@[simp] theorem State.setLane_landingTimeout (s : State) (l : LaneId) (x : Option Pass) : (s.setLane l x).landingTimeout = s.landingTimeout := rfl
@[simp] theorem State.setLane_timebase (s : State) (l : LaneId) (x : Option Pass) : (s.setLane l x).timebase = s.timebase := rfl
@[simp] theorem State.setLane_nextBoundary (s : State) (l : LaneId) (x : Option Pass) : (s.setLane l x).nextBoundary = s.nextBoundary := rfl
@[simp] theorem State.setLane_epochLength (s : State) (l : LaneId) (x : Option Pass) : (s.setLane l x).epochLength = s.epochLength := rfl
@[simp] theorem State.setLane_counters (s : State) (l : LaneId) (x : Option Pass) : (s.setLane l x).counters = s.counters := rfl
@[simp] theorem State.setLane_fresh (s : State) (l : LaneId) (x : Option Pass) : (s.setLane l x).fresh = s.fresh := rfl
@[simp] theorem State.setLane_pending (s : State) (l : LaneId) (x : Option Pass) : (s.setLane l x).pending = s.pending := rfl
@[simp] theorem State.setLane_port_other (s : State) (l : LaneId) (x : Option Pass) (k : PortId) : (s.setLane l x).port k = s.port k := rfl
@[simp] theorem State.setLane_node_other (s : State) (l : LaneId) (x : Option Pass) (k : NodeId) : (s.setLane l x).node k = s.node k := rfl
@[simp] theorem State.setLane_profile_other (s : State) (l : LaneId) (x : Option Pass) (k : ProfileId) : (s.setLane l x).profile k = s.profile k := rfl
@[simp] theorem State.setLane_bank_other (s : State) (l : LaneId) (x : Option Pass) (k : BankId) : (s.setLane l x).bank k = s.bank k := rfl
@[simp] theorem State.setLane_entry_other (s : State) (l : LaneId) (x : Option Pass) (k : Handle) : (s.setLane l x).entry? k = s.entry? k := rfl
@[simp] theorem State.setLane_cell_other (s : State) (l : LaneId) (x : Option Pass) (k : CellId) : (s.setLane l x).cell k = s.cell k := rfl

/-! ### causeAttempt -/

@[simp] theorem State.causeAttempt_inReset (s : State) : (s.causeAttempt).inReset = s.inReset := rfl
@[simp] theorem State.causeAttempt_ports (s : State) : (s.causeAttempt).ports = s.ports := rfl
@[simp] theorem State.causeAttempt_nodes (s : State) : (s.causeAttempt).nodes = s.nodes := rfl
@[simp] theorem State.causeAttempt_quorum (s : State) : (s.causeAttempt).quorum = s.quorum := rfl
@[simp] theorem State.causeAttempt_sweepFifo (s : State) : (s.causeAttempt).sweepFifo = s.sweepFifo := rfl
@[simp] theorem State.causeAttempt_sweep (s : State) : (s.causeAttempt).sweep = s.sweep := rfl
@[simp] theorem State.causeAttempt_profiles (s : State) : (s.causeAttempt).profiles = s.profiles := rfl
@[simp] theorem State.causeAttempt_entries (s : State) : (s.causeAttempt).entries = s.entries := rfl
@[simp] theorem State.causeAttempt_sequenceCounter (s : State) : (s.causeAttempt).sequenceCounter = s.sequenceCounter := rfl
@[simp] theorem State.causeAttempt_park (s : State) : (s.causeAttempt).park = s.park := rfl
@[simp] theorem State.causeAttempt_selector (s : State) : (s.causeAttempt).selector = s.selector := rfl
@[simp] theorem State.causeAttempt_banks (s : State) : (s.causeAttempt).banks = s.banks := rfl
@[simp] theorem State.causeAttempt_inversionFifo (s : State) : (s.causeAttempt).inversionFifo = s.inversionFifo := rfl
@[simp] theorem State.causeAttempt_matrix (s : State) : (s.causeAttempt).matrix = s.matrix := rfl
@[simp] theorem State.causeAttempt_window (s : State) : (s.causeAttempt).window = s.window := rfl
@[simp] theorem State.causeAttempt_fetchTimeout (s : State) : (s.causeAttempt).fetchTimeout = s.fetchTimeout := rfl
@[simp] theorem State.causeAttempt_transfers (s : State) : (s.causeAttempt).transfers = s.transfers := rfl
@[simp] theorem State.causeAttempt_cells (s : State) : (s.causeAttempt).cells = s.cells := rfl
@[simp] theorem State.causeAttempt_lanes (s : State) : (s.causeAttempt).lanes = s.lanes := rfl
@[simp] theorem State.causeAttempt_deliveries (s : State) : (s.causeAttempt).deliveries = s.deliveries := rfl
@[simp] theorem State.causeAttempt_landingTimeout (s : State) : (s.causeAttempt).landingTimeout = s.landingTimeout := rfl
@[simp] theorem State.causeAttempt_timebase (s : State) : (s.causeAttempt).timebase = s.timebase := rfl
@[simp] theorem State.causeAttempt_nextBoundary (s : State) : (s.causeAttempt).nextBoundary = s.nextBoundary := rfl
@[simp] theorem State.causeAttempt_epochLength (s : State) : (s.causeAttempt).epochLength = s.epochLength := rfl
@[simp] theorem State.causeAttempt_counters (s : State) : (s.causeAttempt).counters = s.counters := rfl
@[simp] theorem State.causeAttempt_fresh (s : State) : (s.causeAttempt).fresh = s.fresh := rfl
@[simp] theorem State.causeAttempt_pending (s : State) : (s.causeAttempt).pending = s.pending := rfl
@[simp] theorem State.causeAttempt_port_other (s : State) (k : PortId) : (s.causeAttempt).port k = s.port k := rfl
@[simp] theorem State.causeAttempt_node_other (s : State) (k : NodeId) : (s.causeAttempt).node k = s.node k := rfl
@[simp] theorem State.causeAttempt_profile_other (s : State) (k : ProfileId) : (s.causeAttempt).profile k = s.profile k := rfl
@[simp] theorem State.causeAttempt_bank_other (s : State) (k : BankId) : (s.causeAttempt).bank k = s.bank k := rfl
@[simp] theorem State.causeAttempt_entry_other (s : State) (k : Handle) : (s.causeAttempt).entry? k = s.entry? k := rfl
@[simp] theorem State.causeAttempt_cell_other (s : State) (k : CellId) : (s.causeAttempt).cell k = s.cell k := rfl
@[simp] theorem State.causeAttempt_lane_other (s : State) (k : LaneId) : (s.causeAttempt).lane k = s.lane k := rfl

/-! ### count -/

@[simp] theorem State.count_inReset (s : State) (i : Fin 18) : (s.count i).inReset = s.inReset := rfl
@[simp] theorem State.count_ports (s : State) (i : Fin 18) : (s.count i).ports = s.ports := rfl
@[simp] theorem State.count_nodes (s : State) (i : Fin 18) : (s.count i).nodes = s.nodes := rfl
@[simp] theorem State.count_quorum (s : State) (i : Fin 18) : (s.count i).quorum = s.quorum := rfl
@[simp] theorem State.count_sweepFifo (s : State) (i : Fin 18) : (s.count i).sweepFifo = s.sweepFifo := rfl
@[simp] theorem State.count_sweep (s : State) (i : Fin 18) : (s.count i).sweep = s.sweep := rfl
@[simp] theorem State.count_profiles (s : State) (i : Fin 18) : (s.count i).profiles = s.profiles := rfl
@[simp] theorem State.count_entries (s : State) (i : Fin 18) : (s.count i).entries = s.entries := rfl
@[simp] theorem State.count_sequenceCounter (s : State) (i : Fin 18) : (s.count i).sequenceCounter = s.sequenceCounter := rfl
@[simp] theorem State.count_attempt (s : State) (i : Fin 18) : (s.count i).attempt = s.attempt := rfl
@[simp] theorem State.count_park (s : State) (i : Fin 18) : (s.count i).park = s.park := rfl
@[simp] theorem State.count_selector (s : State) (i : Fin 18) : (s.count i).selector = s.selector := rfl
@[simp] theorem State.count_banks (s : State) (i : Fin 18) : (s.count i).banks = s.banks := rfl
@[simp] theorem State.count_inversionFifo (s : State) (i : Fin 18) : (s.count i).inversionFifo = s.inversionFifo := rfl
@[simp] theorem State.count_matrix (s : State) (i : Fin 18) : (s.count i).matrix = s.matrix := rfl
@[simp] theorem State.count_window (s : State) (i : Fin 18) : (s.count i).window = s.window := rfl
@[simp] theorem State.count_fetchTimeout (s : State) (i : Fin 18) : (s.count i).fetchTimeout = s.fetchTimeout := rfl
@[simp] theorem State.count_transfers (s : State) (i : Fin 18) : (s.count i).transfers = s.transfers := rfl
@[simp] theorem State.count_cells (s : State) (i : Fin 18) : (s.count i).cells = s.cells := rfl
@[simp] theorem State.count_lanes (s : State) (i : Fin 18) : (s.count i).lanes = s.lanes := rfl
@[simp] theorem State.count_deliveries (s : State) (i : Fin 18) : (s.count i).deliveries = s.deliveries := rfl
@[simp] theorem State.count_landingTimeout (s : State) (i : Fin 18) : (s.count i).landingTimeout = s.landingTimeout := rfl
@[simp] theorem State.count_timebase (s : State) (i : Fin 18) : (s.count i).timebase = s.timebase := rfl
@[simp] theorem State.count_nextBoundary (s : State) (i : Fin 18) : (s.count i).nextBoundary = s.nextBoundary := rfl
@[simp] theorem State.count_epochLength (s : State) (i : Fin 18) : (s.count i).epochLength = s.epochLength := rfl
@[simp] theorem State.count_fresh (s : State) (i : Fin 18) : (s.count i).fresh = s.fresh := rfl
@[simp] theorem State.count_pending (s : State) (i : Fin 18) : (s.count i).pending = s.pending := rfl
@[simp] theorem State.count_port_other (s : State) (i : Fin 18) (k : PortId) : (s.count i).port k = s.port k := rfl
@[simp] theorem State.count_node_other (s : State) (i : Fin 18) (k : NodeId) : (s.count i).node k = s.node k := rfl
@[simp] theorem State.count_profile_other (s : State) (i : Fin 18) (k : ProfileId) : (s.count i).profile k = s.profile k := rfl
@[simp] theorem State.count_bank_other (s : State) (i : Fin 18) (k : BankId) : (s.count i).bank k = s.bank k := rfl
@[simp] theorem State.count_entry_other (s : State) (i : Fin 18) (k : Handle) : (s.count i).entry? k = s.entry? k := rfl
@[simp] theorem State.count_cell_other (s : State) (i : Fin 18) (k : CellId) : (s.count i).cell k = s.cell k := rfl
@[simp] theorem State.count_lane_other (s : State) (i : Fin 18) (k : LaneId) : (s.count i).lane k = s.lane k := rfl

/-! ### What an update reads back -/

@[simp] theorem State.port_setPort (s : State) (p k : PortId) (q : Port) :
    (s.setPort p q).port k = if k = p then q else s.port k := by
  simp only [State.setPort, State.port, Fin.getElem_fin, Vector.getElem_set]
  split <;> split <;> simp_all [Fin.ext_iff]

@[simp] theorem State.node_setNode (s : State) (n k : NodeId) (x : Node) :
    (s.setNode n x).node k = if k = n then x else s.node k := by
  simp only [State.setNode, State.node, Fin.getElem_fin, Vector.getElem_set]
  split <;> split <;> simp_all [Fin.ext_iff]

@[simp] theorem State.profile_setProfile (s : State) (i k : ProfileId) (x : Profile) :
    (s.setProfile i x).profile k = if k = i then x else s.profile k := by
  simp only [State.setProfile, State.profile, Fin.getElem_fin, Vector.getElem_set]
  split <;> split <;> simp_all [Fin.ext_iff]

@[simp] theorem State.bank_setBank (s : State) (b k : BankId) (x : Bank) :
    (s.setBank b x).bank k = if k = b then x else s.bank k := by
  simp only [State.setBank, State.bank, Fin.getElem_fin, Vector.getElem_set]
  split <;> split <;> simp_all [Fin.ext_iff]

@[simp] theorem State.cell_setCell (s : State) (c k : CellId) (x : Option Cell) :
    (s.setCell c x).cell k = if k = c then x else s.cell k := by
  simp only [State.setCell, State.cell, Fin.getElem_fin, Vector.getElem_set]
  split <;> split <;> simp_all [Fin.ext_iff]

@[simp] theorem State.lane_setLane (s : State) (l k : LaneId) (x : Option Pass) :
    (s.setLane l x).lane k = if k = l then x else s.lane k := by
  simp only [State.setLane, State.lane, Fin.getElem_fin, Vector.getElem_set]
  split <;> split <;> simp_all [Fin.ext_iff]

/-- Two states with equal ports, read one by one, and equal rest are equal. -/
theorem State.ext_ports {s t : State} (hp : ∀ p, s.port p = t.port p) (hr : { s with ports := t.ports } = t) : s = t := by
  have h : s.ports = t.ports := by
    apply Vector.ext
    intro i hi
    exact hp ⟨i, hi⟩
  rw [← hr, ← h]

end Sys2Proof.Machine
end

