-- ==== Sys2Proof/Laws/Frame.lean ====
section
/-! SUPPORT. What the shared operations leave alone: one relation, and one lemma per operation that says the operation keeps it. -/

namespace Sys2Proof.Machine

/-- R94: every stamp is below 8 and no two banks share one. -/
def State.stampsOk (s : State) : Prop :=
  (∀ b, (s.bank b).stamp < 8) ∧ ∀ b c, (s.bank b).stamp = (s.bank c).stamp → b = c

/-- The deliveries of a port. -/
def State.deliveriesOn (s : State) (p : PortId) : Nat := s.deliveries.countP (fun d => decide (d.port = p))

/-- What the operations inside a command leave alone, the Matrix Unit apart: the device-wide values, the time, the queues
and the settings of every port, the lanes and the transfers; and what they carry over: a nonzero selector, the stamps'
permutation, the number of deliveries on each port. -/
structure Planned (s t : State) : Prop where
  inReset : t.inReset = s.inReset
  quorum : t.quorum = s.quorum
  sweep : t.sweep = s.sweep
  sequenceCounter : t.sequenceCounter = s.sequenceCounter
  window : t.window = s.window
  fetchTimeout : t.fetchTimeout = s.fetchTimeout
  transfers : t.transfers = s.transfers
  lanes : t.lanes = s.lanes
  landingTimeout : t.landingTimeout = s.landingTimeout
  timebase : t.timebase = s.timebase
  nextBoundary : t.nextBoundary = s.nextBoundary
  epochLength : t.epochLength = s.epochLength
  fresh : t.fresh = s.fresh
  pending : t.pending = s.pending
  port : ∀ p, t.port p = { s.port p with fetches := (t.port p).fetches, outputs := (t.port p).outputs }
  deliveriesOn : ∀ p, t.deliveriesOn p = s.deliveriesOn p
  selector : s.selector ≠ 0 → t.selector ≠ 0
  stamps : s.stampsOk → t.stampsOk

/-- What the operations inside a command leave alone where no bank is taken: the Matrix Unit as well. -/
structure Kept (s t : State) : Prop extends Planned s t where
  matrix : t.matrix = s.matrix

theorem Planned.refl (s : State) : Planned s s :=
  ⟨rfl, rfl, rfl, rfl, rfl, rfl, rfl, rfl, rfl, rfl, rfl, rfl, rfl, rfl, fun _ => rfl, fun _ => rfl, id, id⟩

theorem Planned.trans {s t u : State} (h : Planned s t) (k : Planned t u) : Planned s u where
  inReset := k.inReset.trans h.inReset
  quorum := k.quorum.trans h.quorum
  sweep := k.sweep.trans h.sweep
  sequenceCounter := k.sequenceCounter.trans h.sequenceCounter
  window := k.window.trans h.window
  fetchTimeout := k.fetchTimeout.trans h.fetchTimeout
  transfers := k.transfers.trans h.transfers
  lanes := k.lanes.trans h.lanes
  landingTimeout := k.landingTimeout.trans h.landingTimeout
  timebase := k.timebase.trans h.timebase
  nextBoundary := k.nextBoundary.trans h.nextBoundary
  epochLength := k.epochLength.trans h.epochLength
  fresh := k.fresh.trans h.fresh
  pending := k.pending.trans h.pending
  port := fun p => by rw [k.port p, h.port p]
  deliveriesOn := fun p => (k.deliveriesOn p).trans (h.deliveriesOn p)
  selector := fun x => k.selector (h.selector x)
  stamps := fun x => k.stamps (h.stamps x)

theorem Planned.foldl {α : Type} {f : State → α → State} (hf : ∀ s a, Planned s (f s a)) (l : List α) (s : State) :
    Planned s (l.foldl f s) := by
  induction l generalizing s with
  | nil => exact Planned.refl s
  | cons a rest ih => exact (hf s a).trans (ih _)

theorem Planned.ite {s t u : State} {c : Prop} [Decidable c] (h : Planned s t) (k : Planned s u) :
    Planned s (if c then t else u) := by
  split
  · exact h
  · exact k

theorem Kept.refl (s : State) : Kept s s := ⟨Planned.refl s, rfl⟩

theorem Kept.trans {s t u : State} (h : Kept s t) (k : Kept t u) : Kept s u :=
  ⟨h.toPlanned.trans k.toPlanned, k.matrix.trans h.matrix⟩

theorem Kept.foldl {α : Type} {f : State → α → State} (hf : ∀ s a, Kept s (f s a)) (l : List α) (s : State) :
    Kept s (l.foldl f s) := by
  induction l generalizing s with
  | nil => exact Kept.refl s
  | cons a rest ih => exact (hf s a).trans (ih _)

theorem Kept.ite {s t u : State} {c : Prop} [Decidable c] (h : Kept s t) (k : Kept s u) : Kept s (if c then t else u) := by
  split
  · exact h
  · exact k

/-! ### Updates -/

theorem Kept.setNode (s : State) (n : NodeId) (x : Node) : Kept s (s.setNode n x) := ⟨⟨rfl, rfl, rfl, rfl, rfl, rfl, rfl, rfl, rfl, rfl, rfl, rfl, rfl, rfl, fun _ => rfl, fun _ => rfl, id, id⟩, rfl⟩
theorem Kept.modNode (s : State) (n : NodeId) (f : Node → Node) : Kept s (s.modNode n f) := Kept.setNode s n _
theorem Kept.setProfile (s : State) (i : ProfileId) (x : Profile) : Kept s (s.setProfile i x) := ⟨⟨rfl, rfl, rfl, rfl, rfl, rfl, rfl, rfl, rfl, rfl, rfl, rfl, rfl, rfl, fun _ => rfl, fun _ => rfl, id, id⟩, rfl⟩
theorem Kept.modProfile (s : State) (i : ProfileId) (f : Profile → Profile) : Kept s (s.modProfile i f) := Kept.setProfile s i _
theorem Kept.setEntry (s : State) (h : Handle) (e : Entry) : Kept s (s.setEntry h e) := ⟨⟨rfl, rfl, rfl, rfl, rfl, rfl, rfl, rfl, rfl, rfl, rfl, rfl, rfl, rfl, fun _ => rfl, fun _ => rfl, id, id⟩, rfl⟩
theorem Kept.setCell (s : State) (c : CellId) (x : Option Cell) : Kept s (s.setCell c x) := ⟨⟨rfl, rfl, rfl, rfl, rfl, rfl, rfl, rfl, rfl, rfl, rfl, rfl, rfl, rfl, fun _ => rfl, fun _ => rfl, id, id⟩, rfl⟩
theorem Kept.modCell (s : State) (c : CellId) (f : Cell → Cell) : Kept s (s.modCell c f) := Kept.setCell s c _
theorem Kept.causeAttempt (s : State) : Kept s s.causeAttempt := ⟨⟨rfl, rfl, rfl, rfl, rfl, rfl, rfl, rfl, rfl, rfl, rfl, rfl, rfl, rfl, fun _ => rfl, fun _ => rfl, id, id⟩, rfl⟩
theorem Kept.count (s : State) (i : Fin 18) : Kept s (s.count i) := ⟨⟨rfl, rfl, rfl, rfl, rfl, rfl, rfl, rfl, rfl, rfl, rfl, rfl, rfl, rfl, fun _ => rfl, fun _ => rfl, id, id⟩, rfl⟩
theorem Kept.setPark (s : State) (x : Option Handle) : Kept s { s with park := x } := ⟨⟨rfl, rfl, rfl, rfl, rfl, rfl, rfl, rfl, rfl, rfl, rfl, rfl, rfl, rfl, fun _ => rfl, fun _ => rfl, id, id⟩, rfl⟩
theorem Kept.setEntries (s : State) (x : Table Entry) : Kept s { s with entries := x } := ⟨⟨rfl, rfl, rfl, rfl, rfl, rfl, rfl, rfl, rfl, rfl, rfl, rfl, rfl, rfl, fun _ => rfl, fun _ => rfl, id, id⟩, rfl⟩
theorem Kept.setSweepFifo (s : State) (x : List NodeId) : Kept s { s with sweepFifo := x } := ⟨⟨rfl, rfl, rfl, rfl, rfl, rfl, rfl, rfl, rfl, rfl, rfl, rfl, rfl, rfl, fun _ => rfl, fun _ => rfl, id, id⟩, rfl⟩
theorem Kept.setInversionFifo (s : State) (x : List BankId) : Kept s { s with inversionFifo := x } := ⟨⟨rfl, rfl, rfl, rfl, rfl, rfl, rfl, rfl, rfl, rfl, rfl, rfl, rfl, rfl, fun _ => rfl, fun _ => rfl, id, id⟩, rfl⟩
theorem Kept.setAttempt (s : State) (x : Bool) : Kept s { s with attempt := x } := ⟨⟨rfl, rfl, rfl, rfl, rfl, rfl, rfl, rfl, rfl, rfl, rfl, rfl, rfl, rfl, fun _ => rfl, fun _ => rfl, id, id⟩, rfl⟩

theorem Kept.modEntry (s : State) (h : Handle) (f : Entry → Entry) : Kept s (s.modEntry h f) := by
  unfold State.modEntry
  split
  · exact Kept.setEntry ..
  · exact Kept.refl s

theorem Kept.modMember (s : State) (h : Handle) (pos : Position) (f : Member → Member) : Kept s (s.modMember h pos f) := Kept.modEntry ..
theorem Kept.modTarget (s : State) (h : Handle) (pos : Position) (f : Target → Target) : Kept s (s.modTarget h pos f) := Kept.modMember ..
theorem Kept.modPlan (s : State) (h : Handle) (f : Plan → Plan) : Kept s (s.modPlan h f) := Kept.modEntry ..

/-- A change of a port's fetches and outputs. -/
theorem Kept.setPort (s : State) (p : PortId) (q : Port)
    (hq : q = { s.port p with fetches := q.fetches, outputs := q.outputs }) : Kept s (s.setPort p q) :=
  ⟨⟨rfl, rfl, rfl, rfl, rfl, rfl, rfl, rfl, rfl, rfl, rfl, rfl, rfl, rfl,
   fun k => by
     rw [State.port_setPort]
     split
     · rename_i hk; subst hk; exact hq
     · rfl,
   fun _ => rfl, id, id⟩, rfl⟩

/-- A bank written with the stamp it had. -/
theorem Kept.setBank (s : State) (b : BankId) (x : Bank) (hx : x.stamp = (s.bank b).stamp) : Kept s (s.setBank b x) :=
  ⟨⟨rfl, rfl, rfl, rfl, rfl, rfl, rfl, rfl, rfl, rfl, rfl, rfl, rfl, rfl, fun _ => rfl, fun _ => rfl, id,
   fun h => by
     have hs : ∀ c, ((s.setBank b x).bank c).stamp = (s.bank c).stamp := by
       intro c
       rw [State.bank_setBank]
       split
       · rename_i hc; rw [hc]; exact hx
       · rfl
     exact ⟨fun c => by rw [hs]; exact h.1 c, fun c d hcd => h.2 c d (by rw [← hs, ← hs]; exact hcd)⟩⟩, rfl⟩

theorem Kept.modBank (s : State) (b : BankId) (f : Bank → Bank) (hf : (f (s.bank b)).stamp = (s.bank b).stamp) :
    Kept s (s.modBank b f) := Kept.setBank s b _ hf

/-- The deliveries of a list may be disowned. -/
theorem Kept.disown (s : State) (f : Delivery → Delivery) (hf : ∀ d, (f d).port = d.port) :
    Kept s { s with deliveries := s.deliveries.map f } :=
  ⟨⟨rfl, rfl, rfl, rfl, rfl, rfl, rfl, rfl, rfl, rfl, rfl, rfl, rfl, rfl, fun _ => rfl,
   fun p => by
     show (s.deliveries.map f).countP _ = _
     rw [List.countP_map]
     unfold State.deliveriesOn
     congr 1
     funext d
     simp [hf],
   id, id⟩, rfl⟩

/-! ### Cells, fetches, outputs, banks, loads -/

theorem Kept.release (s : State) (c : CellId) : Kept s (s.release c) := by
  unfold State.release
  split
  · exact Kept.refl s
  · split
    · exact Kept.setCell ..
    · split
      · exact Kept.setCell ..
      · exact (Kept.setCell ..).trans (Kept.causeAttempt _)

theorem Kept.releaseAll (s : State) (l : List CellId) : Kept s (s.releaseAll l) := Kept.foldl Kept.release l s

theorem Kept.draw (s : State) (c : CellId) (h : Handle) (u : CellUse) : Kept s (s.draw c h u) := Kept.setCell ..

theorem Kept.emptyFetches (s : State) (p : PortId) (f : Fetch → Bool) : Kept s (s.emptyFetches p f) :=
  (Kept.setPort s p _ rfl).trans (Kept.releaseAll _ _)

theorem Kept.withdrawAt (h : Handle) (s : State) (p : PortId) : Kept s (State.withdrawAt h s p) :=
  (Kept.setPort s p _ rfl).trans (Kept.releaseAll _ _)

theorem Kept.withdrawFetches (s : State) (h : Handle) : Kept s (s.withdrawFetches h) := Kept.foldl (Kept.withdrawAt h) _ s

theorem Kept.freeOutputsAt (f : Output → Bool) (s : State) (p : PortId) : Kept s (State.freeOutputsAt f s p) :=
  (Kept.setPort s p _ rfl).trans (Kept.releaseAll _ _)

theorem Kept.freeOutputs (s : State) (f : Output → Bool) : Kept s (s.freeOutputs f) := Kept.foldl (Kept.freeOutputsAt f) _ s

theorem Kept.releaseBank (s : State) (b : Option BankId) : Kept s (s.releaseBank b) := by
  unfold State.releaseBank
  split
  · exact (Kept.modBank _ _ _ rfl).trans (Kept.causeAttempt _)
  · exact Kept.refl s

theorem Kept.lowerLoad (s : State) (n : NodeId) : Kept s (s.lowerLoad n) := (Kept.modNode ..).trans (Kept.causeAttempt _)

/-! ### An entry's life -/

theorem Kept.removeIfDone (s : State) (h : Handle) : Kept s (s.removeIfDone h) := by
  unfold State.removeIfDone
  split
  · split
    · exact (Kept.setEntries ..).trans (Kept.modProfile ..)
    · exact Kept.refl s
  · exact Kept.refl s

theorem Kept.dropPlan (s : State) (h : Handle) : Kept s (s.dropPlan h) := by
  unfold State.dropPlan
  split
  · split
    · exact (((Kept.setEntry ..).trans (Kept.releaseBank ..)).trans (Kept.causeAttempt _)).trans (Kept.releaseAll ..)
    · exact Kept.refl s
  · exact Kept.refl s

theorem Kept.enterQueued (s : State) (h : Handle) : Kept s (s.enterQueued h) := (Kept.modEntry ..).trans (Kept.causeAttempt _)

theorem Kept.releaseTarget (h : Handle) (s : State) (pos : Position) : Kept s (State.releaseTarget h s pos) := by
  unfold State.releaseTarget
  split
  · split
    · split
      · exact (Kept.modTarget ..).trans (Kept.lowerLoad ..)
      · exact Kept.refl s
    · exact Kept.refl s
  · exact Kept.refl s

theorem Kept.releaseTargets (s : State) (h : Handle) : Kept s (s.releaseTargets h) := by
  unfold State.releaseTargets
  split
  · exact Kept.foldl (Kept.releaseTarget h) _ s
  · exact Kept.refl s

theorem Kept.closeEntry (s : State) (h : Handle) (o : EntryOutcome) : Kept s (s.closeEntry h o) := by
  unfold State.closeEntry
  split
  · split
    · exact Kept.refl s
    · dsimp only
      refine Kept.trans ?_ (Kept.removeIfDone _ _)
      refine Kept.trans ?_ (Kept.count _ _)
      refine Kept.trans ?_ (Kept.releaseTargets _ _)
      refine Kept.trans ?_ (Kept.freeOutputs _ _)
      refine Kept.trans ?_ (Kept.withdrawFetches _ _)
      refine Kept.trans ?_ (Kept.dropPlan _ _)
      split
      · refine Kept.trans ?_ (Kept.setPark _ _)
        exact Kept.setEntry _ _ _
      · exact Kept.setEntry _ _ _
  · exact Kept.refl s

theorem Kept.reckon (s : State) (h : Handle) : Kept s (s.reckon h) := by
  unfold State.reckon
  split
  · split
    · exact Kept.refl s
    · exact Kept.ite (Kept.closeEntry ..) (Kept.ite (Kept.closeEntry ..) (Kept.setEntry ..))
  · exact Kept.refl s

theorem Kept.trigger (s : State) (h : Handle) : Kept s (s.trigger h) := by
  unfold State.trigger
  split
  · split
    · exact Kept.ite (Kept.refl s) ((Kept.setEntry ..).trans (Kept.causeAttempt _))
    · exact Kept.ite (Kept.refl s) ((Kept.setEntry ..).trans (Kept.causeAttempt _))
    · exact Kept.enterQueued ..
    all_goals exact Kept.refl s
  · exact Kept.refl s

theorem Kept.afterLoss (s : State) (h : Handle) : Kept s (s.afterLoss h) := (Kept.reckon ..).trans (Kept.trigger ..)

theorem Kept.strike (s : State) (h : Handle) (pos : Position) (cause : LostCause) : Kept s (s.strike h pos cause) := by
  unfold State.strike
  split
  · exact Kept.ite (Kept.modMember ..) ((Kept.modMember ..).trans (Kept.afterLoss ..))
  · exact Kept.refl s

theorem Kept.dropDestination (s : State) (owesVoid : Bool) (h : Handle) (pos : Position) :
    Kept s (s.dropDestination owesVoid h pos) := by
  unfold State.dropDestination
  split
  · split
    · split
      · refine Kept.trans (Kept.freeOutputs s _) (Kept.trans (Kept.disown _ _ ?_) ((Kept.modTarget ..).trans (Kept.lowerLoad ..)))
        intro d
        split <;> rfl
      · exact Kept.refl s
    · exact Kept.refl s
  · exact Kept.refl s

theorem Kept.closeIfDrained (s : State) (h : Handle) : Kept s (s.closeIfDrained h) := by
  unfold State.closeIfDrained
  split
  · exact Kept.ite (Kept.closeEntry ..) (Kept.refl s)
  · exact Kept.refl s

theorem Kept.loseDestination (s : State) (owesVoid : Bool) (h : Handle) (pos : Position) :
    Kept s (s.loseDestination owesVoid h pos) :=
  ((Kept.dropDestination ..).trans (Kept.trigger ..)).trans (Kept.closeIfDrained ..)

theorem Kept.settleIfDone (s : State) (h : Handle) : Kept s (s.settleIfDone h) := by
  unfold State.settleIfDone
  split
  · exact Kept.ite ((Kept.setEntry ..).trans (Kept.dropPlan ..)) (Kept.refl s)
  · exact Kept.refl s

theorem Kept.enterActive (s : State) (h : Handle) : Kept s (s.enterActive h) := (Kept.modEntry ..).trans (Kept.settleIfDone ..)

theorem Kept.activateIfReady (s : State) (h : Handle) : Kept s (s.activateIfReady h) := by
  unfold State.activateIfReady
  split
  · exact Kept.ite (Kept.enterActive ..) (Kept.refl s)
  · exact Kept.refl s

theorem Kept.completePark (s : State) (h : Handle) : Kept s (s.completePark h) :=
  ((Kept.setPark ..).trans (Kept.dropPlan ..)).trans (Kept.enterQueued ..)

/-! ### Nodes -/

theorem Kept.nodeGoesDown (s : State) (n : NodeId) : Kept s (s.nodeGoesDown n) :=
  ((Kept.setSweepFifo ..).trans (Kept.modNode ..)).trans (Kept.causeAttempt _)

theorem Kept.downIfQuorum (s : State) (n : NodeId) : Kept s (s.downIfQuorum n) := Kept.ite (Kept.nodeGoesDown ..) (Kept.refl s)

theorem Kept.reportNode (p : PortId) (s : State) (n : NodeId) : Kept s (State.reportNode p s n) :=
  Kept.ite ((Kept.modNode ..).trans (Kept.downIfQuorum ..)) (Kept.refl s)

theorem Kept.chargeFailure (s : State) (n : NodeId) : Kept s (s.chargeFailure n) := Kept.ite (Kept.modNode ..) (Kept.refl s)

/-! ### Banks and plans -/

@[simp] theorem mapVec_get {α β : Type} {n : Nat} (f : α → β) (v : Vector α n) (i : Fin n) : (mapVec f v)[i] = f v[i] := by
  simp [mapVec]

theorem Bank.stamp_ageAbove (old : Nat) (x : Bank) :
    (x.ageAbove old).stamp = if old < x.stamp then x.stamp - 1 else x.stamp := by
  unfold Bank.ageAbove
  split <;> rfl

/-- R94: what the use of a bank makes of every bank. -/
theorem State.bank_useBank (s : State) (b c : BankId) :
    (s.useBank b).bank c = if c = b then { s.bank b with stamp := 7 } else (s.bank c).ageAbove (s.bank b).stamp := by
  show ((mapVec (Bank.ageAbove (s.bank b).stamp) s.banks).set b _ b.isLt)[c] = _
  simp only [Fin.getElem_fin, Vector.getElem_set]
  by_cases hc : c = b
  · subst hc; simp
  · have h1 : (b : Nat) ≠ (c : Nat) := fun e => hc (Fin.ext e.symm)
    rw [if_neg h1, if_neg hc]
    exact mapVec_get _ _ _

/-- R94: the use of a bank keeps the stamps the numbers 0 to 7. -/
theorem State.stampsOk_useBank (s : State) (b : BankId) (h : s.stampsOk) : (s.useBank b).stampsOk := by
  have hs : ∀ c, ((s.useBank b).bank c).stamp =
      if c = b then 7 else if (s.bank b).stamp < (s.bank c).stamp then (s.bank c).stamp - 1 else (s.bank c).stamp := by
    intro c
    rw [State.bank_useBank]
    split
    · rfl
    · exact Bank.stamp_ageAbove _ _
  refine ⟨fun c => ?_, fun c d hcd => ?_⟩
  · have := h.1 c
    rw [hs]
    split
    · omega
    · split <;> omega
  · rw [hs, hs] at hcd
    have hc := h.1 c
    have hd := h.1 d
    have hb := h.1 b
    have h1 : c ≠ b → (s.bank c).stamp ≠ (s.bank b).stamp := fun n e => n (h.2 c b e)
    have h2 : d ≠ b → (s.bank d).stamp ≠ (s.bank b).stamp := fun n e => n (h.2 d b e)
    have h3 : (s.bank c).stamp = (s.bank d).stamp → c = d := h.2 c d
    by_cases hcb : c = b
    · by_cases hdb : d = b
      · rw [hcb, hdb]
      · have := h2 hdb
        rw [if_pos hcb, if_neg hdb] at hcd
        exfalso
        split at hcd <;> omega
    · have := h1 hcb
      by_cases hdb : d = b
      · rw [if_neg hcb, if_pos hdb] at hcd
        exfalso
        split at hcd <;> omega
      · have := h2 hdb
        rw [if_neg hcb, if_neg hdb] at hcd
        apply h3
        split at hcd <;> split at hcd <;> omega

theorem Kept.useBank (s : State) (b : BankId) : Kept s (s.useBank b) :=
  ⟨⟨rfl, rfl, rfl, rfl, rfl, rfl, rfl, rfl, rfl, rfl, rfl, rfl, rfl, rfl, fun _ => rfl, fun _ => rfl, id,
   State.stampsOk_useBank s b⟩, rfl⟩

theorem Kept.takeHit (s : State) (b : BankId) : Kept s (s.takeHit b) :=
  ((Kept.modBank _ _ _ rfl).trans (Kept.useBank ..)).trans (Kept.count ..)

/-- R99: where an inversion begins, nothing but the Matrix Unit and its count changes. -/
theorem State.startInversion_eq (s : State) :
    s.startInversion = s ∨ ∃ x, s.startInversion = ({ s with matrix := some x } : State).count 14 := by
  unfold State.startInversion
  split
  · split
    · exact .inr ⟨_, rfl⟩
    · exact .inl rfl
  · exact .inl rfl

theorem Planned.startInversion (s : State) : Planned s s.startInversion := by
  rcases s.startInversion_eq with h | ⟨x, h⟩ <;> rw [h]
  · exact Planned.refl s
  · exact ⟨rfl, rfl, rfl, rfl, rfl, rfl, rfl, rfl, rfl, rfl, rfl, rfl, rfl, rfl, fun _ => rfl, fun _ => rfl, id, id⟩

theorem Planned.takeMiss (s : State) (b : BankId) (key : Key) : Planned s (s.takeMiss b key) := by
  unfold State.takeMiss
  dsimp only
  refine Planned.ite (Kept.toPlanned ?_) (Planned.trans (Kept.toPlanned ?_) (Planned.startInversion _))
  · exact (Kept.modBank _ _ _ rfl).trans ((Kept.useBank ..).trans (Kept.count ..))
  · exact ((Kept.setInversionFifo ..).trans (Kept.modBank _ _ _ rfl)).trans ((Kept.useBank ..).trans (Kept.count ..))

theorem Planned.lookup (s : State) (key : Key) : Planned s (s.lookup key).1 := by
  unfold State.lookup
  split
  · exact (Kept.takeHit ..).toPlanned
  · split
    · exact Planned.takeMiss ..
    · exact Planned.refl s

/-- R79: a nonzero selector never steps to zero. -/
theorem lfsrStep_ne_zero (x : U16) (h : x ≠ 0) : lfsrStep x ≠ 0 := by
  intro hz
  apply h
  have hb : ∀ i, (lfsrStep x).getLsbD i = false := by intro i; rw [hz]; simp
  have e : ∀ i, i < 15 → x.getLsbD i = false := by
    intro i hi
    have := hb (i + 1)
    have h16 : i + 1 < 16 := by omega
    simp only [lfsrStep, BitVec.getLsbD_or, BitVec.getLsbD_shiftLeft, Bool.or_eq_false_iff] at this
    simpa [h16] using this.1
  have e15 : x.getLsbD 15 = false := by
    have h0 := hb 0
    have h14 := e 14 (by omega)
    have h12 := e 12 (by omega)
    have h3 := e 3 (by omega)
    simp only [lfsrStep, h14, h12, h3] at h0
    cases hx : x.getLsbD 15 <;> simp_all
  apply BitVec.eq_of_getLsbD_eq
  intro i hi
  by_cases h15 : i = 15
  · subst h15; rw [e15]; simp
  · rw [e i (by omega)]; simp

theorem chooseDests_selector (s : State) (e : Entry) (l : List Position) (c : List (Position × NodeId)) (sel : U16) (r : Bool)
    (h : sel ≠ 0) : (s.chooseDests e l c sel r).selector ≠ 0 := by
  induction l generalizing c sel r with
  | nil => simpa [State.chooseDests] using h
  | cons pos rest ih =>
    simp only [State.chooseDests]
    split
    · exact ih _ _ _ (lfsrStep_ne_zero sel h)
    · exact h

theorem Kept.giveDest (h : Handle) (start : Offset) (s : State) (c : Position × NodeId) : Kept s (giveDest h start s c) :=
  (Kept.modMember ..).trans (Kept.modNode ..)

theorem Kept.giveDests (s : State) (h : Handle) (start : Offset) (c : DestChoice) (hc : s.selector ≠ 0 → c.selector ≠ 0) :
    Kept s (s.giveDests h start c) := by
  have k : Kept s (c.chosen.foldl (Machine.giveDest h start) s) := Kept.foldl (Kept.giveDest h start) c.chosen s
  exact ⟨⟨k.inReset, k.quorum, k.sweep, k.sequenceCounter, k.window, k.fetchTimeout, k.transfers, k.lanes,
    k.landingTimeout, k.timebase, k.nextBoundary, k.epochLength, k.fresh, k.pending, k.port, k.deliveriesOn, hc, k.stamps⟩,
    k.matrix⟩

theorem Kept.reserveOne (h : Handle) (s : State) : Kept s (s.reserveOne h) := by
  unfold State.reserveOne
  split
  · exact Kept.setCell _ _ _
  · exact Kept.refl s

theorem Kept.reserveFloor (h : Handle) (n : Nat) (s : State) : Kept s (reserveFloor h n s) := by
  induction n generalizing s with
  | zero => exact Kept.refl s
  | succ n ih => exact (Kept.reserveOne h s).trans (ih _)

theorem Kept.shrinkOne (h : Handle) (s : State) : Kept s (s.shrinkOne h) := by
  unfold State.shrinkOne
  split
  · exact Kept.release _ _
  · exact Kept.refl s

theorem Kept.shrinkFloor (h : Handle) (n : Nat) (s : State) : Kept s (shrinkFloor h n s) := by
  induction n generalizing s with
  | zero => exact Kept.refl s
  | succ n ih => exact (Kept.shrinkOne h s).trans (ih _)

theorem Kept.resizeFloor (s : State) (h : Handle) (size : Nat) : Kept s (s.resizeFloor h size) := by
  unfold State.resizeFloor
  exact Kept.trans (Kept.modPlan ..) (Kept.ite (Kept.shrinkFloor ..) (Kept.reserveFloor ..))

theorem Kept.setStarts (s : State) (h : Handle) (start : Offset) (c : DestChoice) : Kept s (s.setStarts h start c) :=
  Kept.foldl (fun _ _ => Kept.modTarget ..) _ s

theorem Planned.activate (s : State) (h : Handle) (e : Entry) (t : Trial) (ht : s.selector ≠ 0 → t.dests.selector ≠ 0) :
    Planned s (s.activate h e t) := by
  unfold State.activate
  dsimp only
  refine Planned.trans ?_ (Kept.activateIfReady _ _).toPlanned
  refine Planned.trans ?_ (Kept.modEntry _ _ _).toPlanned
  refine Planned.trans ?_ (Planned.lookup _ _)
  refine Kept.toPlanned ?_
  refine Kept.trans ?_ (Kept.reserveFloor _ _ _)
  refine Kept.trans ?_ (Kept.setStarts _ _ _ _)
  refine Kept.trans ?_ (Kept.giveDests _ _ _ _ ?_)
  · exact Kept.setEntry _ _ _
  · exact ht

theorem tryEntry_selector (s : State) (e : Entry) (t : Trial) (h : s.tryEntry e = .ok t) :
    s.selector ≠ 0 → t.dests.selector ≠ 0 := by
  intro hs
  unfold State.tryEntry at h
  simp only at h
  split at h
  · cases h
  · split at h
    · cases h
    · split at h
      · cases h
      · split at h
        · cases h
        · split at h
          · cases h
          · cases h
            exact chooseDests_selector _ _ _ _ _ _ hs

theorem Planned.walkStep (w : Walk) (h : Handle) : Planned w.state (walkStep w h).state := by
  unfold Machine.walkStep
  split
  · exact Planned.refl _
  · split
    · exact (Kept.modEntry ..).toPlanned
    · rename_i t ht
      split
      · split
        · exact Planned.activate _ _ _ _ (tryEntry_selector _ _ _ ht)
        · exact (Kept.modEntry ..).toPlanned
      · exact Planned.activate _ _ _ _ (tryEntry_selector _ _ _ ht)

theorem Planned.walk (l : List Handle) (w : Walk) : Planned w.state (l.foldl Machine.walkStep w).state := by
  induction l generalizing w with
  | nil => exact Planned.refl _
  | cons h rest ih => exact (Planned.walkStep w h).trans (ih _)

theorem Planned.walkQueue (s : State) : Planned s s.walkQueue.state := Planned.walk _ ⟨s, false, none, false⟩

theorem Kept.dropOutside (s : State) (h : Handle) (keeps : Position → Bool) : Kept s (s.dropOutside h keeps) :=
  (Kept.releaseAll ..).trans (Kept.foldl (fun _ _ => Kept.emptyFetches ..) _ _)

theorem Planned.rebank (s : State) (h : Handle) (old : Option BankId) (key : Key) : Planned s (s.rebank h old key) := by
  unfold State.rebank
  split
  · split
    · exact Planned.refl s
    · dsimp only
      refine Planned.trans ?_ (Kept.modPlan _ _ _).toPlanned
      refine Planned.trans ?_ (Planned.lookup _ _)
      exact (Kept.releaseBank _ _).toPlanned
  · dsimp only
    refine Planned.trans ?_ (Kept.modPlan _ _ _).toPlanned
    exact Planned.lookup _ _

theorem Kept.reviseDests (s : State) (h : Handle) (d : Offset) : Kept s (s.reviseDests h d) := by
  unfold State.reviseDests
  split
  · rename_i e he
    dsimp only
    refine Kept.trans ?_ (Kept.modEntry _ _ _)
    refine Kept.trans ?_ (Kept.giveDests _ _ _ _ ?_)
    · exact Kept.setEntry _ _ _
    · exact fun hs => chooseDests_selector _ _ _ _ _ _ hs
  · exact Kept.refl s

theorem Kept.revised (s : State) (h : Handle) (e : Entry) (keeps : Position → Bool) (d : Offset) (size : Nat) :
    Kept s ((((s.setEntry h e).dropOutside h keeps).reviseDests h d).resizeFloor h size) := by
  refine Kept.trans ?_ (Kept.resizeFloor _ _ _)
  refine Kept.trans ?_ (Kept.reviseDests _ _ _)
  refine Kept.trans ?_ (Kept.dropOutside _ _ _)
  exact Kept.setEntry _ _ _

theorem Planned.revise (s : State) (h : Handle) (e : Entry) (pl : Plan) : Planned s (s.revise h e pl) := by
  unfold State.revise
  dsimp only
  refine Planned.trans ?_ (Kept.activateIfReady _ _).toPlanned
  refine Planned.trans ?_ (Kept.count _ _).toPlanned
  split
  · refine Planned.trans ?_ (Planned.rebank _ _ _ _)
    exact (Kept.revised ..).toPlanned
  · refine Kept.toPlanned ?_
    refine Kept.trans ?_ (Kept.modPlan _ _ _)
    refine Kept.trans ?_ (Kept.releaseBank _ _)
    exact Kept.revised ..

theorem Planned.completePlan (s : State) (h : Handle) (pl : Plan) : Planned s (s.completePlan h pl) := by
  unfold State.completePlan
  dsimp only
  refine Planned.trans ?_ (Kept.activateIfReady _ _).toPlanned
  split
  · exact (Kept.reviseDests _ _ _).toPlanned.trans (Planned.rebank _ _ _ _)
  · exact (Kept.reviseDests _ _ _).toPlanned

theorem Planned.serve (s : State) (h : Handle) : Planned s (s.serve h) := by
  unfold State.serve
  split
  · split
    · split
      · split
        · exact Planned.revise ..
        · exact Planned.completePlan ..
      · exact Planned.refl s
    · exact Planned.refl s
  · exact Planned.refl s

theorem Kept.markPark (s : State) (h : Handle) : Kept s (s.markPark h) := by
  unfold State.markPark
  have k : Kept s ((({ s with park := some h } : State).withdrawFetches h).count 16) := by
    refine Kept.trans ?_ (Kept.count _ _)
    refine Kept.trans ?_ (Kept.withdrawFetches _ _)
    exact Kept.setPark _ _
  dsimp only
  split
  · exact k
  · exact k.trans (Kept.completePark _ _)

theorem Kept.parkIfStarved (s : State) (b : Bool) : Kept s (s.parkIfStarved b) := by
  unfold State.parkIfStarved
  split
  · split
    · exact Kept.markPark ..
    · exact Kept.refl s
  · exact Kept.refl s

/-- R68: what a whole planning attempt leaves alone. -/
theorem Planned.plan (s : State) : Planned s s.plan :=
  Planned.trans (Planned.trans (Planned.trans (Kept.setAttempt s false).toPlanned (Planned.foldl Planned.serve _ _))
    (Planned.walkQueue _)) (Kept.parkIfStarved _ _).toPlanned

end Sys2Proof.Machine
end

