-- ==== Sys2Proof/Laws/Steps.lean ====
section
/-! SUPPORT. The shape of every command: the interrupts of the event lines, the taking of a request, an event. -/

namespace Sys2Proof.Machine

open Sys2Proof.Config

/-! ### The ports -/

theorem allPorts_nodup : allPorts.Nodup := by decide
theorem mem_allPorts (k : PortId) : k ∈ allPorts := by revert k; decide

/-! ### Event lines (R167) -/

/-- A port after its event line may have risen. -/
def Port.risen (before after : Port) : Port :=
  if !before.line && after.line then { after with interrupts := after.interrupts + 1 } else after

theorem riseAt_eq (s t : State) (p : PortId) : riseAt s t p = t.setPort p (Port.risen (s.port p) (t.port p)) := by
  unfold riseAt Port.risen
  split
  · rfl
  · apply State.ext_ports
    · intro k
      rw [State.port_setPort]
      split
      · rename_i hk; rw [hk]
      · rfl
    · rfl

/-- R167: what counting the rises makes of every port. -/
theorem port_countRises (s t : State) (k : PortId) : (countRises s t).port k = Port.risen (s.port k) (t.port k) := by
  simp only [countRises, allPorts, List.foldl_cons, List.foldl_nil, riseAt_eq, State.port_setPort]
  fin_cases k <;> simp

/-- Counting the rises changes nothing but the ports. -/
theorem rest_countRises (s t : State) : { t with ports := (countRises s t).ports } = countRises s t := by
  simp only [countRises, allPorts, List.foldl_cons, List.foldl_nil, riseAt_eq]
  rfl

/-- A line that was high, or is low, does not rise. -/
theorem Port.risen_same {a b : Port} (h : a.line = true ∨ b.line = false) : Port.risen a b = b := by
  unfold Port.risen
  rcases h with h | h <;> simp [h]

/-- A port whose state, records and enable are kept keeps its line. -/
theorem Port.risen_of_line_eq {a b : Port} (h : b.line = a.line) : Port.risen a b = b := by
  unfold Port.risen
  cases ha : a.line <;> simp [ha, h]

/-- A command that changes the ports only. -/
theorem countRises_eq {s t u : State} (hp : ∀ k, Port.risen (s.port k) (t.port k) = u.port k)
    (hr : { t with ports := u.ports } = u) : countRises s t = u := by
  apply State.ext_ports
  · intro k
    rw [port_countRises, hp]
  · rw [← rest_countRises]
    exact hr

/-! ### Events and requests -/

theorem event_next {s r : State} {a : Bool} (h : s.inReset = false) (ha : a = true) : event s a r = .next (countRises s r) := by
  simp [event, h, ha]

theorem event_idle {s r : State} {a : Bool} (h : s.inReset = true ∨ a = false) : event s a r = .next s := by
  rcases h with h | h <;> simp [event, h]

theorem withRequest_next {p : PortId} {f : Byte → Bool} {s : State} {b : Request → State → State} (h : s.takes p f = true) :
    withRequest p f s b = .next (countRises s (b (s.port p).request (s.advance p))) := by
  simp [withRequest, h]

theorem withAnswer_next {p : PortId} {k : Byte} {s : State} {d : Request → State → Answer}
    (h : s.takes p (fun x => x == k) = true) :
    withAnswer p k s d = .next (countRises s ((d (s.port p).request (s.advance p)).state.respond p k
      (s.port p).request.tag (d (s.port p).request (s.advance p)).status (d (s.port p).request (s.advance p)).body)) := by
  simp [withAnswer, withRequest, h]

@[simp] theorem port_advance (s : State) (p k : PortId) :
    (s.advance p).port k = if k = p then { s.port p with reqHead := ((s.port p).reqHead + 1) % requestRange } else s.port k := by
  simp [State.advance, State.modPort]

@[simp] theorem port_place (s : State) (p k : PortId) (r : Record) :
    (s.place p r).port k = if k = p then (s.port p).place r else s.port k := by
  simp [State.place, State.modPort]

@[simp] theorem port_respond (s : State) (p k : PortId) (kind : Byte) (tag : U16) (st : Status) (b : Body) :
    (s.respond p kind tag st b).port k = if k = p then (s.port p).place (.response kind tag st b) else s.port k := by
  simp [State.respond]

@[simp] theorem port_modPort (s : State) (p k : PortId) (f : Port → Port) :
    (s.modPort p f).port k = if k = p then f (s.port p) else s.port k := by
  simp [State.modPort]

/-! ### Landing waits (R145) -/

/-- The treatment of the waits changes nothing but waits. -/
theorem port_refreshWait (s : State) (p k : PortId) :
    (s.refreshWait p).port k = { s.port k with wait := ((s.refreshWait p).port k).wait } := by
  unfold State.refreshWait
  dsimp only
  split
  · split
    · rfl
    · rw [State.port_setPort]
      split
      · rename_i h
        rw [h]
      · rfl
  · rw [State.port_setPort]
    split
    · rename_i h
      rw [h]
    · rfl

theorem rest_refreshWait (s : State) (p : PortId) : { s with ports := (s.refreshWait p).ports } = s.refreshWait p := by
  unfold State.refreshWait
  dsimp only
  split
  · split <;> rfl
  · rfl

theorem port_refreshWaits (s : State) (k : PortId) :
    s.refreshWaits.port k = { s.port k with wait := (s.refreshWaits.port k).wait } := by
  simp only [State.refreshWaits, allPorts, List.foldl_cons, List.foldl_nil]
  rw [port_refreshWait, port_refreshWait, port_refreshWait, port_refreshWait]

theorem rest_refreshWaits (s : State) : { s with ports := s.refreshWaits.ports } = s.refreshWaits := by
  have h : ∀ (l : List PortId) (t : State), { t with ports := (l.foldl State.refreshWait t).ports } = l.foldl State.refreshWait t := by
    intro l
    induction l with
    | nil => exact fun t => rfl
    | cons a rest ih =>
      intro t
      show { t with ports := (rest.foldl State.refreshWait (t.refreshWait a)).ports } =
        rest.foldl State.refreshWait (t.refreshWait a)
      rw [← ih (t.refreshWait a), ← rest_refreshWait t a]
  exact h allPorts s

end Sys2Proof.Machine
end

