-- ==== Sys2Proof/Laws/Requests.lean ====
section
/-! SUPPORT. What a request row does once its record may be taken: the forms the statements use, and the landing waits after a step. -/

namespace Sys2Proof.Machine

open Sys2Proof.Config

theorem State.takes_iff (s : State) (p : PortId) (f : Byte → Bool) :
    s.takes p f = true ↔ s.mayTakeNext p ∧ f (s.port p).request.kind = true := by
  simp only [State.takes, State.mayTake, State.mayTakeNext, Bool.and_eq_true, Bool.not_eq_true', beq_iff_eq,
    decide_eq_true_eq, and_assoc]

theorem State.takes_of_offers {s : State} {p : PortId} {k : Byte} (h : s.offers p k) :
    s.takes p (fun x => x == k) = true := by
  rw [State.takes_iff]
  exact ⟨h.1, by simp [h.2]⟩

theorem withRequest_idle {p : PortId} {f : Byte → Bool} {s : State} {b : Request → State → State}
    (h : ¬s.mayTakeNext p) : withRequest p f s b = .next s := by
  have : s.takes p f = false := by
    rw [Bool.eq_false_iff]
    intro hc
    exact h ((State.takes_iff _ _ _).1 hc).1
  simp [withRequest, this]

@[simp] theorem setPort_self (s : State) (p : PortId) : s.setPort p (s.port p) = s := by
  apply State.ext_ports
  · intro k
    rw [State.port_setPort]
    split
    · rename_i h
      rw [h]
    · rfl
  · rfl

@[simp] theorem setPort_setPort (s : State) (p : PortId) (a b : Port) : (s.setPort p a).setPort p b = s.setPort p b := by
  apply State.ext_ports
  · intro k
    simp only [State.port_setPort]
    split <;> rfl
  · rfl

theorem advance_eq (s : State) (p : PortId) : s.advance p = s.setPort p (s.port p).tookRequest := rfl

theorem modPort_advance (s : State) (p : PortId) (f : Port → Port) :
    (s.advance p).modPort p f = s.setPort p (f (s.port p).tookRequest) := by
  simp only [State.modPort, advance_eq, State.port_setPort, if_true, setPort_setPort]

/-- A port that was UP, had its record taken and was answered, whatever else of it changed outside its line. -/
theorem Port.risen_answered {a b : Port} (k : Byte) (tag : U16) (st : Status) (x : Body) (hs : a.state = .up)
    (h1 : b.state = a.state) (h2 : b.responses = a.responses) (h3 : b.eventEnable = a.eventEnable)  :
    Port.risen a (b.tookRequest.place (.response k tag st x)) = b.answered k tag st x := by
  unfold Port.risen Port.answered Port.place Port.tookRequest Port.line
  simp only [h1, h2, h3, hs, responseRange]
  by_cases he : a.eventEnable <;> cases hr : a.responses <;> simp [he]

/-- A request whose decision changes its own port outside its line, and nothing else. -/
theorem exec_own {s : State} {p : PortId} {k : Byte} {d : Request → State → Answer} (h : s.offers p k) (q : Port)
    (st : Status) (b : Body) (h1 : q.state = (s.port p).state) (h2 : q.responses = (s.port p).responses)
    (h3 : q.eventEnable = (s.port p).eventEnable)
    (hd : d (s.port p).request (s.advance p) = ⟨s.setPort p q.tookRequest, st, b⟩) :
    withAnswer p k s d = .next (s.setPort p (q.answered k (s.port p).request.tag st b)) := by
  rw [withAnswer_next (State.takes_of_offers h), hd]
  congr 1
  apply countRises_eq
  · intro j
    by_cases hj : j = p
    · subst hj
      simp only [port_respond, State.port_setPort, if_true]
      exact Port.risen_answered _ _ _ _ h.1.2.1 h1 h2 h3
    · simp only [port_respond, State.port_setPort, if_neg hj]
      exact Port.risen_of_line_eq rfl
  · rfl

/-- A request answered with nothing else changed. -/
theorem exec_only {s : State} {p : PortId} {k : Byte} {d : Request → State → Answer} (h : s.offers p k) (st : Status)
    (b : Body) (hd : d (s.port p).request (s.advance p) = ⟨s.advance p, st, b⟩) :
    withAnswer p k s d = .next (s.answered p k st b) := exec_own h (s.port p) st b rfl rfl rfl hd

/-! ### Landing waits (R145) -/

/-- R145: what a wait comes to depends on the wait before, and on what its conditions and its deadline read. -/
theorem waitAfter_congr {u v t x : State} {q : PortId} (hw : (u.port q).wait = (v.port q).wait)
    (hs : (t.port q).state = (x.port q).state) (hl : (t.port q).landing = (x.port q).landing)
    (ho : (t.port q).outputs = (x.port q).outputs) (hn : t.nodes = x.nodes) (ht : t.timebase = x.timebase)
    (hd : t.landingTimeout = x.landingTimeout) : waitAfter u t q = waitAfter v x q := by
  unfold waitAfter State.node
  rw [hw, hs, hl, ho, hn, ht, hd]

/-- The treatment of the waits gives each port the one that R145 does. -/
theorem wait_refreshWaits (s : State) (q : PortId) : (s.refreshWaits.port q).wait = waitAfter s s q := by
  have one : ∀ (t : State) (p k : PortId), { s with ports := t.ports } = t →
      (∀ j, t.port j = { s.port j with wait := (t.port j).wait }) →
      (t.port p).wait = (s.port p).wait →
      ((t.refreshWait p).port k).wait = if k = p then waitAfter s s p else (t.port k).wait := by
    intro t p k hr hp hw
    have hn : t.node = s.node := by
      funext n
      rw [← hr]
      rfl
    have ht : t.timebase = s.timebase := by rw [← hr]
    have hl : t.landingTimeout = s.landingTimeout := by rw [← hr]
    have hstate : (t.port p).state = (s.port p).state := by rw [hp p]
    have hland : (t.port p).landing = (s.port p).landing := by rw [hp p]
    have hout : (t.port p).outputs = (s.port p).outputs := by rw [hp p]
    have hcond : ((t.port p).state == .up && (t.oldestCurrent p).isSome && (t.port p).landing.isEmpty) = true ↔
        (s.port p).state = .up ∧ (s.port p).landing = [] ∧ ∃ o ∈ (s.port p).outputs, (s.node o.dest).state ≠ .down := by
      rw [hstate, hland]
      unfold State.oldestCurrent
      rw [hout, hn]
      simp only [Bool.and_eq_true, beq_iff_eq, List.isEmpty_iff, List.find?_isSome, NodeState.current, bne_iff_ne, ne_eq]
      tauto
    unfold State.refreshWait waitAfter
    dsimp only
    by_cases hc : ((t.port p).state == .up && (t.oldestCurrent p).isSome && (t.port p).landing.isEmpty) = true
    · rw [if_pos hc, if_pos (hcond.mp hc), ← hw]
      cases h : (t.port p).wait with
      | some d =>
        by_cases hk : k = p
        · rw [if_pos hk, hk, h]
          rfl
        · rw [if_neg hk]
      | none =>
        rw [State.port_setPort]
        by_cases hk : k = p
        · rw [if_pos hk, if_pos hk, ht, hl]
          rfl
        · rw [if_neg hk, if_neg hk]
    · rw [if_neg hc, if_neg fun h => hc (hcond.mpr h), State.port_setPort]
      by_cases hk : k = p
      · rw [if_pos hk, if_pos hk]
      · rw [if_neg hk, if_neg hk]
  have all : ∀ (l : List PortId) (t : State), l.Nodup → { s with ports := t.ports } = t →
      (∀ j, t.port j = { s.port j with wait := (t.port j).wait }) → (∀ j ∈ l, (t.port j).wait = (s.port j).wait) →
      ∀ k, ((l.foldl State.refreshWait t).port k).wait = if k ∈ l then waitAfter s s k else (t.port k).wait := by
    intro l
    induction l with
    | nil => intro t _ _ _ _ k; simp
    | cons p rest ih =>
      intro t hn hr hp hw k
      obtain ⟨hpr, hrest⟩ := List.nodup_cons.mp hn
      rw [List.foldl_cons, ih (t.refreshWait p) hrest]
      · rw [one t p k hr hp (hw p (List.mem_cons_self ..))]
        by_cases hk : k ∈ rest
        · rw [if_pos hk, if_pos (List.mem_cons_of_mem _ hk)]
        · by_cases hkp : k = p
          · rw [if_neg hk, if_pos hkp, if_pos (by rw [hkp]; exact List.mem_cons_self ..), hkp]
          · rw [if_neg hk, if_neg hkp, if_neg (by simp [hk, hkp])]
      · rw [← rest_refreshWait t p, ← hr]
      · intro j
        rw [port_refreshWait, hp j]
      · intro j hj
        rw [one t p j hr hp (hw p (List.mem_cons_self ..)), if_neg]
        · exact hw j (List.mem_cons_of_mem _ hj)
        · rintro rfl
          exact hpr hj
  have h := all allPorts s allPorts_nodup rfl (fun _ => rfl) (fun _ _ => rfl) q
  rwa [if_pos (mem_allPorts q)] at h

/-- Steps that keep the waits, followed by their treatment, leave the waits that R145 gives. -/
theorem wait_after_refreshWaits {s t : State} {q : PortId} (hw : (t.port q).wait = (s.port q).wait) :
    (t.refreshWaits.port q).wait = waitAfter s t.refreshWaits q := by
  rw [wait_refreshWaits]
  have hp := port_refreshWaits t q
  have hr := rest_refreshWaits t
  refine waitAfter_congr hw ?_ ?_ ?_ ?_ ?_ ?_
  · rw [hp]
  · rw [hp]
  · rw [hp]
  all_goals rw [← hr]

/-- What keeps what the shared operations keep, with the waits treated after it, has the frame of a step. -/
theorem Kept.workFrame {s t : State} (k : Kept s t) : workFrame s t.refreshWaits := by
  have hr := rest_refreshWaits t
  refine ⟨?_, fun q => ?_⟩
  · rw [← hr]
    exact ⟨k.inReset, k.quorum, k.sweep, k.sequenceCounter, k.matrix, k.window, k.fetchTimeout, k.transfers,
      k.lanes, k.landingTimeout, k.timebase, k.nextBoundary, k.epochLength, k.fresh, k.pending⟩
  · have hq := k.port q
    unfold Port.worked
    rw [← wait_after_refreshWaits (s := s) (by rw [hq]), port_refreshWaits, hq]

/-! ### Requests that act on the tables -/

/-- A request whose decision keeps what the shared operations keep and then treats the waits: the state it leaves, rest
and ports. -/
theorem exec_kept {s : State} {p : PortId} {k : Byte} {d : Request → State → Answer} (h : s.offers p k) {t : State}
    {st : Status} {b : Body} (hd : d (s.port p).request (s.advance p) = ⟨t.refreshWaits, st, b⟩) (hk : Kept (s.advance p) t) :
    ∃ u, withAnswer p k s d = .next u ∧ answeredFrame s u p k st b ∧ { t with ports := u.ports } = u
      ∧ ∀ q, (u.port q).fetches = (t.port q).fetches ∧ (u.port q).outputs = (t.port q).outputs := by
  refine ⟨_, withAnswer_next (State.takes_of_offers h), ?_⟩
  rw [hd]
  dsimp only
  have hwf := hk.workFrame
  have hw : ∀ q, (t.refreshWaits.port q).wait = waitAfter (s.advance p) t.refreshWaits q := fun q => by
    have := hwf.2 q
    unfold Port.worked at this
    rw [this]
  have hf : ∀ q, (t.refreshWaits.port q).fetches = (t.port q).fetches ∧ (t.refreshWaits.port q).outputs = (t.port q).outputs :=
    fun q => by
      rw [port_refreshWaits]
      exact ⟨rfl, rfl⟩
  have hu := rest_refreshWaits t
  generalize t.refreshWaits = x at hwf hw hf hu ⊢
  have hrest := rest_countRises s (x.respond p k (s.port p).request.tag st b)
  have hport : ∀ q, (countRises s (x.respond p k (s.port p).request.tag st b)).port q =
      { (s.answered p k st b).port q with
        fetches := (x.port q).fetches, outputs := (x.port q).outputs, wait := (x.port q).wait } := by
    intro q
    rw [port_countRises]
    have hq := hwf.2 q
    unfold Port.worked at hq
    rw [← hw] at hq
    by_cases hp : q = p
    · subst hp
      simp only [State.answered, port_respond, State.port_setPort, if_true]
      rw [hq, port_advance, if_pos rfl]
      exact Port.risen_answered (b := { s.port q with fetches := (x.port q).fetches, outputs := (x.port q).outputs,
                                                      wait := (x.port q).wait }) k (s.port q).request.tag st b h.1.2.1 rfl rfl rfl
    · simp only [State.answered, port_respond, State.port_setPort, if_neg hp]
      rw [port_advance, if_neg hp] at hq
      rw [Port.risen_of_line_eq]
      · exact hq
      · rw [hq]; rfl
  have hr : { x with ports := (countRises s (x.respond p k (s.port p).request.tag st b)).ports } =
      countRises s (x.respond p k (s.port p).request.tag st b) := hrest
  generalize countRises s (x.respond p k (s.port p).request.tag st b) = u at hport hr
  refine ⟨⟨?_, fun q => ?_⟩, ?_, fun q => ?_⟩
  · rw [← hr]
    exact ⟨hwf.1.inReset, hwf.1.quorum, hwf.1.sweep, hwf.1.sequenceCounter, hwf.1.matrix, hwf.1.window, hwf.1.fetchTimeout,
      hwf.1.transfers, hwf.1.lanes, hwf.1.landingTimeout, hwf.1.timebase, hwf.1.nextBoundary, hwf.1.epochLength,
      hwf.1.fresh, hwf.1.pending⟩
  · unfold Port.worked
    have hwq : (x.port q).wait = waitAfter s u q := by
      rw [hw q]
      refine waitAfter_congr ?_ ?_ ?_ ?_ ?_ ?_ ?_
      · rw [port_advance]
        split
        · rename_i e
          rw [e]
        · rfl
      · have h2 := hwf.2 q
        unfold Port.worked at h2
        rw [hport q, h2, port_advance]
        simp only [State.answered, State.port_setPort]
        split <;> rfl
      · have h2 := hwf.2 q
        unfold Port.worked at h2
        rw [hport q, h2, port_advance]
        simp only [State.answered, State.port_setPort]
        split <;> rfl
      · rw [hport q]
      all_goals rw [← hr]
    rw [← hwq, hport q]
  · rw [← hr, ← hu]
  · rw [hport q]
    exact hf q

/-- Two changes of ports alone are one. -/
theorem ports_trans {t x u : State} (hx : { t with ports := x.ports } = x) (hu : { x with ports := u.ports } = u) :
    { t with ports := u.ports } = u := by
  rw [← hu, ← hx]

theorem rest_respond (s : State) (p : PortId) (k : Byte) (tag : U16) (st : Status) (b : Body) :
    { s with ports := (s.respond p k tag st b).ports } = s.respond p k tag st b := rfl

/-- A port that was UP and was answered, with another landing wait. -/
theorem Port.risen_wait {a c : Port} (k : Byte) (tag : U16) (st : Status) (x : Body) (hs : a.state = .up)
    (hc : c = { a.tookRequest with wait := c.wait }) :
    Port.risen a (c.place (.response k tag st x)) = { a.answered k tag st x with wait := c.wait } := by
  have := Port.risen_answered (a := a) (b := { a with wait := c.wait }) k tag st x hs rfl rfl rfl
  rw [hc]
  exact this

/-- A request whose decision leaves the ports alone but for the landing waits. -/
theorem exec_waits {s : State} {p : PortId} {k : Byte} {d : Request → State → Answer} (h : s.offers p k) {t : State}
    {st : Status} {b : Body} (hd : d (s.port p).request (s.advance p) = ⟨t.refreshWaits, st, b⟩)
    (hp : ∀ q, t.port q = (s.advance p).port q) :
    ∃ u, withAnswer p k s d = .next u ∧ portsButWaits (s.answered p k st b) u ∧ { t with ports := u.ports } = u := by
  have hup : (s.port p).state = .up := h.1.2.1
  have hu : { t with ports := (countRises s (t.refreshWaits.respond p k (s.port p).request.tag st b)).ports } =
      countRises s (t.refreshWaits.respond p k (s.port p).request.tag st b) := by
    generalize (s.port p).request.tag = tag
    have hx := ports_trans (rest_refreshWaits t) (rest_respond t.refreshWaits p k tag st b)
    generalize t.refreshWaits.respond p k tag st b = x at hx ⊢
    exact ports_trans hx (rest_countRises s x)
  have hwait := fun q => wait_refreshWaits t q
  refine ⟨_, withAnswer_next (State.takes_of_offers h), ?_⟩
  rw [hd]
  dsimp only
  refine ⟨?_, hu⟩
  unfold State.answered
  generalize (s.port p).request.tag = tag at hu ⊢
  have hport : ∀ q, (countRises s (t.refreshWaits.respond p k tag st b)).port q =
      { (s.setPort p ((s.port p).answered k tag st b)).port q with wait := (t.refreshWaits.port q).wait } := by
    intro q
    rw [port_countRises]
    have hq := port_refreshWaits t q
    rw [hp q, port_advance] at hq
    by_cases hqp : q = p
    · subst hqp
      simp only [port_respond, State.port_setPort, if_true]
      rw [if_pos rfl] at hq
      generalize t.refreshWaits.port q = c at hq ⊢
      generalize s.port q = a at hq hup ⊢
      exact Port.risen_wait k tag st b hup hq
    · simp only [port_respond, State.port_setPort, if_neg hqp]
      rw [if_neg hqp] at hq
      generalize t.refreshWaits.port q = c at hq ⊢
      generalize s.port q = a at hq ⊢
      have e : Port.risen a c = c := by
        rw [hq]
        exact Port.risen_of_line_eq rfl
      rw [e]
      exact hq
  generalize countRises s (t.refreshWaits.respond p k tag st b) = u at hu hport ⊢
  intro q
  have hb : (t.port q).wait = ((s.setPort p ((s.port p).answered k tag st b)).port q).wait
      ∧ (t.port q).state = ((s.setPort p ((s.port p).answered k tag st b)).port q).state
      ∧ (t.port q).landing = ((s.setPort p ((s.port p).answered k tag st b)).port q).landing
      ∧ (t.port q).outputs = ((s.setPort p ((s.port p).answered k tag st b)).port q).outputs := by
    rw [hp q, port_advance, State.port_setPort]
    split <;> exact ⟨rfl, rfl, rfl, rfl⟩
  have hw : waitAfter t t q = waitAfter (s.setPort p ((s.port p).answered k tag st b)) u q := by
    refine waitAfter_congr hb.1 ?_ ?_ ?_ ?_ ?_ ?_
    · rw [hport q]
      exact hb.2.1
    · rw [hport q]
      exact hb.2.2.1
    · rw [hport q]
      exact hb.2.2.2
    all_goals rw [← hu]
  rw [← hw, ← hwait q]
  exact hport q

/-- An event that keeps what the shared operations keep and then treats the waits. -/
theorem event_kept {s t : State} {a : Bool} (h : s.inReset = false) (ha : a = true) (hk : Kept s t) :
    event s a t.refreshWaits = .next t.refreshWaits ∧ workFrame s t.refreshWaits := by
  have hline : ∀ q, (t.refreshWaits.port q).line = (s.port q).line := fun q => by
    rw [port_refreshWaits, hk.port q]
    rfl
  refine ⟨?_, hk.workFrame⟩
  rw [event_next h ha]
  generalize t.refreshWaits = x at hline ⊢
  exact congrArg _ (countRises_eq (fun q => Port.risen_of_line_eq (hline q)) rfl)

end Sys2Proof.Machine
end

