-- ==== Sys2Proof/Laws/Entries.lean ====
section
/-! SUPPORT. What the Bool tests on entries and members say, in the words of the statements. -/

namespace Sys2Proof.Machine

open Sys2Proof.Config

theorem Plan.gathers_iff (pl : Plan) (pos : Position) :
    pl.gathers pos = true ↔ (∃ l, pl.sources = some l ∧ pos ∈ l) ∨ pl.check = some pos := by
  unfold Plan.gathers
  cases pl.sources <;> simp

theorem NodeState.current_iff (st : NodeState) : st.current = true ↔ st ≠ .down := by cases st <;> decide

/-- R112: the entry uses the member. -/
theorem State.usesMember_iff (s : State) (h : Handle) (pos : Position) : s.usesMember h pos = true ↔ usesMemberNow s h pos := by
  unfold State.usesMember usesMemberNow
  cases he : s.entry? h with
  | none => simp
  | some e =>
    cases hp : e.plan with
    | none => simp [hp]
    | some pl =>
      cases hm : e.members[pos]? with
      | none => simp [hm]
      | some m =>
        simp only [hp, hm, Bool.and_eq_true, decide_eq_true_eq, NodeState.current_iff, Plan.gathers_iff, and_assoc]
        constructor
        · intro h
          exact ⟨e, m, pl, rfl, hm, hp, h⟩
        · rintro ⟨e', m', pl', h1, h2, h3, h4⟩
          obtain rfl := Option.some.inj h1
          obtain rfl := Option.some.inj (hm.symm.trans h2)
          obtain rfl := Option.some.inj (hp.symm.trans h3)
          exact h4

/-- R59, log 18: work of the entry is under way. -/
theorem State.busyWith_iff (s : State) (h : Handle) :
    s.busyWith h ↔ ((s.lanes.toList.any fun x => decide (x.map Pass.handle = some h))
      || (s.ports.toList.any fun q => q.outputs.any fun o => decide (o.handle = h))
      || s.deliveries.any fun d => decide (d.output.handle = h)) = true := by
  simp only [State.busyWith, Bool.or_eq_true, List.any_eq_true, decide_eq_true_eq, or_assoc, Option.map_eq_some_iff]
  refine or_congr ?_ (or_congr ?_ (by rfl))
  · constructor
    · rintro ⟨x, hx, rfl⟩
      exact ⟨some x, hx, x, rfl, rfl⟩
    · rintro ⟨_, hx, x, rfl, rfl⟩
      exact ⟨x, hx, rfl⟩
  · constructor
    · rintro ⟨q, o, ho, rfl⟩
      exact ⟨s.port q, by simp [State.port], o, ho, rfl⟩
    · rintro ⟨q, hq, o, ho, rfl⟩
      obtain ⟨i, hi, rfl⟩ := List.mem_iff_getElem.mp hq
      exact ⟨⟨i, by simpa using hi⟩, o, by simpa [State.port] using ho, rfl⟩

end Sys2Proof.Machine
end

