-- ==== Sys2Proof/Laws/Cells.lean ====
section
/-! SUPPORT. Queue order and released cells: what the order says, and what the release of one cell and of many does. -/

namespace Sys2Proof.Machine

open Sys2Proof.Config

/-! ### Cells (R124) -/

/-- Nothing but cells and the planning attempt has changed. -/
def CellsOnly (s t : State) : Prop := { s with cells := t.cells, attempt := t.attempt } = t

theorem CellsOnly.refl (s : State) : CellsOnly s s := rfl

theorem CellsOnly.trans {s t u : State} (h : CellsOnly s t) (k : CellsOnly t u) : CellsOnly s u := by
  unfold CellsOnly at *
  rw [← k, ← h]

theorem CellsOnly.setCell (s : State) (c : CellId) (x : Option Cell) : CellsOnly s (s.setCell c x) := rfl
theorem CellsOnly.causeAttempt (s : State) : CellsOnly s s.causeAttempt := rfl

theorem CellsOnly.release (s : State) (c : CellId) : CellsOnly s (s.release c) := by
  unfold State.release
  split
  · rfl
  · split
    · rfl
    · split <;> rfl

theorem CellsOnly.releaseAll (s : State) (l : List CellId) : CellsOnly s (s.releaseAll l) := by
  unfold State.releaseAll
  induction l generalizing s with
  | nil => exact CellsOnly.refl s
  | cons c rest ih => exact (CellsOnly.release s c).trans (ih _)

/-! ### Queue order (R41, R67) -/

theorem older_iff (a b : Handle × Entry) : older a b = true ↔
    if (b.2.sequence - a.2.sequence).toNat = 0 ∨ (b.2.sequence - a.2.sequence).toNat = 2 ^ 31 then a.1 < b.1
    else (b.2.sequence - a.2.sequence).toNat < 2 ^ 31 := by
  unfold older
  simp only [Nat.reducePow]
  by_cases h : (b.2.sequence - a.2.sequence).toNat = 0 ∨ (b.2.sequence - a.2.sequence).toNat = 2147483648 <;> simp

theorem moreUrgent_iff (a b : Handle × Entry) : moreUrgent a b = true ↔ comesFirst a b := by
  unfold moreUrgent comesFirst
  by_cases h : a.2.urgency = b.2.urgency
  · rw [if_pos h, older_iff, h]
    simp
  · rw [if_neg h, decide_eq_true_eq]
    simp only [h, false_and, or_false]

theorem serial_sub (x y : U32) : (x - y).toNat = 0 ∧ (y - x).toNat = 0
    ∨ 0 < (x - y).toNat ∧ (x - y).toNat + (y - x).toNat = 2 ^ 32 := by
  simp only [BitVec.toNat_sub]
  have := x.isLt
  have := y.isLt
  omega

/-- R67: of two entries at most one comes first. -/
theorem comesFirst_asymm {a b : Handle × Entry} (h : comesFirst a b) : ¬comesFirst b a := by
  intro k
  unfold comesFirst at h k
  have hd := serial_sub b.2.sequence a.2.sequence
  simp only at h k
  rcases h with h | ⟨h1, h2⟩ <;> rcases k with k | ⟨k1, k2⟩
  · omega
  · rw [k1] at h
    exact absurd h (Nat.lt_irrefl _)
  · rw [h1] at k
    exact absurd k (Nat.lt_irrefl _)
  · split at h2 <;> split at k2 <;> first | exact Nat.lt_asymm h2 k2 | omega

theorem mostUrgent_eq_none {l : List (Handle × Entry)} : mostUrgent l = none ↔ l = [] := by
  cases l with
  | nil => simp [mostUrgent]
  | cons x rest =>
    simp only [mostUrgent, reduceCtorEq, iff_false]
    split
    · simp
    · split <;> simp

theorem mostUrgent_mem {l : List (Handle × Entry)} {x : Handle × Entry} (h : mostUrgent l = some x) : x ∈ l := by
  induction l generalizing x with
  | nil => simp [mostUrgent] at h
  | cons y rest ih =>
    simp only [mostUrgent] at h
    split at h
    · simp_all
    · rename_i z hz
      split at h
      · obtain rfl := Option.some.inj h
        exact List.mem_cons_of_mem _ (ih hz)
      · simp_all

/-- The entry that comes first of a list is the one found. -/
theorem mostUrgent_of_first {l : List (Handle × Entry)} {x : Handle × Entry} (hx : x ∈ l)
    (hf : ∀ y ∈ l, y = x ∨ comesFirst x y) : mostUrgent l = some x := by
  induction l with
  | nil => simp at hx
  | cons y rest ih =>
    simp only [mostUrgent]
    by_cases hr : x ∈ rest
    · rw [ih hr (fun z hz => hf z (List.mem_cons_of_mem _ hz))]
      simp only
      rcases hf y List.mem_cons_self with h | h
      · rw [h]
        split <;> rfl
      · rw [if_pos ((moreUrgent_iff x y).mpr h)]
    · have hxy : x = y := by
        rcases List.mem_cons.mp hx with h | h
        · exact h
        · exact absurd h hr
      subst hxy
      cases hm : mostUrgent rest with
      | none => rfl
      | some z =>
        have hz := mostUrgent_mem hm
        simp only
        rw [if_neg]
        intro hc
        rcases hf z (List.mem_cons_of_mem _ hz) with h | h
        · exact hr (h ▸ hz)
        · exact comesFirst_asymm h ((moreUrgent_iff z x).mp hc)

/-! ### The release of cells (R124) -/

theorem State.mem_shortfalls (s : State) (he : Handle × Entry) : he ∈ s.shortfalls ↔ s.short he := by
  unfold State.shortfalls State.short
  rw [List.mem_filter]
  cases he.2.plan <;> simp

theorem State.returnsToFloor_iff (s : State) (x : Cell) : s.returnsToFloor x = true ↔ s.hasHome x := by
  unfold State.returnsToFloor State.hasHome
  cases he : s.entry? x.owner with
  | none => simp
  | some e => cases hp : e.plan <;> simp [hp]

/-- R124: what the release of one cell does. -/
theorem State.release_spec (s : State) (c : CellId) : givesUpCell s (s.release c) c := by
  unfold State.release
  cases hc : s.cell c with
  | none => exact ⟨fun _ _ => rfl, fun _ => hc, fun x hx => by simp [hc] at hx⟩
  | some x =>
    simp only
    by_cases hr : s.returnsToFloor x = true
    · rw [if_pos hr]
      refine ⟨fun k hk => by simp [hk], fun h => by simp [hc] at h, fun y hy => ?_⟩
      obtain rfl : x = y := Option.some.inj (hc.symm.trans hy)
      have hh := (s.returnsToFloor_iff x).mp hr
      exact ⟨fun _ => by simp [floorCell], fun h => absurd hh h, fun h => absurd hh h, fun h => absurd hh h⟩
    · rw [if_neg hr]
      have hn : ¬s.hasHome x := fun h => hr ((s.returnsToFloor_iff x).mpr h)
      cases hm : mostUrgent s.shortfalls with
      | none =>
        have hno : ∀ he, ¬s.short he := fun he h => by
          have := (s.mem_shortfalls he).mpr h
          rw [mostUrgent_eq_none.mp hm] at this
          simp at this
        refine ⟨fun k hk => (State.cell_setCell ..).trans (if_neg hk), fun h => by simp [hc] at h, fun y hy => ?_⟩
        obtain rfl : x = y := Option.some.inj (hc.symm.trans hy)
        refine ⟨fun h => absurd h hn, fun _ he h => absurd h (hno he), fun _ ⟨he, h⟩ => absurd h (hno he), fun _ _ => ⟨?_, rfl⟩⟩
        simp [State.causeAttempt, State.cell, State.setCell]
      | some he =>
        have hs : s.short he := (s.mem_shortfalls _).mp (mostUrgent_mem hm)
        refine ⟨fun k hk => by simp [hk], fun h => by simp [hc] at h, fun y hy => ?_⟩
        obtain rfl : x = y := Option.some.inj (hc.symm.trans hy)
        refine ⟨fun h => absurd h hn, fun _ k hk hf => ?_, fun _ _ => ⟨he, hs, by simp [floorCell]⟩, fun _ h => absurd ⟨_, hs⟩ h⟩
        have : mostUrgent s.shortfalls = some k :=
          mostUrgent_of_first ((s.mem_shortfalls k).mpr hk) fun y hy => hf y ((s.mem_shortfalls y).mp hy)
        obtain rfl : he = k := Option.some.inj (hm.symm.trans this)
        simp [floorCell]

theorem State.release_attempt (s : State) (c : CellId) (h : s.attempt = true) : (s.release c).attempt = true := by
  unfold State.release
  split
  · exact h
  · split
    · exact h
    · split
      · exact h
      · rfl

/-- R124: what the release of a list of cells does. -/
theorem State.releaseAll_spec (s : State) (l : List CellId) : releases s l (s.releaseAll l) := by
  induction l generalizing s with
  | nil => exact ⟨rfl, id⟩
  | cons c rest ih => exact ⟨s.release c, s.release_spec c, CellsOnly.release s c, s.release_attempt c, ih _⟩

theorem State.releaseAll_attempt (s : State) (l : List CellId) (h : s.attempt = true) : (s.releaseAll l).attempt = true := by
  induction l generalizing s with
  | nil => exact h
  | cons c rest ih => exact ih _ (s.release_attempt c h)

/-- R124 looks at the entries and the cells alone. -/
theorem givesUpCell.congr {s s' t : State} {c : CellId} (k : givesUpCell s t c) (he : s'.entries = s.entries)
    (hc : s'.cells = s.cells) : givesUpCell s' t c := by
  have h1 : s'.cell = s.cell := by unfold State.cell; rw [hc]
  have h2 : s'.hasHome = s.hasHome := by unfold State.hasHome State.entry? State.floorCount State.cellCount; rw [he, hc]
  have h3 : s'.short = s.short := by unfold State.short State.floorCount State.cellCount; rw [he, hc]
  unfold givesUpCell at k ⊢
  rw [h1, h2, h3]
  exact k

theorem givesUpCell.final {s t t' : State} {c : CellId} (k : givesUpCell s t c) (hc : t'.cells = t.cells)
    (ha : t.attempt = true → t'.attempt = true) : givesUpCell s t' c := by
  have h1 : t'.cell = t.cell := by unfold State.cell; rw [hc]
  unfold givesUpCell at k ⊢
  rw [h1]
  refine ⟨k.1, k.2.1, fun x hx => ?_⟩
  obtain ⟨a, b, d, e⟩ := k.2.2 x hx
  exact ⟨a, b, d, fun p q => ⟨(e p q).1, ha (e p q).2⟩⟩

theorem releases.congr {s s' t t' : State} {l : List CellId} (k : releases s l t) (he : s'.entries = s.entries)
    (hc : s'.cells = s.cells) (ha : s'.attempt = true → s.attempt = true) (hc' : t'.cells = t.cells)
    (ha' : t.attempt = true → t'.attempt = true) : releases s' l t' := by
  induction l generalizing s s' with
  | nil => exact ⟨by rw [hc', k.1, hc], fun h => ha' (k.2 (ha h))⟩
  | cons c rest ih =>
    obtain ⟨u, u1, u2, u3, u4⟩ := k
    refine ⟨{ s' with cells := u.cells, attempt := u.attempt }, (u1.congr he hc).final rfl id, rfl, fun h => u3 (ha h), ?_⟩
    refine ih u4 ?_ rfl id
    show s'.entries = u.entries
    rw [he, ← u2]

theorem releases.attempt {s t : State} {l : List CellId} (k : releases s l t) (h : s.attempt = true) : t.attempt = true := by
  induction l generalizing s with
  | nil => exact k.2 h
  | cons c rest ih =>
    obtain ⟨u, u1, u2, u3, u4⟩ := k
    exact ih u4 (u3 h)

/-- R124: the same cells go the same ways where a planning attempt was caused before. -/
theorem releases.raised {s t : State} {l : List CellId} (k : releases s l t) :
    releases { s with attempt := true } l { t with attempt := true } := by
  induction l generalizing s with
  | nil => exact ⟨k.1, fun _ => rfl⟩
  | cons c rest ih =>
    obtain ⟨u, u1, u2, u3, u4⟩ := k
    exact ⟨{ u with attempt := true }, (u1.congr (s' := { s with attempt := true }) rfl rfl).final rfl fun _ => rfl,
      by rw [← u2], fun _ => rfl, ih u4⟩

theorem releases.append {s t : State} {l l' : List CellId} {v : State} (k : releases s l v) (j : releases v l' t)
    (he : v.entries = s.entries) : releases s (l ++ l') t := by
  induction l generalizing s with
  | nil =>
    refine j.congr he.symm k.1.symm k.2 rfl id
  | cons c rest ih =>
    obtain ⟨u, u1, u2, u3, u4⟩ := k
    exact ⟨u, u1, u2, u3, ih u4 (by rw [he, ← u2])⟩

/-- R124: a cell that is not released is as it was. -/
theorem releases.other {s t : State} {l : List CellId} (k : releases s l t) {c : CellId} (hc : c ∉ l) : t.cell c = s.cell c := by
  induction l generalizing s with
  | nil =>
    unfold State.cell
    rw [k.1]
  | cons a rest ih =>
    obtain ⟨u, u1, u2, u3, u4⟩ := k
    rw [ih u4 fun x => hc (List.mem_cons_of_mem _ x)]
    exact u1.1 c fun x => hc (x ▸ List.mem_cons_self)

/-- R124: an entry without a plan has no floor, whatever else it holds. -/
theorem releases.planless {s t : State} {l : List CellId} {h : Handle} {e f : Entry} (he : e.plan = none) (hf : f.plan = none)
    (k : releases (s.setEntry h e) l t) : releases (s.setEntry h f) l t := by
  have key : ∀ (e f : Entry) (he : e.plan = none) (hf : f.plan = none) (u : State),
      u.entries = Table.put s.entries h e →
      ({ u with entries := Table.put s.entries h f } : State).short = u.short
        ∧ ({ u with entries := Table.put s.entries h f } : State).hasHome = u.hasHome := by
    intro e f he hf u hu
    have mem : ∀ (e f : Entry) (he : e.plan = none) (c : Handle × Entry), c.2.plan ≠ none →
        c ∈ Table.put s.entries h e → c ∈ Table.put s.entries h f := fun e f he c hc =>
      Table.mem_put_congr _ _ _ _ (fun x => hc (by rw [x]; exact he))
    constructor
    · funext c
      refine propext ⟨?_, ?_⟩ <;> rintro ⟨a, pl, b, d⟩
      · exact ⟨by rw [hu]; exact mem f e hf c (by simp [b]) a, pl, b, d⟩
      · exact ⟨mem e f he c (by simp [b]) (by rw [← hu]; exact a), pl, b, d⟩
    · funext x
      have find : ∀ g : Entry, Table.find (Table.put s.entries h g) x.owner =
          if x.owner = h then some g else Table.find s.entries x.owner := fun g => Table.find_put ..
      simp only [State.hasHome, State.entry?, hu, find]
      by_cases hx : x.owner = h
      · simp [hx, he, hf]
      · simp only [hx, if_false]
        rfl
  suffices ∀ (l : List CellId) (u : State), u.entries = Table.put s.entries h e → releases u l t →
      releases { u with entries := Table.put s.entries h f } l t from this l (s.setEntry h e) rfl k
  intro l
  induction l with
  | nil => exact fun u _ x => x
  | cons c rest ih =>
    rintro u hu ⟨v, v1, v2, v3, v4⟩
    obtain ⟨k1, k2⟩ := key e f he hf u hu
    refine ⟨{ v with entries := Table.put s.entries h f }, ?_, by rw [← v2], v3, ih v (by rw [← v2]; exact hu) v4⟩
    unfold givesUpCell at v1 ⊢
    rw [k1, k2]
    exact v1

/-! ### Which steps cause a planning attempt (R68, R124) -/

/-- From `s` to `t` a planning attempt is caused where `P` holds or a cell becomes FREE, and no cell is taken. -/
def Causes (P : Prop) (s t : State) : Prop :=
  (t.attempt = true ↔ s.attempt = true ∨ P ∨ someCellFreed s t) ∧ ∀ c, s.cell c = none → t.cell c = none

theorem Causes.of_cells {P : Prop} {s t : State} (hc : t.cells = s.cells) (ha : t.attempt = true ↔ s.attempt = true ∨ P) :
    Causes P s t := by
  have h : ∀ c, t.cell c = s.cell c := fun c => by unfold State.cell; rw [hc]
  refine ⟨?_, fun c hn => by rw [h, hn]⟩
  rw [ha]
  have : ¬someCellFreed s t := fun ⟨c, x, y⟩ => x (by rw [← h, y])
  simp only [this, or_false]

theorem Causes.trans {P Q : Prop} {s t u : State} (h : Causes P s t) (k : Causes Q t u) : Causes (P ∨ Q) s u := by
  refine ⟨?_, fun c hn => k.2 c (h.2 c hn)⟩
  rw [k.1, h.1]
  have : someCellFreed s u ↔ someCellFreed s t ∨ someCellFreed t u := by
    constructor
    · rintro ⟨c, x, y⟩
      by_cases ht : t.cell c = none
      · exact .inl ⟨c, x, ht⟩
      · exact .inr ⟨c, ht, y⟩
    · rintro (⟨c, x, y⟩ | ⟨c, x, y⟩)
      · exact ⟨c, x, k.2 c y⟩
      · exact ⟨c, fun hn => x (h.2 c hn), y⟩
  rw [this]
  tauto

theorem Causes.congr {P Q : Prop} {s t : State} (h : Causes P s t) (k : P ↔ Q) : Causes Q s t := by
  obtain rfl := propext k
  exact h

/-- What a step causes does not depend on the rest of the state it starts from. -/
theorem Causes.rebase {P : Prop} {s s' t t' : State} (h : Causes P s t) (hc : s'.cells = s.cells)
    (ha : s'.attempt = s.attempt) (hc' : t'.cells = t.cells) (ha' : t'.attempt = t.attempt) : Causes P s' t' := by
  unfold Causes someCellFreed State.cell at *
  rw [hc, ha, hc', ha']
  exact h

theorem State.release_causes (s : State) (c : CellId) : Causes False s (s.release c) := by
  have e : Causes False s s := Causes.of_cells rfl (by simp)
  have floor : ∀ x y, s.cell c = some x → Causes False s (s.setCell c (some y)) := fun x y hx => by
    have h : ∀ k, (s.setCell c (some y)).cell k = if k = c then some y else s.cell k := fun k => State.cell_setCell ..
    refine ⟨?_, fun k hk => ?_⟩
    · have : ¬someCellFreed s (s.setCell c (some y)) := by
        rintro ⟨k, a, b⟩
        rw [h] at b
        split at b
        · simp at b
        · exact a b
      simp only [this, or_false]
      rfl
    · rw [h, if_neg]
      · exact hk
      · rintro rfl
        simp [hx] at hk
  unfold State.release
  split
  · exact e
  · rename_i x hx
    split
    · exact floor x _ hx
    · split
      · exact floor x _ hx
      · have h : ∀ k, ((s.setCell c none).causeAttempt).cell k = if k = c then none else s.cell k := fun k =>
          State.cell_setCell ..
        refine ⟨⟨fun _ => .inr (.inr ⟨c, by simp [hx], by rw [h, if_pos rfl]⟩), fun _ => rfl⟩, fun k hk => ?_⟩
        rw [h]
        split
        · rfl
        · exact hk

/-- R124: a planning attempt is caused where one of the cells released becomes FREE. -/
theorem State.releaseAll_causes (s : State) (l : List CellId) : Causes False s (s.releaseAll l) := by
  induction l generalizing s with
  | nil => exact Causes.of_cells rfl (by simp [State.releaseAll])
  | cons c rest ih => exact ((s.release_causes c).trans (ih _)).congr (by simp)

/-- Cells released and nothing else changed, in the words of the statements. -/
theorem State.releaseAll_after (s : State) (l : List CellId) {given : CellId → Prop} (h : ∀ c, c ∈ l ↔ given c) :
    afterRelease s (s.releaseAll l) given :=
  ⟨CellsOnly.releaseAll s l, ⟨l, h, s.releaseAll_spec l⟩, by rw [(s.releaseAll_causes l).1]; simp⟩

/-- One cell released and nothing else changed, in the words of the statements. -/
theorem State.release_after (s : State) (c : CellId) : afterRelease s (s.release c) (· = c) :=
  s.releaseAll_after [c] fun _ => List.mem_singleton

end Sys2Proof.Machine
end

