-- ==== Sys2Proof/Laws/Lifecycle.lean ====
section
/-! SUPPORT. What the shared operations of an entry's life do, one lemma each in the words of the statements: cells released, plans dropped, entries closed, triggered, removed, destinations lost. -/

namespace Sys2Proof.Machine

open Sys2Proof.Config

/-! ### Entries -/

theorem State.entry_causeAttempt (s : State) (k : Handle) : s.causeAttempt.entry? k = s.entry? k := rfl

theorem CellsOnly.entries {s t : State} (h : CellsOnly s t) : t.entries = s.entries := by rw [← h]

/-- The entry changed at its handle, and no other. -/
theorem State.modEntry_eq {s : State} {h : Handle} {e : Entry} (he : s.entry? h = some e) (f : Entry → Entry) :
    s.modEntry h f = s.setEntry h (f e) := by
  unfold State.modEntry
  rw [he]

/-! ### Folds over the ports -/

theorem port_modPort' (s : State) (p k : PortId) (f : Port → Port) :
    (s.modPort p f).port k = if k = p then f (s.port p) else s.port k := by
  simp only [State.modPort, State.port_setPort]

/-- Each port is changed by `f`, and the cells that `cs` names of it are released. -/
structure PortsAndCells (f : Port → Port) (cs : Port → List CellId) (ports : List PortId) (s t : State) : Prop where
  rest : { s with ports := t.ports, cells := t.cells, attempt := t.attempt } = t
  port : ∀ k, t.port k = if k ∈ ports then f (s.port k) else s.port k
  cells : ∃ l, (∀ c, c ∈ l ↔ ∃ k ∈ ports, c ∈ cs (s.port k)) ∧ releases s l t
  causes : Causes False s t

/-- One port changed and cells of it released. -/
abbrev portThenCells (f : Port → Port) (cs : Port → List CellId) (s : State) (p : PortId) : State :=
  (s.modPort p f).releaseAll (cs (s.port p))

theorem portThenCells_spec (f : Port → Port) (cs : Port → List CellId) (s : State) (p : PortId) :
    { s with ports := (portThenCells f cs s p).ports, cells := (portThenCells f cs s p).cells,
             attempt := (portThenCells f cs s p).attempt } = portThenCells f cs s p
      ∧ (∀ k, (portThenCells f cs s p).port k = if k = p then f (s.port p) else s.port k)
      ∧ releases s (cs (s.port p)) (portThenCells f cs s p)
      ∧ Causes False s (portThenCells f cs s p) := by
  have hc : CellsOnly (s.modPort p f) (portThenCells f cs s p) := CellsOnly.releaseAll (s.modPort p f) (cs (s.port p))
  refine ⟨?_, fun k => ?_, ((s.modPort p f).releaseAll_spec _).congr rfl rfl id rfl id,
    ((s.modPort p f).releaseAll_causes _).rebase rfl rfl rfl rfl⟩
  · rw [← hc]
    rfl
  · rw [← port_modPort', ← hc]
    rfl

theorem PortsAndCells.foldl (f : Port → Port) (cs : Port → List CellId) (l : List PortId) (hl : l.Nodup) (s : State) :
    PortsAndCells f cs l s (l.foldl (portThenCells f cs) s) := by
  induction l generalizing s with
  | nil => exact ⟨rfl, fun k => by simp, ⟨[], by simp, rfl, id⟩, Causes.of_cells rfl (by simp)⟩
  | cons p rest ih =>
    obtain ⟨h1, h2, h3, h4⟩ := portThenCells_spec f cs s p
    have hp := (List.nodup_cons.mp hl)
    obtain ⟨r1, r2, ⟨l', r3, r4⟩, r5⟩ := ih hp.2 (portThenCells f cs s p)
    rw [List.foldl_cons]
    refine ⟨?_, fun k => ?_, ⟨cs (s.port p) ++ l', fun c => ?_, h3.append r4 (by rw [← h1])⟩, (h4.trans r5).congr (by simp)⟩
    · rw [← r1, ← h1]
    · rw [r2 k, h2 k]
      by_cases hk : k = p
      · subst hk
        simp [hp.1]
      · simp [hk]
    · rw [List.mem_append, r3]
      simp only [List.mem_cons, exists_eq_or_imp]
      refine or_congr Iff.rfl (exists_congr fun k => and_congr_right fun hk => ?_)
      rw [h2, if_neg (fun e : k = p => hp.1 (by rw [← e]; exact hk))]


theorem PortsAndCells.all {f : Port → Port} {cs : Port → List CellId} {s t : State} (h : PortsAndCells f cs allPorts s t)
    (k : PortId) : t.port k = f (s.port k) := by rw [h.port k, if_pos (mem_allPorts k)]

/-- R120: every LIVE fetch of the entry is WITHDRAWN. -/
theorem State.withdrawFetches_spec (s : State) (h : Handle) :
    PortsAndCells (fun q => { q with fetches := mapVec (withdrawSlot h) q.fetches })
      (fun q => q.liveCells fun y => decide (y.handle = h)) allPorts s (s.withdrawFetches h) :=
  PortsAndCells.foldl _ _ _ allPorts_nodup s

/-- R141: the outputs that satisfy a test are freed. -/
theorem State.freeOutputs_spec (s : State) (f : Output → Bool) :
    PortsAndCells (fun q => { q with outputs := q.outputs.filter (fun o => !f o) })
      (fun q => (q.outputs.filter f).map Output.cell) allPorts s (s.freeOutputs f) :=
  PortsAndCells.foldl _ _ _ allPorts_nodup s

/-- R120: the answer cells of the LIVE fetches of an entry, in the words of the statements. -/
theorem mem_liveCells_iff (s : State) (h : Handle) (c : CellId) :
    (∃ k ∈ allPorts, c ∈ (s.port k).liveCells fun y => decide (y.handle = h)) ↔ liveCell s h c := by
  simp only [mem_allPorts, true_and, liveCell, Port.liveCells, List.mem_filterMap]
  refine exists_congr fun q => ⟨?_, ?_⟩
  · rintro ⟨x, hx, hc⟩
    obtain ⟨i, hi, rfl⟩ := List.mem_iff_getElem.mp hx
    cases hf : (s.port q).fetches.toList[i] with
    | none => simp [hf] at hc
    | some f =>
      rw [hf] at hc
      by_cases hh : f.handle = h
      · refine ⟨⟨i, by simpa using hi⟩, f, ?_, hh, by simpa [hh] using hc⟩
        simpa using hf
      · simp [hh] at hc
  · rintro ⟨tag, f, hf, hh, hc⟩
    refine ⟨some f, ?_, by simp [hh, hc]⟩
    rw [← hf]
    simp

/-- R141: the cells of the queued outputs of an entry at some positions, in the words of the statements. -/
theorem mem_outputCells_iff (s : State) (h : Handle) (lost : Position → Bool) (f : Output → Bool)
    (hf : ∀ o, f o = true ↔ o.handle = h ∧ lost o.position = true) (c : CellId) :
    (∃ k ∈ allPorts, c ∈ ((s.port k).outputs.filter f).map Output.cell) ↔ queuedCell s h lost c := by
  simp only [mem_allPorts, true_and, queuedCell, List.mem_map, List.mem_filter, hf]
  refine exists_congr fun q => exists_congr fun o => ?_
  constructor
  · rintro ⟨⟨a, b, d⟩, e⟩
    exact ⟨a, b, d, e⟩
  · rintro ⟨a, b, d, e⟩
    exact ⟨⟨a, b, d⟩, e⟩

/-- R131: the cells in use by a pass, in the words of the statements. -/
theorem State.inUse_iff (s : State) (c : CellId) : s.inUse c = true ↔ s.readByPass c := by
  simp only [State.inUse, State.readByPass, List.any_eq_true]
  constructor
  · rintro ⟨x, hx, h⟩
    obtain ⟨i, hi, rfl⟩ := List.mem_iff_getElem.mp hx
    cases hl : s.lanes.toList[i] with
    | none => simp [hl] at h
    | some y =>
      refine ⟨⟨i, by simpa using hi⟩, y, by simpa [State.lane] using hl, ?_⟩
      rw [hl] at h
      cases hc : y.check with
      | none => simpa [hc] using h
      | some k =>
        rcases (by simpa [hc] using h : c ∈ y.sources ∨ k.1 = c) with h | h
        · exact .inl h
        · exact .inr ⟨k.2, by rw [← h]⟩
  · rintro ⟨l, x, hx, h⟩
    refine ⟨some x, ?_, ?_⟩
    · rw [← hx]
      simp [State.lane]
    · rcases h with h | ⟨row, h⟩
      · simp [h]
      · simp [h]

/-- R51: the cells an entry gives up with its plan, in the words of the statements. -/
theorem State.mem_planCells (s : State) (h : Handle) (c : CellId) : c ∈ s.planCells h ↔ planCell s h c := by
  simp only [State.planCells, planCell, List.mem_filter, State.cellsWhere, indicesWhere_eq, List.mem_finRange, true_and,
    ← State.inUse_iff, Bool.not_eq_true', Bool.not_eq_true]
  refine and_congr ?_ Iff.rfl
  change cellIs _ (s.cell c) = true ↔ _
  cases s.cell c with
  | none => simp [cellIs]
  | some x =>
    simp only [cellIs, Bool.and_eq_true, Bool.or_eq_true, decide_eq_true_eq, Option.some.injEq, exists_eq_left']
    refine and_congr Iff.rfl (or_congr Iff.rfl ?_)
    cases x.use <;> simp [CellUse.isSource]

theorem State.dropPlan_some {s : State} {h : Handle} {e : Entry} {pl : Plan} (he : s.entry? h = some e)
    (hp : e.plan = some pl) : s.dropPlan h =
      (((s.setEntry h { e with plan := none }).releaseBank pl.bank).causeAttempt).releaseAll
        ((((s.setEntry h { e with plan := none }).releaseBank pl.bank).causeAttempt).planCells h) := by
  simp only [State.dropPlan, he, hp]

theorem State.dropPlan_none {s : State} {h : Handle} {e : Entry} (he : s.entry? h = some e) (hp : e.plan = none) :
    s.dropPlan h = s := by
  simp only [State.dropPlan, he, hp]

theorem State.bank_releaseBank (s : State) (x : Option BankId) (b : BankId) :
    (s.releaseBank x).bank b = if x = some b then { s.bank b with refs := (s.bank b).refs - 1 } else s.bank b := by
  cases x with
  | none => simp [State.releaseBank]
  | some i =>
    have : (s.modBank i fun x => { x with refs := x.refs - 1 }).bank b =
        if b = i then { s.bank i with refs := (s.bank i).refs - 1 } else s.bank b := by
      simp only [State.modBank, State.bank_setBank]
    refine Eq.trans this ?_
    by_cases hi : b = i
    · subst hi
      simp
    · simp [hi, Ne.symm hi]

theorem State.rest_releaseBank (s : State) (x : Option BankId) :
    { s with banks := (s.releaseBank x).banks, attempt := (s.releaseBank x).attempt } = s.releaseBank x := by
  cases x <;> rfl

/-- R51: a plan is dropped. -/
structure PlanDropped (s t : State) (h : Handle) (e : Entry) : Prop where
  rest : { s with entries := t.entries, banks := t.banks, cells := t.cells, attempt := t.attempt } = t
  entries : t.entries = Table.put s.entries h { e with plan := none } ∨ t.entries = s.entries ∧ e.plan = none
  entry : ∀ k, t.entry? k = if k = h then some { e with plan := none } else s.entry? k
  bank : ∀ b, t.bank b = if e.plan.bind Plan.bank = some b then { s.bank b with refs := (s.bank b).refs - 1 } else s.bank b
  cells : ∃ l, (∀ c, c ∈ l ↔ e.plan ≠ none ∧ planCell s h c) ∧ releases (s.setEntry h { e with plan := none }) l t
  attempt : e.plan ≠ none ∨ s.attempt = true → t.attempt = true
  causes : Causes (e.plan ≠ none) s t

theorem State.dropPlan_spec {s : State} {h : Handle} {e : Entry} (he : s.entry? h = some e) :
    PlanDropped s (s.dropPlan h) h e := by
  cases hp : e.plan with
  | none =>
    rw [State.dropPlan_none he hp]
    refine ⟨rfl, .inr ⟨rfl, hp⟩, fun k => ?_, fun b => by simp [hp], ⟨[], fun c => by simp [hp], rfl, id⟩, fun x => ?_,
      Causes.of_cells rfl (by simp [hp])⟩
    · split
      · rename_i hk
        rw [hk, he, ← hp]
      · rfl
    · rcases x with x | x
      · exact absurd hp x
      · exact x
  | some pl =>
    rw [State.dropPlan_some he hp]
    have hr := State.rest_releaseBank (s.setEntry h { e with plan := none }) pl.bank
    have hb := State.bank_releaseBank (s.setEntry h { e with plan := none }) pl.bank
    generalize (s.setEntry h { e with plan := none }).releaseBank pl.bank = u at hr hb
    have hl : ∀ c, c ∈ u.causeAttempt.planCells h ↔ planCell s h c := fun c => by
      rw [State.mem_planCells, ← hr]
      exact Iff.rfl
    generalize u.causeAttempt.planCells h = l at hl
    have hc := CellsOnly.releaseAll u.causeAttempt l
    have hs := u.causeAttempt.releaseAll_spec l
    have ha := u.causeAttempt.releaseAll_attempt l rfl
    have hx := u.causeAttempt.releaseAll_causes l
    generalize u.causeAttempt.releaseAll l = t at hc hs ha hx
    have hb0 : Causes (e.plan ≠ none) s u.causeAttempt :=
      Causes.of_cells (by rw [← hr]; rfl) (by simp [hp, State.causeAttempt])
    refine ⟨?_, .inl ?_, fun k => ?_, fun b => ?_, ⟨l, fun c => by simp [hp, hl], ?_⟩, fun _ => ha,
      (hb0.trans hx).congr (by simp [hp])⟩
    · rw [← hc, ← hr]
      rfl
    · rw [← hc, ← hr]
      rfl
    · rw [← State.entry_setEntry, ← hc, ← hr]
      rfl
    · rw [← hc, hp]
      exact hb b
    · refine hs.congr ?_ ?_ (fun _ => rfl) rfl id
      · rw [← hr]
        rfl
      · rw [← hr]
        rfl

/-! ### Targets (R43, R44) -/

theorem zipIdx_filterMap {α β : Type} (f : α × Nat → Option β) (l : List α) (k : Nat) :
    (l.zipIdx k).filterMap f = (List.range l.length).filterMap fun j => l[j]?.bind fun a => f (a, j + k) := by
  induction l generalizing k with
  | nil => rfl
  | cons a rest ih =>
    rw [List.zipIdx_cons, List.length_cons, List.range_succ_eq_map]
    simp only [List.filterMap_cons, List.filterMap_map, ih]
    have : (fun j => rest[j]?.bind fun a => f (a, j + (k + 1))) =
        (fun j => (a :: rest)[j]?.bind fun a => f (a, j + k)) ∘ Nat.succ := by
      funext j
      simp [Nat.add_assoc, Nat.add_comm 1 k]
    rw [this]
    simp

/-- The targets of an entry, position by position. -/
theorem Entry.targets_eq (e : Entry) :
    e.targets = (List.range e.members.length).filterMap fun j => (e.target? j).map fun t => (j, t) := by
  unfold Entry.targets
  rw [zipIdx_filterMap]
  congr 1
  funext j
  unfold Entry.target?
  cases e.members[j]? with
  | none => rfl
  | some m =>
    cases hm : m.target with
    | none => simp [hm]
    | some t => by_cases hs : t.stored <;> simp [hm, hs]

/-- How many targets are bound for a node. -/
theorem Entry.countP_targets (e : Entry) (n : NodeId) :
    (e.targets.countP fun pt => decide (pt.2.dest = some n)) =
      (List.range e.members.length).countP fun j => decide ((e.target? j).bind Target.dest = some n) := by
  rw [e.targets_eq, List.countP_filterMap]
  congr 1
  funext j
  cases e.target? j <;> simp

theorem State.voidOwed_iff (s : State) (h : Handle) (pos : Position) (n : NodeId) (t : Target) :
    voidOwed s h pos n t ↔ (!t.coverage.isEmpty || s.deliveryTo h pos n) = true := by
  simp [voidOwed, State.deliveryTo]

/-- Two states in which a target's giving up of its node leaves the same void pending. -/
theorem voidsAfter_congr {s u : State} (hd : u.deliveries = s.deliveries) (hr : ∀ n, (u.node n).route = (s.node n).route)
    (h : Handle) (pos : Position) (n : NodeId) (t : Target) : voidsAfter u h pos n t = voidsAfter s h pos n t := by
  simp only [voidsAfter, voidOwed, hd, hr]

theorem closedIn_congr {s u : State} (hd : u.deliveries = s.deliveries) (hr : ∀ n, (u.node n).route = (s.node n).route)
    (h : Handle) (pos : Position) (m : Member) : Member.closedIn u h pos m = Member.closedIn s h pos m := by
  simp only [Member.closedIn, voidsAfter_congr hd hr]

theorem Entry.target?_some {e : Entry} {pos : Position} {t : Target} :
    e.target? pos = some t ↔ ∃ m, e.members[pos]? = some m ∧ m.target = some t ∧ t.stored = false := by
  unfold Entry.target?
  cases e.members[pos]? with
  | none => simp
  | some m =>
    cases hm : m.target with
    | none => simp [hm]
    | some x =>
      by_cases hs : x.stored
      · simp only [hm, hs, Option.some.injEq]
        constructor
        · simp
        · rintro ⟨m', rfl, h, hs'⟩
          rw [hm] at h
          obtain rfl := Option.some.inj h
          simp [hs] at hs'
      · simp only [hm, hs, Option.some.injEq]
        constructor
        · rintro h
          obtain rfl : x = t := by simpa using h
          exact ⟨m, rfl, hm, by simpa using hs⟩
        · rintro ⟨m', rfl, h, -⟩
          simpa [hm] using h

theorem getElem?_eq_of_modify_eq {α : Type} (l : List α) (i : Nat) (f : α → α) (h : ∀ a, l[i]? = some a → f a = a) :
    l.modify i f = l := by
  apply List.ext_getElem?
  intro j
  rw [List.getElem?_modify]
  split
  · rename_i hj
    subst hj
    cases hl : l[i]? with
    | none => rfl
    | some a => simp [h a hl]
  · simp

theorem modify_congr {α : Type} (l : List α) (i : Nat) (f g : α → α) (h : ∀ a, l[i]? = some a → f a = g a) :
    l.modify i f = l.modify i g := by
  apply List.ext_getElem?
  intro j
  rw [List.getElem?_modify, List.getElem?_modify]
  split
  · rename_i hj
    subst hj
    cases hl : l[i]? with
    | none => rfl
    | some a => simp [h a hl]
  · rfl

theorem closedIn_keeps (s : State) (h : Handle) (pos : Position) (m : Member)
    (hm : ∀ t, m.target = some t → t.stored = true ∨ t.dest = none) : Member.closedIn s h pos m = m := by
  obtain ⟨node, st, cause, strikes, target⟩ := m
  cases target with
  | none => rfl
  | some t => rcases hm t rfl with h | h <;> cases hd : t.dest <;> simp_all [Member.closedIn]

/-- R61 step 5: in the step from `s` to `t` the target at `pos` of the entry `e` at `h` has given up its node. -/
structure TargetReleased (s t : State) (h : Handle) (e : Entry) (pos : Position) : Prop where
  rest : { s with entries := t.entries, nodes := t.nodes, attempt := t.attempt } = t
  entry : ∀ k, t.entry? k =
    if k = h then some { e with members := e.members.modify pos (Member.closedIn s h pos) } else s.entry? k
  node : ∀ n, t.node n =
    { s.node n with load := (s.node n).load - if (e.target? pos).bind Target.dest = some n then 1 else 0 }
  attempt : t.attempt = true ↔ s.attempt = true ∨ (e.target? pos).bind Target.dest ≠ none

theorem TargetReleased.idle {s : State} {h : Handle} {e : Entry} (he : s.entry? h = some e) (pos : Position)
    (hx : ∀ m, e.members[pos]? = some m → Member.closedIn s h pos m = m) (hn : (e.target? pos).bind Target.dest = none) :
    TargetReleased s s h e pos where
  rest := rfl
  entry := fun k => by
    rw [getElem?_eq_of_modify_eq _ _ _ hx]
    split
    · rename_i hk
      rw [hk, he]
    · rfl
  node := fun n => by simp [hn]
  attempt := by simp [hn]

/-- R61 step 5 for one target. -/
theorem State.releaseTarget_spec {s : State} {h : Handle} {e : Entry} (he : s.entry? h = some e) (pos : Position) :
    TargetReleased s (releaseTarget h s pos) h e pos := by
  cases ht : e.target? pos with
  | none =>
    rw [show releaseTarget h s pos = s by simp only [releaseTarget, he, ht]]
    refine TargetReleased.idle he pos (fun m hm => ?_) (by simp [ht])
    refine closedIn_keeps _ _ _ _ fun t hmt => ?_
    by_cases hs : t.stored = true
    · exact .inl hs
    · exact absurd (Entry.target?_some.mpr ⟨m, hm, hmt, by simpa using hs⟩) (by simp [ht])
  | some t =>
    obtain ⟨m, hm, hmt, hs⟩ := Entry.target?_some.mp ht
    cases hd : t.dest with
    | none =>
      rw [show releaseTarget h s pos = s by simp only [releaseTarget, he, ht, hd]]
      refine TargetReleased.idle he pos (fun m' hm' => ?_) (by simp [ht, hd])
      obtain rfl : m = m' := Option.some.inj (hm.symm.trans hm')
      exact closedIn_keeps _ _ _ _ fun x hx => .inr (by rw [hmt] at hx; exact Option.some.inj hx ▸ hd)
    | some n =>
      have heq : releaseTarget h s pos = (s.setEntry h { e with members := e.members.modify pos (Member.closedIn s h pos) }).lowerLoad n := by
        simp only [releaseTarget, he, ht, hd, State.modTarget, State.modMember, State.modEntry]
        congr 3
        apply modify_congr
        intro a ha
        obtain rfl : m = a := Option.some.inj (hm.symm.trans ha)
        simp only [Member.closedIn, hmt, Option.map_some, hd, hs, Bool.false_eq_true, if_false, voidsAfter]
        congr 2
        have hv := s.voidOwed_iff h pos n t
        cases (s.node n).route with
        | none => rfl
        | some p =>
          simp only
          by_cases ho : voidOwed s h pos n t
          · rw [if_pos ho, if_pos (hv.mp ho)]
          · rw [if_neg ho, if_neg (fun x => ho (hv.mpr x))]
      rw [heq]
      refine ⟨rfl, fun k => (State.entry_setEntry ..), fun j => ?_, by simp [ht, hd, State.lowerLoad, State.causeAttempt]⟩
      have : ∀ j, ((s.setEntry h { e with members := e.members.modify pos (Member.closedIn s h pos) }).lowerLoad n).node j =
          if j = n then { s.node n with load := (s.node n).load - 1 } else s.node j := fun j => by
        simp only [State.lowerLoad, State.modNode, State.causeAttempt]
        exact State.node_setNode ..
      rw [this]
      by_cases hj : j = n
      · subst hj
        simp [ht, hd]
      · simp [ht, hd, hj, Ne.symm hj]

/-- R61 step 5: the targets of the entry `e` at `h` before position `i` have given up their nodes. -/
structure TargetsReleased (s t : State) (h : Handle) (e : Entry) (i : Nat) : Prop where
  rest : { s with entries := t.entries, nodes := t.nodes, attempt := t.attempt } = t
  entry : ∀ k, t.entry? k = if k = h then
      some { e with members := e.members.mapIdx fun j m => if j < i then Member.closedIn s h j m else m }
    else s.entry? k
  node : ∀ n, t.node n = { s.node n with
    load := (s.node n).load - (List.range i).countP fun j => decide ((e.target? j).bind Target.dest = some n) }
  attempt : t.attempt = true ↔ s.attempt = true ∨ ∃ j < i, (e.target? j).bind Target.dest ≠ none

theorem Entry.target?_congr {e f : Entry} {pos : Position} (h : e.members[pos]? = f.members[pos]?) :
    e.target? pos = f.target? pos := by
  simp only [Entry.target?, h]

theorem TargetsReleased.step {s t : State} {h : Handle} {e : Entry} {i : Nat} (k : TargetsReleased s t h e i) :
    TargetsReleased s (State.releaseTarget h t i) h e (i + 1) := by
  have he := k.entry h
  rw [if_pos rfl] at he
  have r := State.releaseTarget_spec he i
  have hroute : ∀ n, (t.node n).route = (s.node n).route := fun n => by rw [k.node n]
  have hdel : t.deliveries = s.deliveries := by rw [← k.rest]
  have ht : ({ e with members := e.members.mapIdx fun j m => if j < i then Member.closedIn s h j m else m } : Entry).target? i
      = e.target? i := by
    apply Entry.target?_congr
    simp only [List.getElem?_mapIdx]
    cases e.members[i]? <;> simp
  refine ⟨?_, fun j => ?_, fun n => ?_, ?_⟩
  · rw [← r.rest, ← k.rest]
  · rw [r.entry, k.entry]
    by_cases hj : j = h
    · simp only [hj, if_true, Option.some.injEq, Entry.mk.injEq, true_and, and_true]
      apply List.ext_getElem?
      intro a
      rw [List.getElem?_modify]
      simp only [List.getElem?_mapIdx, Option.map_eq_map, Option.map_map]
      by_cases ha : i = a
      · subst ha
        cases e.members[i]? <;> simp [closedIn_congr hdel hroute]
      · cases e.members[a]? with
        | none => simp
        | some m =>
          simp only [ha, if_false, Option.map_some, Function.comp]
          by_cases hlt : a < i
          · simp [hlt, Nat.lt_succ_of_lt hlt]
          · simp [hlt, show ¬a < i + 1 by omega]
    · simp [hj]
  · rw [r.node, k.node]
    rw [ht, List.range_succ, List.countP_append]
    by_cases hd : (e.target? i).bind Target.dest = some n <;> simp [hd, Nat.sub_sub]
  · rw [r.attempt, k.attempt, ht, or_assoc]
    refine or_congr Iff.rfl ⟨?_, fun ⟨j, hj, x⟩ => ?_⟩
    · rintro (⟨j, hj, x⟩ | x)
      · exact ⟨j, Nat.lt_succ_of_lt hj, x⟩
      · exact ⟨i, Nat.lt_succ_self i, x⟩
    · rcases Nat.lt_succ_iff_lt_or_eq.mp hj with y | rfl
      · exact .inl ⟨j, y, x⟩
      · exact .inr x

/-- R61 step 5 for every target. -/
theorem State.releaseTargets_spec {s : State} {h : Handle} {e : Entry} (he : s.entry? h = some e) :
    TargetsReleased s (s.releaseTargets h) h e e.members.length := by
  unfold State.releaseTargets
  rw [he]
  simp only
  suffices ∀ i, TargetsReleased s ((List.range i).foldl (State.releaseTarget h) s) h e i from this _
  intro i
  induction i with
  | zero =>
    refine ⟨rfl, fun k => ?_, fun n => by simp, by simp⟩
    simp only [List.range_zero, List.foldl_nil]
    split
    · rename_i hk
      rw [hk, he]
      simp only [Nat.not_lt_zero, if_false]
      have : (e.members.mapIdx fun _ m => m) = e.members := by
        apply List.ext_getElem?
        intro a
        simp
      rw [this]
    · rfl
  | succ i ih =>
    rw [List.range_succ, List.foldl_append, List.foldl_cons, List.foldl_nil]
    exact ih.step

/-! ### Closing (R61) -/

theorem mapVec_withdrawSlot (h : Handle) (v : Vector (Option Fetch) 32) (tag : FetchTag) :
    (mapVec (withdrawSlot h) v)[tag] = v[tag].map fun f => if f.handle = h then { f with cell := none } else f := by
  rw [mapVec_get]
  cases hv : v[tag] with
  | none => rfl
  | some f => by_cases hf : f.handle = h <;> simp [withdrawSlot, hf]

/-- The entry as the closing step writes it first. -/
def Entry.closing (e : Entry) (o : EntryOutcome) : Entry :=
  { e with state := .closed, wait := none, replan := false, outcome := some o, closedMarks := e.submitters }

/-- The first part of the closing step: the entry's own fields and the park. -/
def State.beginClose (s : State) (h : Handle) (e : Entry) (o : EntryOutcome) : State :=
  if s.park = some h then { s.setEntry h (e.closing o) with park := none } else s.setEntry h (e.closing o)

theorem State.closeEntry_eq {s : State} {h : Handle} {e : Entry} (he : s.entry? h = some e) (hc : e.state ≠ .closed)
    (o : EntryOutcome) : s.closeEntry h o =
      ((((((s.beginClose h e o).dropPlan h).withdrawFetches h).freeOutputs (fun x => decide (x.handle = h))).releaseTargets h).count
        o.counter).removeIfDone h := by
  simp only [State.closeEntry, he, hc, if_false]
  rfl

/-- R63: an entry that still owes a CLOSED notice stands. -/
theorem State.removeIfDone_owing {s : State} {h : Handle} {e : Entry} (he : s.entry? h = some e) (hm : e.closedMarks ≠ 0) :
    s.removeIfDone h = s := by
  have : s.mayRemove h e = false := by
    simp only [State.mayRemove]
    simp
    intro _ h
    exact absurd h hm
  simp only [State.removeIfDone, he, this, Bool.false_eq_true, if_false]

/-- R61: a close of an entry that has a submitter. -/
theorem State.closeEntry_spec {s : State} {h : Handle} {e : Entry} (he : s.entry? h = some e) (hc : e.state ≠ .closed)
    (hs : e.submitters ≠ 0) (o : EntryOutcome) : closes s (s.closeEntry h o) h e o := by
  rw [State.closeEntry_eq he hc]
  have b1 : ({ s with entries := Table.put s.entries h (e.closing o), park := if s.park = some h then none else s.park } : State)
      = s.beginClose h e o := by
    unfold State.beginClose
    split <;> rfl
  have b2 : ∀ k, (s.beginClose h e o).entry? k = if k = h then some (e.closing o) else s.entry? k := fun k => by
    rw [← State.entry_setEntry]
    unfold State.beginClose
    split <;> rfl
  generalize s.beginClose h e o = u1 at b1 b2
  have b3 : u1.entry? h = some (e.closing o) := by rw [b2, if_pos rfl]
  have d := State.dropPlan_spec b3
  generalize u1.dropPlan h = u2 at d
  have w := State.withdrawFetches_spec u2 h
  generalize u2.withdrawFetches h = u3 at w
  have f := State.freeOutputs_spec u3 (fun x => decide (x.handle = h))
  generalize u3.freeOutputs (fun x => decide (x.handle = h)) = u4 at f
  have e4 : u4.entry? h = some (e.outOfPlan o) := by
    rw [show u4.entry? h = u2.entry? h by rw [← f.rest, ← w.rest]; rfl, d.entry, if_pos rfl]
    rfl
  have r := State.releaseTargets_spec e4
  generalize u4.releaseTargets h = u5 at r
  have n5 : ∀ n, u4.node n = s.node n := fun n => by rw [← f.rest, ← w.rest, ← d.rest, ← b1]; rfl
  have v5 : u4.deliveries = s.deliveries := by rw [← f.rest, ← w.rest, ← d.rest, ← b1]
  have e5 : u5.entry? h = some (e.closedWith s h o) := by
    rw [r.entry, if_pos rfl, Option.some.injEq]
    simp only [Entry.closedWith, Entry.mk.injEq, true_and, and_true]
    apply List.ext_getElem?
    intro a
    simp only [List.getElem?_mapIdx]
    cases ha : e.members[a]? with
    | none => rw [show (e.outOfPlan o).members[a]? = none from ha]; rfl
    | some m =>
      have hl : a < (e.outOfPlan o).members.length := (List.getElem?_eq_some_iff.mp ha).1
      rw [show (e.outOfPlan o).members[a]? = some m from ha]
      simp [hl, closedIn_congr v5 (fun n => by rw [n5 n])]
  rw [State.removeIfDone_owing (e := e.closedWith s h o) (by exact e5) (by simpa [Entry.closedWith, Entry.outOfPlan] using hs)]
  have p2 : ∀ q, u2.port q = s.port q := fun q => by rw [← d.rest, ← b1]; rfl
  have c2 : planCell u1 h = planCell s h := by rw [← b1]; rfl
  have t2 : u4.entries = Table.put s.entries h (e.outOfPlan o) ∨ u4.entries = Table.put s.entries h (e.closing o) ∧ e.plan = none := by
    rw [show u4.entries = u2.entries by rw [← f.rest, ← w.rest]]
    rcases d.entries with x | ⟨x, y⟩
    · left
      rw [x, ← b1]
      exact Table.put_put ..
    · right
      exact ⟨by rw [x, ← b1], y⟩
  have s2 : ∀ v : State, v.entries = Table.put u1.entries h { e.closing o with plan := none } →
      v.entries = Table.put s.entries h (e.outOfPlan o) := fun v hv => by
    rw [hv, ← b1]
    exact Table.put_put ..
  have s3 : u2.entries = Table.put s.entries h (e.outOfPlan o) := by
    rcases d.entries with x | ⟨x, y⟩
    · exact s2 u2 x
    · rw [x, ← b1]
      show Table.put s.entries h (e.closing o) = _
      congr 1
      have y : e.plan = none := y
      simp only [Entry.closing, Entry.outOfPlan, y]
  refine ⟨e5, fun k hk => ?_, ?_, ?_, fun q tag => ?_, fun q => ?_, fun n => ?_, fun b => ?_, ?_, ?_, ?_⟩
  · have h5 : (u5.count o.counter).entry? k = u5.entry? k := rfl
    rw [h5, r.entry, if_neg hk, show u4.entry? k = u2.entry? k by rw [← f.rest, ← w.rest]; rfl, d.entry, if_neg hk, b2, if_neg hk]
  · rw [show (u5.count o.counter).park = u1.park by rw [← r.rest, ← f.rest, ← w.rest, ← d.rest]; rfl, ← b1]
  · have c5 : u5.counters = s.counters := by rw [← r.rest, ← f.rest, ← w.rest, ← d.rest, ← b1]
    simp only [State.count, c5]
  · rw [show (u5.count o.counter).port q = u4.port q by rw [← r.rest]; rfl, f.all, w.all, mapVec_withdrawSlot, p2]
  · rw [show (u5.count o.counter).port q = u4.port q by rw [← r.rest]; rfl, f.all, w.all, p2]
    simp
  · rw [show (u5.count o.counter).node n = u5.node n from rfl, r.node, n5, Entry.countP_targets]
    rfl
  · rw [show (u5.count o.counter).bank b = u2.bank b by rw [← r.rest, ← f.rest, ← w.rest]; rfl, d.bank]
    rw [show u1.bank b = s.bank b by rw [← b1]; rfl]
    rfl
  · obtain ⟨l1, m1, r1⟩ := d.cells
    obtain ⟨l2, m2, r2⟩ := w.cells
    obtain ⟨l3, m3, r3⟩ := f.cells
    have a1 : releases (s.setEntry h (e.outOfPlan o)) l1 u2 :=
      r1.congr (s2 _ rfl).symm (by rw [← b1]; rfl) (by rw [← b1]; exact id) rfl id
    have a2 := a1.append r2 s3
    have a3 := a2.append r3 (by rw [← w.rest]; exact s3)
    refine ⟨(l1 ++ l2) ++ l3, fun c => ?_, a3.congr rfl rfl id (by rw [← r.rest]; rfl) fun x => ?_⟩
    · rw [List.mem_append, List.mem_append, m1, m2, m3, mem_liveCells_iff,
        mem_outputCells_iff u3 h (fun _ => true) _ (by simp), c2, or_assoc]
      refine or_congr Iff.rfl (or_congr ?_ ?_)
      · unfold liveCell
        simp only [p2]
      · unfold queuedCell
        simp only [w.all, p2]
    · exact r.attempt.mpr (.inl x)
  · have k1 : Causes False s u1 := Causes.of_cells (by rw [← b1]) (by rw [← b1]; simp)
    have k5 : Causes (∃ j < e.members.length, (e.target? j).bind Target.dest ≠ none) u4 u5 :=
      Causes.of_cells (by rw [← r.rest]) r.attempt
    have k6 : Causes False u5 (u5.count o.counter) := Causes.of_cells rfl (by simp [State.count])
    rw [(((((k1.trans d.causes).trans w.causes).trans f.causes).trans k5).trans k6).1]
    have targets : (∃ pt ∈ e.targets, pt.2.dest ≠ none) ↔
        ∃ j < e.members.length, (e.target? j).bind Target.dest ≠ none := by
      simp only [e.targets_eq, List.mem_filterMap, List.mem_range, Option.map_eq_some_iff]
      constructor
      · rintro ⟨_, ⟨j, hj, t, ht, rfl⟩, hd⟩
        exact ⟨j, hj, by simpa [ht] using hd⟩
      · rintro ⟨j, hj, hd⟩
        cases ht : e.target? j with
        | none => simp [ht] at hd
        | some t => exact ⟨(j, t), ⟨j, hj, t, ht, rfl⟩, by simpa [ht] using hd⟩
    rw [targets]
    simp only [false_or, or_false, or_assoc]
    exact Iff.rfl
  · refine ⟨?_, ?_, ?_, ?_, ?_⟩ <;> (rw [← r.rest, ← f.rest, ← w.rest, ← d.rest, ← b1]; rfl)

/-! ### Removal (R63) -/

theorem State.passInFlight_eq_false (s : State) (h : Handle) :
    s.passInFlight h = false ↔ ∀ l x, s.lane l = some x → x.handle ≠ h := by
  simp only [State.passInFlight, List.any_eq_false]
  constructor
  · intro hl l x hx
    have := hl (some x) (by rw [← hx]; simp [State.lane])
    simpa using this
  · intro hl x hx
    obtain ⟨i, hi, rfl⟩ := List.mem_iff_getElem.mp hx
    have := hl ⟨i, by simpa using hi⟩
    simp only [State.lane, Fin.getElem_fin] at this
    simp only [Vector.getElem_toList]
    split
    · rename_i y hy
      simpa using this y hy
    · simp

theorem State.cellCount_eq_zero (s : State) (f : Cell → Bool) :
    s.cellCount f = 0 ↔ ∀ c x, s.cell c = some x → f x = false := by
  simp only [State.cellCount, countP_toList_eq, List.countP_eq_zero, List.mem_finRange, true_imp_iff]
  constructor
  · intro h c x hx
    have := h c
    rw [show s.cells[c] = some x from hx] at this
    simpa [cellIs] using this
  · intro h c
    cases hc : s.cells[c] with
    | none => simp [cellIs]
    | some x => simpa [cellIs] using h c x hc

theorem State.mayRemove_iff (s : State) (h : Handle) (e : Entry) : s.mayRemove h e = true ↔ owesNothing s h e := by
  simp only [State.mayRemove, owesNothing, Bool.and_eq_true, beq_iff_eq, List.all_eq_true, Bool.not_eq_true',
    State.passInFlight_eq_false, State.cellCount_eq_zero, decide_eq_false_iff_not, List.any_eq_false, decide_eq_true_eq,
    and_assoc]
  refine and_congr Iff.rfl (and_congr Iff.rfl (and_congr ?_ Iff.rfl))
  constructor
  · intro hm m hmem t ht
    have := hm m hmem
    rw [ht] at this
    simpa using this
  · intro hm m hmem
    cases ht : m.target with
    | none => rfl
    | some t => simp [hm m hmem t ht]

/-- R63: an entry is removed where it owes nothing. -/
theorem State.removeIfDone_spec {s : State} {h : Handle} {e : Entry} (hr : s.rising) (he : s.entry? h = some e) :
    staysUnlessDone s (s.removeIfDone h) h e ∧ onlyEntry s (s.removeIfDone h) h
      ∧ { s with entries := (s.removeIfDone h).entries, profiles := (s.removeIfDone h).profiles } = s.removeIfDone h := by
  have hset : ∀ f, (({ s with entries := Table.erase s.entries h } : State).modProfile e.profile f).entry? = (fun k => Table.find (Table.erase s.entries h) k) := fun f => rfl
  by_cases hm : s.mayRemove h e = true
  · have heq : s.removeIfDone h = ({ s with entries := Table.erase s.entries h } : State).modProfile e.profile
        fun x => { x with users := x.users - 1 } := by
      simp only [State.removeIfDone, he, hm, if_true]
    have ho := (s.mayRemove_iff h e).mp hm
    rw [heq]
    refine ⟨⟨fun _ => ⟨?_, fun i => ?_⟩, fun hn => absurd ho hn⟩, fun k hk => ?_, rfl⟩
    · rw [hset]
      exact (Table.find_erase _ _ _ hr).trans (if_pos rfl)
    · have : ∀ (u : State) f, (u.modProfile e.profile f).profile i = if i = e.profile then f (u.profile e.profile) else u.profile i :=
        fun u f => by simp only [State.modProfile, State.profile_setProfile]
      rw [this]
      by_cases hi : i = e.profile
      · rw [if_pos hi, if_pos hi, hi]
        rfl
      · rw [if_neg hi, if_neg hi]
        rfl
    · rw [hset]
      exact (Table.find_erase _ _ _ hr).trans (if_neg hk)
  · have heq : s.removeIfDone h = s := by simp only [State.removeIfDone, he, hm, Bool.false_eq_true, if_false]
    rw [heq]
    exact ⟨⟨fun ho => absurd ((s.mayRemove_iff h e).mpr ho) hm, fun _ => ⟨he, rfl⟩⟩, fun _ _ => rfl, rfl⟩

/-! ### Triggers and losses (R52, R55) -/

/-- R55: a trigger. -/
theorem State.trigger_spec {s : State} {h : Handle} {e : Entry} (he : s.entry? h = some e) :
    takesTrigger s (s.trigger h) h e := by
  have idle (ht : s.trigger h = s) (hf : e.triggered (s.park == some h) = e) (hh : ¬e.heeds (s.park == some h)) :
      takesTrigger s (s.trigger h) h e := by
    rw [ht]
    exact ⟨by rw [hf, he], fun _ _ => rfl, by simp [hh], fun _ => ⟨rfl, rfl⟩, rfl⟩
  have sets (f : Entry) (ht : s.trigger h = (s.setEntry h f).causeAttempt) (hf : e.triggered (s.park == some h) = f)
      (hh : e.heeds (s.park == some h)) : takesTrigger s (s.trigger h) h e := by
    rw [ht]
    exact ⟨by rw [hf]; exact (State.entry_setEntry ..).trans (if_pos rfl),
      fun k hk => (State.entry_setEntry ..).trans (if_neg hk), ⟨fun _ => .inr hh, fun _ => rfl⟩, fun _ => ⟨rfl, rfl⟩, rfl⟩
  have works (hs : e.state = .planning ∨ e.state = .active) : takesTrigger s (s.trigger h) h e := by
    by_cases hp : s.park = some h
    · refine idle ?_ ?_ ?_ <;> rcases hs with hs | hs <;> simp [State.trigger, Entry.triggered, Entry.heeds, he, hs, hp]
    · have hb : (s.park == some h) = false := by simpa using hp
      refine sets { e with state := .planning, replan := true } ?_ ?_ ?_ <;> rcases hs with hs | hs <;>
        simp [State.trigger, Entry.triggered, Entry.heeds, he, hs, hp, hb]
  have sleeps (hs : e.state = .queued ∨ e.state = .draining ∨ e.state = .closed) : takesTrigger s (s.trigger h) h e := by
    refine idle ?_ ?_ ?_ <;> rcases hs with hs | hs | hs <;> simp [State.trigger, Entry.triggered, Entry.heeds, he, hs]
  cases hs : e.state with
  | queued => exact sleeps (.inl hs)
  | draining => exact sleeps (.inr (.inl hs))
  | closed => exact sleeps (.inr (.inr hs))
  | settling =>
    exact sets { e with state := .queued, wait := some .noSlot, replan := false }
      (by simp only [State.trigger, he, hs, State.enterQueued, State.modEntry_eq he]) (by simp only [Entry.triggered, hs])
      (.inl hs)
  | planning => exact works (.inl hs)
  | active => exact works (.inr hs)

/-- What follows a change of an entry does not look at the entry as it was. -/
theorem takesTrigger.rebase {u t : State} {h : Handle} {e f : Entry} (k : takesTrigger (u.setEntry h f) t h e) :
    takesTrigger u t h e :=
  ⟨k.record, fun j hj => (k.others j hj).trans ((State.entry_setEntry ..).trans (if_neg hj)), k.attempt, k.tables, k.rest⟩

/-- R18, R52: the class that the margin gives. -/
theorem urgencyOf_eq (m lost : Nat) : urgencyOf m lost = classFor m lost := by
  unfold urgencyOf classFor marginOf
  by_cases h : m ≤ lost
  · rw [if_pos h, if_pos (by omega)]
  · rw [if_neg h, if_neg (by omega)]
    by_cases k : m = lost + 1
    · rw [if_pos k, if_pos (by omega)]
    · rw [if_neg k, if_neg (by omega)]

/-- A trigger finds nothing to do on a CLOSED entry. -/
theorem State.trigger_closed {s : State} {h : Handle} {e : Entry} (he : s.entry? h = some e) (hc : e.state = .closed) :
    s.trigger h = s := by
  simp only [State.trigger, he, hc]

/-- R52, R55: a lost count from 1 to m gives the entry its class and a trigger. -/
theorem State.afterLoss_lives {s : State} {h : Handle} {e : Entry} (he : s.entry? h = some e) (hc : e.state ≠ .closed)
    (h0 : 0 < e.lostCount) (hm : e.lostCount ≤ (s.code e.profile).m) :
    takesTrigger s (s.afterLoss h) h { e with urgency := classFor (s.code e.profile).m e.lostCount } := by
  have hr : s.reckon h = s.setEntry h { e with urgency := classFor (s.code e.profile).m e.lostCount } := by
    simp only [State.reckon, he, hc, if_false, show ¬(s.code e.profile).m < e.lostCount by omega,
      show ¬e.lostCount = 0 by omega, urgencyOf_eq]
  unfold State.afterLoss
  rw [hr]
  exact (State.trigger_spec ((State.entry_setEntry ..).trans (if_pos rfl))).rebase

/-- R52: a lost count above m closes the entry UNRECOVERABLE. -/
theorem State.afterLoss_closes {s : State} {h : Handle} {e : Entry} (he : s.entry? h = some e) (hc : e.state ≠ .closed)
    (hs : e.submitters ≠ 0) (hm : (s.code e.profile).m < e.lostCount) :
    closes s (s.afterLoss h) h e (.failed .unrecoverable) := by
  have hr : s.reckon h = s.closeEntry h (.failed .unrecoverable) := by
    simp only [State.reckon, he, hc, if_false, hm, if_true]
  have c := State.closeEntry_spec he hc hs (.failed .unrecoverable)
  have : s.afterLoss h = s.closeEntry h (.failed .unrecoverable) := by
    unfold State.afterLoss
    rw [hr]
    exact State.trigger_closed c.record rfl
  rwa [this]

/-- R52, R54: a lost count of 0 closes the entry DONE. -/
theorem State.reckon_done {s : State} {h : Handle} {e : Entry} (he : s.entry? h = some e) (hc : e.state ≠ .closed)
    (hs : e.submitters ≠ 0) (h0 : e.lostCount = 0) : closes s (s.reckon h) h e .done := by
  have hr : s.reckon h = s.closeEntry h .done := by
    simp only [State.reckon, he, hc, if_false, h0, Nat.not_lt_zero, if_true]
  rw [hr]
  exact State.closeEntry_spec he hc hs .done

/-! ### Settling (R53) -/

/-- R53: an ACTIVE entry with every target covered and no pass in flight enters SETTLING without its plan. -/
theorem State.settleIfDone_settles {s : State} {h : Handle} {e : Entry} (he : s.entry? h = some e) (hs : e.state = .active)
    (hc : e.allCovered = true) (hp : ∀ l x, s.lane l = some x → x.handle ≠ h) :
    givesUpPlan s (s.settleIfDone h) h e { e with state := .settling, plan := none }
      ∧ { s with entries := (s.settleIfDone h).entries, banks := (s.settleIfDone h).banks, cells := (s.settleIfDone h).cells,
                 attempt := (s.settleIfDone h).attempt } = s.settleIfDone h := by
  have heq : s.settleIfDone h = (s.setEntry h { e with state := .settling }).dropPlan h := by
    simp only [State.settleIfDone, he, hs, hc, (s.passInFlight_eq_false h).mpr hp, and_self, if_true]
  have self : (s.setEntry h { e with state := .settling }).entry? h = some { e with state := .settling } :=
    (State.entry_setEntry ..).trans (if_pos rfl)
  have d := State.dropPlan_spec self
  rw [heq]
  generalize (s.setEntry h { e with state := .settling }).dropPlan h = t at d
  obtain ⟨l, m, r⟩ := d.cells
  refine ⟨⟨by rw [d.entry, if_pos rfl], fun k hk => ?_, d.bank, ⟨l, m, ?_⟩, fun x => d.attempt (.inl x)⟩, ?_⟩
  · rw [d.entry, if_neg hk]
    exact (State.entry_setEntry ..).trans (if_neg hk)
  · exact r.congr (Table.put_put ..).symm rfl id rfl id
  · rw [← d.rest]
    rfl

theorem State.settleIfDone_stays {s : State} {h : Handle} {e : Entry} (he : s.entry? h = some e)
    (hn : ¬(e.state = .active ∧ e.allCovered = true ∧ ∀ l x, s.lane l = some x → x.handle ≠ h)) : s.settleIfDone h = s := by
  simp only [State.settleIfDone, he, State.passInFlight_eq_false, hn, if_false]

/-! ### Destination loss (R146, R59) -/

theorem modify_eq_set {α : Type} {l : List α} {i : Nat} {a : α} (h : l[i]? = some a) (f : α → α) :
    l.modify i f = l.set i (f a) := by
  have hi := (List.getElem?_eq_some_iff.mp h).1
  apply List.ext_getElem?
  intro j
  rw [List.getElem?_modify, List.getElem?_set]
  by_cases hj : i = j
  · subst hj
    rw [h]
    simp [hi]
  · simp [hj]

/-- R146 step 1: the outputs of a position are freed, in the words of `lossState`. -/
theorem mapVec_filter_position (h : Handle) (pos : Position) (v : Vector Port 4) :
    mapVec (fun (q : Port) => { q with outputs := q.outputs.filter fun o => !decide (o.handle = h ∧ o.position = pos) }) v
      = mapVec (fun (q : Port) => { q with outputs := q.outputs.filter fun o => !(decide (o.handle = h) && (o.position == pos)) }) v := by
  congr 1
  funext q
  congr 2
  funext o
  rw [Bool.decide_and]
  rfl

/-- R146 steps 1 to 5: a target that a refusal, a failed store or an expiry takes its destination from. -/
theorem State.dropDestination_spec {s : State} {h : Handle} {e : Entry} {m : Member} {t : Target} {pos : Position}
    {n : NodeId} (he : s.entry? h = some e) (hm : e.members[pos]? = some m) (hmt : m.target = some t)
    (hst : t.stored = false) (hd : t.dest = some n) :
    ∃ v, afterRelease (lossState s h (· == pos) n 1) v (queuedCell s h (· == pos))
      ∧ s.dropDestination true h pos =
          v.setEntry h { e with members := e.members.set pos { m with target := some (t.unbound s h pos n) } } := by
  have ht : e.target? pos = some t := Entry.target?_some.mpr ⟨m, hm, hmt, hst⟩
  have hv : (match (s.node n).route with
      | some p => if (!t.coverage.isEmpty || s.deliveryTo h pos n) = true then insertVoid (n, p) t.voids else t.voids
      | none => t.voids) = voidsAfter s h pos n t := by
    have hv := s.voidOwed_iff h pos n t
    simp only [voidsAfter]
    cases (s.node n).route with
    | none => rfl
    | some p =>
      simp only
      by_cases ho : voidOwed s h pos n t
      · rw [if_pos ho, if_pos (hv.mp ho)]
      · rw [if_neg ho, if_neg (fun x => ho (hv.mpr x))]
  have f := State.freeOutputs_spec s (fun x => decide (x.handle = h ∧ x.position = pos))
  have heq : s.dropDestination true h pos =
      (({ (s.freeOutputs (fun x => decide (x.handle = h ∧ x.position = pos))) with
          deliveries := (s.freeOutputs (fun x => decide (x.handle = h ∧ x.position = pos))).deliveries.map fun (d : Delivery) =>
            if d.output.handle = h ∧ d.output.position = pos then { d with owned := false } else d } : State).modTarget h pos
        fun x => { x with dest := none, coverage := [], voids := voidsAfter s h pos n t }).lowerLoad n := by
    simp only [State.dropDestination, he, ht, hd, Bool.true_and]
    rw [← hv] <;> rfl
  generalize s.freeOutputs (fun x => decide (x.handle = h ∧ x.position = pos)) = u at f heq
  have ue : u.entry? = s.entry? := by rw [← f.rest]; rfl
  have hmem : e.members.modify pos (fun (m : Member) => { m with
      target := m.target.map (fun (x : Target) => { x with dest := none, coverage := [], voids := voidsAfter s h pos n t }) })
      = e.members.set pos { m with target := some (t.unbound s h pos n) } := by
    rw [modify_eq_set hm, hmt]
    rfl
  have heq' : s.dropDestination true h pos =
      (({ u with deliveries := u.deliveries.map fun (d : Delivery) =>
            if d.output.handle = h ∧ d.output.position = pos then { d with owned := false } else d } : State).setEntry h
        { e with members := e.members.set pos { m with target := some (t.unbound s h pos n) } }).lowerLoad n := by
    rw [heq, State.modTarget, State.modMember, State.modEntry_eq (e := e) (by rw [← he, ← ue]; rfl), hmem]
  have hports : u.ports = mapVec (fun (q : Port) => { q with
      outputs := q.outputs.filter fun o => !(decide (o.handle = h) && (o.position == pos)) }) s.ports := by
    rw [← mapVec_filter_position]
    apply Vector.ext
    intro i hi
    have := f.all ⟨i, hi⟩
    refine this.trans ?_
    simp [mapVec, State.port]
  obtain ⟨l, hl, hr⟩ := f.cells
  refine ⟨{ lossState s h (· == pos) n 1 with cells := u.cells, attempt := true },
    ⟨rfl, ⟨l, fun c => ?_, hr.raised.congr rfl rfl (fun _ => rfl) rfl id⟩, by simp [lossState]⟩, ?_⟩
  · rw [hl, mem_outputCells_iff s h (· == pos) _ (by simp)]
  · rw [heq']
    rw [← f.rest] at hports ⊢
    simp only [State.lowerLoad, State.modNode, State.causeAttempt, State.setEntry, State.setNode, State.node, lossState, beq_iff_eq]
    rw [← hports]

/-- R59, R146: what follows a change of an entry that raises a trigger and may end its draining. -/
theorem State.triggerThenDrain_spec {u : State} {h : Handle} {e : Entry} (he : u.entry? h = some e)
    (hs : e.submitters ≠ 0) : passesOn u ((u.trigger h).closeIfDrained h) h e := by
  have tr := State.trigger_spec he
  by_cases hd : e.state = .draining
  · have ht : u.trigger h = u := by simp only [State.trigger, he, hd]
    rw [ht] at tr
    have hb : u.busyWith h ↔ ¬(u.passInFlight h = false ∧ u.outputsRemain h = false) := by
      have hl : (u.lanes.toList.any fun x => decide (x.map Pass.handle = some h)) = u.passInFlight h := by
        unfold State.passInFlight
        congr 1
        funext x
        cases x <;> simp
      rw [State.busyWith_iff, hl, Bool.or_assoc]
      change (u.passInFlight h || u.outputsRemain h) = true ↔ _
      cases u.passInFlight h <;> cases u.outputsRemain h <;> simp
    rw [ht]
    by_cases hbusy : u.busyWith h
    · have hc : u.closeIfDrained h = u := by
        simp only [State.closeIfDrained, he, hd, true_and, hb.mp hbusy, if_false]
      rw [hc]
      exact ⟨fun _ _ => rfl, fun _ => tr, fun _ hn => absurd hbusy hn⟩
    · have hn := Classical.not_not.mp (fun x => hbusy (hb.mpr x))
      have hc : u.closeIfDrained h = u.closeEntry h (.failed .cancelled) := by
        simp only [State.closeIfDrained, he, hd, hn, and_self, if_true]
      rw [hc]
      have c := State.closeEntry_spec he (by rw [hd]; decide) hs (.failed .cancelled)
      exact ⟨c.others, fun ho => ho.elim (fun x => absurd hd x) (fun x => absurd x hbusy), fun _ _ => c⟩
  · have hc : (u.trigger h).closeIfDrained h = u.trigger h := by
      have : (e.triggered (u.park == some h)).state ≠ .draining := by
        cases hs : e.state <;> simp [Entry.triggered, hs] <;> first | exact absurd hs hd | (split <;> simp [hs])
      simp only [State.closeIfDrained, tr.record, this, false_and, if_false]
    rw [hc]
    exact ⟨tr.others, fun _ => tr, fun x => absurd x hd⟩

theorem passesOn.rebase {u t : State} {h : Handle} {e : Entry} (k : passesOn (u.setEntry h e) t h e) : passesOn u t h e := by
  refine ⟨fun j hj => (k.others j hj).trans ?_, fun hs => (k.stands hs).rebase, fun hd hb => ?_⟩
  · exact (State.entry_setEntry ..).trans (if_neg hj)
  · have c := k.drained hd hb
    obtain ⟨l, m, r⟩ := c.cells
    refine ⟨?_, fun j hj => (c.others j hj).trans ?_, c.park, c.counters, c.fetches, c.outputs, c.loads, c.banks,
      ⟨l, m, ?_⟩, c.attempt, c.rest⟩
    · exact c.record
    · exact (State.entry_setEntry ..).trans (if_neg hj)
    · exact r.congr (Table.put_put ..).symm rfl id rfl id

/-- R146, R55, R59: a destination loss outside a sweep. -/
theorem State.loseDestination_spec {s : State} {h : Handle} {e : Entry} {m : Member} {t : Target} {pos : Position}
    {n : NodeId} (he : s.entry? h = some e) (hs : e.submitters ≠ 0) (hm : e.members[pos]? = some m)
    (hmt : m.target = some t) (hst : t.stored = false) (hd : t.dest = some n) :
    ∃ v, afterRelease (lossState s h (· == pos) n 1) v (queuedCell s h (· == pos))
      ∧ passesOn v (s.loseDestination true h pos) h
          { e with members := e.members.set pos { m with target := some (t.unbound s h pos n) } } := by
  obtain ⟨v, d1, d2⟩ := State.dropDestination_spec he hm hmt hst hd
  refine ⟨v, d1, passesOn.rebase ?_⟩
  unfold State.loseDestination
  rw [d2]
  exact State.triggerThenDrain_spec ((State.entry_setEntry ..).trans (if_pos rfl)) hs

/-- R119: a strike that is not the third is counted and changes nothing else. -/
theorem State.strike_counts {s : State} {h : Handle} {e : Entry} {m : Member} {pos : Position} (he : s.entry? h = some e)
    (hm : e.members[pos]? = some m) (hn : m.strikes + 1 < 3) (cause : LostCause) :
    s.strike h pos cause = s.setEntry h { e with members := e.members.set pos { m with strikes := m.strikes + 1 } } := by
  simp only [State.strike, he, Option.bind_some, hm, hn, if_true, State.modMember, State.modEntry_eq he, modify_eq_set hm]

/-- R119, R42: the third strike loses the member, and R52 and R55 follow. -/
theorem State.strike_loses {s : State} {h : Handle} {e : Entry} {m : Member} {pos : Position} (he : s.entry? h = some e)
    (hm : e.members[pos]? = some m) (hn : ¬m.strikes + 1 < 3) (cause : LostCause) :
    s.strike h pos cause =
      (s.setEntry h { e with members := e.members.set pos (Member.lose cause { m with strikes := 3 }) }).afterLoss h := by
  simp only [State.strike, he, Option.bind_some, hm, hn, if_false, State.modMember, State.modEntry_eq he, modify_eq_set hm]

end Sys2Proof.Machine
end

