-- ==== Sys2Proof/Laws/Queue.lean ====
section
/-! SUPPORT. Queue order is an order within one era of sequences, and the sorted lists and the first of a list follow it (R41, R67). -/

namespace Sys2Proof.Machine

open Sys2Proof.Config

/-- The sequences of the entries of a list lie within half the counter's range from `first`. -/
def inEra (first : U32) (l : List (Handle × Entry)) : Prop := ∀ he ∈ l, (he.2.sequence - first).toNat < 2 ^ 31

/-- One of two triples of numbers stands before the other: by the first, then the second, then the third. -/
def lexBefore (r x h r' x' h' : Nat) : Prop := r < r' ∨ r = r' ∧ (x < x' ∨ x = x' ∧ h < h')

/-- Within one era the serial comparison is that of the distances from its beginning. -/
theorem comesFirst_of_era {first : U32} {a b : Handle × Entry} (ha : (a.2.sequence - first).toNat < 2 ^ 31)
    (hb : (b.2.sequence - first).toNat < 2 ^ 31) :
    comesFirst a b ↔ lexBefore a.2.urgency.rank (a.2.sequence - first).toNat a.1
      b.2.urgency.rank (b.2.sequence - first).toNat b.1 := by
  have hu : a.2.urgency = b.2.urgency ↔ a.2.urgency.rank = b.2.urgency.rank := by
    cases a.2.urgency <;> cases b.2.urgency <;> simp [Urgency.rank]
  unfold comesFirst lexBefore
  simp only [hu]
  refine or_congr Iff.rfl (and_congr Iff.rfl ?_)
  have hd : b.2.sequence - a.2.sequence = (b.2.sequence - first) - (a.2.sequence - first) := by ring
  rw [hd, BitVec.toNat_sub]
  generalize (a.2.sequence - first).toNat = x at *
  generalize (b.2.sequence - first).toNat = y at *
  have serial : ∀ m n : Nat, (if (2 ^ 32 - x + y) % 2 ^ 32 = 0 ∨ (2 ^ 32 - x + y) % 2 ^ 32 = 2 ^ 31 then m < n
      else (2 ^ 32 - x + y) % 2 ^ 32 < 2 ^ 31) ↔ x < y ∨ x = y ∧ m < n := fun m n => by split <;> omega
  exact serial a.1 b.1

theorem comesFirst_trans {first : U32} {a b c : Handle × Entry} (ha : (a.2.sequence - first).toNat < 2 ^ 31)
    (hb : (b.2.sequence - first).toNat < 2 ^ 31) (hc : (c.2.sequence - first).toNat < 2 ^ 31) (h : comesFirst a b)
    (k : comesFirst b c) : comesFirst a c := by
  rw [comesFirst_of_era ha hb] at h
  rw [comesFirst_of_era hb hc] at k
  rw [comesFirst_of_era ha hc]
  unfold lexBefore at *
  have lex : ∀ r x h r' x' h' r'' x'' h'' : Nat, r < r' ∨ r = r' ∧ (x < x' ∨ x = x' ∧ h < h') →
      r' < r'' ∨ r' = r'' ∧ (x' < x'' ∨ x' = x'' ∧ h' < h'') → r < r'' ∨ r = r'' ∧ (x < x'' ∨ x = x'' ∧ h < h'') := by
    intros
    omega
  exact lex _ _ _ _ _ _ _ _ _ h k

theorem comesFirst_total {first : U32} {a b : Handle × Entry} (ha : (a.2.sequence - first).toNat < 2 ^ 31)
    (hb : (b.2.sequence - first).toNat < 2 ^ 31) (hne : a.1 ≠ b.1) : comesFirst a b ∨ comesFirst b a := by
  rw [comesFirst_of_era ha hb, comesFirst_of_era hb ha]
  have lex : ∀ r x h r' x' h' : Nat, h ≠ h' → lexBefore r x h r' x' h' ∨ lexBefore r' x' h' r x h := by
    unfold lexBefore
    intros
    omega
  exact lex _ _ _ _ _ _ hne

theorem mem_insertByUrgency {x y : Handle × Entry} {l : List (Handle × Entry)} :
    y ∈ insertByUrgency x l ↔ y = x ∨ y ∈ l := by
  induction l with
  | nil => simp [insertByUrgency]
  | cons z rest ih =>
    simp only [insertByUrgency]
    split
    · simp only [List.mem_cons, ih]
      tauto
    · simp

theorem mem_queueOrder {y : Handle × Entry} {l : List (Handle × Entry)} : y ∈ queueOrder l ↔ y ∈ l := by
  induction l with
  | nil => simp [queueOrder]
  | cons x rest ih => simp only [queueOrder, mem_insertByUrgency, ih, List.mem_cons]

theorem insertByUrgency_sorted {first : U32} {x : Handle × Entry} {l : List (Handle × Entry)} (hx : ∀ y ∈ l, y.1 ≠ x.1)
    (hex : (x.2.sequence - first).toNat < 2 ^ 31) (he : inEra first l) (h : l.Pairwise comesFirst) :
    (insertByUrgency x l).Pairwise comesFirst := by
  induction l with
  | nil => simp [insertByUrgency]
  | cons z rest ih =>
    obtain ⟨h1, h2⟩ := List.pairwise_cons.mp h
    have hz := he z (by simp)
    simp only [insertByUrgency]
    split
    · rename_i hc
      refine List.pairwise_cons.mpr ⟨fun y hy => ?_, ih (fun y hy => hx y (by simp [hy])) (fun y hy => he y (by simp [hy])) h2⟩
      rcases mem_insertByUrgency.mp hy with rfl | hy
      · exact (moreUrgent_iff _ _).mp hc
      · exact h1 y hy
    · rename_i hc
      have hxz : comesFirst x z :=
        (comesFirst_total hex hz (hx z (by simp)).symm).resolve_right fun k => hc ((moreUrgent_iff _ _).mpr k)
      refine List.pairwise_cons.mpr ⟨fun y hy => ?_, h⟩
      rcases List.mem_cons.mp hy with rfl | hy
      · exact hxz
      · exact comesFirst_trans hex hz (he y (by simp [hy])) hxz (h1 y hy)

/-- R67: the sorted list is in queue order. -/
theorem queueOrder_sorted {first : U32} {l : List (Handle × Entry)} (he : inEra first l)
    (hr : l.Pairwise fun a b => a.1 < b.1) : (queueOrder l).Pairwise comesFirst := by
  induction l with
  | nil => simp [queueOrder]
  | cons x rest ih =>
    obtain ⟨h1, h2⟩ := List.pairwise_cons.mp hr
    simp only [queueOrder]
    exact insertByUrgency_sorted (first := first) (fun y hy => Nat.ne_of_gt (h1 y (mem_queueOrder.mp hy))) (he x (by simp))
      (fun y hy => he y (by simp [mem_queueOrder.mp hy])) (ih (fun y hy => he y (by simp [hy])) h2)

/-- The first found of a list comes before the others. -/
theorem mostUrgent_first {first : U32} {l : List (Handle × Entry)} (he : inEra first l)
    (hr : l.Pairwise fun a b => a.1 < b.1) {x : Handle × Entry} (h : mostUrgent l = some x) :
    x ∈ l ∧ ∀ y ∈ l, y = x ∨ comesFirst x y := by
  refine ⟨mostUrgent_mem h, ?_⟩
  induction l generalizing x with
  | nil => simp
  | cons z rest ih =>
    obtain ⟨h1, h2⟩ := List.pairwise_cons.mp hr
    have hz := he z (by simp)
    have hrest : inEra first rest := fun y hy => he y (by simp [hy])
    simp only [mostUrgent] at h
    cases hm : mostUrgent rest with
    | none =>
      rw [hm] at h
      obtain rfl := mostUrgent_eq_none.mp hm
      simp_all
    | some w =>
      rw [hm] at h
      have hw := mostUrgent_mem hm
      have hall := ih hrest h2 hm
      have hwe := hrest w hw
      simp only at h
      split at h
      · rename_i hc
        obtain rfl := Option.some.inj h
        intro y hy
        rcases List.mem_cons.mp hy with rfl | hy
        · exact .inr ((moreUrgent_iff _ _).mp hc)
        · exact hall y hy
      · rename_i hc
        obtain rfl := Option.some.inj h
        have hzw : comesFirst z w :=
          (comesFirst_total hz hwe (Nat.ne_of_lt (h1 w hw))).resolve_right fun k => hc ((moreUrgent_iff _ _).mpr k)
        intro y hy
        rcases List.mem_cons.mp hy with rfl | hy
        · exact .inl rfl
        · rcases hall y hy with rfl | hc'
          · exact .inr hzw
          · exact .inr (comesFirst_trans hz hwe (hrest y hy) hzw hc')

/-- The entries of a table in order are found at their handles. -/
theorem State.entry_of_mem {s : State} (hr : s.rising) {h : Handle} {e : Entry} (hm : (h, e) ∈ s.entries) : s.entry? h = some e := by
  unfold State.entry?
  unfold State.rising at hr
  generalize s.entries = l at hm hr
  induction l with
  | nil => simp at hm
  | cons x rest ih =>
    obtain ⟨h1, h2⟩ := List.pairwise_cons.mp hr
    rcases List.mem_cons.mp hm with rfl | hm
    · simp [Table.find]
    · have := h1 _ hm
      simp only [Table.find, if_neg (Nat.ne_of_lt this)]
      exact ih hm h2

theorem Table.mem_of_find {α : Type} {t : Table α} {k : Nat} {x : α} (h : Table.find t k = some x) : (k, x) ∈ t := by
  induction t with
  | nil => simp [Table.find] at h
  | cons a rest ih =>
    obtain ⟨i, y⟩ := a
    simp only [Table.find] at h
    split at h
    · simp_all
    · exact List.mem_cons_of_mem _ (ih h)

theorem State.mem_of_entry {s : State} {h : Handle} {e : Entry} (he : s.entry? h = some e) : (h, e) ∈ s.entries :=
  Table.mem_of_find he

end Sys2Proof.Machine
end

