-- ==== Sys2Proof/Laws/Gathering.lean ====
section
/-! SUPPORT. What is wanted, in what order, and what a port fetches next (R87, R88, R107 to R109). -/

namespace Sys2Proof.Machine

open Sys2Proof.Config

/-- The index of a vector's element. -/
theorem any_toList {α : Type} {n : Nat} (v : Vector α n) (f : α → Bool) : v.toList.any f = true ↔ ∃ i : Fin n, f v[i] = true := by
  rw [List.any_eq_true]
  constructor
  · rintro ⟨x, hx, hf⟩
    obtain ⟨i, hi, rfl⟩ := List.mem_iff_getElem.mp hx
    exact ⟨⟨i, by simpa using hi⟩, by simpa using hf⟩
  · rintro ⟨i, hf⟩
    exact ⟨_, by simp, hf⟩

theorem chunkCount_eq (n : Nat) : chunkCount n = (n + 65535) / 65536 := rfl

/-- R43: the targets of an entry, by their positions. -/
theorem Entry.mem_targets (e : Entry) (pos : Position) (t : Target) : (pos, t) ∈ e.targets ↔ e.target? pos = some t := by
  unfold Entry.targets Entry.target?
  simp only [List.mem_filterMap, Prod.exists, List.mem_zipIdx_iff_getElem?]
  constructor
  · rintro ⟨m, i, hm, hx⟩
    cases ht : m.target with
    | none => simp [ht] at hx
    | some t' =>
      simp only [ht] at hx
      split at hx
      · cases hx
      · rename_i hs
        obtain ⟨rfl, rfl⟩ := Prod.mk.inj (Option.some.inj hx)
        simp [hm, ht, hs]
  · intro h
    cases hm : e.members[pos]? with
    | none => simp [hm] at h
    | some m =>
      refine ⟨m, pos, hm, ?_⟩
      cases ht : m.target with
      | none => simp [hm, ht] at h
      | some t' =>
        simp only [hm, ht] at h ⊢
        split at h
        · cases h
        · rename_i hs
          obtain rfl := Option.some.inj h
          simp [hs]

/-- R87: the target needs the offset. -/
theorem State.targetNeeds_iff (s : State) (h : Handle) (pos : Position) (t : Target) (o : Offset) :
    s.targetNeeds h pos t o = true ↔ t.dest ≠ none ∧ o ∉ t.coverage
      ∧ (∀ q, ∀ x ∈ (s.port q).outputs, ¬(x.handle = h ∧ x.position = pos ∧ x.offset = o))
      ∧ ∀ d ∈ s.deliveries, ¬(d.owned = true ∧ d.output.handle = h ∧ d.output.position = pos ∧ d.output.offset = o) := by
  have h1 : (s.ports.toList.any fun q => q.outputs.any fun x => decide (x.handle = h ∧ x.position = pos ∧ x.offset = o)) = false ↔
      ∀ q, ∀ x ∈ (s.port q).outputs, ¬(x.handle = h ∧ x.position = pos ∧ x.offset = o) := by
    rw [← Bool.not_eq_true, any_toList]
    simp only [List.any_eq_true, decide_eq_true_eq, not_exists]
    exact ⟨fun k q x hx hc => k q x ⟨hx, hc⟩, fun k q x hx => k q x hx.1 hx.2⟩
  have h2 : (s.deliveries.any fun d => d.owned && decide (d.output.handle = h ∧ d.output.position = pos ∧ d.output.offset = o)) = false ↔
      ∀ d ∈ s.deliveries, ¬(d.owned = true ∧ d.output.handle = h ∧ d.output.position = pos ∧ d.output.offset = o) := by
    simp [List.any_eq_false]
  unfold State.targetNeeds
  simp only [Bool.and_eq_true, Bool.not_eq_true', h1, h2, and_assoc]
  refine and_congr ?_ (and_congr ?_ Iff.rfl)
  · cases t.dest <;> simp
  · simp

/-- R87: the offset is needed. -/
theorem State.needed_iff (s : State) (h : Handle) (e : Entry) (o : Offset) : s.needed h e o = true ↔ offsetNeeded s h e o := by
  unfold State.needed offsetNeeded
  rw [List.any_eq_true]
  constructor
  · rintro ⟨⟨pos, t⟩, hm, hn⟩
    exact ⟨pos, t, (e.mem_targets pos t).mp hm, (s.targetNeeds_iff h pos t o).mp hn⟩
  · rintro ⟨pos, t, hm, hn⟩
    exact ⟨(pos, t), (e.mem_targets pos t).mpr hm, (s.targetNeeds_iff h pos t o).mpr hn⟩

/-! ### Pass order (R88) -/

/-- The first `n` of a list in rising order of a rank are those with fewer than `n` before them. -/
theorem mem_take_iff_countP {l : List Nat} {rank : Nat → Nat} (hs : l.Pairwise fun a b => rank a < rank b) (n : Nat) (x : Nat) :
    x ∈ l.take n ↔ x ∈ l ∧ (l.countP fun o => decide (rank o < rank x)) < n := by
  induction l generalizing n with
  | nil => simp
  | cons a l ih =>
    obtain ⟨h1, h2⟩ := List.pairwise_cons.mp hs
    cases n with
    | zero => simp
    | succ n =>
      rw [List.take_succ_cons, List.mem_cons, ih h2, List.mem_cons, List.countP_cons]
      constructor
      · rintro (rfl | ⟨hm, hc⟩)
        · refine ⟨.inl rfl, ?_⟩
          have : (l.countP fun o => decide (rank o < rank x)) = 0 := by
            rw [List.countP_eq_zero]
            intro o ho
            have := h1 o ho
            simp only [decide_eq_true_eq]
            omega
          simp [this]
        · refine ⟨.inr hm, ?_⟩
          split <;> omega
      · rintro ⟨hm, hc⟩
        rcases hm with rfl | hm
        · exact .inl rfl
        · have := h1 x hm
          simp only [this, decide_true, if_true] at hc
          exact .inr ⟨hm, by omega⟩

theorem mem_passOrder (s : State) (h : Handle) (e : Entry) (d o : Offset) :
    o ∈ s.passOrder h e d ↔ o < e.chunks ∧ s.needed h e o = true := by
  unfold State.passOrder
  simp only [List.mem_append, List.mem_filter, List.mem_range, decide_eq_true_eq]
  constructor
  · rintro (⟨k, -⟩ | ⟨k, -⟩) <;> exact k
  · intro k
    rcases Nat.lt_or_ge o d with hd | hd
    · exact .inr ⟨k, hd⟩
    · exact .inl ⟨k, hd⟩

theorem range_filter_sorted (n : Nat) (f : Nat → Bool) : ((List.range n).filter f).Pairwise (· < ·) :=
  List.pairwise_lt_range.filter _

theorem passOrder_sorted (s : State) (h : Handle) (e : Entry) (d : Offset) :
    (s.passOrder h e d).Pairwise fun a b => passRank e.chunks d a < passRank e.chunks d b := by
  unfold State.passOrder
  have hs := range_filter_sorted e.chunks (s.needed h e)
  simp only
  refine List.pairwise_append.mpr ⟨?_, ?_, ?_⟩
  · refine (hs.filter _).imp_of_mem fun {a b} ha hb hab => ?_
    simp only [List.mem_filter, decide_eq_true_eq] at ha hb
    simp [passRank, ha.2, hb.2, hab]
  · refine (hs.filter _).imp_of_mem fun {a b} ha hb hab => ?_
    simp only [List.mem_filter, decide_eq_true_eq] at ha hb
    simp [passRank, Nat.not_le_of_lt ha.2, Nat.not_le_of_lt hb.2, hab]
  · intro a ha b hb
    simp only [List.mem_filter, List.mem_range, decide_eq_true_eq] at ha hb
    have := ha.1.1
    simp only [passRank, ha.2, Nat.not_le_of_lt hb.2, if_true, if_false]
    omega

/-- R107: an offset stands in the window where fewer than W needed ones stand before it. -/
theorem mem_window (s : State) (h : Handle) (e : Entry) (d o : Offset) (n : Nat) :
    o ∈ (s.passOrder h e d).take n ↔ (o < e.chunks ∧ s.needed h e o = true)
      ∧ ((List.range e.chunks).countP fun k => s.needed h e k && decide (passRank e.chunks d k < passRank e.chunks d o)) < n := by
  rw [mem_take_iff_countP (passOrder_sorted s h e d), mem_passOrder]
  have : (s.passOrder h e d).countP (fun k => decide (passRank e.chunks d k < passRank e.chunks d o))
      = (List.range e.chunks).countP fun k => s.needed h e k && decide (passRank e.chunks d k < passRank e.chunks d o) := by
    have hp : (s.passOrder h e d).Perm ((List.range e.chunks).filter (s.needed h e)) := by
      unfold State.passOrder
      have := List.filter_append_perm (fun o => decide (d ≤ o)) ((List.range e.chunks).filter (s.needed h e))
      have hneg : (fun o : Nat => !decide (d ≤ o)) = fun o => decide (o < d) := by
        funext o
        rw [← decide_not]
        simp
      rwa [hneg] at this
    rw [hp.countP_eq, List.countP_filter]
    exact List.countP_congr fun k _ => by rw [Bool.and_comm]
  rw [this]

/-! ### Wanted chunks (R107) -/

theorem firstWhere_none {α : Type} {n : Nat} [NeZero n] (v : Vector α n) (f : α → Bool) :
    firstWhere v f = none ↔ ∀ i : Fin n, f v[i] = false := by
  rw [firstWhere_eq, List.find?_eq_none]
  simp

theorem firstWhere_some {α : Type} {n : Nat} [NeZero n] {v : Vector α n} {f : α → Bool} {i : Fin n}
    (h : firstWhere v f = some i) : f v[i] = true := by
  rw [firstWhere_eq] at h
  exact List.find?_some (p := fun i => f v[i]) h

theorem cellIs_iff (f : Cell → Bool) (x : Option Cell) : cellIs f x = true ↔ ∃ y, x = some y ∧ f y = true := by
  cases x <;> simp [cellIs]

/-- R107: the chunk is held. -/
theorem State.sourceCell_none (s : State) (h : Handle) (pos : Position) (o : Offset) :
    s.sourceCell h pos o = none ↔ ∀ c x, s.cell c = some x → x.owner = h → ∀ v, x.use ≠ .source pos o v := by
  unfold State.sourceCell
  rw [firstWhere_none]
  constructor
  · intro k c x hc ho v hu
    have := k c
    rw [show s.cells[c] = some x from hc] at this
    simp [cellIs, ho, hu] at this
  · intro k c
    rw [← Bool.not_eq_true, cellIs_iff]
    rintro ⟨x, hc, hx⟩
    simp only [Bool.and_eq_true, decide_eq_true_eq] at hx
    obtain ⟨ho, hu⟩ := hx
    cases hxu : x.use with
    | source p o' v =>
      simp only [hxu, decide_eq_true_eq] at hu
      obtain ⟨rfl, rfl⟩ := hu
      exact k c x hc ho v hxu
    | floor | fetch p | transfer p | output p o' => simp [hxu] at hu

theorem State.sourceCell_some {s : State} {h : Handle} {pos : Position} {o : Offset} {c : CellId}
    (hc : s.sourceCell h pos o = some c) : ∃ x v, s.cell c = some x ∧ x.owner = h ∧ x.use = .source pos o v := by
  have := firstWhere_some hc
  rw [cellIs_iff] at this
  obtain ⟨x, hx, hf⟩ := this
  simp only [Bool.and_eq_true, decide_eq_true_eq] at hf
  obtain ⟨ho, hu⟩ := hf
  cases hxu : x.use with
  | source p o' v =>
    simp only [hxu, decide_eq_true_eq] at hu
    obtain ⟨rfl, rfl⟩ := hu
    exact ⟨x, v, hx, ho, hxu⟩
  | floor | fetch p | transfer p | output p o' => simp [hxu] at hu

theorem State.solicited_iff (s : State) (h : Handle) (pos : Position) (o : Offset) :
    s.solicited h pos o = false ↔ ∀ k (tag : FetchTag) f, (s.port k).fetches[tag] = some f → f.cell ≠ none →
      ¬(f.handle = h ∧ f.position = pos ∧ f.offset = o) := by
  unfold State.solicited
  rw [← Bool.not_eq_true, any_toList]
  simp only [any_toList, not_exists]
  refine forall_congr' fun k => forall_congr' fun tag => ?_
  rw [show s.ports[k] = s.port k from rfl]
  cases hf : (s.port k).fetches[tag] with
  | none => simp
  | some f => cases hc : f.cell <;> simp [hc]

theorem State.missing_iff (s : State) (h : Handle) (pos : Position) (o : Offset) :
    s.missing h pos o = true ↔ (∀ c x, s.cell c = some x → x.owner = h → ∀ v, x.use ≠ .source pos o v)
      ∧ (∀ x ∈ s.transfers, ¬(x.handle = h ∧ x.position = pos ∧ x.offset = o))
      ∧ ∀ k (tag : FetchTag) f, (s.port k).fetches[tag] = some f → f.cell ≠ none →
          ¬(f.handle = h ∧ f.position = pos ∧ f.offset = o) := by
  unfold State.missing State.arriving
  rw [← s.sourceCell_none, ← s.solicited_iff]
  simp [and_assoc]

theorem chunkLength_eq {n o : Nat} (ho : o < chunkCount n) :
    chunkLength n o = if (o + 1) * 65536 < n then 65536 else n - o * 65536 := by
  have hc := chunkCount_eq n
  unfold chunkLength
  rw [chunkBytes]
  by_cases h : o + 1 < chunkCount n
  · rw [if_pos h, if_pos (by omega)]
  · rw [if_neg h, if_neg (by omega)]
    have : chunkCount n - 1 = o := by omega
    rw [this, Nat.mul_comm]

/-- R107: the chunks wanted for one entry. -/
theorem State.mem_wantedOf (s : State) (h : Handle) (w : Wanted) : w ∈ s.wantedOf h ↔
    ∃ e pl m, s.entry? h = some e ∧ e.plan = some pl ∧ s.park ≠ some h ∧ w.handle = h
      ∧ w.offset ∈ (s.passOrder h e pl.decodePoint).take s.window ∧ e.members[w.position]? = some m
      ∧ pl.gathers w.position = true ∧ s.missing h w.position w.offset = true ∧ w.stripe = e.stripe ∧ w.node = m.node
      ∧ w.length = chunkLength e.length w.offset ∧ w.atDecodePoint = decide (w.offset = pl.decodePoint) := by
  unfold State.wantedOf
  cases he : s.entry? h with
  | none => simp
  | some e =>
    cases hp : e.plan with
    | none => simp [hp]
    | some pl =>
      by_cases hk : s.park = some h
      · simp [hp, hk]
      · simp only [hp, if_neg hk, List.mem_flatMap, List.mem_filterMap, Plan.gatherSet, List.mem_filter, List.mem_range]
        constructor
        · rintro ⟨o, ho, pos, ⟨hlt, hg⟩, hw⟩
          unfold State.wantedChunk at hw
          rw [List.getElem?_eq_getElem hlt] at hw
          simp only at hw
          split at hw
          · rename_i hm
            obtain rfl := Option.some.inj hw
            exact ⟨e, pl, _, rfl, hp, hk, rfl, ho, List.getElem?_eq_getElem hlt, hg, hm, rfl, rfl, rfl, rfl⟩
          · cases hw
        · rintro ⟨e', pl', m, h1, h2, -, h4, h5, h6, h7, h8, h9, h10, h11, h12⟩
          obtain rfl := Option.some.inj h1
          obtain rfl := Option.some.inj (hp.symm.trans h2)
          refine ⟨w.offset, h5, w.position, ⟨(List.getElem?_eq_some_iff.mp h6).1, h7⟩, ?_⟩
          unfold State.wantedChunk
          simp only [h6, h8, if_true]
          cases w
          simp_all

/-- R107, R109: the chunks wanted are those of the ACTIVE entries. -/
theorem State.mem_wanted {s : State} (hr : s.rising) (w : Wanted) : w ∈ s.wanted ↔
    w ∈ s.wantedOf w.handle ∧ ∃ e, s.entry? w.handle = some e ∧ e.state = .active := by
  unfold State.wanted
  simp only [List.mem_flatMap, mem_queueOrder, List.mem_filter, decide_eq_true_eq, Prod.exists]
  constructor
  · rintro ⟨h, e, ⟨hm, ha⟩, hw⟩
    obtain ⟨_, _, _, _, _, _, rfl, _⟩ := (s.mem_wantedOf h w).mp hw
    exact ⟨hw, e, State.entry_of_mem hr hm, ha⟩
  · rintro ⟨hw, e, he, ha⟩
    exact ⟨_, e, ⟨State.mem_of_entry he, ha⟩, hw⟩

theorem gatherSet_sorted (pl : Plan) (n : Nat) : (pl.gatherSet n).Pairwise (· < ·) := range_filter_sorted n pl.gathers

/-- R109: the chunks of one entry stand in the order of issue. -/
theorem wantedOf_sorted (s : State) (h : Handle) : (s.wantedOf h).Pairwise (issuedBefore s) := by
  unfold State.wantedOf
  cases he : s.entry? h with
  | none => simp
  | some e =>
    cases hp : e.plan with
    | none => simp [hp]
    | some pl =>
      by_cases hk : s.park = some h
      · simp [hp, hk]
      · simp only [hp, if_neg hk]
        have from_offset : ∀ {o pos w}, s.wantedChunk h e pl o pos = some w → w.handle = h ∧ w.offset = o ∧ w.position = pos := by
          intro o pos w hw
          unfold State.wantedChunk at hw
          split at hw
          · split at hw
            · obtain rfl := Option.some.inj hw
              exact ⟨rfl, rfl, rfl⟩
            · cases hw
          · cases hw
        refine List.pairwise_flatMap.mpr ⟨fun o _ => ?_, ?_⟩
        · refine List.pairwise_filterMap.mpr ((gatherSet_sorted pl _).imp fun {a b} hab x hx y hy => ?_)
          obtain ⟨h1, h2, h3⟩ := from_offset hx
          obtain ⟨k1, k2, k3⟩ := from_offset hy
          exact .inr ⟨h1.trans k1.symm, e, pl, h1 ▸ he, hp, .inr ⟨h2.trans k2.symm, by rw [h3, k3]; exact hab⟩⟩
        · refine ((passOrder_sorted s h e pl.decodePoint).sublist (List.take_sublist _ _)).imp fun {a b} hab x hx y hy => ?_
          obtain ⟨pos, -, hx⟩ := List.mem_filterMap.mp hx
          obtain ⟨pos', -, hy⟩ := List.mem_filterMap.mp hy
          obtain ⟨h1, h2, -⟩ := from_offset hx
          obtain ⟨k1, k2, -⟩ := from_offset hy
          exact .inr ⟨h1.trans k1.symm, e, pl, h1 ▸ he, hp, .inl (by rw [h2, k2]; exact hab)⟩

/-- R109: the list of wanted chunks stands in the order of issue. -/
theorem wanted_sorted {s : State} (hr : s.rising) (hera : s.oneEra) : s.wanted.Pairwise (issuedBefore s) := by
  obtain ⟨first, he⟩ := hera
  unfold State.wanted
  refine List.pairwise_flatMap.mpr ⟨fun he _ => wantedOf_sorted s he.1, ?_⟩
  have hsort := queueOrder_sorted (first := first) (l := s.entries.filter fun he => decide (he.2.state = .active))
    (fun y hy => he y (List.mem_of_mem_filter hy)) (hr.filter _)
  refine hsort.imp_of_mem fun {a b} ha hb hab x hx y hy => ?_
  obtain ⟨_, _, _, _, _, _, h1, _⟩ := (s.mem_wantedOf a.1 x).mp hx
  obtain ⟨_, _, _, _, _, _, k1, _⟩ := (s.mem_wantedOf b.1 y).mp hy
  have ea := State.entry_of_mem hr (List.mem_of_mem_filter (mem_queueOrder.mp ha))
  have eb := State.entry_of_mem hr (List.mem_of_mem_filter (mem_queueOrder.mp hb))
  exact .inl ⟨a.2, b.2, h1 ▸ ea, k1 ▸ eb, by rw [h1, k1]; exact hab⟩

/-! ### The next fetch (R108 to R110) -/

theorem State.unusedFloorCell_none (s : State) (h : Handle) :
    s.unusedFloorCell h = none ↔ ∀ c, ¬∃ x, s.cell c = some x ∧ x.owner = h ∧ x.use = .floor := by
  unfold State.unusedFloorCell
  rw [firstWhere_none]
  refine forall_congr' fun c => ?_
  rw [← Bool.not_eq_true, cellIs_iff]
  simp only [Cell.unusedFloorOf, Bool.and_eq_true, decide_eq_true_eq]
  exact Iff.rfl

theorem State.unusedFloorCell_some {s : State} {h : Handle} {c : CellId} (hc : s.unusedFloorCell h = some c) :
    ∃ x, s.cell c = some x ∧ x.owner = h ∧ x.use = .floor := by
  have := firstWhere_some hc
  rw [cellIs_iff] at this
  simp only [Cell.unusedFloorOf, Bool.and_eq_true, decide_eq_true_eq] at this
  exact this

theorem State.freeCell_none (s : State) : s.freeCell = none ↔ ∀ c, s.cell c ≠ none := by
  unfold State.freeCell
  rw [firstWhere_none]
  exact forall_congr' fun c => by rw [← Bool.not_eq_true, Option.isNone_iff_eq_none]; exact Iff.rfl

theorem State.freeCell_some {s : State} {c : CellId} (hc : s.freeCell = some c) : s.cell c = none :=
  Option.isNone_iff_eq_none.mp (firstWhere_some hc)

/-- R110: where an answer cell can be had for a chunk. -/
theorem State.answerCell_none (s : State) (p : PortId) (w : Wanted) : s.answerCell p w = none ↔
    ∀ c, ¬((w.atDecodePoint = true ∧ ∃ x, s.cell c = some x ∧ x.owner = w.handle ∧ x.use = .floor)
      ∨ (s.cell c = none ∧ s.poolUse p < (s.port p).quota)) := by
  unfold State.answerCell
  cases hd : w.atDecodePoint with
  | false =>
    by_cases hq : s.poolUse p < (s.port p).quota
    · simp only [Bool.false_eq_true, if_false, hq, if_true, s.freeCell_none, false_and, false_or, and_true]
    · simp [hq]
  | true =>
    cases hf : s.unusedFloorCell w.handle with
    | some c =>
      simp only [if_true, reduceCtorEq, true_and, false_iff, not_forall, not_not]
      exact ⟨c, .inl (State.unusedFloorCell_some hf)⟩
    | none =>
      have hn := (s.unusedFloorCell_none w.handle).mp hf
      by_cases hq : s.poolUse p < (s.port p).quota
      · simp only [if_true, hq, s.freeCell_none, true_and, and_true]
        exact forall_congr' fun c => by simp [hn c]
      · simp only [if_true, hq, if_false, true_and, and_false, or_false]
        simpa using hn

/-- R110: an unused floor cell at the decode point, or else a FREE one. -/
theorem State.answerCell_some {s : State} {p : PortId} {w : Wanted} {c : CellId} (h : s.answerCell p w = some c) :
    (w.atDecodePoint = true ∧ ∃ x, s.cell c = some x ∧ x.owner = w.handle ∧ x.use = .floor)
    ∨ (∀ k, ¬(w.atDecodePoint = true ∧ ∃ x, s.cell k = some x ∧ x.owner = w.handle ∧ x.use = .floor))
      ∧ s.cell c = none ∧ s.poolUse p < (s.port p).quota := by
  unfold State.answerCell at h
  split at h
  · rename_i c' hc
    obtain rfl := Option.some.inj h
    split at hc
    · rename_i hd
      exact .inl ⟨hd, State.unusedFloorCell_some hc⟩
    · cases hc
  · rename_i hc
    split at h
    · rename_i hq
      refine .inr ⟨fun k hk => ?_, State.freeCell_some h, hq⟩
      rw [if_pos hk.1] at hc
      exact (s.unusedFloorCell_none w.handle).mp hc k hk.2
    · cases h

/-- R108 condition 1. -/
theorem State.memberServes_iff (s : State) (p : PortId) (w : Wanted) : s.memberServes p w = true ↔
    (∃ e m, s.entry? w.handle = some e ∧ e.members[w.position]? = some m ∧ m.state = .held)
      ∧ ((s.node w.node).state = .up ∨ (s.node w.node).state = .suspect) ∧ (s.node w.node).route = some p := by
  have hserves : (s.node w.node).state.serves = true ↔ (s.node w.node).state = .up ∨ (s.node w.node).state = .suspect := by
    cases (s.node w.node).state <;> simp [NodeState.serves]
  unfold State.memberServes
  simp only [Bool.and_eq_true, hserves, beq_iff_eq, and_assoc]
  refine and_congr ?_ Iff.rfl
  cases he : s.entry? w.handle with
  | none => simp
  | some e => cases hm : e.members[w.position]? <;> simp [hm]

theorem State.mayFetch_iff (s : State) (p : PortId) : s.mayFetch p = true ↔
    (s.port p).state = .up ∧ (s.port p).outstanding < (s.port p).credit ∧ (s.port p).responses.countP Record.isFetch < 32
      ∧ (s.port p).held = false ∧ ((s.port p).budget.active = 0 ∨ (s.port p).budget.used < (s.port p).budget.active) := by
  unfold State.mayFetch Port.allowsTransfer
  simp [fetchShare, and_assoc]

/-- R109: the chunk found is the first in the order of issue that can be issued. -/
theorem State.nextFetch_spec {s : State} {p : PortId} {w : Wanted} {c : CellId} (h : s.nextFetch p = some (w, c)) :
    s.mayFetch p = true ∧ w ∈ s.wanted ∧ s.memberServes p w = true ∧ s.answerCell p w = some c
      ∧ (s.rising → s.oneEra → ∀ v ∈ s.wanted, s.memberServes p v = true → s.answerCell p v ≠ none → v = w ∨ issuedBefore s w v) := by
  unfold State.nextFetch at h
  split at h
  · rename_i hmay
    obtain ⟨l1, a, l2, hl, ha, hnone⟩ := List.findSome?_eq_some_iff.mp h
    split at ha
    · rename_i hs
      obtain ⟨c', hc', heq⟩ := Option.map_eq_some_iff.mp ha
      obtain ⟨rfl, rfl⟩ := Prod.mk.inj heq
      refine ⟨hmay, by simp [hl], hs, hc', fun hr he v hv hvs hvc => ?_⟩
      have hsort := wanted_sorted hr he
      rw [hl] at hv hsort
      rcases List.mem_append.mp hv with hv | hv
      · have := hnone v hv
        rw [if_pos hvs] at this
        exact absurd (Option.map_eq_none_iff.mp this) hvc
      · rcases List.mem_cons.mp hv with rfl | hv
        · exact .inl rfl
        · exact .inr ((List.pairwise_cons.mp (List.pairwise_append.mp hsort).2.1).1 v hv)
    · cases ha
  · cases h

/-- R108: there is none only where no wanted chunk can be issued. -/
theorem State.nextFetch_none (s : State) (p : PortId) : s.nextFetch p = none ↔
    ¬(s.mayFetch p = true ∧ ∃ w ∈ s.wanted, s.memberServes p w = true ∧ s.answerCell p w ≠ none) := by
  unfold State.nextFetch
  by_cases hmay : s.mayFetch p = true
  · rw [if_pos hmay, List.findSome?_eq_none_iff]
    simp only [hmay, true_and, not_exists, not_and, not_not]
    refine forall_congr' fun w => imp_congr_right fun _ => ?_
    by_cases hs : s.memberServes p w = true <;> simp [hs]
  · simp [hmay]

end Sys2Proof.Machine
end

