-- ==== Sys2Proof/Laws/Planning.lean ====
section
/-! SUPPORT. What the operations of the Planner, the banks and the Matrix Unit do (R53, R72, R73, R84 to R86, R94 to R100). -/

namespace Sys2Proof.Machine

open Sys2Proof.Config

/-! ### The Matrix Unit and the banks (R94 to R99) -/

/-- R99: the inversion that begins, if one does. -/
theorem State.startInversion_begins (s : State) : beginsInversion s s.startInversion := by
  refine ⟨fun b rest k hm hf hk => ?_, fun h => ?_⟩
  · have : s.startInversion = s.beginInversion (s.code k.profile) k := by
      unfold State.startInversion
      rw [hm, hf]
      simp only [hk]
    rw [this]
    rfl
  · unfold State.startInversion
    rcases h with h | h
    · obtain ⟨x, hx⟩ := Option.ne_none_iff_exists'.mp h
      simp only [hx]
    · simp only [h]
      split <;> first | rfl | simp_all

theorem bank_modBank (s : State) (b j : BankId) (f : Bank → Bank) :
    (s.modBank b f).bank j = if j = b then f (s.bank b) else s.bank j := by
  simp only [State.modBank, State.bank_setBank]

/-- R94: a bank that takes new contents and is used. -/
theorem State.useBank_uses (s u : State) (b : BankId) (f : Bank → Bank) (hs : ∀ x, (f x).stamp = x.stamp)
    (hu : u.banks = s.banks) : usesBank s ((u.modBank b f).useBank b) b (f (s.bank b)) := by
  have hub : ∀ j, u.bank j = s.bank j := fun j => by unfold State.bank; rw [hu]
  refine ⟨?_, fun j hj => ?_⟩
  · rw [State.bank_useBank, if_pos rfl, bank_modBank, if_pos rfl, hub]
  · rw [State.bank_useBank, if_neg hj, bank_modBank, bank_modBank, if_pos rfl, if_neg hj, hub, hub, hs]
    rfl

theorem Bank.hits_iff (key : Key) (b : Bank) :
    b.hits key = true ↔ b.key = some key ∧ b.state ≠ .empty ∧ b.discard = false := by
  simp [Bank.hits, and_assoc]

theorem mem_bankIds (b : BankId) : b ∈ bankIds := by revert b; decide

/-- The lowest bank that satisfies a test. -/
theorem find_bankIds {f : BankId → Bool} {b : BankId} (hb : f b = true) (hlow : ∀ j < b, f j = false) :
    bankIds.find? f = some b := by
  have hl : bankIds = List.finRange 8 := by decide
  rw [hl]
  refine List.find?_eq_some_iff_getElem.mpr ⟨hb, b.val, by simp, by simp, fun j hj => ?_⟩
  have : j < 8 := by omega
  simp [hlow ⟨j, this⟩ hj]

theorem find_bankIds_none {f : BankId → Bool} (h : ∀ b, f b = false) : bankIds.find? f = none := by
  rw [List.find?_eq_none]
  exact fun b _ => by simp [h b]

/-- R96: of the idle banks the one used longest ago. -/
theorem State.oldestIdle_spec (s : State) :
    (∀ b, (s.bank b).state = .ready → (s.bank b).refs = 0 →
      (∀ j, j ≠ b → (s.bank j).state = .ready → (s.bank j).refs = 0 → (s.bank b).stamp < (s.bank j).stamp) → s.oldestIdle = some b)
    ∧ ((∀ j, ¬((s.bank j).state = .ready ∧ (s.bank j).refs = 0)) → s.oldestIdle = none) := by
  let step (best : Option BankId) (b : BankId) : Option BankId :=
    if (s.bank b).state = .ready ∧ (s.bank b).refs = 0 then
      (match best with
       | none => some b
       | some a => if (s.bank b).stamp < (s.bank a).stamp then some b else some a)
    else best
  have heq : s.oldestIdle = bankIds.foldl step none := rfl
  constructor
  · intro b hs hr hlow
    have hidle : ∀ j, (s.bank j).state = .ready ∧ (s.bank j).refs = 0 → j = b ∨ (s.bank b).stamp < (s.bank j).stamp := fun j hj => by
      by_cases hjb : j = b
      · exact .inl hjb
      · exact .inr (hlow j hjb hj.1 hj.2)
    have after : ∀ l : List BankId, l.foldl step (some b) = some b := by
      intro l
      induction l with
      | nil => rfl
      | cons j l ih =>
        have : step (some b) j = some b := by
          simp only [step]
          split
          · rename_i hj
            rw [if_neg]
            rcases hidle j hj with rfl | h <;> omega
          · rfl
        rw [List.foldl_cons, this, ih]
    have main : ∀ (l : List BankId) (acc : Option BankId), (∀ a, acc = some a → (s.bank a).state = .ready ∧ (s.bank a).refs = 0) →
        b ∈ l → l.foldl step acc = some b := by
      intro l
      induction l with
      | nil => simp
      | cons j l ih =>
        intro acc hacc hm
        rw [List.foldl_cons]
        by_cases hjb : j = b
        · subst hjb
          have : step acc j = some j := by
            simp only [step, hs, hr, and_self, if_true]
            cases acc with
            | none => rfl
            | some a =>
              simp only
              rcases hidle a (hacc a rfl) with rfl | h
              · split <;> rfl
              · rw [if_pos h]
          rw [this, after]
        · refine ih _ (fun a ha => ?_) ((List.mem_cons.mp hm).resolve_left (Ne.symm hjb))
          simp only [step] at ha
          split at ha
          · rename_i hj
            split at ha
            · obtain rfl := Option.some.inj ha
              exact hj
            · split at ha
              · obtain rfl := Option.some.inj ha
                exact hj
              · exact hacc a ha
          · exact hacc a ha
    rw [heq]
    exact main bankIds none (fun a ha => by cases ha) (mem_bankIds b)
  · intro hn
    rw [heq]
    have : ∀ l : List BankId, l.foldl step none = none := by
      intro l
      induction l with
      | nil => rfl
      | cons j l ih =>
        have : step none j = none := by simp only [step, if_neg (hn j)]
        rw [List.foldl_cons, this, ih]
    exact this bankIds

theorem State.oldestIdle_none {s : State} (h : s.oldestIdle = none) (b : BankId) :
    ¬((s.bank b).state = .ready ∧ (s.bank b).refs = 0) := by
  have main : ∀ (l : List BankId) (acc : Option BankId), l.foldl (fun best b =>
      if (s.bank b).state = .ready ∧ (s.bank b).refs = 0 then
        (match best with
         | none => some b
         | some a => if (s.bank b).stamp < (s.bank a).stamp then some b else some a)
      else best) acc = none → acc = none ∧ ∀ b ∈ l, ¬((s.bank b).state = .ready ∧ (s.bank b).refs = 0) := by
    intro l
    induction l with
    | nil => exact fun acc h => ⟨h, by simp⟩
    | cons j l ih =>
      intro acc h
      rw [List.foldl_cons] at h
      obtain ⟨h1, h2⟩ := ih _ h
      by_cases hj : (s.bank j).state = .ready ∧ (s.bank j).refs = 0
      · rw [if_pos hj] at h1
        cases acc with
        | none => cases h1
        | some a =>
          simp only at h1
          split at h1 <;> cases h1
      · rw [if_neg hj] at h1
        refine ⟨h1, fun k hk => ?_⟩
        rcases List.mem_cons.mp hk with rfl | hk
        · exact hj
        · exact h2 k hk
  exact (main bankIds none h).2 b (mem_bankIds b)

/-- R69 need 5: when a bank can be had for a key. -/
theorem State.bankAvailable_iff (s : State) (key : Key) : s.bankAvailable key = true ↔
    ∃ b, ((s.bank b).key = some key ∧ (s.bank b).state ≠ .empty ∧ (s.bank b).discard = false)
      ∨ (s.bank b).state = .empty ∨ ((s.bank b).state = .ready ∧ (s.bank b).refs = 0) := by
  unfold State.bankAvailable
  rw [Bool.or_eq_true]
  constructor
  · rintro (h | h)
    · obtain ⟨b, hb⟩ := Option.isSome_iff_exists.mp h
      exact ⟨b, .inl ((Bank.hits_iff key (s.bank b)).mp (List.find?_some (p := fun j => (s.bank j).hits key) hb))⟩
    · obtain ⟨b, hb⟩ := Option.isSome_iff_exists.mp h
      unfold State.bankForNew at hb
      split at hb
      · rename_i c hc
        exact ⟨c, .inr (.inl (by simpa using List.find?_some hc))⟩
      · by_contra hn
        have := s.oldestIdle_spec.2 fun j hj => hn ⟨j, .inr (.inr hj)⟩
        rw [this] at hb
        cases hb
  · rintro ⟨b, h | h⟩
    · refine .inl ?_
      unfold State.bankHit
      rw [List.find?_isSome]
      exact ⟨b, mem_bankIds b, (Bank.hits_iff key _).mpr h⟩
    · refine .inr ?_
      unfold State.bankForNew
      split
      · rfl
      · rename_i hn
        have hne := List.find?_eq_none.mp hn b (mem_bankIds b)
        rcases h with h | h
        · exact absurd h (by simpa using hne)
        · cases hi : s.oldestIdle with
          | none => exact absurd h (State.oldestIdle_none hi b)
          | some c => rfl

/-- R95 to R97, R99: what a lookup comes to. -/
theorem State.lookup_looksUp (s : State) (key : Key) : looksUp s (s.lookup key).1 key (s.lookup key).2 := by
  have hholds : ∀ b, (s.bank b).hits key = true ↔
      ((s.bank b).key = some key ∧ (s.bank b).state ≠ .empty ∧ (s.bank b).discard = false) := fun b => Bank.hits_iff key _
  refine ⟨fun b hb hlow => ?_, fun hno b hb => ?_, fun hno => ?_⟩
  · have hf : s.bankHit key = some b := find_bankIds ((hholds b).mpr hb) fun j hj => by
      rw [← Bool.not_eq_true, hholds]
      exact hlow j hj
    unfold State.lookup
    rw [hf]
    exact ⟨rfl, State.useBank_uses s s b (fun x => { x with refs := x.refs + 1 }) (fun _ => rfl) rfl, rfl⟩
  · have hf : s.bankHit key = none := find_bankIds_none fun j => by
      rw [← Bool.not_eq_true, hholds]
      exact hno j
    have hnew : s.bankForNew = some b := by
      unfold State.bankForNew
      rcases hb with ⟨he, hlow⟩ | ⟨hne, ⟨hs, hr⟩, hold⟩
      · rw [find_bankIds (b := b) (by simp only [he, decide_true]) fun j hj => by simpa using hlow j hj]
      · rw [find_bankIds_none fun j => by simpa using hne j]
        exact (s.oldestIdle_spec.1 b hs hr fun j hj h1 h2 => hold j hj ⟨h1, h2⟩)
    unfold State.lookup
    rw [hf, hnew]
    refine ⟨rfl, fun hd => ?_, fun hd => ?_⟩
    · have hdata : isDataSet (s.code key.profile).k key.sources = true := by simpa [isDataSet] using hd
      simp only [State.takeMiss, hdata, if_true]
      exact ⟨State.useBank_uses s s b _ (fun _ => rfl) rfl, rfl⟩
    · have hdata : isDataSet (s.code key.profile).k key.sources = false := by simpa [isDataSet] using hd
      simp only [State.takeMiss, hdata, Bool.false_eq_true, if_false]
      refine ⟨_, ?_, ?_, State.startInversion_begins _⟩
      · exact State.useBank_uses s { s with inversionFifo := s.inversionFifo ++ [b] } b
          (fun x => { x with state := .inverting, key := some key, rows := [], refs := 1, discard := false }) (fun _ => rfl)
          rfl
      · rfl
  · have hf : s.bankHit key = none := find_bankIds_none fun j => by
      rw [← Bool.not_eq_true, hholds]
      exact (hno j).1
    have hnew : s.bankForNew = none := by
      unfold State.bankForNew
      rw [find_bankIds_none fun j => by simpa using (hno j).2.1]
      exact s.oldestIdle_spec.2 fun j => (hno j).2.2
    unfold State.lookup
    rw [hf, hnew]
    exact ⟨rfl, rfl⟩

/-! ### Entering ACTIVE (R53, R84 to R86, R100) -/

/-- R84 to R86, R100, R53: an entry whose plan stands complete with a READY bank is activated. -/
theorem State.activateIfReady_activates {u : State} {h : Handle} {e : Entry} (he : u.entry? h = some e) :
    activates u (u.activateIfReady h) h e := by
  have hbank : (match e.plan.bind Plan.bank with | some b => (u.bank b).state | none => .empty) = .ready ↔
      ∃ b, e.plan.bind Plan.bank = some b ∧ (u.bank b).state = .ready := by
    cases e.plan.bind Plan.bank <;> simp
  unfold activates
  dsimp only
  have hyes : e.state = .planning ∧ e.replan = false ∧ e.planComplete = true
      ∧ (∃ b, e.plan.bind Plan.bank = some b ∧ (u.bank b).state = .ready) →
      u.activateIfReady h = (u.setEntry h { e with state := .active }).settleIfDone h := fun hr => by
    rw [← hbank] at hr
    unfold State.activateIfReady
    rw [he]
    refine (if_pos hr).trans ?_
    unfold State.enterActive
    rw [State.modEntry_eq he]
  have self : (u.setEntry h { e with state := .active }).entry? h = some { e with state := .active } :=
    (State.entry_setEntry ..).trans (if_pos rfl)
  refine ⟨fun hn => ?_, fun hr hd => ?_, fun hr hd => ?_⟩
  · rw [← hbank] at hn
    unfold State.activateIfReady
    rw [he]
    exact if_neg hn
  · rw [hyes hr]
    exact State.settleIfDone_stays self fun k => hd ⟨k.2.1, k.2.2⟩
  · rw [hyes hr]
    obtain ⟨g, rest⟩ := State.settleIfDone_settles self rfl hd.1 hd.2
    generalize (u.setEntry h { e with state := .active }).settleIfDone h = t at g rest
    obtain ⟨l, m, r⟩ := g.cells
    refine ⟨⟨g.record, fun k hk => (g.others k hk).trans ((State.entry_setEntry ..).trans (if_neg hk)), g.banks, ⟨l, m, ?_⟩, g.attempt⟩, ?_⟩
    · exact r.congr (Table.put_put ..).symm rfl id rfl id
    · rw [← rest]
      rfl

end Sys2Proof.Machine
end

