-- ==== Sys2Proof/Laws/Destinations.lean ====
section
/-! SUPPORT. What giving destinations does to an entry and to the loads, and what the choosing depends on (R73, R79, R80, R84). -/

namespace Sys2Proof.Machine

open Sys2Proof.Config

/-! ### Changing several members of a list -/

theorem foldl_modify {α β : Type} (g : β → α → α) (l : List (Nat × β)) (hl : (l.map Prod.fst).Nodup) (ms : List α) (j : Nat) :
    (l.foldl (fun ms c => ms.modify c.1 (g c.2)) ms)[j]? =
      ms[j]?.map fun m => match l.find? fun c => decide (c.1 = j) with | some c => g c.2 m | none => m := by
  induction l generalizing ms with
  | nil => simp
  | cons c rest ih =>
    obtain ⟨h1, h2⟩ := List.nodup_cons.mp hl
    rw [List.foldl_cons, ih h2, List.getElem?_modify]
    by_cases hc : c.1 = j
    · have hnone : rest.find? (fun x => decide (x.1 = j)) = none := by
        rw [List.find?_eq_none]
        intro x hx hxj
        exact h1 (hc ▸ (decide_eq_true_eq.mp hxj) ▸ List.mem_map_of_mem hx)
      rw [List.find?_cons_of_pos (by simpa using hc), hnone]
      cases ms[j]? <;> simp [hc]
    · rw [List.find?_cons_of_neg (by simpa using hc)]
      cases ms[j]? <;> simp [hc]

/-! ### Destinations given (R73 step 3, R84 step 3) -/

/-- The nodes with the loads of the destinations chosen. -/
def loadedBy (nodes : Vector Node 256) (l : List (Position × NodeId)) : Vector Node 256 :=
  l.foldl (fun ns c => ns.set c.2 { ns[c.2] with load := ns[c.2].load + 1 }) nodes

theorem getElem_loadedBy (nodes : Vector Node 256) (l : List (Position × NodeId)) (n : NodeId) :
    (loadedBy nodes l)[n] = { nodes[n] with load := nodes[n].load + l.countP fun c => decide (c.2 = n) } := by
  induction l generalizing nodes with
  | nil => rfl
  | cons c rest ih =>
    have : loadedBy nodes (c :: rest) = loadedBy (nodes.set c.2 { nodes[c.2] with load := nodes[c.2].load + 1 }) rest := rfl
    rw [this, ih, List.countP_cons]
    by_cases hc : c.2 = n
    · subst hc
      simp only [Fin.getElem_fin, Vector.getElem_set_self, decide_true, if_true, Node.mk.injEq, true_and, and_true]
      omega
    · have hv : c.2.val ≠ n.val := fun x => hc (Fin.ext x)
      simp only [Fin.getElem_fin, Vector.getElem_set_ne _ _ hv, hc, decide_false, Bool.false_eq_true, if_false, Nat.add_zero]

/-- A member that takes a destination. -/
def Member.taking (start : Offset) (n : NodeId) (m : Member) : Member :=
  { m with state := .rebuilding, target := some { m.target.getD Target.fresh with dest := some n, start := start, coverage := [] } }

/-- A member whose target takes another start offset. -/
def Member.startingAt (start : Offset) (m : Member) : Member := { m with target := m.target.map fun y => { y with start := start } }

theorem foldl_giveDest (h : Handle) (start : Offset) (l : List (Position × NodeId)) (s : State) (e : Entry) :
    l.foldl (giveDest h start) (s.setEntry h e) =
      ({ s with nodes := loadedBy s.nodes l } : State).setEntry h
        { e with members := l.foldl (fun ms c => ms.modify c.1 (Member.taking start c.2)) e.members } := by
  induction l generalizing s e with
  | nil => rfl
  | cons c rest ih =>
    have hstep : giveDest h start (s.setEntry h e) c =
        (s.modNode c.2 fun x => { x with load := x.load + 1 }).setEntry h
          { e with members := e.members.modify c.1 (Member.taking start c.2) } := by
      unfold giveDest State.modMember
      rw [State.modEntry_eq ((State.entry_setEntry ..).trans (if_pos rfl))]
      unfold State.setEntry State.modNode State.setNode State.node
      simp only [Table.put_put]
      rfl
    rw [List.foldl_cons, hstep, ih]
    rfl

theorem foldl_setStart (h : Handle) (start : Offset) (l : List (Position × NodeId)) (s : State) (e : Entry) :
    l.foldl (fun t (x : Position × NodeId) => t.modTarget h x.1 fun y => { y with start := start }) (s.setEntry h e) =
      s.setEntry h { e with members := l.foldl (fun ms c => ms.modify c.1 (Member.startingAt start)) e.members } := by
  induction l generalizing e with
  | nil => rfl
  | cons c rest ih =>
    have hstep : (s.setEntry h e).modTarget h c.1 (fun y => { y with start := start }) =
        s.setEntry h { e with members := e.members.modify c.1 (Member.startingAt start) } := by
      unfold State.modTarget State.modMember
      rw [State.modEntry_eq ((State.entry_setEntry ..).trans (if_pos rfl))]
      unfold State.setEntry
      simp only [Table.put_put]
      rfl
    rw [List.foldl_cons, hstep, ih]
    rfl

theorem given_members (e : Entry) (l : List (Position × NodeId)) (hl : (l.map Prod.fst).Nodup) (start : Offset) :
    l.foldl (fun ms c => ms.modify c.1 (Member.taking start c.2)) e.withRecords.members = (e.given l start).members := by
  refine List.ext_getElem? fun j => ?_
  rw [foldl_modify (Member.taking start) l hl]
  unfold Entry.withRecords Entry.given
  rw [List.getElem?_map, List.getElem?_mapIdx, Option.map_map]
  cases e.members[j]? with
  | none => rfl
  | some m =>
    simp only [Option.map_some, Function.comp_apply]
    cases l.find? (fun c => decide (c.1 = j)) with
    | none =>
      simp only [Option.map_none, Member.given, Option.isNone_iff_eq_none]
    | some c =>
      simp only [Option.map_some, Member.given, Member.taking]
      by_cases hm : m.state = .lost ∧ m.target.isNone = true
      · rw [if_pos hm]
        have ht : m.target = none := Option.isNone_iff_eq_none.mp hm.2
        simp [ht]
      · rw [if_neg hm]

theorem given_restarted (e : Entry) (l : List (Position × NodeId)) (hl : (l.map Prod.fst).Nodup) (start start' : Offset) :
    l.foldl (fun ms c => ms.modify c.1 (Member.startingAt start')) (e.given l start).members = (e.given l start').members := by
  refine List.ext_getElem? fun j => ?_
  rw [foldl_modify (fun _ : NodeId => Member.startingAt start') l hl]
  unfold Entry.given
  rw [List.getElem?_mapIdx, List.getElem?_mapIdx, Option.map_map]
  cases e.members[j]? with
  | none => rfl
  | some m =>
    simp only [Option.map_some, Function.comp_apply]
    cases l.find? (fun c => decide (c.1 = j)) <;> rfl

/-- R73 step 3, R84 step 3: the destinations chosen are given, and the records that are missing are made. -/
theorem State.giveDests_given (s : State) (h : Handle) (x e : Entry) (start : Offset) (d : DestChoice)
    (hd : (d.chosen.map Prod.fst).Nodup) :
    (s.setEntry h { x with members := e.withRecords.members }).giveDests h start d =
      ({ s with nodes := loadedBy s.nodes d.chosen, selector := d.selector } : State).setEntry h
        { x with members := (e.given d.chosen start).members } := by
  unfold State.giveDests
  rw [foldl_giveDest, given_members e d.chosen hd start]
  rfl

/-- R73 step 6: the destinations given take another start offset. -/
theorem State.setStarts_given (s : State) (h : Handle) (x e : Entry) (start start' : Offset) (d : DestChoice)
    (hd : (d.chosen.map Prod.fst).Nodup) :
    (s.setEntry h { x with members := (e.given d.chosen start).members }).setStarts h start' d =
      s.setEntry h { x with members := (e.given d.chosen start').members } := by
  unfold State.setStarts
  rw [foldl_setStart, given_restarted e d.chosen hd start start']

/-! ### The choosing (R80) -/

theorem State.chooseDests_positions (s : State) (e : Entry) (l : List Position) (chosen : List (Position × NodeId)) (sel : U16)
    (relaxed : Bool) : ∃ taken, (s.chooseDests e l chosen sel relaxed).chosen = chosen ++ taken ∧ (taken.map Prod.fst).Sublist l := by
  induction l generalizing chosen sel relaxed with
  | nil => exact ⟨[], by simp [State.chooseDests], by simp⟩
  | cons pos rest ih =>
    simp only [State.chooseDests]
    split
    · rename_i n _
      obtain ⟨taken, h1, h2⟩ := ih (chosen ++ [(pos, n)]) (lfsrStep sel)
        (relaxed || (s.listed e pos (chosen.map fun c => c.2)).2)
      exact ⟨(pos, n) :: taken, by rw [h1]; simp, h2.cons_cons pos⟩
    · exact ⟨[], by simp, by simp⟩

theorem Entry.destless_rising (e : Entry) : e.destless.Pairwise (· < ·) := by
  unfold Entry.destless
  rw [zipIdx_filterMap]
  refine List.Pairwise.filterMap _ (fun a b hab x hx y hy => ?_) List.pairwise_lt_range
  have pos : ∀ a x, (e.members[a]?.bind fun m =>
      if m.gone && (match m.target with | some t => t.dest.isNone | none => true) then some (a + 0) else none) = some x → x = a := by
    intro a x hx
    cases hm : e.members[a]? with
    | none => simp [hm] at hx
    | some m =>
      simp only [hm, Option.bind_some, Nat.add_zero, Option.ite_none_right_eq_some] at hx
      exact (Option.some.inj hx.2).symm
  rw [pos a x hx, pos b y hy]
  exact hab

/-- R80: no target is chosen for twice. -/
theorem State.destChoice_nodup (s : State) (e : Entry) : ((s.destChoice e).chosen.map Prod.fst).Nodup := by
  obtain ⟨taken, h1, h2⟩ := s.chooseDests_positions e e.destless [] s.selector false
  unfold State.destChoice
  rw [h1, List.nil_append]
  exact (e.destless_rising.imp fun h => Nat.ne_of_lt h).sublist h2

/-- R77 to R80 look at the nodes, at which ports are UP, at the selector and at the members alone. -/
theorem State.destChoice_congr {s u : State} {e f : Entry} (hn : u.nodes = s.nodes) (hp : ∀ p, (u.port p).state = (s.port p).state)
    (hs : u.selector = s.selector) (hm : f.members = e.members) : u.destChoice f = s.destChoice e := by
  have htarget : ∀ pos, f.target? pos = e.target? pos := fun pos => Entry.target?_congr (by rw [hm])
  have htargets : f.targets = e.targets := by rw [Entry.targets_eq, Entry.targets_eq, hm]; simp only [htarget]
  have hroute : ∀ x, u.routeUp x = s.routeUp x := fun x => by unfold State.routeUp; cases x.route <;> simp [hp]
  have hcand : ∀ pos chosen n x, u.candidate f pos chosen n x = s.candidate e pos chosen n x := fun pos chosen n x => by
    unfold State.candidate Entry.voidNodes
    rw [hroute, hm, htargets, htarget]
  have hnode : ∀ n, u.node n = s.node n := fun n => by unfold State.node; rw [hn]
  have hrack : ∀ occ n, u.rackCount occ n = s.rackCount occ n := fun occ n => by unfold State.rackCount; simp only [hnode]
  have hlisted : ∀ pos chosen, u.listed f pos chosen = s.listed e pos chosen := fun pos chosen => by
    unfold State.listed Entry.occupants
    have h1 : u.candidate f pos chosen = s.candidate e pos chosen := by funext n x; exact hcand pos chosen n x
    have h2 : u.rackCount = s.rackCount := by funext occ n; exact hrack occ n
    rw [hn, h1, h2, hm, htargets]
  have hall : ∀ l chosen sel r, u.chooseDests f l chosen sel r = s.chooseDests e l chosen sel r := by
    intro l
    induction l with
    | nil => intros; rfl
    | cons pos rest ih =>
      intro chosen sel r
      simp only [State.chooseDests, hlisted]
      split
      · exact ih ..
      · rfl
  unfold State.destChoice Entry.destless
  rw [hs, hm, hall]

/-- R73 steps 3 and 4, R35: the loads and the selector after destinations were given. -/
theorem loadsGiven_of {s t : State} {d : DestChoice} (hn : t.nodes = loadedBy s.nodes d.chosen) (hs : t.selector = d.selector) :
    loadsGiven s t d := by
  refine ⟨hs, fun n => ?_⟩
  show t.nodes[n] = _
  rw [hn, getElem_loadedBy]
  rfl

end Sys2Proof.Machine
end

