-- ==== Sys2Proof/Laws/Dispatching.lean ====
section
/-! SUPPORT. Which entry is ready, which one the arbiter chooses, and the cells a pass draws (R128 to R131). -/

namespace Sys2Proof.Machine

open Sys2Proof.Config

/-- R128: the entry is ready for a pass. -/
theorem State.ready_iff (s : State) (h : Handle) (e : Entry) : s.ready (h, e) = true ↔
    e.state = .active ∧ s.park ≠ some h ∧ (∀ j x, s.lane j = some x → x.handle ≠ h)
      ∧ ∃ pl, e.plan = some pl ∧ s.needing h e pl.decodePoint ≠ []
        ∧ (∀ pos < e.members.length, ((∃ l, pl.sources = some l ∧ pos ∈ l) ∨ pl.check = some pos) →
            ∃ c x v, s.cell c = some x ∧ x.owner = h ∧ x.use = .source pos pl.decodePoint v)
        ∧ (s.needing h e pl.decodePoint).length ≤ s.unusedFloorCount h + s.freeCount := by
  have held : ∀ (pos : Position) (o : Offset), (s.sourceCell h pos o).isSome = true ↔
      ∃ c x v, s.cell c = some x ∧ x.owner = h ∧ x.use = .source pos o v := fun pos o => by
    constructor
    · intro hs
      obtain ⟨c, hc⟩ := Option.isSome_iff_exists.mp hs
      exact ⟨c, State.sourceCell_some hc⟩
    · rintro ⟨c, x, v, h1, h2, h3⟩
      by_contra hn
      exact (s.sourceCell_none h pos o).mp (by simpa using hn) c x h1 h2 v h3
  unfold State.ready State.readyAt
  simp only [Bool.and_eq_true, decide_eq_true_eq, bne_iff_ne, Bool.not_eq_true', s.passInFlight_eq_false, and_assoc]
  refine and_congr Iff.rfl (and_congr Iff.rfl (and_congr Iff.rfl ?_))
  cases hp : e.plan with
  | none => simp
  | some pl =>
    simp only [Bool.and_eq_true, decide_eq_true_eq, List.all_eq_true, Plan.gatherSet, List.mem_filter, List.mem_range, held,
      Plan.gathers_iff, Option.some.injEq, exists_eq_left', List.length_pos_iff, and_imp, and_assoc]

/-- R130: the entry chosen is ready, and stands first of the ready ones. -/
theorem State.chosen_spec {s : State} {h : Handle} {e : Entry} (hc : s.chosen = some (h, e)) :
    (h, e) ∈ s.entries ∧ s.ready (h, e) = true
      ∧ (s.rising → s.oneEra → ∀ j f, (j, f) ∈ s.entries → s.ready (j, f) = true → j = h ∨ comesFirst (h, e) (j, f)) := by
  have hm := mostUrgent_mem hc
  rw [List.mem_filter] at hm
  refine ⟨hm.1, hm.2, fun hr ⟨first, he⟩ j f hj hf => ?_⟩
  have := (mostUrgent_first (first := first) (fun y hy => he y (List.mem_of_mem_filter hy)) (hr.filter _) hc).2 (j, f)
    (List.mem_filter.mpr ⟨hj, hf⟩)
  exact this.imp (fun heq => congrArg Prod.fst heq) id

theorem State.chosen_none (s : State) : s.chosen = none ↔ ∀ h e, (h, e) ∈ s.entries → s.ready (h, e) = false := by
  unfold State.chosen
  rw [mostUrgent_eq_none, List.filter_eq_nil_iff]
  exact ⟨fun k h e hm => by simpa using k (h, e) hm, fun k ⟨h, e⟩ hm => by simpa using k h e hm⟩

/-! ### The output cells (R129, R131) -/

theorem cell_setCell (s : State) (c k : CellId) (x : Option Cell) :
    (s.setCell c x).cell k = if k = c then x else s.cell k := by
  simp only [State.setCell, State.cell, Fin.getElem_fin, Vector.getElem_set, Fin.ext_iff, eq_comm]

/-- How a count of cells changes when one cell does. -/
theorem countP_setCell (s : State) (c : CellId) (x : Option Cell) (f : Option Cell → Bool) :
    (s.setCell c x).cells.toList.countP f + (if f (s.cell c) then 1 else 0)
      = s.cells.toList.countP f + (if f x then 1 else 0) := by
  have hlt : c.val < s.cells.toList.length := by simp
  have h1 : (s.setCell c x).cells.toList = s.cells.toList.set c.val x := by simp [State.setCell, Vector.toList_set]
  have h2 : s.cells.toList[c.val] = s.cell c := by simp [State.cell]
  rw [h1, List.countP_set hlt, h2]
  have h3 : (if f (s.cell c) = true then 1 else 0) ≤ s.cells.toList.countP f := by
    split
    · rename_i hf
      exact List.countP_pos_iff.mpr ⟨s.cell c, h2 ▸ List.getElem_mem hlt, hf⟩
    · omega
  omega

/-- R129: a cell drawn for an output is unused floor while there is any, and else FREE; it is counted as neither
afterwards. -/
theorem State.outputCell_spec {s : State} {h : Handle} {c : CellId} (hc : s.outputCell h = some c) (use : CellUse)
    (hu : use ≠ .floor) :
    ((∃ y, s.cell c = some y ∧ y.owner = h ∧ y.use = .floor) ∧ 0 < s.unusedFloorCount h
        ∧ (s.draw c h use).unusedFloorCount h + 1 = s.unusedFloorCount h ∧ (s.draw c h use).freeCount = s.freeCount)
    ∨ (s.cell c = none ∧ s.unusedFloorCount h = 0
        ∧ (s.draw c h use).unusedFloorCount h = 0 ∧ (s.draw c h use).freeCount + 1 = s.freeCount) := by
  have hfloor : ∀ x : Option Cell, cellIs (Cell.unusedFloorOf h) x = true ↔ ∃ y, x = some y ∧ y.owner = h ∧ y.use = .floor := by
    intro x
    rw [cellIs_iff]
    simp [Cell.unusedFloorOf]
  have hnew : cellIs (Cell.unusedFloorOf h) (some ⟨h, s.chargeOf c, use, []⟩) = false := by
    rw [← Bool.not_eq_true, hfloor]
    rintro ⟨y, he, -, hy⟩
    obtain rfl := Option.some.inj he
    exact hu hy
  have k1 := countP_setCell s c (some ⟨h, s.chargeOf c, use, []⟩) (cellIs (Cell.unusedFloorOf h))
  have k2 := countP_setCell s c (some ⟨h, s.chargeOf c, use, []⟩) Option.isNone
  rw [hnew] at k1
  simp only [Option.isNone_some, Bool.false_eq_true, if_false, Nat.add_zero] at k1 k2
  unfold State.outputCell at hc
  split at hc
  · rename_i c' hf
    obtain rfl := Option.some.inj hc
    have hy := State.unusedFloorCell_some hf
    have h1 : cellIs (Cell.unusedFloorOf h) (s.cell c') = true := (hfloor _).mpr hy
    obtain ⟨y, hy', -⟩ := hy
    rw [if_pos h1] at k1
    rw [hy'] at k2
    simp only [Option.isNone_some, Bool.false_eq_true, if_false, Nat.add_zero] at k2
    refine .inl ⟨State.unusedFloorCell_some hf, ?_, ?_, k2⟩
    · unfold State.unusedFloorCount State.cellCount
      omega
    · exact k1
  · rename_i hf
    have hn := (s.unusedFloorCell_none h).mp hf
    have hfree := State.freeCell_some hc
    have h0 : s.unusedFloorCount h = 0 := by
      unfold State.unusedFloorCount State.cellCount
      rw [List.countP_eq_zero]
      intro x hx hcx
      obtain ⟨i, hi, rfl⟩ := List.mem_iff_getElem.mp hx
      exact hn ⟨i, by simpa using hi⟩ (by simpa [State.cell] using (hfloor _).mp hcx)
    rw [hfree] at k1 k2
    simp only [cellIs, Bool.false_eq_true, if_false, Nat.add_zero, Option.isNone_none, if_true] at k1 k2
    exact .inr ⟨hfree, h0, k1.trans h0, k2⟩

theorem State.outputCell_isSome {s : State} {h : Handle} (hpos : 0 < s.unusedFloorCount h + s.freeCount) :
    ∃ c, s.outputCell h = some c := by
  by_contra hn
  have hnone : s.outputCell h = none := by
    cases hc : s.outputCell h with
    | none => rfl
    | some c => exact absurd ⟨c, hc⟩ hn
  unfold State.outputCell at hnone
  split at hnone
  · cases hnone
  · rename_i hf
    have h1 := (s.unusedFloorCell_none h).mp hf
    have h2 := s.freeCell_none.mp hnone
    have e1 : s.unusedFloorCount h = 0 := by
      unfold State.unusedFloorCount State.cellCount
      rw [List.countP_eq_zero]
      intro x hx hcx
      obtain ⟨i, hi, rfl⟩ := List.mem_iff_getElem.mp hx
      rw [cellIs_iff] at hcx
      simp only [Cell.unusedFloorOf, Bool.and_eq_true, decide_eq_true_eq] at hcx
      exact h1 ⟨i, by simpa using hi⟩ (by simpa [State.cell] using hcx)
    have e2 : s.freeCount = 0 := by
      unfold State.freeCount
      rw [List.countP_eq_zero]
      intro x hx hcx
      obtain ⟨i, hi, rfl⟩ := List.mem_iff_getElem.mp hx
      exact h2 ⟨i, by simpa using hi⟩ (by simpa [State.cell] using hcx)
    omega

/-- R129, R131: what the drawing of a pass's outputs comes to. -/
structure OutputsDrawn (s t : State) (h : Handle) (o : Offset) (bank : Bank) (l : List (Position × Target))
    (outs : List PassOutput) : Prop where
  rest : { s with cells := t.cells } = t
  positions : outs.map PassOutput.position = l.map Prod.fst
  distinct : (outs.map PassOutput.cell).Nodup
  output : ∀ x ∈ outs, x.row = bank.rowOf x.position ∧ (∃ pt ∈ l, pt.1 = x.position ∧ pt.2.dest = some x.dest)
    ∧ t.cell x.cell = some ⟨h, s.chargeOf x.cell, .output x.position o, []⟩
  floorFirst : ∀ (i : Nat) (x : PassOutput), outs[i]? = some x →
    (i < s.unusedFloorCount h → ∃ y, s.cell x.cell = some y ∧ y.owner = h ∧ y.use = .floor)
    ∧ (s.unusedFloorCount h ≤ i → s.cell x.cell = none)
  others : ∀ c, c ∉ outs.map PassOutput.cell → t.cell c = s.cell c

theorem foldl_drawOutput (h : Handle) (o : Offset) (bank : Bank) (l : List (Position × Target)) (s : State) (acc : List PassOutput) :
    l.foldl (drawOutput h o bank) (s, acc) = ((s.drawOutputs h o bank l).1, acc ++ (s.drawOutputs h o bank l).2) := by
  unfold State.drawOutputs
  induction l generalizing s acc with
  | nil => simp
  | cons pt rest ih =>
    simp only [List.foldl_cons]
    have hstep : ∃ u new, ∀ acc : List PassOutput, drawOutput h o bank (s, acc) pt = (u, acc ++ new) := by
      cases hd : pt.2.dest with
      | none => exact ⟨s, [], fun acc => by simp [drawOutput, hd]⟩
      | some n =>
        cases hc : s.outputCell h with
        | none => exact ⟨s, [], fun acc => by simp [drawOutput, hd, hc]⟩
        | some c => exact ⟨s.draw c h (.output pt.1 o), [⟨pt.1, c, n, bank.rowOf pt.1⟩], fun acc => by simp [drawOutput, hd, hc]⟩
    obtain ⟨u, new, hnew⟩ := hstep
    rw [hnew, hnew, ih u (acc ++ new), ih u ([] ++ new)]
    simp

theorem State.drawOutputs_spec {s : State} {h : Handle} {o : Offset} {bank : Bank} {l : List (Position × Target)}
    (hd : ∀ pt ∈ l, pt.2.dest ≠ none) (hl : l.length ≤ s.unusedFloorCount h + s.freeCount) :
    OutputsDrawn s (s.drawOutputs h o bank l).1 h o bank l (s.drawOutputs h o bank l).2 := by
  induction l generalizing s with
  | nil => exact ⟨rfl, rfl, List.nodup_nil, by simp [State.drawOutputs], by simp [State.drawOutputs], fun c _ => rfl⟩
  | cons pt rest ih =>
    obtain ⟨pos, t⟩ := pt
    obtain ⟨n, hn⟩ := Option.ne_none_iff_exists'.mp (hd (pos, t) (by simp))
    obtain ⟨c, hc⟩ := State.outputCell_isSome (s := s) (h := h) (by simp only [List.length_cons] at hl; omega)
    let u := s.draw c h (.output pos o)
    have hspec := State.outputCell_spec hc (.output pos o) (by simp)
    have hroom : rest.length ≤ u.unusedFloorCount h + u.freeCount := by
      simp only [List.length_cons] at hl
      rcases hspec with ⟨-, -, a, b⟩ | ⟨-, a, b, d⟩ <;> simp only [u] <;> omega
    have k := ih (fun x hx => hd x (by simp [hx])) hroom
    have heq : s.drawOutputs h o bank ((pos, t) :: rest)
        = ((u.drawOutputs h o bank rest).1, ⟨pos, c, n, bank.rowOf pos⟩ :: (u.drawOutputs h o bank rest).2) := by
      conv_lhs => unfold State.drawOutputs
      simp only [List.foldl_cons]
      have hstep : drawOutput h o bank (s, []) (pos, t) = (u, [⟨pos, c, n, bank.rowOf pos⟩]) := by
        unfold drawOutput
        rw [hn, hc]
        rfl
      rw [hstep, foldl_drawOutput]
      simp
    rw [heq]
    generalize (u.drawOutputs h o bank rest).1 = v at k ⊢
    generalize (u.drawOutputs h o bank rest).2 = outs at k ⊢
    have hu : ∀ j, u.cell j = if j = c then some ⟨h, s.chargeOf c, .output pos o, []⟩ else s.cell j := fun j => cell_setCell s c j _
    have hother : ∀ x ∈ outs, x.cell ≠ c := fun x hx hxc => by
      obtain ⟨i, hi, rfl⟩ := List.mem_iff_getElem.mp hx
      have hf := k.floorFirst i _ (List.getElem?_eq_getElem hi)
      rw [hxc, hu, if_pos rfl] at hf
      rcases Nat.lt_or_ge i (u.unusedFloorCount h) with hlt | hge
      · obtain ⟨y, hy, -, hyu⟩ := hf.1 hlt
        obtain rfl := Option.some.inj hy
        cases hyu
      · exact absurd (hf.2 hge) (by simp)
    have hcharge : ∀ x ∈ outs, u.chargeOf x.cell = s.chargeOf x.cell := fun x hx => by
      unfold State.chargeOf
      rw [hu, if_neg (hother x hx)]
    refine ⟨?_, by simp [k.positions], ?_, fun x hx => ?_, fun i x hx => ?_, fun j hj => ?_⟩
    · rw [← k.rest]
      rfl
    · refine List.nodup_cons.mpr ⟨fun hm => ?_, k.distinct⟩
      obtain ⟨x, hx, hxc⟩ := List.mem_map.mp hm
      exact hother x hx hxc
    · rcases List.mem_cons.mp hx with rfl | hx
      · refine ⟨rfl, ⟨(pos, t), by simp, rfl, hn⟩, ?_⟩
        rw [k.others c fun hm => by
          obtain ⟨y, hy, hyc⟩ := List.mem_map.mp hm
          exact hother y hy hyc, hu, if_pos rfl]
      · obtain ⟨a, ⟨pt, hp, b⟩, d⟩ := k.output x hx
        exact ⟨a, ⟨pt, by simp [hp], b⟩, by rw [d, hcharge x hx]⟩
    · cases i with
      | zero =>
        obtain rfl := Option.some.inj hx
        rcases hspec with ⟨a, b, -, -⟩ | ⟨a, b, -, -⟩
        · exact ⟨fun _ => a, fun hle => absurd b (by omega)⟩
        · exact ⟨fun hlt => absurd hlt (by omega), fun _ => a⟩
      | succ i =>
        have hx' : outs[i]? = some x := by simpa using hx
        have hm := List.mem_of_getElem? hx'
        have hf := k.floorFirst i x hx'
        rw [hu, if_neg (hother x hm)] at hf
        have hun : s.unusedFloorCount h = u.unusedFloorCount h + 1 ∨ (s.unusedFloorCount h = 0 ∧ u.unusedFloorCount h = 0) := by
          rcases hspec with ⟨-, -, a, -⟩ | ⟨-, a, b, -⟩
          · exact .inl a.symm
          · exact .inr ⟨a, b⟩
        exact ⟨fun hlt => hf.1 (by omega), fun hle => hf.2 (by omega)⟩
    · simp only [List.map_cons, List.mem_cons, not_or] at hj
      rw [k.others j hj.2, hu, if_neg hj.1]

end Sys2Proof.Machine
end

