-- ==== Sys2Proof/Laws/Floors.lean ====
section
/-! SUPPORT. What the floor operations and the giving up of cells outside a gather set do (R72, R84, R121, R124). -/

namespace Sys2Proof.Machine

open Sys2Proof.Config

/-! ### Reserving and resizing a floor (R72) -/

theorem State.freeCount_zero {s : State} (h : s.freeCell = none) : s.freeCount = 0 := by
  unfold State.freeCount
  rw [List.countP_eq_zero]
  intro x hx hn
  obtain ⟨i, hi, rfl⟩ := List.mem_iff_getElem.mp hx
  exact s.freeCell_none.mp h ⟨i, by simpa using hi⟩ (by simpa [State.cell] using hn)

/-- R72: FREE cells, as many as there are, become RESERVED to a floor, and nothing else is changed. -/
theorem reserveFloor_reserves (h : Handle) (n : Nat) (s : State) :
    { s with cells := (reserveFloor h n s).cells } = reserveFloor h n s ∧ reserves s (reserveFloor h n s) h n := by
  induction n generalizing s with
  | zero => exact ⟨rfl, [], by simp, by simp, by simp, by simp, fun c _ => rfl⟩
  | succ n ih =>
    have heq : reserveFloor h (n + 1) s = reserveFloor h n (s.reserveOne h) := rfl
    rw [heq]
    cases hc : s.freeCell with
    | none =>
      have h1 : s.reserveOne h = s := by unfold State.reserveOne; rw [hc]
      have h0 := State.freeCount_zero hc
      obtain ⟨a, l, b1, b2, b3, b4, b5⟩ := ih s
      rw [h1]
      exact ⟨a, l, b1, by rw [b2, h0]; simp, b3, b4, b5⟩
    | some c =>
      have h1 : s.reserveOne h = s.setCell c (some (floorCell h)) := by unfold State.reserveOne; rw [hc]
      have hfree := State.freeCell_some hc
      have hcount := countP_setCell s c (some (floorCell h)) Option.isNone
      rw [hfree] at hcount
      simp only [Option.isNone_none, if_true, Option.isNone_some, Bool.false_eq_true, if_false, Nat.add_zero] at hcount
      rw [h1]
      obtain ⟨a, l, b1, b2, b3, b4, b5⟩ := ih (s.setCell c (some (floorCell h)))
      have hcl : c ∉ l := fun hm => by
        have := b3 c hm
        rw [cell_setCell, if_pos rfl] at this
        cases this
      refine ⟨by rw [← a]; rfl, c :: l, List.nodup_cons.mpr ⟨hcl, b1⟩, ?_, fun k hk => ?_, fun k hk => ?_, fun k hk => ?_⟩
      · rw [List.length_cons, b2]
        unfold State.freeCount at *
        omega
      · rcases List.mem_cons.mp hk with rfl | hk
        · exact hfree
        · have := b3 k hk
          rwa [cell_setCell, if_neg (fun x : k = c => hcl (x ▸ hk))] at this
      · rcases List.mem_cons.mp hk with rfl | hk
        · rw [b5 k hcl, cell_setCell, if_pos rfl]
          rfl
        · exact b4 k hk
      · rw [List.mem_cons, not_or] at hk
        rw [b5 k hk.2, cell_setCell, if_neg hk.1]

theorem State.unusedFloorCount_zero {s : State} {h : Handle} (hn : s.unusedFloorCell h = none) : s.unusedFloorCount h = 0 := by
  rw [State.unusedFloorCount, State.cellCount_eq_zero]
  intro c x hx
  have := (s.unusedFloorCell_none h).mp hn c
  simp only [not_exists, not_and] at this
  simp only [Cell.unusedFloorOf, Bool.and_eq_false_iff, decide_eq_false_iff_not]
  by_cases ho : x.owner = h
  · exact .inr (this x hx ho)
  · exact .inl ho

/-- R124: of an entry whose floor is above its size, the release of an unused floor cell takes it from the entry. -/
theorem State.release_surplus {s : State} {h : Handle} {e : Entry} {pl : Plan} {c : CellId} {n : Nat} (hr : s.rising)
    (he : s.entry? h = some e) (hp : e.plan = some pl) (hn : pl.floorSize + (n + 1) ≤ s.floorCount h)
    (hc : s.unusedFloorCell h = some c) :
    (∀ x, (s.release c).cell c = some x → x.owner ≠ h) ∧ (s.release c).unusedFloorCount h + 1 = s.unusedFloorCount h
      ∧ pl.floorSize + n ≤ (s.release c).floorCount h := by
  obtain ⟨x, hx, hown, huse⟩ := State.unusedFloorCell_some hc
  obtain ⟨hother, -, hall⟩ := s.release_spec c
  obtain ⟨-, -, hshort, hfree⟩ := hall x hx
  have hnh : ¬s.hasHome x := by
    rintro ⟨-, f, q, hf, hq, hle⟩
    rw [hown, he] at hf
    obtain rfl := Option.some.inj hf
    obtain rfl := Option.some.inj (hp.symm.trans hq)
    rw [hown] at hle
    omega
  have hnew : (∃ k, k ≠ h ∧ (s.release c).cell c = some (floorCell k)) ∨ (s.release c).cell c = none := by
    by_cases hs : ∃ he, s.short he
    · obtain ⟨⟨k, f⟩, hk, hcell⟩ := hshort hnh hs
      refine .inl ⟨k, fun hkh => ?_, hcell⟩
      obtain ⟨hm, q, hq, hlt⟩ := hk
      have hf := State.entry_of_mem hr hm
      simp only at hq hlt hkh
      rw [hkh, he] at hf
      obtain rfl := Option.some.inj hf
      obtain rfl := Option.some.inj (hp.symm.trans hq)
      rw [hkh] at hlt
      omega
    · exact .inr (hfree hnh hs).1
  have hset : (s.release c).cells = (s.setCell c ((s.release c).cell c)).cells := by
    refine Vector.ext fun i hi => ?_
    have h1 : (s.release c).cell ⟨i, hi⟩ = (s.setCell c ((s.release c).cell c)).cell ⟨i, hi⟩ := by
      rw [cell_setCell]
      split
      · rename_i h
        rw [h]
      · rename_i h
        exact hother _ h
    exact h1
  have hf : ∀ y, (s.release c).cell c = some y → y.owner ≠ h := fun y hy hyo => by
    rcases hnew with ⟨k, hk, h1⟩ | h1
    · rw [h1] at hy
      exact hk (by rw [← Option.some.inj hy] at hyo; exact hyo)
    · rw [h1] at hy
      cases hy
  have hun : cellIs (Cell.unusedFloorOf h) ((s.release c).cell c) = false := by
    rw [← Bool.not_eq_true, cellIs_iff]
    rintro ⟨y, hy, hu⟩
    simp only [Cell.unusedFloorOf, Bool.and_eq_true, decide_eq_true_eq] at hu
    exact hf y hy hu.1
  have hfl : cellIs (fun x => decide (x.owner = h) && decide (x.charge = .floor)) ((s.release c).cell c) = false := by
    rw [← Bool.not_eq_true, cellIs_iff]
    rintro ⟨y, hy, hu⟩
    simp only [Bool.and_eq_true, decide_eq_true_eq] at hu
    exact hf y hy hu.1
  have k1 := countP_setCell s c ((s.release c).cell c) (cellIs (Cell.unusedFloorOf h))
  have k2 := countP_setCell s c ((s.release c).cell c) (cellIs fun x => decide (x.owner = h) && decide (x.charge = .floor))
  have hux : cellIs (Cell.unusedFloorOf h) (s.cell c) = true := by
    rw [cellIs_iff]
    exact ⟨x, hx, by simp [Cell.unusedFloorOf, hown, huse]⟩
  rw [hun, if_pos hux, ← hset] at k1
  rw [hfl, ← hset] at k2
  simp only [Bool.false_eq_true, if_false, Nat.add_zero] at k1 k2
  refine ⟨hf, k1, ?_⟩
  unfold State.floorCount State.cellCount at *
  split at k2 <;> omega

/-- R72, R124: the surplus of a floor is released, one unused floor cell after another. -/
theorem shrinkFloor_releases (h : Handle) (n : Nat) (s : State) {e : Entry} {pl : Plan} (hr : s.rising)
    (he : s.entry? h = some e) (hp : e.plan = some pl) (hn : pl.floorSize + n ≤ s.floorCount h) :
    CellsOnly s (shrinkFloor h n s) ∧ ∃ l : List CellId, l.Nodup ∧ l.length = min n (s.unusedFloorCount h)
      ∧ (∀ c ∈ l, ∃ x, s.cell c = some x ∧ x.owner = h ∧ x.use = .floor) ∧ releases s l (shrinkFloor h n s) := by
  induction n generalizing s with
  | zero => exact ⟨CellsOnly.refl s, [], by simp, by simp, by simp, rfl, id⟩
  | succ n ih =>
    have heq : shrinkFloor h (n + 1) s = shrinkFloor h n (s.shrinkOne h) := rfl
    rw [heq]
    cases hc : s.unusedFloorCell h with
    | none =>
      have h1 : s.shrinkOne h = s := by unfold State.shrinkOne; rw [hc]
      obtain ⟨a, l, b1, b2, b3, b4⟩ := ih s hr he (by omega)
      rw [h1]
      exact ⟨a, l, b1, by rw [b2, State.unusedFloorCount_zero hc]; simp, b3, b4⟩
    | some c =>
      have h1 : s.shrinkOne h = s.release c := by unfold State.shrinkOne; rw [hc]
      have hcells := CellsOnly.release s c
      have hent : (s.release c).entries = s.entries := by rw [← hcells]
      obtain ⟨k1, k2, k3⟩ := State.release_surplus hr he hp hn hc
      have hrise : (s.release c).rising := by
        unfold State.rising
        rwa [hent]
      have hfind : (s.release c).entry? h = some e := (congrArg (Table.find · h) hent).trans he
      obtain ⟨a, l, b1, b2, b3, b4⟩ := ih (s.release c) hrise hfind k3
      have hcl : c ∉ l := fun hm => by
        obtain ⟨x, hx, ho, -⟩ := b3 c hm
        exact k1 x hx ho
      rw [h1]
      refine ⟨hcells.trans a, c :: l, List.nodup_cons.mpr ⟨hcl, b1⟩, ?_, fun k hk => ?_,
        s.release c, s.release_spec c, hcells, s.release_attempt c, b4⟩
      · rw [List.length_cons, b2]
        omega
      · rcases List.mem_cons.mp hk with rfl | hk
        · exact State.unusedFloorCell_some hc
        · have := b3 k hk
          rwa [(s.release_spec c).1 k fun x => hcl (x ▸ hk)] at this

/-- R72: at a revision the floor of an entry with a plan takes its new size. -/
theorem State.resizeFloor_resizes {s : State} {h : Handle} {e : Entry} {pl : Plan} (hr : s.rising) (he : s.entry? h = some e)
    (hp : e.plan = some pl) (size : Nat) :
    let u := s.setEntry h { e with plan := some { pl with floorSize := size } }
    CellsOnly u (s.resizeFloor h size) ∧ resizesFloor u (s.resizeFloor h size) h size := by
  intro u
  have hu : s.modPlan h (fun pl => { pl with floorSize := size }) = u := by
    unfold State.modPlan
    rw [State.modEntry_eq he, hp]
    rfl
  have heq : s.resizeFloor h size = if size < u.floorCount h then shrinkFloor h (u.floorCount h - size) u
      else reserveFloor h (size - u.floorCount h) u := by
    unfold State.resizeFloor
    rw [hu]
  have hru : u.rising := Table.sorted_put _ _ _ hr
  have hself : u.entry? h = some { e with plan := some { pl with floorSize := size } } :=
    (State.entry_setEntry ..).trans (if_pos rfl)
  rw [heq]
  by_cases hlt : size < u.floorCount h
  · rw [if_pos hlt]
    obtain ⟨a, b⟩ := shrinkFloor_releases h (u.floorCount h - size) u hru hself rfl (by simp only; omega)
    exact ⟨a, fun hle => by omega, fun _ => b⟩
  · rw [if_neg hlt]
    obtain ⟨a, b⟩ := reserveFloor_reserves h (size - u.floorCount h) u
    refine ⟨?_, fun _ => b, fun h1 => absurd h1 hlt⟩
    unfold CellsOnly
    rw [← a]

/-! ### Cells and fetches outside the gather set (R84 step 2, R121) -/

/-- R121: the answer cells of the LIVE fetches that a test names. -/
theorem mem_liveCells (s : State) (f : Fetch → Bool) (c : CellId) :
    (∃ k ∈ allPorts, c ∈ (s.port k).liveCells f) ↔
      ∃ q, ∃ tag : FetchTag, ∃ x, (s.port q).fetches[tag] = some x ∧ f x = true ∧ x.cell = some c := by
  have slot : ∀ q : Port, c ∈ q.liveCells f ↔ ∃ tag : FetchTag, ∃ x, q.fetches[tag] = some x ∧ f x = true ∧ x.cell = some c := by
    intro q
    simp only [Port.liveCells, List.mem_filterMap]
    constructor
    · rintro ⟨y, hy, hc⟩
      obtain ⟨i, hi, rfl⟩ := List.mem_iff_getElem.mp hy
      refine ⟨⟨i, by simpa using hi⟩, ?_⟩
      split at hc
      · rename_i x hx
        split at hc
        · rename_i hf
          exact ⟨x, by simpa using hx, hf, hc⟩
        · cases hc
      · cases hc
    · rintro ⟨tag, x, hx, hf, hc⟩
      refine ⟨q.fetches[tag], by simp, ?_⟩
      rw [hx]
      simp [hf, hc]
  constructor
  · rintro ⟨k, -, hk⟩
    exact ⟨k, (slot _).mp hk⟩
  · rintro ⟨k, hk⟩
    exact ⟨k, mem_allPorts k, (slot _).mpr hk⟩

/-- R84 step 2, R121: the SOURCE cells, the fetches and the answer cells of members outside a gather set are given up. -/
theorem State.dropOutside_gives (s : State) (h : Handle) (keeps : Position → Bool) :
    let t := s.dropOutside h keeps
    { s with ports := t.ports, cells := t.cells, attempt := t.attempt } = t
      ∧ (∀ q, t.port q = { s.port q with fetches := mapVec (emptySlot fun f =>
          decide (f.handle = h) && f.cell.isSome && !keeps f.position) (s.port q).fetches })
      ∧ ∃ l, (∀ k, k ∈ l ↔ outsideCell s h (fun pos => keeps pos = true) k) ∧ releases s l t := by
  intro t
  let f : Fetch → Bool := fun f => decide (f.handle = h) && f.cell.isSome && !keeps f.position
  obtain ⟨cells, hdef⟩ : ∃ l, l = (s.cellsWhere fun x => decide (x.owner = h) &&
    (match x.use with | .source p _ _ => !keeps p | _ => false)).filter (fun c => !s.inUse c) := ⟨_, rfl⟩
  have heq : t = allPorts.foldl (portThenCells (fun q => { q with fetches := mapVec (emptySlot f) q.fetches })
      fun q => q.liveCells f) (s.releaseAll cells) := by
    rw [hdef]
    rfl
  have hcells : ∀ c, c ∈ cells ↔ (∃ x pos o p, s.cell c = some x ∧ x.owner = h ∧ x.use = .source pos o p ∧ ¬keeps pos = true)
      ∧ ¬s.readByPass c := by
    intro c
    rw [hdef, List.mem_filter, Bool.not_eq_true', ← Bool.not_eq_true, State.inUse_iff]
    refine and_congr ?_ Iff.rfl
    unfold State.cellsWhere
    rw [indicesWhere_eq, List.mem_filter, cellIs_iff]
    simp only [List.mem_finRange, true_and, Bool.and_eq_true, decide_eq_true_eq]
    refine exists_congr fun x => ?_
    constructor
    · rintro ⟨hx, ho, hu⟩
      cases hxu : x.use <;> simp only [hxu, Bool.false_eq_true] at hu
      rename_i p o v
      exact ⟨p, o, v, hx, ho, rfl, by simpa using hu⟩
    · rintro ⟨p, o, v, hx, ho, hxu, hk⟩
      exact ⟨hx, ho, by simp only [hxu]; simpa using hk⟩
  have hrel := s.releaseAll_spec cells
  have honly := CellsOnly.releaseAll s cells
  have hpc : PortsAndCells (fun q => { q with fetches := mapVec (emptySlot f) q.fetches }) (fun q => q.liveCells f) allPorts
      (s.releaseAll cells) t := heq ▸ PortsAndCells.foldl _ _ _ allPorts_nodup (s.releaseAll cells)
  clear_value t
  have hport : ∀ k, (s.releaseAll cells).port k = s.port k := fun k => by rw [← honly]; rfl
  obtain ⟨l, hl, hr⟩ := hpc.cells
  refine ⟨?_, fun q => ?_, cells ++ l, fun k => ?_, hrel.append hr ?_⟩
  · rw [← hpc.rest, ← honly]
  · rw [hpc.all q, hport]
  · rw [List.mem_append, hcells, hl, mem_liveCells]
    refine or_congr Iff.rfl (exists_congr fun q => exists_congr fun tag => exists_congr fun x => ?_)
    rw [hport]
    simp only [f, Bool.and_eq_true, decide_eq_true_eq, Bool.not_eq_true', Bool.not_eq_true, Option.isSome_iff_exists]
    constructor
    · rintro ⟨a, ⟨⟨b, -⟩, d⟩, e⟩
      exact ⟨a, b, e, d⟩
    · rintro ⟨a, b, e, d⟩
      exact ⟨a, ⟨⟨b, _, e⟩, d⟩, e⟩
  · exact honly.entries

end Sys2Proof.Machine
end

