-- ==== Sys2Proof/Laws/Revising.lean ====
section
/-! SUPPORT. What an activation, a revision and the completion of a plan do to their entry (R73, R84, R85, R92). -/

namespace Sys2Proof.Machine

open Sys2Proof.Config

/-! ### The bank of a plan (R84 step 5, R92, R95) -/

theorem State.startInversion_setEntry (s : State) (h : Handle) (e : Entry) :
    (s.setEntry h e).startInversion = s.startInversion.setEntry h e := by
  unfold State.startInversion
  have h1 : (s.setEntry h e).matrix = s.matrix := rfl
  have h2 : (s.setEntry h e).inversionFifo = s.inversionFifo := rfl
  rw [h1, h2]
  cases s.matrix with
  | some x => cases s.inversionFifo <;> rfl
  | none => cases s.inversionFifo with
    | nil => rfl
    | cons b rest =>
      have h3 : (s.setEntry h e).bank b = s.bank b := rfl
      simp only [h3]
      cases (s.bank b).key <;> rfl

/-- A lookup neither reads nor changes the table. -/
theorem State.lookup_setEntry (s : State) (h : Handle) (e : Entry) (key : Key) :
    (s.setEntry h e).lookup key = ((s.lookup key).1.setEntry h e, (s.lookup key).2) := by
  unfold State.lookup
  have h1 : (s.setEntry h e).bankHit key = s.bankHit key := rfl
  have h2 : (s.setEntry h e).bankForNew = s.bankForNew := rfl
  rw [h1, h2]
  cases s.bankHit key with
  | some b => rfl
  | none => cases s.bankForNew with
    | none => rfl
    | some b =>
      simp only [State.takeMiss]
      have h3 : (s.setEntry h e).code key.profile = s.code key.profile := rfl
      rw [h3]
      by_cases hd : isDataSet (s.code key.profile).k key.sources = true
      · simp only [if_pos hd]
        rfl
      · simp only [if_neg hd]
        exact Prod.ext (State.startInversion_setEntry (((({ s with inversionFifo := s.inversionFifo ++ [b] } : State).modBank b
          fun x => { x with state := .inverting, key := some key, rows := [], refs := 1, discard := false }).useBank b).count 13)
          h e) rfl

theorem State.startInversion_rest (s : State) : { s with matrix := s.startInversion.matrix, counters := s.startInversion.counters }
    = s.startInversion := by
  rcases s.startInversion_eq with h | ⟨x, h⟩
  · rw [h]
  · rw [h]
    rfl

theorem State.lookup_rest (s : State) (key : Key) :
    let t := (s.lookup key).1
    { s with banks := t.banks, inversionFifo := t.inversionFifo, matrix := t.matrix, counters := t.counters } = t := by
  intro t
  have heq : t = (s.lookup key).1 := rfl
  clear_value t
  unfold State.lookup at heq
  cases hb : s.bankHit key with
  | some b =>
    rw [heq, hb]
    rfl
  | none => cases hn : s.bankForNew with
    | none => rw [heq, hb, hn]
    | some b =>
      rw [hb, hn] at heq
      simp only [State.takeMiss] at heq
      split at heq
      · rw [heq]
        rfl
      · rw [heq, ← State.startInversion_rest]
        rfl

/-- R84 step 5, R85: a plan keeps its bank where that holds its key, and else releases it and looks another up. -/
theorem State.rebank_takes {s : State} {h : Handle} {x : Entry} {pl : Plan} (hx : s.entry? h = some x) (hp : x.plan = some pl)
    (hself : s.setEntry h x = s) (key : Key) : ∃ (u : State) (bank : Option BankId),
      s.rebank h pl.bank key = u.setEntry h { x with plan := some { pl with bank := bank } }
      ∧ ((∃ b, pl.bank = some b ∧ (s.bank b).key = some key) → bank = pl.bank ∧ u = s)
      ∧ (¬(∃ b, pl.bank = some b ∧ (s.bank b).key = some key) → looksUp (s.releaseBank pl.bank) u key bank) := by
  by_cases hh : ∃ b, pl.bank = some b ∧ (s.bank b).key = some key
  · obtain ⟨b, hb, hk⟩ := hh
    refine ⟨s, pl.bank, ?_, fun _ => ⟨rfl, rfl⟩, fun hn => absurd ⟨b, hb, hk⟩ hn⟩
    have h1 : s.rebank h pl.bank key = s := by
      unfold State.rebank
      rw [hb]
      exact if_pos hk
    have h2 : ({ x with plan := some { pl with bank := pl.bank } } : Entry) = x := by rw [← hp]
    rw [h1, h2, hself]
  · have h1 : s.rebank h pl.bank key = ((s.releaseBank pl.bank).lookup key).1.modPlan h
        fun y => { y with bank := ((s.releaseBank pl.bank).lookup key).2 } := by
      unfold State.rebank
      cases hb : pl.bank with
      | none => rfl
      | some b => exact if_neg fun hk => hh ⟨b, hb, hk⟩
    have h2 : ((s.releaseBank pl.bank).lookup key).1.entry? h = some x := by
      have : ((s.releaseBank pl.bank).lookup key).1.entries = s.entries := by
        rw [← State.lookup_rest, ← State.rest_releaseBank]
      exact (congrArg (Table.find · h) this).trans hx
    refine ⟨_, _, ?_, fun hn => absurd hn hh, fun _ => State.lookup_looksUp _ key⟩
    rw [h1]
    unfold State.modPlan
    rw [State.modEntry_eq h2, hp]
    rfl

/-! ### The decode point (R73 step 6, R87) -/

/-- R87: an offset is needed by the destinations and the coverages of the targets alone. -/
theorem State.needed_congr (s : State) (h : Handle) {e f : Entry} (o : Offset)
    (hm : ∀ pos, (f.target? pos).map (fun t => (t.dest, t.coverage)) = (e.target? pos).map fun t => (t.dest, t.coverage)) :
    s.needed h f o = s.needed h e o := by
  have one : ∀ e f : Entry, (∀ pos, (f.target? pos).map (fun t => (t.dest, t.coverage)) =
      (e.target? pos).map fun t => (t.dest, t.coverage)) → offsetNeeded s h f o → offsetNeeded s h e o := by
    rintro e f hm ⟨pos, t, ht, hd, hc, rest⟩
    have hp := hm pos
    rw [ht] at hp
    cases he : e.target? pos with
    | none => rw [he] at hp; cases hp
    | some u =>
      rw [he] at hp
      obtain ⟨h1, h2⟩ := Prod.mk.inj (Option.some.inj hp)
      exact ⟨pos, u, he, h1 ▸ hd, h2 ▸ hc, rest⟩
  rw [Bool.eq_iff_iff, State.needed_iff, State.needed_iff]
  exact ⟨one e f hm, one f e fun pos => (hm pos).symm⟩

theorem given_target (e : Entry) (l : List (Position × NodeId)) (start start' : Offset) (pos : Position) :
    ((e.given l start).target? pos).map (fun t => (t.dest, t.coverage)) =
      ((e.given l start').target? pos).map fun t => (t.dest, t.coverage) := by
  unfold Entry.target? Entry.given
  simp only [List.getElem?_mapIdx]
  cases e.members[pos]? with
  | none => rfl
  | some m =>
    simp only [Option.map_some]
    cases (l.find? fun c => decide (c.1 = pos)).map Prod.snd with
    | none => rfl
    | some n =>
      simp only [Member.given]
      cases (m.target.getD Target.fresh).stored <;> rfl

/-- R73 step 6: the lowest offset that is needed, or 0. -/
theorem firstNeeded_spec (n : Nat) (f : Offset → Bool) :
    let o := ((List.range n).find? f).getD 0
    (o < n ∧ f o = true ∧ ∀ p < o, f p = false) ∨ (o = 0 ∧ ∀ p < n, f p = false) := by
  intro o
  cases hf : (List.range n).find? f with
  | none =>
    refine .inr ⟨by simp [o, hf], fun p hp => ?_⟩
    have := List.find?_eq_none.mp hf p (List.mem_range.mpr hp)
    simpa using this
  | some x =>
    have ho : o = x := by simp [o, hf]
    rw [ho]
    obtain ⟨h1, h2, h3⟩ := List.find?_range_eq_some.mp hf
    exact .inl ⟨List.mem_range.mp h2, h1, fun p hp => by simpa using h3 p hp⟩

/-! ### Activation (R73) -/

theorem floorSizeOf_eq (k : Nat) (check : Option Position) (targets : Nat) :
    floorSizeOf k check targets = k + (if check = none then 0 else 1) + targets := by
  cases check <;> rfl

/-- R69, R73, R92: an entry whose needs are all met is activated. -/
theorem State.activate_activated {s : State} {h : Handle} {e : Entry} {t : Trial} (ht : s.tryEntry e = .ok t) :
    activated s (s.activate h e t) h e t.sources
      ∧ t.dests = s.destChoice e ∧ s.chooseSources e (s.code e.profile).k = some t.sources := by
  unfold State.tryEntry at ht
  cases hc : s.chooseSources e (s.code e.profile).k with
  | none => simp [hc] at ht
  | some src =>
    simp only [hc] at ht
    split at ht
    · cases ht
    split at ht
    · cases ht
    split at ht
    · cases ht
    split at ht
    · cases ht
    rename_i hfree havail
    obtain rfl := Except.ok.inj ht
    refine ⟨?_, rfl, rfl⟩
    rw [floorSizeOf_eq] at hfree ⊢
    let d := s.destChoice e
    let floor := (s.code e.profile).k + (if src.check = none then 0 else 1) + e.lostCount
    let key := e.keyFor src
    let x : Entry := { e with state := .planning, wait := none, replan := false, flags := e.flags.join d.relaxed src.skipped src.suspect }
    let X : State := { s with nodes := loadedBy s.nodes d.chosen, selector := d.selector }
    have hd : (d.chosen.map Prod.fst).Nodup := s.destChoice_nodup e
    let g (o : Offset) : Entry := { x with members := (e.given d.chosen o).members }
    let o := ((List.range e.chunks).find? (s.needed h (g 0))).getD 0
    have hneed : ∀ p, s.needed h (g 0) p = s.needed h (g o) p := fun p =>
      s.needed_congr h p fun pos => given_target e d.chosen 0 o pos
    have self : ∀ (y : State) (k : Entry), (y.setEntry h k).entry? h = some k := fun y k =>
      (State.entry_setEntry ..).trans (if_pos rfl)
    have e1 : (s.setEntry h { e.withRecords with state := .planning, wait := none, replan := false, flags := x.flags }).giveDests h 0 d
        = X.setEntry h (g 0) := State.giveDests_given s h x e 0 d hd
    have e2 : (X.setEntry h (g 0)).firstNeeded h = o := by
      unfold State.firstNeeded
      rw [self]
      rfl
    have e3 : (X.setEntry h (g 0)).setStarts h o d = X.setEntry h (g o) := State.setStarts_given X h x e 0 o d hd
    obtain ⟨hr1, hr2⟩ := reserveFloor_reserves h floor (X.setEntry h (g o))
    let v : State := { X with cells := (reserveFloor h floor (X.setEntry h (g o))).cells }
    have e4 : reserveFloor h floor (X.setEntry h (g o)) = v.setEntry h (g o) := hr1.symm
    have e5 := State.lookup_setEntry v h (g o) key
    obtain ⟨b, hb⟩ : ∃ b, (v.lookup key).2 = some b := by
      have h1 : v.bankHit key = s.bankHit key := rfl
      have h2 : v.bankForNew = s.bankForNew := rfl
      have h3 : ¬((s.bankHit key).isSome || s.bankForNew.isSome) = false := havail
      unfold State.lookup
      rw [h1, h2]
      cases hh : s.bankHit key with
      | some b => exact ⟨b, rfl⟩
      | none => cases hn : s.bankForNew with
        | some b => exact ⟨b, rfl⟩
        | none => simp [hh, hn] at h3
    let F : Entry := { g o with plan := some ⟨some src.sources, src.check, some b, o, floor, some key⟩ }
    have e6 : s.activate h e ⟨src, d, key, floor⟩ = ((v.lookup key).1.setEntry h F).activateIfReady h := by
      unfold State.activate
      dsimp only
      rw [e1, e2, e3, e4, e5]
      dsimp only
      rw [State.modEntry_eq (self _ _), hb]
      congr 1
      unfold State.setEntry
      rw [Table.put_put]
    show activated s (s.activate h e ⟨src, d, key, floor⟩) h e src
    rw [e6]
    refine ⟨(v.lookup key).1, v, b, o, ?_, rfl, loadsGiven_of rfl rfl, ?_, hr2, ?_, ?_⟩
    · rcases firstNeeded_spec e.chunks (s.needed h (g 0)) with ⟨a1, a2, a3⟩ | ⟨a1, a2⟩
      · exact .inl ⟨a1, (hneed o).symm.trans a2, fun p hp => (hneed p).symm.trans (a3 p hp)⟩
      · exact .inr ⟨a1, fun p hp => (hneed p).symm.trans (a2 p hp)⟩
    · exact Nat.le_of_not_lt hfree
    · have := State.lookup_looksUp v key
      rwa [hb] at this
    · exact State.activateIfReady_activates (self _ _)

/-! ### Revisions (R84, R85) -/

/-- R84 step 3: an entry takes the destinations it misses. -/
theorem State.reviseDests_eq {s : State} {h : Handle} {e : Entry} (he : s.entry? h = some e) (start : Offset) :
    let d := s.destChoice e
    s.reviseDests h start = ({ s with nodes := loadedBy s.nodes d.chosen, selector := d.selector } : State).setEntry h
      { e.given d.chosen start with flags := e.flags.with d.relaxed false false } := by
  intro d
  have heq : s.reviseDests h start = ((s.setEntry h e.withRecords).giveDests h start d).modEntry h
      fun x => { x with flags := x.flags.join d.relaxed false false } := by
    unfold State.reviseDests
    rw [he]
  rw [heq]
  have h1 : (s.setEntry h e.withRecords).giveDests h start d = _ := State.giveDests_given s h e e start d (s.destChoice_nodup e)
  rw [h1, State.modEntry_eq ((State.entry_setEntry ..).trans (if_pos rfl))]
  unfold State.setEntry
  simp only [Table.put_put]
  rfl

theorem mapVec_emptySlot (f : Fetch → Bool) (v : Vector (Option Fetch) 32) (tag : FetchTag) :
    ((mapVec (emptySlot f) v)[tag] = none ↔ ∀ x, v[tag] = some x → f x = true)
      ∧ ∀ x, (mapVec (emptySlot f) v)[tag] = some x → v[tag] = some x := by
  have h1 : (mapVec (emptySlot f) v)[tag] = emptySlot f v[tag] := by simp [mapVec]
  rw [h1]
  cases v[tag] with
  | none => simp [emptySlot]
  | some y => by_cases hf : f y = true <;> simp [emptySlot, hf]

theorem activates.congr {u u' t : State} {h : Handle} {e e' : Entry} (k : activates u t h e) (hu : u = u') (he : e = e') :
    activates u' t h e' := hu ▸ he ▸ k

/-- R84, R85, R92, R121: what a revision does. -/
theorem State.revise_revised {s : State} {h : Handle} {e : Entry} {pl : Plan} (hr : s.rising) :
    revised s (s.revise h e pl) h e pl := by
  have self : ∀ (y : State) (k : Entry), (y.setEntry h k).entry? h = some k := fun y k =>
    (State.entry_setEntry ..).trans (if_pos rfl)
  obtain ⟨choice, hc⟩ : ∃ x, s.chooseSources e (s.code e.profile).k = x := ⟨_, rfl⟩
  let check := choice.bind SourceChoice.check
  let key : Option Key := choice.map fun x => ⟨e.profile, x.sources, e.targetPositions, x.check⟩
  let plan : Plan := { pl with sources := choice.map SourceChoice.sources, check := check, key := key }
  let chosen : Entry := { e with
    replan := false, plan := some plan
    flags := e.flags.with false (choice.any SourceChoice.skipped) (choice.any SourceChoice.suspect) }
  let d := s.destChoice e
  let size := (s.code e.profile).k + (if check = none then 0 else 1) + e.lostCount
  let f (bank : Option BankId) : Entry := { chosen.given d.chosen pl.decodePoint with
    plan := some { plan with floorSize := size, bank := bank }, flags := chosen.flags.with d.relaxed false false }
  obtain ⟨g1, g2, l, g3, g4⟩ := (s.setEntry h chosen).dropOutside_gives h plan.gathers
  obtain ⟨v1, hv1⟩ : ∃ v, (s.setEntry h chosen).dropOutside h plan.gathers = v := ⟨_, rfl⟩
  rw [hv1] at g1 g2 g4
  have hent : v1.entries = (s.setEntry h chosen).entries := by rw [← g1]
  have hfind : v1.entry? h = some chosen := (congrArg (Table.find · h) hent).trans (self s chosen)
  have hnodes : v1.nodes = s.nodes := by
    rw [← g1]
    rfl
  have hsel : v1.selector = s.selector := by
    rw [← g1]
    rfl
  have hd : v1.destChoice chosen = d := State.destChoice_congr hnodes (fun p => by rw [g2]; rfl) hsel rfl
  let X : State := { v1 with nodes := loadedBy v1.nodes d.chosen, selector := d.selector }
  let g : Entry := { chosen.given d.chosen pl.decodePoint with flags := chosen.flags.with d.relaxed false false }
  have hs2 : v1.reviseDests h pl.decodePoint = X.setEntry h g := by
    have := State.reviseDests_eq hfind pl.decodePoint
    rw [hd] at this
    exact this
  have hXr : (X.setEntry h g).rising := by
    refine Table.sorted_put _ _ _ ?_
    show Table.sorted v1.entries
    rw [hent]
    exact Table.sorted_put _ _ _ hr
  obtain ⟨k1, k2⟩ := State.resizeFloor_resizes hXr (self X g) (rfl : g.plan = some plan) size
  have hU : (X.setEntry h g).setEntry h { g with plan := some { plan with floorSize := size } } = X.setEntry h (f pl.bank) := by
    unfold State.setEntry
    simp only [Table.put_put]
    rfl
  obtain ⟨v2, hv2⟩ : ∃ v, (X.setEntry h g).resizeFloor h size = v := ⟨_, rfl⟩
  rw [hU, hv2] at k1 k2
  have h1 : (choice.map SourceChoice.skipped).getD false = choice.any SourceChoice.skipped := by cases choice <;> rfl
  have h2 : (choice.map SourceChoice.suspect).getD false = choice.any SourceChoice.suspect := by cases choice <;> rfl
  have h3 : floorSizeOf (s.code e.profile).k check e.lostCount = size := floorSizeOf_eq ..
  have heqNone : choice = none → s.revise h e pl =
      (((v2.releaseBank pl.bank).modPlan h fun x => { x with bank := none }).count 17).activateIfReady h := fun hn => by
    rw [← hv2, ← h3, ← hs2, ← hv1]
    unfold State.revise
    simp only [hc, h1, h2]
    rw [hn]
    simp only [chosen, plan, check, key, hn]
    rfl
  have heqSome : ∀ x, choice = some x → s.revise h e pl =
      ((v2.rebank h pl.bank (e.keyFor x)).count 17).activateIfReady h := fun x hn => by
    rw [← hv2, ← h3, ← hs2, ← hv1]
    unfold State.revise
    simp only [hc, h1, h2]
    rw [hn]
    simp only [chosen, plan, check, key, hn]
    rfl
  have hbank : ∀ b, v2.bank b = s.bank b := fun b => by
    have : v2.banks = s.banks := by
      rw [← k1]
      show v1.banks = _
      rw [← g1]
      rfl
    unfold State.bank
    rw [this]
  have hput : ∀ (w : State) (x : Entry), w.entries = v2.entries →
      w.setEntry h x = { w with entries := Table.put v1.entries h x } := fun w x hw => by
    have : v2.entries = Table.put v1.entries h (f pl.bank) := by rw [← k1]; rfl
    unfold State.setEntry
    rw [hw, this, Table.put_put]
  have hv2find : ∀ w : State, w.entries = v2.entries → w.entry? h = some (f pl.bank) := fun w hw => by
    have : w.entries = (X.setEntry h (f pl.bank)).entries := by rw [hw, ← k1]
    exact (congrArg (Table.find · h) this).trans (self X _)
  have hself : v2.setEntry h (f pl.bank) = v2 := by
    rw [hput v2 _ rfl]
    have : v2.entries = Table.put v1.entries h (f pl.bank) := by rw [← k1]; rfl
    rw [← this]
  obtain ⟨u, bank, hkeep, hseek, hres⟩ : ∃ (u : State) (bank : Option BankId),
      (∀ b, pl.bank = some b → key ≠ none → (s.bank b).key = key → bank = some b ∧ u = v2)
      ∧ (¬(∃ b, pl.bank = some b ∧ key ≠ none ∧ (s.bank b).key = key) → ∃ v3,
          { v2 with banks := v3.banks, attempt := v3.attempt } = v3
          ∧ (∀ b, v3.bank b = if pl.bank = some b then { s.bank b with refs := (s.bank b).refs - 1 } else s.bank b)
          ∧ (pl.bank ≠ none → v3.attempt = true)
          ∧ (key = none → bank = none ∧ u = v3) ∧ ∀ k, key = some k → looksUp v3 u k bank)
      ∧ s.revise h e pl = ((u.setEntry h (f bank)).count 17).activateIfReady h := by
    have hrest := State.rest_releaseBank v2 pl.bank
    have hrb := State.bank_releaseBank v2 pl.bank
    simp only [hbank] at hrb
    have hatt : pl.bank ≠ none → (v2.releaseBank pl.bank).attempt = true := fun hn => by
      obtain ⟨b, hb⟩ := Option.ne_none_iff_exists'.mp hn
      rw [hb]
      rfl
    rcases Option.eq_none_or_eq_some choice with hn | ⟨x, hn⟩
    · have hk : key = none := by simp [key, hn]
      refine ⟨v2.releaseBank pl.bank, none, fun b _ h _ => absurd hk h, fun _ => ⟨v2.releaseBank pl.bank, hrest, hrb, hatt,
        fun _ => ⟨rfl, rfl⟩, fun k (hx : key = some k) => absurd (hk.symm.trans hx) (by simp)⟩, ?_⟩
      have hm : (v2.releaseBank pl.bank).modPlan h (fun x => { x with bank := none }) = (v2.releaseBank pl.bank).setEntry h (f none) :=
        State.modEntry_eq (hv2find _ (by rw [← hrest])) _
      rw [heqNone hn, hm]
    · have hk : key = some (e.keyFor x) := by simp [key, hn, Entry.keyFor]
      obtain ⟨u, bank, r1, r2, r3⟩ := State.rebank_takes (hv2find v2 rfl) (rfl : (f pl.bank).plan = some _) hself (e.keyFor x)
      simp only [hbank] at r2 r3
      refine ⟨u, bank, fun b hb _ hkey => ?_, fun hno => ⟨v2.releaseBank pl.bank, hrest, hrb, hatt,
        fun (hx : key = none) => absurd (hk.symm.trans hx) (by simp), fun k hkk => ?_⟩, by rw [heqSome x hn, ← r1]⟩
      · obtain ⟨q1, q2⟩ := r2 ⟨b, hb, hkey.trans hk⟩
        exact ⟨q1.trans hb, q2⟩
      · obtain rfl := Option.some.inj (hk.symm.trans hkk)
        exact r3 fun ⟨b, hb, hkey⟩ => hno ⟨b, hb, by rw [hk]; simp, hkey.trans hk.symm⟩
  have hgath : (fun pos => plan.gathers pos = true) =
      fun pos => (∃ l, plan.sources = some l ∧ pos ∈ l) ∨ check = some pos := by
    funext pos
    exact propext (Plan.gathers_iff plan pos)
  have hn2 : v2.nodes = loadedBy v1.nodes d.chosen := by rw [← k1]; rfl
  have hs2' : v2.selector = d.selector := by rw [← k1]; rfl
  have hgoal : revised s (s.revise h e pl) h e pl := by
    unfold revised
    dsimp only
    rw [hc]
    refine ⟨v1, v2, u, bank, ⟨?_, hent, fun q => ?_, fun q tag => ?_, l, fun k => ?_, g4⟩, ?_, ?_, ?_, hkeep, hseek, ?_⟩
    · rw [hent]
      exact g1
    · rw [g2 q]
      rfl
    · have hf : (v1.port q).fetches = mapVec (emptySlot fun f => decide (f.handle = h) && f.cell.isSome
          && !plan.gathers f.position) (s.port q).fetches := congrArg Port.fetches (g2 q)
      have hm := mapVec_emptySlot (fun f => decide (f.handle = h) && f.cell.isSome && !plan.gathers f.position)
        (s.port q).fetches tag
      rw [← hf] at hm
      refine ⟨hm.1.trans (forall_congr' fun x => imp_congr_right fun _ => ?_), hm.2⟩
      have hx := Plan.gathers_iff plan x.position
      simp only [Bool.and_eq_true, decide_eq_true_eq, Bool.not_eq_true', ← Bool.not_eq_true, hx, Option.isSome_iff_ne_none,
        and_assoc]
      exact Iff.rfl
    · rw [hgath] at g3
      exact g3 k
    · rw [hn2, hs2']
      exact k1
    · exact loadsGiven_of (by rw [hn2, hnodes]) hs2'
    · exact ⟨k2.1, fun hlt => let ⟨l, a, b, c, r⟩ := k2.2 hlt; ⟨l, a, b, c, r.congr rfl rfl id rfl id⟩⟩
    · rw [hres]
      exact State.activateIfReady_activates (self u (f bank))
  exact hgoal

/-- R85, R92: what the completion of a plan does. -/
theorem State.completePlan_completed {s : State} {h : Handle} {e : Entry} {pl : Plan} (he : s.entry? h = some e)
    (hp : e.plan = some pl) : completed s (s.completePlan h pl) h e pl := by
  have self : ∀ (y : State) (k : Entry), (y.setEntry h k).entry? h = some k := fun y k =>
    (State.entry_setEntry ..).trans (if_pos rfl)
  let d := s.destChoice e
  let X : State := { s with nodes := loadedBy s.nodes d.chosen, selector := d.selector }
  let g : Entry := { e.given d.chosen pl.decodePoint with flags := e.flags.with d.relaxed false false }
  let f (bank : Option BankId) : Entry := { e.given d.chosen pl.decodePoint with
    plan := some { pl with bank := bank }, flags := e.flags.with d.relaxed false false }
  have hs1 : s.reviseDests h pl.decodePoint = X.setEntry h g := State.reviseDests_eq he pl.decodePoint
  have hf : f pl.bank = g := by
    have : g.plan = some { pl with bank := pl.bank } := hp
    simp only [f, g] at this ⊢
    rw [← this]
  by_cases hb : pl.bank ≠ none ∨ pl.key = none
  · have heq : s.completePlan h pl = (X.setEntry h (f pl.bank)).activateIfReady h := by
      unfold State.completePlan
      rw [hs1, hf]
      rcases hb with hb | hb
      · obtain ⟨b, hb⟩ := Option.ne_none_iff_exists'.mp hb
        rw [hb]
      · rw [hb]
        cases pl.bank <;> rfl
    rw [heq]
    refine ⟨X, X, pl.bank, rfl, loadsGiven_of rfl rfl, fun _ => ⟨rfl, rfl⟩, fun k h1 h2 => ?_,
      State.activateIfReady_activates (self _ _)⟩
    rcases hb with hb | hb
    · exact absurd h1 hb
    · rw [hb] at h2
      cases h2
  · rw [not_or, not_not] at hb
    obtain ⟨hb, hk⟩ := hb
    obtain ⟨key, hk⟩ := Option.ne_none_iff_exists'.mp hk
    have heq : s.completePlan h pl = ((X.lookup key).1.setEntry h (f (X.lookup key).2)).activateIfReady h := by
      unfold State.completePlan
      rw [hs1, hb, hk]
      have h1 : (X.setEntry h g).rebank h none key =
          ((X.lookup key).1.setEntry h g).modPlan h fun y => { y with bank := (X.lookup key).2 } := by
        unfold State.rebank
        dsimp only
        rw [State.lookup_setEntry]
      dsimp only
      rw [h1]
      unfold State.modPlan
      rw [State.modEntry_eq (self _ _)]
      have h2 : ∀ (w : State) (x y : Entry), (w.setEntry h x).setEntry h y = w.setEntry h y := fun w x y => by
        unfold State.setEntry
        simp only [Table.put_put]
      rw [h2]
      have h3 : g.plan = some pl := hp
      rw [h3]
      rfl
    rw [heq]
    refine ⟨X, (X.lookup key).1, (X.lookup key).2, rfl, loadsGiven_of rfl rfl, fun hn => ?_, fun k _ h2 => ?_,
      State.activateIfReady_activates (self _ _)⟩
    · rcases hn with hn | hn
      · exact absurd hb hn
      · rw [hk] at hn
        cases hn
    · obtain rfl := Option.some.inj (hk.symm.trans h2)
      exact State.lookup_looksUp X key

end Sys2Proof.Machine
end

