-- ==== Sys2Proof/Laws/Attempts.lean ====
section
/-! SUPPORT. What the parts of a planning attempt do: the serving of a plan, one step of the walk, the mark of a park (R68 to R70, R81, R82). -/

namespace Sys2Proof.Machine

open Sys2Proof.Config

theorem State.entry_put (s : State) (h : Handle) (e : Entry) : (s.setEntry h e).entry? h = some e :=
  (State.entry_setEntry ..).trans (if_pos rfl)

/-- R68 step 1: what the serving of an entry in PLANNING does. -/
theorem State.serve_serves {s : State} {h : Handle} (hr : s.rising) (hp : ∀ e, s.entry? h = some e → e.state = .planning) :
    serves s h (s.serve h) := by
  intro e he
  have hs := hp e he
  unfold State.serve
  rw [he]
  refine ⟨fun hn => by simp only [hn], fun pl hpl => ?_⟩
  have hsrc : pl.sources = none → e.planComplete = false := fun hn => by
    unfold Entry.planComplete
    rw [hpl]
    simp [hn]
  simp only [hpl, hs, true_and]
  refine ⟨fun hc => ?_, fun h1 h2 h3 => ?_, fun h1 h2 => ?_⟩
  · rw [if_pos (hc.imp id hsrc), if_pos hc]
    exact State.revise_revised hr
  · rw [if_pos (.inr h3), if_neg (by simp [h1, h2])]
    exact State.completePlan_completed he hpl
  · rw [if_neg (by simp [h1, h2])]

/-- R69, R70: what one step of the walk does. -/
theorem walkStep_decides (w : Walk) (h : Handle) : decides w h (walkStep w h) := by
  intro e he s c left waits
  have hwait : ∀ r, s.setWait h r = s.setEntry h { e with wait := some r } := fun r => State.modEntry_eq he _
  have herr : ∀ r, s.tryEntry e = .error r → waits r := fun r ht => by
    have hstep : walkStep w h = ⟨s.setWait h r, true, if w.blocked then w.hold else holdAfter e r,
        w.starved || (decide (e.urgency = .critical) && decide (r = .noSlot))⟩ := by
      unfold walkStep
      rw [he]
      simp only [show w.state.tryEntry e = _ from ht]
      rfl
    refine ⟨⟨by rw [hstep, hwait], by rw [hstep]⟩, ?_, ?_⟩
    · rw [hstep]
      rfl
    · rw [hstep]
      simp
  have hheld : s.slotsHeld = s.entries.countP fun he =>
      decide (he.2.state = .planning ∨ he.2.state = .active ∨ he.2.state = .draining) := by
    unfold State.slotsHeld
    refine congrArg (List.countP · s.entries) (funext fun he => ?_)
    cases he.2.state <;> rfl
  refine ⟨fun hn => herr _ ?_, fun x hx => ?_⟩
  · unfold State.tryEntry
    simp only [show s.chooseSources e (s.code e.profile).k = none from hn]
  intro floor key slotsHeld bankToHave
  have hfloor : floorSizeOf (s.code e.profile).k x.check e.lostCount = floor := floorSizeOf_eq ..
  have hbank : s.bankAvailable (e.keyFor x) = true ↔ bankToHave := s.bankAvailable_iff key
  have htry : s.tryEntry e = if (s.destChoice e).complete = false then .error .noDestination
      else if slots ≤ s.slotsHeld then .error .noSlot
      else if s.freeCount < floor then .error .noCells
      else if s.bankAvailable (e.keyFor x) = false then .error .noBank
      else .ok ⟨x, s.destChoice e, e.keyFor x, floor⟩ := by
    unfold State.tryEntry
    simp only [show s.chooseSources e (s.code e.profile).k = some x from hx, hfloor]
  have hslots : s.slotsHeld = slotsHeld := hheld
  rw [hslots] at htry
  refine ⟨fun h1 => herr _ (by rw [htry, if_pos h1]), fun h1 => ⟨fun h2 => herr _ ?_, fun h2 h3 => herr _ ?_,
    fun h2 h3 h4 => herr _ ?_, fun h2 h3 h4 => ?_⟩⟩
  · rw [htry, if_neg (by simp [h1]), if_pos h2]
  · rw [htry, if_neg (by simp [h1]), if_neg (Nat.not_le.mpr h2), if_pos h3]
  · rw [htry, if_neg (by simp [h1]), if_neg (Nat.not_le.mpr h2), if_neg (Nat.not_lt.mpr h3), if_pos]
    rw [← Bool.not_eq_true, hbank]
    exact h4
  · have hok : s.tryEntry e = .ok ⟨x, s.destChoice e, e.keyFor x, floor⟩ := by
      rw [htry, if_neg (by simp [h1]), if_neg (Nat.not_le.mpr h2), if_neg (Nat.not_lt.mpr h3), if_neg]
      rw [hbank.mpr h4]
      simp
    have hact := (State.activate_activated (h := h) hok).1
    have hstep : walkStep w h = match w.hold with
        | some reason =>
          if e.urgency = .critical then { w with state := s.activate h e ⟨x, s.destChoice e, e.keyFor x, floor⟩ }
          else { w with state := s.setWait h reason, blocked := true }
        | none => { w with state := s.activate h e ⟨x, s.destChoice e, e.keyFor x, floor⟩ } := by
      unfold walkStep
      rw [he]
      simp only [show w.state.tryEntry e = _ from hok]
      rfl
    cases hh : w.hold with
    | none =>
      have hs : walkStep w h = { w with state := s.activate h e ⟨x, s.destChoice e, e.keyFor x, floor⟩ } := by
        rw [hstep, hh]
      rw [hs]
      exact ⟨hh, rfl, fun r hr => (by cases hr), fun _ => ⟨hact, rfl⟩⟩
    | some r =>
      by_cases hu : e.urgency = .critical
      · have hs : walkStep w h = { w with state := s.activate h e ⟨x, s.destChoice e, e.keyFor x, floor⟩ } := by
          rw [hstep, hh]
          exact if_pos hu
        rw [hs]
        exact ⟨hh, rfl, fun r _ hn => absurd hu hn, fun _ => ⟨hact, rfl⟩⟩
      · have hs : walkStep w h = { w with state := s.setWait h r, blocked := true } := by
          rw [hstep, hh]
          exact if_neg hu
        refine ⟨by rw [hs, hh], by rw [hs], fun r' hr' _ => ?_, fun hx => ?_⟩
        · obtain rfl := Option.some.inj hr'
          exact ⟨by rw [hs, hwait], by rw [hs]⟩
        · rcases hx with hx | hx
          · cases hx
          · exact absurd hx hu

/-- R82, R51: what the completion of a park does. -/
theorem State.completePark_parks {v : State} {h : Handle} {e : Entry} (he : v.entry? h = some e) :
    let t := v.completePark h
    givesUpPlan v t h e { e with state := .queued, wait := some .noSlot, plan := none, replan := false } ∧ t.park = none
      ∧ { v with entries := t.entries, banks := t.banks, cells := t.cells, attempt := t.attempt, park := none } = t := by
  have d := State.dropPlan_spec (s := { v with park := none }) he
  obtain ⟨w, hw⟩ : ∃ w, ({ v with park := none } : State).dropPlan h = w := ⟨_, rfl⟩
  rw [hw] at d
  have hself : w.entry? h = some { e with plan := none } := by rw [d.entry, if_pos rfl]
  have heq : v.completePark h =
      (w.setEntry h { e with state := .queued, wait := some .noSlot, plan := none, replan := false }).causeAttempt := by
    show (State.enterQueued _ h) = _
    rw [hw]
    unfold State.enterQueued
    rw [State.modEntry_eq hself]
  intro t
  have ht : t = _ := heq
  clear_value t
  obtain ⟨l, m, r⟩ := d.cells
  refine ⟨⟨?_, fun k hk => ?_, fun b => ?_, ⟨l, m, ?_⟩, fun _ => by rw [ht]; rfl⟩, ?_, ?_⟩
  · rw [ht]
    exact State.entry_put ..
  · rw [ht]
    exact ((State.entry_setEntry ..).trans (if_neg hk)).trans ((d.entry k).trans (if_neg hk))
  · rw [ht]
    exact d.bank b
  · rw [ht]
    exact (releases.planless (s := v) (e := { e with plan := none }) rfl rfl
      (r.congr (s' := v.setEntry h { e with plan := none }) rfl rfl id rfl id)).congr rfl rfl id rfl fun _ => rfl
  · rw [ht]
    show w.park = none
    rw [← d.rest]
  · rw [ht, ← d.rest]
    rfl

/-- R81, R82, R120: what the mark of a park does. -/
theorem State.markPark_marks {s : State} {h : Handle} {e : Entry} (he : s.entry? h = some e) :
    marksPark s (s.markPark h) h e := by
  unfold marksPark
  intro marked
  have f := State.withdrawFetches_spec ({ s with park := some h } : State) h
  obtain ⟨w, hw⟩ : ∃ w, ({ s with park := some h } : State).withdrawFetches h = w := ⟨_, rfl⟩
  rw [hw] at f
  obtain ⟨l, hl, hr⟩ := f.cells
  have hports : w.ports = marked.ports := by
    refine Vector.ext fun i hi => ?_
    have h1 : w.port ⟨i, hi⟩ = _ := f.all ⟨i, hi⟩
    have h2 : mapVec (withdrawSlot h) (s.port ⟨i, hi⟩).fetches =
        mapVec (fun x => x.map fun f => if f.handle = h then { f with cell := none } else f) (s.port ⟨i, hi⟩).fetches := by
      refine congrArg (mapVec · _) (funext fun x => ?_)
      cases x with
      | none => rfl
      | some y => by_cases hy : y.handle = h <;> simp [withdrawSlot, hy]
    have h3 : marked.port ⟨i, hi⟩ = { s.port ⟨i, hi⟩ with fetches := mapVec (withdrawSlot h) (s.port ⟨i, hi⟩).fetches } := by
      rw [h2]
      exact mapVec_get _ _ (⟨i, hi⟩ : PortId)
    exact h1.trans h3.symm
  let v : State := w.count 16
  have hv : { marked with cells := v.cells, attempt := v.attempt } = v := by
    show _ = w.count 16
    rw [← f.rest, hports]
    rfl
  have hafter : afterRelease marked v (liveCell s h) :=
    ⟨hv, ⟨l, fun c => (hl c).trans (mem_liveCells_iff _ h c), hr.congr rfl rfl id rfl id⟩,
      (f.causes.rebase (s' := marked) (t' := v) rfl rfl rfl rfl).1.trans (by simp)⟩
  have hmark : s.markPark h = if v.passInFlight h then v else v.completePark h := by
    unfold State.markPark
    rw [hw]
  have hlanes : v.lanes = s.lanes := by rw [← hv]
  have hents : v.entries = s.entries := by rw [← hv]
  refine ⟨v, hafter, fun hp => ?_, fun hp => ?_⟩
  · have : v.passInFlight h = true := by
      rw [← Bool.not_eq_false, State.passInFlight_eq_false]
      obtain ⟨k, x, h1, h2⟩ := hp
      exact fun hn => hn k x ((congrArg (·[k]) hlanes).trans h1) h2
    rw [hmark, if_pos this]
  · have : v.passInFlight h = false := (State.passInFlight_eq_false v h).mpr fun k x h1 =>
      hp k x ((congrArg (·[k]) hlanes).symm.trans h1)
    rw [hmark, if_neg (by rw [this]; simp)]
    have hve : v.entry? h = some e := (congrArg (Table.find · h) hents).trans he
    obtain ⟨k1, k2, k3⟩ := State.completePark_parks hve
    exact ⟨k2, k1, k3⟩

end Sys2Proof.Machine
end

