-- ==== Sys2Proof/Laws/Field.lean ====
section
/-! SUPPORT. GF(2^8) is a field (01 R1, R2). -/

namespace Sys2Proof.Machine

/-! ### The field laws (R1, R2) -/

theorem xor_left_comm (a b c : Byte) : a ^^^ (b ^^^ c) = b ^^^ (a ^^^ c) := by
  rw [← BitVec.xor_assoc, BitVec.xor_comm a b, BitVec.xor_assoc]

theorem gfDouble_xor (a b : Byte) : gfDouble (a ^^^ b) = gfDouble a ^^^ gfDouble b := by
  simp only [gfDouble, BitVec.msb_xor, BitVec.shiftLeft_xor_distrib]
  cases a.msb <;> cases b.msb <;> simp [BitVec.xor_assoc, BitVec.xor_comm, xor_left_comm]

/-- Every property of bytes that holds for the eight bits and is kept by addition holds for every byte. -/
theorem byte_induction {P : Byte → Prop} (bits : ∀ i < 8, P (1#8 <<< i)) (add : ∀ a b, P a → P b → P (a ^^^ b)) (a : Byte) : P a := by
  have zero : P 0 := by simpa using add _ _ (bits 0 (by decide)) (bits 0 (by decide))
  have split : ∀ a : Byte, a = ((List.range 8).map fun i => if a.getLsbD i then 1#8 <<< i else 0).foldr (fun x y => x ^^^ y) 0 := by
    decide +kernel
  rw [split a]
  have : ∀ l : List Byte, (∀ x ∈ l, P x) → P (l.foldr (fun x y => x ^^^ y) 0) := by
    intro l hl
    induction l with
    | nil => exact zero
    | cons x l ih => exact add _ _ (hl x (by simp)) (ih fun y hy => hl y (by simp [hy]))
  refine this _ fun x hx => ?_
  obtain ⟨i, hi, rfl⟩ := List.mem_map.mp hx
  split
  · exact bits i (List.mem_range.mp hi)
  · exact zero

theorem gfMulBits_xor_left (n : Nat) (a b x : Byte) : gfMulBits n (a ^^^ b) x = gfMulBits n a x ^^^ gfMulBits n b x := by
  induction n generalizing a b x with
  | zero => simp [gfMulBits]
  | succ n ih =>
    simp only [gfMulBits, gfDouble_xor, ih]
    split <;> simp [BitVec.xor_assoc, xor_left_comm]

theorem gfMulBits_xor_right (n : Nat) (a x y : Byte) : gfMulBits n a (x ^^^ y) = gfMulBits n a x ^^^ gfMulBits n a y := by
  induction n generalizing a x y with
  | zero => simp [gfMulBits]
  | succ n ih =>
    simp only [gfMulBits, BitVec.ushiftRight_xor_distrib, ih, BitVec.getLsbD_xor]
    cases x.getLsbD 0 <;> cases y.getLsbD 0 <;> simp [BitVec.xor_assoc, xor_left_comm]

theorem gfMul_xor_left (a b x : Byte) : gfMul (a ^^^ b) x = gfMul a x ^^^ gfMul b x := gfMulBits_xor_left 8 a b x

theorem gfMul_xor_right (a x y : Byte) : gfMul a (x ^^^ y) = gfMul a x ^^^ gfMul a y := gfMulBits_xor_right 8 a x y

theorem gfMul_comm (a b : Byte) : gfMul a b = gfMul b a := by
  induction a using byte_induction with
  | add x y hx hy => rw [gfMul_xor_left, gfMul_xor_right, hx, hy]
  | bits i hi =>
    induction b using byte_induction with
    | add x y hx hy => rw [gfMul_xor_left, gfMul_xor_right, hx, hy]
    | bits j hj => revert i j; decide +kernel

theorem gfMul_assoc (a b c : Byte) : gfMul (gfMul a b) c = gfMul a (gfMul b c) := by
  induction a using byte_induction with
  | add x y hx hy => simp only [gfMul_xor_left, hx, hy]
  | bits i hi =>
    induction b using byte_induction with
    | add x y hx hy => simp only [gfMul_xor_left, gfMul_xor_right, hx, hy]
    | bits j hj =>
      induction c using byte_induction with
      | add x y hx hy => simp only [gfMul_xor_right, hx, hy]
      | bits k hk => revert i j k; decide +kernel

@[simp] theorem gfMul_one (a : Byte) : gfMul 1#8 a = a := by revert a; decide +kernel

@[simp] theorem gfMul_zero (a : Byte) : gfMul a 0#8 = 0#8 := by simpa using gfMul_xor_right a 0 0

/-- The powers a, a², a⁴, …, n of them. -/
def squarings : Nat → Byte → List Byte
  | 0, _ => []
  | n + 1, a => a :: squarings n (gfMul a a)

/-- a²⁵⁴, the inverse of `a` in a field of 256 elements. -/
theorem exists_inverse : ∀ a : Byte, a ≠ 0 → gfMul a (((squarings 8 a).drop 1).foldr gfMul 1) = 1#8 := by decide +kernel

theorem gfMul_inv {a : Byte} (h : a ≠ 0) : gfMul a (gfInv a) = 1#8 := by
  unfold gfInv
  cases hf : ((List.range 256).map (BitVec.ofNat 8)).find? (fun x => gfMul a x == 1#8) with
  | some x => simpa using List.find?_some hf
  | none =>
    have := List.find?_eq_none.mp hf _ (List.mem_map.mpr ⟨_, List.mem_range.mpr (((squarings 8 a).drop 1).foldr gfMul 1).isLt,
      BitVec.ofNat_toNat 8 _⟩)
    exact absurd (beq_iff_eq.mpr (exists_inverse a h)) (by simpa using this)

@[simp] theorem gfMul_zero_left (a : Byte) : gfMul 0#8 a = 0#8 := by rw [gfMul_comm, gfMul_zero]

theorem gfMul_inv_cancel {a : Byte} (h : a ≠ 0) (b : Byte) : gfMul a (gfMul (gfInv a) b) = b := by
  rw [← gfMul_assoc, gfMul_inv h, gfMul_one]

/-! ### Sums of products -/

@[simp] theorem gfDot_nil_left (x : List Byte) : gfDot [] x = 0#8 := rfl

@[simp] theorem gfDot_nil_right (r : List Byte) : gfDot r [] = 0#8 := by cases r <;> rfl

@[simp] theorem gfDot_cons (a b : Byte) (r x : List Byte) : gfDot (a :: r) (b :: x) = gfMul a b ^^^ gfDot r x := rfl

theorem gfDot_addRow {a b : List Byte} (h : a.length = b.length) (x : List Byte) :
    gfDot (addRow a b) x = gfDot a x ^^^ gfDot b x := by
  induction a generalizing b x with
  | nil => cases b <;> simp_all [addRow]
  | cons p a ih =>
    cases b with
    | nil => simp at h
    | cons q b =>
      cases x with
      | nil => simp
      | cons y x =>
        simp only [List.length_cons, Nat.add_right_cancel_iff] at h
        have := ih h x
        simp only [addRow] at this
        simp only [addRow, List.zipWith_cons_cons, gfDot_cons, this, gfMul_xor_left, BitVec.xor_assoc, xor_left_comm]

theorem gfDot_scaleRow (e : Byte) (a x : List Byte) : gfDot (scaleRow e a) x = gfMul e (gfDot a x) := by
  induction a generalizing x with
  | nil => simp [scaleRow]
  | cons p a ih =>
    cases x with
    | nil => simp
    | cons y x =>
      have := ih x
      simp only [scaleRow] at this
      simp only [scaleRow, List.map_cons, gfDot_cons, this, gfMul_assoc, gfMul_xor_right]

/-- What stands past the end of the other list counts for nothing. -/
theorem gfDot_append {a x : List Byte} (h : a.length = x.length) (b : List Byte) : gfDot (a ++ b) x = gfDot a x := by
  induction a generalizing x with
  | nil => cases x <;> simp_all
  | cons p a ih => cases x <;> simp_all

theorem gfDot_take {k : Nat} {a x : List Byte} (h : x.length = k) (hk : k ≤ a.length) : gfDot (a.take k) x = gfDot a x := by
  conv_rhs => rw [← List.take_append_drop k a]
  rw [gfDot_append]
  simp only [List.length_take, h, Nat.min_eq_left hk]

/-- A sum of products, place by place. -/
theorem gfDot_eq_sum (a x : List Byte) :
    gfDot a x = gfSum ((List.range x.length).map fun j => gfMul (a.getD j 0) (x.getD j 0)) := by
  induction x generalizing a with
  | nil => simp [gfSum]
  | cons y x ih =>
    simp only [List.length_cons, List.range_succ_eq_map, List.map_cons, List.map_map]
    cases a with
    | nil =>
      have := ih []
      simp only [gfDot_nil_left, List.getD_nil, BitVec.ofNat_eq_ofNat, gfMul_zero_left] at this
      simpa [gfSum, Function.comp_def] using this
    | cons p a => simpa [gfSum, Function.comp_def] using ih a

/-- Rows that differ only where the other list is 0 have the same product with it. -/
theorem gfDot_congr {a b x : List Byte}
    (h : ∀ j < x.length, gfMul (a.getD j 0) (x.getD j 0) = gfMul (b.getD j 0) (x.getD j 0)) : gfDot a x = gfDot b x := by
  rw [gfDot_eq_sum a, gfDot_eq_sum b]
  exact congrArg gfSum (List.map_congr_left fun j hj => h j (List.mem_range.mp hj))

theorem gfDot_zeros (k : Nat) (x : List Byte) : gfDot (List.replicate k 0#8) x = 0#8 := by
  induction k generalizing x with
  | zero => rfl
  | succ k ih => cases x <;> simp [List.replicate_succ, ih]

/-- Place `j` of a row, 0 past its end. -/
theorem addRow_getD {a b : List Byte} (h : a.length = b.length) (j : Nat) :
    (addRow a b).getD j 0 = a.getD j 0 ^^^ b.getD j 0 := by
  simp only [addRow, List.getD_eq_getElem?_getD, List.getElem?_zipWith]
  by_cases hj : j < a.length
  · rw [List.getElem?_eq_getElem hj, List.getElem?_eq_getElem (h ▸ hj)]
    rfl
  · rw [List.getElem?_eq_none (by omega), List.getElem?_eq_none (by omega)]
    rfl

theorem scaleRow_getD (e : Byte) (a : List Byte) (j : Nat) : (scaleRow e a).getD j 0 = gfMul e (a.getD j 0) := by
  simp only [scaleRow, List.getD_eq_getElem?_getD, List.getElem?_map]
  cases a[j]? <;> simp

theorem gfDot_unit {k : Nat} (i : Nat) {x : List Byte} (h : x.length = k) :
    gfDot ((List.range k).map fun j => if j = i then 1 else 0) x = x.getD i 0 := by
  have main : ∀ (n s : Nat) (y : List Byte), y.length = n →
      gfDot ((List.range' s n).map fun j => if j = i then 1 else 0) y = if s ≤ i then y.getD (i - s) 0 else 0 := by
    intro n
    induction n with
    | zero =>
      intro s y hy
      obtain rfl := List.length_eq_zero_iff.mp hy
      simp
    | succ n ih =>
      intro s y hy
      cases y with
      | nil => simp at hy
      | cons b y =>
        simp only [List.length_cons, Nat.add_right_cancel_iff] at hy
        simp only [List.range'_succ, List.map_cons, gfDot_cons, ih (s + 1) y hy]
        rcases Nat.lt_trichotomy s i with hs | rfl | hs
        · obtain ⟨d, rfl⟩ := Nat.exists_eq_add_of_lt hs
          have h1 : s + d + 1 - s = d + 1 := by omega
          have h2 : s + d + 1 - (s + 1) = d := by omega
          rw [if_neg (by omega), if_pos (by omega), if_pos (by omega), h1, h2]
          simp
        · simp
        · rw [if_neg (by omega), if_neg (by omega), if_neg (by omega)]
          simp
  rw [List.range_eq_range', main k 0 x h]
  simp

/-! ### Products of a row and an array (R15) -/

@[simp] theorem length_rowTimes (k : Nat) (r : List Byte) (M : List (List Byte)) : (rowTimes k r M).length = k := by simp [rowTimes]

theorem rowTimes_addRow (k : Nat) {a b : List Byte} (h : a.length = b.length) (M : List (List Byte)) :
    rowTimes k (addRow a b) M = addRow (rowTimes k a M) (rowTimes k b M) := by
  simp only [rowTimes, gfDot_addRow h]
  simp only [addRow, List.zipWith_map, List.zipWith_self]

theorem rowTimes_scaleRow (k : Nat) (e : Byte) (a : List Byte) (M : List (List Byte)) :
    rowTimes k (scaleRow e a) M = scaleRow e (rowTimes k a M) := by
  simp only [rowTimes, scaleRow, List.map_map]
  exact List.map_congr_left fun j _ => gfDot_scaleRow e a _

/-- The order of the two products does not matter: (r M) x = r (M x). -/
theorem gfDot_rowTimes {k : Nat} {M : List (List Byte)} {x : List Byte} (hM : ∀ row ∈ M, row.length = k) (r : List Byte) :
    gfDot (rowTimes k r M) x = gfDot r (M.map fun row => gfDot row x) := by
  induction M generalizing r with
  | nil => simpa [rowTimes] using gfDot_zeros k x
  | cons row M ih =>
    cases r with
    | nil => simpa [rowTimes] using gfDot_zeros k x
    | cons a r =>
      have split : rowTimes k (a :: r) (row :: M) = addRow (scaleRow a row) (rowTimes k r M) := by
        refine List.ext_getElem (by simp [addRow, scaleRow, hM row (by simp)]) fun j h1 h2 => ?_
        have hj : j < row.length := by rw [hM row (by simp)]; simpa using h1
        simp [rowTimes, addRow, scaleRow, List.getD_eq_getElem?_getD, hj]
      rw [split, gfDot_addRow (by simp [scaleRow, hM row (by simp)]), gfDot_scaleRow, List.map_cons, gfDot_cons,
        ih fun y hy => hM y (by simp [hy])]

end Sys2Proof.Machine
end

