-- ==== Sys2Proof/Laws/Elimination.lean ====
section
/-! SUPPORT. Gauss-Jordan elimination inverts a matrix of independent rows, and the rows of a bank rebuild (01 R14, R15). -/

namespace Sys2Proof.Machine

/-- The rows of an array keep no vector but zero. -/
def trivialKernel (k : Nat) (a : List (List Byte)) : Prop :=
  ∀ x : List Byte, x.length = k → (∀ row ∈ a, gfDot row x = 0) → x = List.replicate k 0

/-- A row [u | v] of the array stands for u = v A. -/
def combines (k : Nat) (A : List (List Byte)) (row : List Byte) : Prop :=
  row.length = 2 * k ∧ row.take k = rowTimes k (row.drop k) A

/-- R14: what the array comes to when the columns below `c` have been treated. -/
structure Eliminated (k c : Nat) (A a : List (List Byte)) : Prop where
  rows : a.length = k
  combined : ∀ row ∈ a, combines k A row
  kernel : trivialKernel k a
  done : ∀ r < k, ∀ j < c, entryAt a r j = if j = r then 1 else 0

theorem combines_scaleRow {k : Nat} {A : List (List Byte)} {row : List Byte} (h : combines k A row) (e : Byte) :
    combines k A (scaleRow e row) := by
  refine ⟨by simpa [scaleRow] using h.1, ?_⟩
  have h1 : (scaleRow e row).take k = scaleRow e (row.take k) := by simp [scaleRow, List.map_take]
  have h2 : (scaleRow e row).drop k = scaleRow e (row.drop k) := by simp [scaleRow, List.map_drop]
  rw [h1, h2, rowTimes_scaleRow, h.2]

theorem combines_addRow {k : Nat} {A : List (List Byte)} {a b : List Byte} (ha : combines k A a) (hb : combines k A b) :
    combines k A (addRow a b) := by
  refine ⟨by simp [addRow, ha.1, hb.1], ?_⟩
  have h1 : (addRow a b).take k = addRow (a.take k) (b.take k) := by simp [addRow, List.take_zipWith]
  have h2 : (addRow a b).drop k = addRow (a.drop k) (b.drop k) := by simp [addRow, List.drop_zipWith]
  rw [h1, h2, rowTimes_addRow k (by simp [ha.1, hb.1]), ha.2, hb.2]

theorem getD_mem {α : Type} {l : List α} {i : Nat} (d : α) (h : i < l.length) : l.getD i d ∈ l := by
  rw [List.getD_eq_getElem _ _ h]
  exact List.getElem_mem h

theorem unit_getD {k : Nat} (i : Nat) {j : Nat} (hj : j < k) :
    ((List.range k).map fun j => if j = i then (1 : Byte) else 0).getD j 0 = if j = i then 1#8 else 0#8 := by
  simp [List.getD_eq_getElem?_getD, hj]

/-- The columns before `c` are unit columns: were column `c` zero from row `c` downward, a vector with a 1 at `c` would be
lost. -/
theorem Eliminated.column {k c : Nat} {A a : List (List Byte)} (h : Eliminated k c A a) (hc : c < k) :
    ∃ r < k, c ≤ r ∧ entryAt a r c ≠ 0 := by
  by_contra hn
  have hzero : ∀ r < k, c ≤ r → entryAt a r c = 0 := fun r hr hcr => by
    by_contra hne
    exact hn ⟨r, hr, hcr, hne⟩
  let x : List Byte := (List.range k).map fun j => if j < c then entryAt a j c else if j = c then 1 else 0
  have hx : x.length = k := by simp [x]
  have at_x : ∀ j < k, x.getD j 0 = if j < c then entryAt a j c else if j = c then 1 else 0 := fun j hj => by
    simp [x, List.getD_eq_getElem?_getD, hj]
  have hlost := h.kernel x hx fun row hrow => by
    obtain ⟨r, hr, rfl⟩ := List.getElem_of_mem hrow
    have hrk : r < k := h.rows ▸ hr
    have at_row : ∀ j, a[r].getD j 0 = entryAt a r j := fun j => by simp [entryAt, List.getD_eq_getElem?_getD, hr]
    by_cases hrc : r < c
    · let unit (i : Nat) : List Byte := (List.range k).map fun j => if j = i then 1 else 0
      have : gfDot a[r] x = gfDot (addRow (unit r) (scaleRow (entryAt a r c) (unit c))) x := by
        refine gfDot_congr fun j hj => ?_
        rw [hx] at hj
        rw [addRow_getD (by simp [unit, scaleRow]), scaleRow_getD, unit_getD r hj, unit_getD c hj, at_row, at_x j hj]
        rcases Nat.lt_trichotomy j c with hjc | rfl | hjc
        · simp [h.done r hrk j hjc, hjc, Nat.ne_of_lt hjc]
        · simp [Nat.ne_of_gt hrc, gfMul_comm _ 1#8]
        · simp [Nat.not_lt_of_gt hjc, Nat.ne_of_gt hjc]
      rw [this, gfDot_addRow (by simp [unit, scaleRow]), gfDot_scaleRow, gfDot_unit r hx, gfDot_unit c hx]
      have h1 := at_x r hrk
      have h2 := at_x c hc
      simp only [hrc, if_true] at h1
      simp only [Nat.lt_irrefl, if_false, if_true] at h2
      simp only [BitVec.ofNat_eq_ofNat] at h1 h2 ⊢
      rw [h1, h2, gfMul_comm, gfMul_one, BitVec.xor_self]
    · have : gfDot a[r] x = gfDot (List.replicate k 0#8) x := by
        refine gfDot_congr fun j hj => ?_
        rw [hx] at hj
        rw [at_row, at_x j hj]
        rcases Nat.lt_trichotomy j c with hjc | rfl | hjc
        · have : j ≠ r := by omega
          simp [h.done r hrk j hjc, this, List.getD_eq_getElem?_getD, hj]
        · simp [hzero r hrk (by omega), List.getD_eq_getElem?_getD, hj]
        · simp [Nat.not_lt_of_gt hjc, Nat.ne_of_gt hjc]
      rw [this, gfDot_zeros]
      rfl
  have := at_x c hc
  rw [hlost] at this
  simp [List.getD_eq_getElem?_getD, hc] at this

/-- R14 step 1 always finds its row. -/
theorem Eliminated.pivot {k c : Nat} {A a : List (List Byte)} (h : Eliminated k c A a) (hc : c < k) :
    c ≤ pivotRow a c ∧ pivotRow a c < k ∧ entryAt a (pivotRow a c) c ≠ 0 := by
  obtain ⟨r, hr, hcr, hne⟩ := h.column hc
  unfold pivotRow
  cases hf : (List.range a.length).find? (fun r => decide (c ≤ r) && entryAt a r c != 0) with
  | some p =>
    have h1 := List.find?_some hf
    have h2 := List.mem_of_find?_eq_some hf
    simp only [Bool.and_eq_true, decide_eq_true_eq, bne_iff_ne, List.mem_range, h.rows] at h1 h2
    exact ⟨h1.1, h2, h1.2⟩
  | none =>
    refine absurd ?_ (List.find?_eq_none.mp hf r (List.mem_range.mpr (h.rows.symm ▸ hr)))
    simp only [Bool.and_eq_true, decide_eq_true_eq, bne_iff_ne]
    exact ⟨hcr, hne⟩

/-- R14 step 2: the rows after the exchange. -/
theorem swapRows_getD {a : List (List Byte)} {p c : Nat} (hp : p < a.length) (hc : c < a.length) (r : Nat) :
    (swapRows a p c).getD r [] = a.getD (if r = p then c else if r = c then p else r) [] := by
  simp only [swapRows, List.getD_eq_getElem?_getD, List.getElem?_set, List.length_set]
  by_cases h1 : p = r
  · subst h1
    simp [hp]
  · by_cases h2 : c = r
    · subst h2
      simp [h1, hc, Ne.symm h1]
    · simp [h1, h2, Ne.symm h1, Ne.symm h2]

/-- R14 steps 3 and 4: the rows after the scaling and the clearing. -/
theorem scaleAndClear_getD {a : List (List Byte)} {c r : Nat} (hr : r < a.length) :
    (scaleAndClear a c).getD r [] =
      if r = c then scaleRow (gfInv (entryAt a c c)) (a.getD c [])
      else if entryAt a r c = 0 then a.getD r []
      else addRow (a.getD r []) (scaleRow (entryAt a r c) (scaleRow (gfInv (entryAt a c c)) (a.getD c []))) := by
  simp [scaleAndClear, List.getD_eq_getElem?_getD, hr]

theorem mem_iff_getD {a : List (List Byte)} {row : List Byte} : row ∈ a ↔ ∃ r < a.length, a.getD r [] = row := by
  constructor
  · intro h
    obtain ⟨r, hr, rfl⟩ := List.getElem_of_mem h
    exact ⟨r, hr, by simp [List.getD_eq_getElem?_getD, hr]⟩
  · rintro ⟨r, hr, rfl⟩
    exact getD_mem [] hr

/-- R14: the treatment of a column. -/
theorem Eliminated.step {k c : Nat} {A a : List (List Byte)} (h : Eliminated k c A a) (hc : c < k) :
    Eliminated k (c + 1) A (eliminateColumn a c) := by
  obtain ⟨hcp, hpk, hpv⟩ := h.pivot hc
  generalize hp : pivotRow a c = p at *
  have hpa : p < a.length := h.rows.symm ▸ hpk
  have hca : c < a.length := h.rows.symm ▸ hc
  -- the rows after the exchange
  let from_ (r : Nat) : Nat := if r = p then c else if r = c then p else r
  have from_lt : ∀ r < k, from_ r < k := fun r hr => by simp only [from_]; split <;> [exact hc; split <;> assumption]
  have hsw : ∀ r, (swapRows a p c).getD r [] = a.getD (from_ r) [] := swapRows_getD hpa hca
  have hlen : (swapRows a p c).length = k := by simp [swapRows, h.rows]
  generalize hb : swapRows a p c = b at *
  have hbe : ∀ r j, entryAt b r j = entryAt a (from_ r) j := fun r j => by simp only [entryAt, hsw]
  have hbc : ∀ r < k, combines k A (b.getD r []) := fun r hr => by
    rw [hsw]
    exact h.combined _ (getD_mem [] (h.rows.symm ▸ from_lt r hr))
  have hbd : ∀ r < k, ∀ j < c, entryAt b r j = if j = r then 1 else 0 := fun r hr j hj => by
    rw [hbe, h.done _ (from_lt r hr) j hj]
    simp only [from_]
    split
    · subst r
      rw [if_neg (by omega), if_neg (by omega)]
    · split
      · subst r
        rw [if_neg (by omega), if_neg (by omega)]
      · rfl
  have hbp : entryAt b c c ≠ 0 := by
    rw [hbe]
    by_cases hcp' : c = p
    · simpa [from_, hcp'] using hpv
    · simpa [from_, hcp'] using hpv
  have hwidth : ∀ r < k, (b.getD r []).length = 2 * k := fun r hr => (hbc r hr).1
  have hrow : ∀ r < k, (scaleAndClear b c).getD r [] =
      if r = c then scaleRow (gfInv (entryAt b c c)) (b.getD c [])
      else if entryAt b r c = 0 then b.getD r []
      else addRow (b.getD r []) (scaleRow (entryAt b r c) (scaleRow (gfInv (entryAt b c c)) (b.getD c []))) :=
    fun r hr => scaleAndClear_getD (hlen.symm ▸ hr)
  have hsame : ∀ r < k, (b.getD r []).length
      = (scaleRow (entryAt b r c) (scaleRow (gfInv (entryAt b c c)) (b.getD c []))).length := fun r hr => by
    simp only [scaleRow, List.length_map, hwidth r hr, hwidth c hc]
  have hel : (eliminateColumn a c) = scaleAndClear b c := by simp only [eliminateColumn, hp, hb]
  have hlen' : (scaleAndClear b c).length = k := by simp [scaleAndClear, hlen]
  rw [hel]
  refine ⟨hlen', fun row hm => ?_, fun x hx hz => ?_, fun r hr j hj => ?_⟩
  · obtain ⟨r, hr, rfl⟩ := mem_iff_getD.mp hm
    rw [hlen'] at hr
    rw [hrow r hr]
    split
    · exact combines_scaleRow (hbc c hc) _
    · split
      · exact hbc r hr
      · exact combines_addRow (hbc r hr) (combines_scaleRow (combines_scaleRow (hbc c hc) _) _)
  · have at_zero : ∀ r < k, gfDot ((scaleAndClear b c).getD r []) x = 0 := fun r hr =>
      hz _ (getD_mem [] (hlen'.symm ▸ hr))
    have pivot_zero : gfDot (b.getD c []) x = 0 := by
      have := at_zero c hc
      rw [hrow c hc, if_pos rfl, gfDot_scaleRow] at this
      rw [← gfMul_inv_cancel hbp (gfDot (b.getD c []) x), this]
      exact gfMul_zero _
    have all_zero : ∀ r < k, gfDot (b.getD r []) x = 0 := fun r hr => by
      by_cases hrc : r = c
      · exact hrc ▸ pivot_zero
      · have := at_zero r hr
        rw [hrow r hr, if_neg hrc] at this
        split at this
        · exact this
        · rw [gfDot_addRow (hsame r hr), gfDot_scaleRow, gfDot_scaleRow, pivot_zero] at this
          simpa using this
    refine h.kernel x hx fun row hm => ?_
    obtain ⟨r, hr, rfl⟩ := mem_iff_getD.mp hm
    rw [h.rows] at hr
    have := all_zero (from_ r) (from_lt r hr)
    rw [hsw] at this
    have back : from_ (from_ r) = r := by
      simp only [from_]
      by_cases h1 : r = p
      · by_cases h2 : c = p <;> simp [h1, h2]
      · by_cases h2 : r = c <;> simp [h1, h2]
    rwa [back] at this
  · have hent : entryAt (scaleAndClear b c) r j =
        if r = c then gfMul (gfInv (entryAt b c c)) (entryAt b c j)
        else if entryAt b r c = 0 then entryAt b r j
        else entryAt b r j ^^^ gfMul (entryAt b r c) (gfMul (gfInv (entryAt b c c)) (entryAt b c j)) := by
      show ((scaleAndClear b c).getD r []).getD j 0 = _
      rw [hrow r hr]
      split
      · exact scaleRow_getD _ _ _
      · split
        · rfl
        · rw [addRow_getD (hsame r hr), scaleRow_getD, scaleRow_getD]
          rfl
    rw [hent]
    have one : gfMul (gfInv (entryAt b c c)) (entryAt b c c) = 1 := by rw [gfMul_comm]; exact gfMul_inv hbp
    rcases Nat.lt_succ_iff_lt_or_eq.mp hj with hjc | rfl
    · rw [hbd c hc j hjc, hbd r hr j hjc, if_neg (Nat.ne_of_lt hjc)]
      by_cases hrc : r = c
      · subst hrc
        simp [Nat.ne_of_lt hjc]
      · simp [hrc]
    · by_cases hrc : r = j
      · rw [if_pos hrc, one, if_pos hrc.symm]
      · rw [if_neg hrc, if_neg (Ne.symm hrc), one]
        by_cases h0 : entryAt b r j = 0
        · rw [if_pos h0, h0]
        · rw [if_neg h0, gfMul_comm]
          simp

end Sys2Proof.Machine
end

