-- ==== Sys2Proof/Laws/Freeing.lean ====
section
/-! SUPPORT. What many releases in one step come to, with closes between them: where the released cells stand, which floors are still short (R124). -/

namespace Sys2Proof.Machine

open Sys2Proof.Config

/-- From `s` to `u` the cells that `done` names have been released, and entries have lost plans, states and submitters;
the cells that `lapsed` names stand in the floor of an entry whose plan is being dropped. -/
structure FreeingBut (s u : State) (done lapsed : CellId → Prop) : Prop where
  entries : ∀ he ∈ u.entries, ∃ e0, s.entry? he.1 = some e0 ∧ he.2.urgency = e0.urgency ∧ he.2.sequence = e0.sequence
    ∧ (he.2.plan = none ∨ he.2.plan = e0.plan)
  rising : u.rising
  lanes : u.lanes = s.lanes
  kept : ∀ c, ¬done c → u.cell c = s.cell c
  free : ∀ c, s.cell c = none → u.cell c = none
  released : ∀ c, done c → u.cell c = none ∨ ∃ h, u.cell c = some (floorCell h)
    ∧ (¬s.readByPass c → ¬lapsed c → ∃ e pl, u.entry? h = some e ∧ e.plan = some pl)
  home : ∀ c x e pl, done c → s.cell c = some x → x.charge = .floor → u.entry? x.owner = some e → e.plan = some pl →
    s.floorCount x.owner ≤ pl.floorSize → u.cell c = some (floorCell x.owner)
  surplus : ∀ c x e pl, done c → s.cell c = some x → x.charge = .floor → u.entry? x.owner = some e → e.plan = some pl →
    pl.floorSize < u.floorCount x.owner → u.cell c ≠ some (floorCell x.owner)
  taken : ∀ c x h e pl, done c → s.cell c = some x → u.cell c = some (floorCell h) →
    x.owner ≠ h ∨ x.charge = .pool → u.entry? h = some e → e.plan = some pl → s.floorCount h < pl.floorSize
  counts : ∀ h e pl, u.entry? h = some e → e.plan = some pl →
    min (s.floorCount h) pl.floorSize ≤ u.floorCount h ∧ u.floorCount h ≤ max (s.floorCount h) pl.floorSize
  served : someCellFreed s u → ∀ he, ¬u.short he
  first : s.oneEra → ∀ c x h e0, done c → s.cell c = some x → u.cell c = some (floorCell h) →
    x.owner ≠ h ∨ x.charge = .pool → s.entry? h = some e0 → ∀ k, u.short k → k.1 = h ∨ comesFirst (h, e0) k

/-- From `s` to `u` the cells that `done` names have been released, and no floor is one of an entry without a plan. -/
abbrev Freeing (s u : State) (done : CellId → Prop) : Prop := FreeingBut s u done fun _ => False

theorem Freeing.start (s : State) (h : s.rising) : Freeing s s fun _ => False where
  entries he hm := ⟨he.2, State.entry_of_mem h hm, rfl, rfl, .inr rfl⟩
  rising := h
  lanes := rfl
  kept _ _ := rfl
  free _ hc := hc
  released _ hc := hc.elim
  home _ _ _ _ hc := hc.elim
  surplus _ _ _ _ hc := hc.elim
  taken _ _ _ _ _ hc := hc.elim
  counts _ _ _ _ _ := ⟨Nat.min_le_left .., Nat.le_max_left ..⟩
  served := fun ⟨_, a, b⟩ => absurd b a
  first _ _ _ _ _ hc := hc.elim

/-- What the invariant says depends on the cells that are named, not on the name. -/
theorem FreeingBut.congr {s u : State} {D E L M : CellId → Prop} (k : FreeingBut s u D L) (h : ∀ c, D c ↔ E c)
    (hl : ∀ c, L c ↔ M c) : FreeingBut s u E M := by
  obtain rfl : D = E := funext fun c => propext (h c)
  obtain rfl : L = M := funext fun c => propext (hl c)
  exact k

theorem Freeing.congr {s u : State} {D E : CellId → Prop} (k : Freeing s u D) (h : ∀ c, D c ↔ E c) : Freeing s u E :=
  FreeingBut.congr k h fun _ => Iff.rfl

/-- Queue order looks at class, sequence and handle. -/
theorem comesFirst_congr {h : Handle} {e f : Entry} (hu : e.urgency = f.urgency) (hs : e.sequence = f.sequence)
    (k : Handle × Entry) : comesFirst (h, e) k ↔ comesFirst (h, f) k := by
  unfold comesFirst
  simp only [hu, hs]

theorem comesFirst_congr_right {h : Handle} {e f : Entry} (hu : e.urgency = f.urgency) (hs : e.sequence = f.sequence)
    (k : Handle × Entry) : comesFirst k (h, e) ↔ comesFirst k (h, f) := by
  unfold comesFirst
  simp only [hu, hs]

/-- R124: the floor count after one cell is changed. -/
theorem State.floorCount_setCell (s : State) (c : CellId) (x : Option Cell) (h : Handle) :
    let is (y : Option Cell) : Nat := if ∃ z, y = some z ∧ z.owner = h ∧ z.charge = .floor then 1 else 0
    (s.setCell c x).floorCount h + is (s.cell c) = s.floorCount h + is x := by
  have k := countP_setCell s c x (cellIs fun y => decide (y.owner = h) && decide (y.charge = .floor))
  have e : ∀ y : Option Cell, (if cellIs (fun y => decide (y.owner = h) && decide (y.charge = .floor)) y = true then 1 else 0)
      = if ∃ z, y = some z ∧ z.owner = h ∧ z.charge = .floor then 1 else 0 := fun y => by
    cases y <;> simp [cellIs]
  simp only [e] at k
  exact k

/-- R124: a release moves the floor count of an entry with a plan towards the floor size, if it moves it. -/
theorem State.floorCount_release {s : State} (hr : s.rising) (c : CellId) {h : Handle} {e : Entry} {pl : Plan}
    (he : s.entry? h = some e) (hp : e.plan = some pl) :
    min (s.floorCount h) pl.floorSize ≤ (s.release c).floorCount h
      ∧ (s.release c).floorCount h ≤ max (s.floorCount h) pl.floorSize := by
  cases hc : s.cell c with
  | none =>
    have : s.release c = s := by simp only [State.release, hc]
    rw [this]
    omega
  | some x =>
    have key : ∀ y : Option Cell, (y = some (floorCell x.owner) ∧ s.hasHome x
          ∨ ¬s.hasHome x ∧ (y = none ∨ ∃ k, s.short k ∧ y = some (floorCell k.1))) →
        (s.release c).cells = (s.setCell c y).cells →
        min (s.floorCount h) pl.floorSize ≤ (s.release c).floorCount h
          ∧ (s.release c).floorCount h ≤ max (s.floorCount h) pl.floorSize := by
      intro y hy hcells
      have hf : (s.release c).floorCount h = (s.setCell c y).floorCount h := by
        unfold State.floorCount State.cellCount
        rw [hcells]
      rw [hf]
      have hs := s.floorCount_setCell c y h
      simp only [hc, Option.some.injEq, exists_eq_left'] at hs
      by_cases hx : x.owner = h ∧ x.charge = .floor
      · rw [if_pos hx] at hs
        rcases hy with ⟨rfl, -⟩ | ⟨hn, hy⟩
        · rw [if_pos ⟨_, rfl, hx.1, rfl⟩] at hs
          omega
        · have hlt : pl.floorSize < s.floorCount h := by
            by_contra hle
            exact hn ⟨hx.2, e, pl, by rw [hx.1]; exact he, hp, by rw [hx.1]; omega⟩
          split at hs <;> omega
      · rw [if_neg hx] at hs
        rcases hy with ⟨rfl, hh⟩ | ⟨-, rfl | ⟨k, hk, rfl⟩⟩
        · rw [if_neg] at hs
          · omega
          · rintro ⟨z, hz, h1, -⟩
            obtain rfl := Option.some.inj hz
            exact hx ⟨h1, hh.1⟩
        · rw [if_neg (by simp)] at hs
          omega
        · obtain ⟨hm, pk, hpk, hlt⟩ := hk
          by_cases hkh : k.1 = h
          · have := State.entry_of_mem hr (h := k.1) (e := k.2) hm
            rw [hkh, he] at this
            obtain rfl := Option.some.inj this
            rw [hp] at hpk
            obtain rfl := Option.some.inj hpk
            rw [hkh] at hlt
            split at hs <;> omega
          · rw [if_neg] at hs
            · omega
            · rintro ⟨z, hz, h1, -⟩
              obtain rfl := Option.some.inj hz
              exact hkh h1
    by_cases hh : s.returnsToFloor x = true
    · refine key (some (floorCell x.owner)) (.inl ⟨rfl, (s.returnsToFloor_iff x).mp hh⟩) ?_
      simp only [State.release, hc, hh, if_true]
    · have hn : ¬s.hasHome x := fun h => hh ((s.returnsToFloor_iff x).mpr h)
      cases hu : mostUrgent s.shortfalls with
      | some k =>
        refine key (some (floorCell k.1)) (.inr ⟨hn, .inr ⟨k, (s.mem_shortfalls k).mp (mostUrgent_mem hu), rfl⟩⟩) ?_
        simp only [State.release, hc, hh, if_false, hu, Bool.false_eq_true]
      | none =>
        refine key none (.inr ⟨hn, .inl rfl⟩) ?_
        simp only [State.release, hc, hh, if_false, hu, Bool.false_eq_true]
        rfl

/-- R124: a release takes no floor below its size. -/
theorem State.short_release {s : State} (hr : s.rising) (c : CellId) {k : Handle × Entry} (h : (s.release c).short k) :
    s.short k := by
  have he : (s.release c).entries = s.entries := by rw [← CellsOnly.release s c]
  obtain ⟨hm, pl, hp, hlt⟩ := h
  rw [he] at hm
  have := (s.floorCount_release hr c (State.entry_of_mem hr (h := k.1) (e := k.2) hm) hp).1
  exact ⟨hm, pl, hp, by omega⟩

/-- R124: one more cell is released. -/
theorem FreeingBut.release {s u : State} {D L : CellId → Prop} (k : FreeingBut s u D L) (c : CellId) :
    FreeingBut s (u.release c) (fun x => D x ∨ x = c) (fun x => L x ∧ x ≠ c) := by
  have only := CellsOnly.release u c
  have he : (u.release c).entries = u.entries := by rw [← only]
  have hentry : (u.release c).entry? = u.entry? := by
    funext h
    unfold State.entry?
    rw [he]
  have hl : (u.release c).lanes = u.lanes := by rw [← only]
  obtain ⟨hother, hnone, hsome⟩ := u.release_spec c
  have hshort : ∀ x, (u.release c).short x → u.short x := fun x => State.short_release k.rising c
  have hmoves : ∀ h e pl, u.entry? h = some e → e.plan = some pl →
      min (u.floorCount h) pl.floorSize ≤ (u.release c).floorCount h
        ∧ (u.release c).floorCount h ≤ max (u.floorCount h) pl.floorSize :=
    fun h e pl h1 h2 => State.floorCount_release k.rising c h1 h2
  have hcounts : ∀ h e pl, (u.release c).entry? h = some e → e.plan = some pl →
      min (s.floorCount h) pl.floorSize ≤ (u.release c).floorCount h
        ∧ (u.release c).floorCount h ≤ max (s.floorCount h) pl.floorSize := fun h e pl h1 h2 => by
    rw [hentry] at h1
    have a := k.counts h e pl h1 h2
    have b := hmoves h e pl h1 h2
    omega
  cases hc : u.cell c with
  | none =>
    have hsame : ∀ x, (u.release c).cell x = u.cell x := fun x => by
      by_cases hx : x = c
      · rw [hx, hnone hc, hc]
      · exact hother x hx
    refine ⟨by rw [he]; exact k.entries, by unfold State.rising; rw [he]; exact k.rising, hl.trans k.lanes, fun x hx => ?_,
      fun x hx => (hsame x).trans (k.free x hx), fun x hx => ?_, fun x y e pl hx hsx hf h1 h2 hle => ?_,
      fun x y e pl hx hsx hf h1 h2 hlt => ?_, fun x y h e pl hx hsx hux hxo h1 h2 => ?_, hcounts, fun ⟨x, a, b⟩ y hy => ?_,
      fun ho x y h e0 hx hsx hux hxo hse j hj => ?_⟩
    · rw [hsame, k.kept x fun h => hx (.inl h)]
    · rw [hsame, hentry]
      by_cases hxc : x = c
      · exact .inl (by rw [hxc]; exact hc)
      · exact (k.released x (hx.resolve_right hxc)).imp id fun ⟨i, h1, h2⟩ => ⟨i, h1, fun a b => h2 a fun hl => b ⟨hl, hxc⟩⟩
    · rw [hentry] at h1
      rw [hsame]
      rcases hx with hx | rfl
      · exact k.home x y e pl hx hsx hf h1 h2 hle
      · by_cases hd : D x
        · exact k.home x y e pl hd hsx hf h1 h2 hle
        · rw [k.kept x hd, hsx] at hc
          cases hc
    · rw [hentry] at h1
      rw [hsame]
      rcases hx with hx | rfl
      · refine k.surplus x y e pl hx hsx hf h1 h2 ?_
        have := hmoves _ e pl h1 h2
        omega
      · rw [hc]
        exact fun h => nomatch h
    · rw [hentry] at h1
      rw [hsame] at hux
      rcases hx with hx | rfl
      · exact k.taken x y h e pl hx hsx hux hxo h1 h2
      · rw [hc] at hux
        cases hux
    · exact k.served ⟨x, a, by rw [← hsame]; exact b⟩ y (hshort y hy)
    · rw [hsame] at hux
      rcases hx with hx | rfl
      · exact k.first ho x y h e0 hx hsx hux hxo hse j (hshort j hj)
      · rw [hc] at hux
        cases hux
  | some x =>
    obtain ⟨hhome, hord, hsh, hfree⟩ := hsome x hc
    -- where the cell goes
    have hwhere : (u.release c).cell c = some (floorCell x.owner) ∧ u.hasHome x
        ∨ (∃ he, u.short he ∧ mostUrgent u.shortfalls = some he ∧ (u.release c).cell c = some (floorCell he.1))
        ∨ (u.release c).cell c = none ∧ ∀ he, ¬u.short he := by
      by_cases hh : u.hasHome x
      · exact .inl ⟨hhome hh, hh⟩
      · cases hm : mostUrgent u.shortfalls with
        | none =>
          have hno : ∀ he, ¬u.short he := fun he h => by
            have := (u.mem_shortfalls he).mpr h
            rw [mostUrgent_eq_none.mp hm] at this
            simp at this
          exact .inr (.inr ⟨(hfree hh fun ⟨he, h⟩ => hno he h).1, hno⟩)
        | some he =>
          refine .inr (.inl ⟨he, (u.mem_shortfalls he).mp (mostUrgent_mem hm), rfl, ?_⟩)
          have : u.returnsToFloor x = false := by
            rw [← Bool.not_eq_true, State.returnsToFloor_iff]
            exact hh
          simp only [State.release, hc, this, Bool.false_eq_true, if_false, hm]
          exact (State.cell_setCell ..).trans (if_pos rfl)
    have hplan : ∀ h, (u.release c).cell c = some (floorCell h) → ∃ e pl, u.entry? h = some e ∧ e.plan = some pl := by
      intro h hh
      rcases hwhere with ⟨h1, -, e, pl, h2, h3, -⟩ | ⟨⟨i, e⟩, ⟨h1, pl, h2, -⟩, -, h3⟩ | ⟨h1, -⟩
      · rw [h1] at hh
        obtain rfl : x.owner = h := by simpa [floorCell] using hh
        exact ⟨e, pl, h2, h3⟩
      · rw [h3] at hh
        obtain rfl : i = h := by simpa [floorCell] using hh
        exact ⟨e, pl, State.entry_of_mem k.rising h1, h2⟩
      · rw [h1] at hh
        cases hh
    refine ⟨by rw [he]; exact k.entries, by unfold State.rising; rw [he]; exact k.rising, hl.trans k.lanes, fun y hy => ?_,
      fun y hy => ?_, fun y hy => ?_, fun y z e pl hy hsy hf h1 h2 hle => ?_, fun y z e pl hy hsy hf h1 h2 hlt => ?_,
      fun y z h e pl hy hsy huy hzo h1 h2 => ?_, hcounts, fun ⟨y, a, b⟩ => ?_, fun ho y z h e0 hy hsy huy hzo hse j hj => ?_⟩
    · rw [hother y fun h => hy (.inr h), k.kept y fun h => hy (.inl h)]
    · rw [hother y, k.free y hy]
      rintro rfl
      rw [k.free y hy] at hc
      cases hc
    · rw [hentry]
      by_cases hyc : y = c
      · subst hyc
        rcases hwhere with ⟨h1, -⟩ | ⟨i, -, -, h1⟩ | ⟨h1, -⟩
        · exact .inr ⟨_, h1, fun _ _ => hplan _ h1⟩
        · exact .inr ⟨_, h1, fun _ _ => hplan _ h1⟩
        · exact .inl h1
      · rw [hother y hyc]
        exact (k.released y (hy.resolve_right hyc)).imp id fun ⟨i, h1, h2⟩ => ⟨i, h1, fun a b => h2 a fun hl => b ⟨hl, hyc⟩⟩
    · rw [hentry] at h1
      by_cases hyc : y = c
      · subst hyc
        have hx : x = z ∨ x = floorCell z.owner := by
          by_cases hd : D y
          · have := k.home y z e pl hd hsy hf h1 h2 hle
            rw [hc] at this
            exact .inr (Option.some.inj this)
          · have := k.kept y hd
            rw [hc, hsy] at this
            exact .inl (Option.some.inj this)
        have ho : x.owner = z.owner := by
          rcases hx with rfl | rfl <;> rfl
        have hg : x.charge = .floor := by
          rcases hx with rfl | rfl
          · exact hf
          · rfl
        have := hhome ⟨hg, e, pl, by rw [ho]; exact h1, h2, by rw [ho]; have := (k.counts _ e pl h1 h2).2; omega⟩
        rw [this, ho]
        rfl
      · rw [hother y hyc]
        exact k.home y z e pl (hy.resolve_right hyc) hsy hf h1 h2 hle
    · rw [hentry] at h1
      have hlt : pl.floorSize < u.floorCount z.owner := by
        have := hmoves _ e pl h1 h2
        omega
      by_cases hyc : y = c
      · subst hyc
        rcases hwhere with ⟨g1, -, e1, pl1, g2, g3, g4⟩ | ⟨i, ⟨g1, pl1, g2, g3⟩, -, g4⟩ | ⟨g1, -⟩
        · rw [g1]
          intro h
          have ho : x.owner = z.owner := by simpa [floorCell] using h
          rw [ho, h1] at g2
          obtain rfl := Option.some.inj g2
          rw [h2] at g3
          obtain rfl := Option.some.inj g3
          rw [ho] at g4
          omega
        · rw [g4]
          intro h
          have ho : i.1 = z.owner := by simpa [floorCell] using h
          have g5 := State.entry_of_mem k.rising (h := i.1) (e := i.2) g1
          rw [ho, h1] at g5
          obtain rfl := Option.some.inj g5
          rw [h2] at g2
          obtain rfl := Option.some.inj g2
          rw [ho] at g3
          omega
        · rw [g1]
          exact fun h => nomatch h
      · rw [hother y hyc]
        exact k.surplus y z e pl (hy.resolve_right hyc) hsy hf h1 h2 hlt
    · rw [hentry] at h1
      by_cases hyc : y = c
      · subst hyc
        rcases hwhere with ⟨g1, hh⟩ | ⟨i, ⟨g1, pl1, g2, g3⟩, -, g4⟩ | ⟨g1, -⟩
        · rw [g1] at huy
          obtain rfl : x.owner = h := by simpa [floorCell] using huy
          by_cases hd : D y
          · rcases k.released y hd with g2 | ⟨h', g2, -⟩
            · rw [hc] at g2
              cases g2
            · have hx : x = floorCell h' := by rw [hc] at g2; exact Option.some.inj g2
              rw [hx] at hc hzo h1 ⊢
              exact k.taken y z h' e pl hd hsy hc hzo h1 h2
          · have hx : z = x := by
              have := k.kept y hd
              rw [hc, hsy] at this
              exact (Option.some.inj this).symm
            rw [hx] at hzo
            rcases hzo with hzo | hzo
            · exact absurd rfl hzo
            · rw [hh.1] at hzo
              cases hzo
        · rw [g4] at huy
          obtain rfl : i.1 = h := by simpa [floorCell] using huy
          have g5 := State.entry_of_mem k.rising (h := i.1) (e := i.2) g1
          rw [h1] at g5
          rw [← Option.some.inj g5, h2] at g2
          rw [← Option.some.inj g2] at g3
          have := (k.counts _ e pl h1 h2).1
          omega
        · rw [g1] at huy
          cases huy
      · rw [hother y hyc] at huy
        exact k.taken y z h e pl (hy.resolve_right hyc) hsy huy hzo h1 h2
    · by_cases hyc : y = c
      · subst hyc
        rcases hwhere with ⟨h1, -⟩ | ⟨i, -, -, h1⟩ | ⟨-, h1⟩
        · rw [h1] at b
          cases b
        · rw [h1] at b
          cases b
        · exact fun j hj => h1 j (hshort j hj)
      · rw [hother y hyc] at b
        exact fun j hj => k.served ⟨y, a, b⟩ j (hshort j hj)
    · by_cases hyc : y = c
      · subst hyc
        rcases hwhere with ⟨h1, hh⟩ | ⟨i, hi, hm, h1⟩ | ⟨h1, -⟩
        · rw [h1] at huy
          obtain rfl : x.owner = h := by simpa [floorCell] using huy
          by_cases hd : D y
          · rcases k.released y hd with h2 | ⟨h', h2, -⟩
            · rw [hc] at h2
              cases h2
            · have hx : x = floorCell h' := by rw [hc] at h2; exact Option.some.inj h2
              rw [hx] at hc hzo hse
              rw [show x.owner = h' by rw [hx]; rfl]
              exact k.first ho y z h' e0 hd hsy hc hzo hse j (hshort j hj)
          · have hx : z = x := by
              have := k.kept y hd
              rw [hc, hsy] at this
              exact (Option.some.inj this).symm
            rw [hx] at hzo
            rcases hzo with hzo | hzo
            · exact absurd rfl hzo
            · rw [hh.1] at hzo
              cases hzo
        · rw [h1] at huy
          obtain rfl : i.1 = h := by simpa [floorCell] using huy
          obtain ⟨first, hera⟩ := ho
          have hin : inEra first u.shortfalls := fun w hw => by
            obtain ⟨hw1, -⟩ := (u.mem_shortfalls w).mp hw
            obtain ⟨e1, h2, -, h3, -⟩ := k.entries w hw1
            rw [h3]
            exact hera (w.1, e1) (State.mem_of_entry h2)
          have hsub : u.shortfalls.Pairwise fun a b => a.1 < b.1 := by
            unfold State.shortfalls
            exact k.rising.filter _
          obtain ⟨-, hfirst⟩ := mostUrgent_first hin hsub hm
          rcases hfirst j ((u.mem_shortfalls j).mpr (hshort j hj)) with rfl | hcf
          · exact .inl rfl
          · obtain ⟨e1, h2, h3, h4, -⟩ := k.entries i hi.1
            obtain rfl := Option.some.inj (h2.symm.trans hse)
            exact .inr ((comesFirst_congr h3 h4 j).mp hcf)
        · rw [h1] at huy
          cases huy
      · rw [hother y hyc] at huy
        exact k.first ho y z h e0 (hy.resolve_right hyc) hsy huy hzo hse j (hshort j hj)

/-- R124: more cells are released. -/
theorem FreeingBut.releaseAll {s u : State} {D L : CellId → Prop} (k : FreeingBut s u D L) (l : List CellId) :
    FreeingBut s (u.releaseAll l) (fun x => D x ∨ x ∈ l) (fun x => L x ∧ x ∉ l) := by
  induction l generalizing u D L with
  | nil => exact k.congr (fun c => by simp) fun c => by simp
  | cons c rest ih =>
    exact (ih (k.release c)).congr (fun x => by rw [List.mem_cons, or_assoc]) fun x => by simp [and_assoc]

theorem Freeing.releaseAll {s u : State} {D : CellId → Prop} (k : Freeing s u D) (l : List CellId) :
    Freeing s (u.releaseAll l) fun x => D x ∨ x ∈ l :=
  (FreeingBut.releaseAll k l).congr (fun _ => Iff.rfl) fun _ => by simp

/-- What has been released so far stands whatever else is done, so long as the entries there keep class and sequence,
and keep their plans or drop them, and the floors of the plans dropped lapse. -/
theorem FreeingBut.onward {s u t : State} {D L M : CellId → Prop} (k : FreeingBut s u D L) (hc : t.cells = u.cells)
    (hl : t.lanes = u.lanes) (hr : t.rising)
    (he : ∀ h e, t.entry? h = some e → ∃ f, u.entry? h = some f ∧ f.urgency = e.urgency ∧ f.sequence = e.sequence
      ∧ (e.plan = none ∨ e.plan = f.plan))
    (hm : ∀ c h e pl, ¬s.readByPass c → ¬M c → u.cell c = some (floorCell h) → u.entry? h = some e → e.plan = some pl →
      ∃ f, t.entry? h = some f ∧ f.plan = some pl)
    (hlm : ∀ c, L c → M c) : FreeingBut s t D M := by
  have hcell : t.cell = u.cell := by
    funext c
    unfold State.cell
    rw [hc]
  have hcount : t.floorCount = u.floorCount := by
    funext h
    unfold State.floorCount State.cellCount
    rw [hc]
  have hplan : ∀ h e pl, t.entry? h = some e → e.plan = some pl → ∃ f, u.entry? h = some f ∧ f.plan = some pl :=
    fun h e pl h1 h2 => by
      obtain ⟨f, h3, -, -, h4⟩ := he h e h1
      refine ⟨f, h3, ?_⟩
      rcases h4 with h4 | h4
      · rw [h2] at h4
        cases h4
      · exact h4.symm.trans h2
  have hshort : ∀ j, t.short j → ∃ f, u.short (j.1, f) ∧ f.urgency = j.2.urgency ∧ f.sequence = j.2.sequence := by
    rintro ⟨h, e⟩ ⟨hmem, pl, hp, hlt⟩
    obtain ⟨f, h1, h2, h3, h4⟩ := he h e (State.entry_of_mem hr hmem)
    rcases h4 with h4 | h4
    · exact absurd (h4.symm.trans hp) (by simp)
    · exact ⟨f, ⟨State.mem_of_entry h1, pl, h4.symm.trans hp, by rw [← hcount]; exact hlt⟩, h2, h3⟩
  refine ⟨fun x hx => ?_, hr, hl.trans k.lanes, fun c h => by rw [hcell]; exact k.kept c h,
    fun c h => by rw [hcell]; exact k.free c h, fun c h => ?_, fun c x e pl hd hsc hf h1 h2 hle => ?_,
    fun c x e pl hd hsc hf h1 h2 hlt => ?_, fun c x h e pl hd hsc huc hxo h1 h2 => ?_, fun h e pl h1 h2 => ?_,
    fun ⟨c, a, b⟩ j hj => ?_, fun ho c x h e0 hd hsc huc hxo hse j hj => ?_⟩
  · obtain ⟨f, h1, h2, h3, h4⟩ := he x.1 x.2 (State.entry_of_mem hr hx)
    obtain ⟨e0, k1, k2, k3, k4⟩ := k.entries (x.1, f) (State.mem_of_entry h1)
    refine ⟨e0, k1, h2.symm.trans k2, h3.symm.trans k3, ?_⟩
    rcases h4 with h4 | h4
    · exact .inl h4
    · rw [h4]
      exact k4
  · rw [hcell]
    refine (k.released c h).imp id fun ⟨i, h1, h2⟩ => ⟨i, h1, fun hn hnm => ?_⟩
    obtain ⟨e, pl, h3, h4⟩ := h2 hn fun hcl => hnm (hlm c hcl)
    obtain ⟨f, h5, h6⟩ := hm c i e pl hn hnm h1 h3 h4
    exact ⟨f, pl, h5, h6⟩
  · obtain ⟨f, h3, h4⟩ := hplan _ e pl h1 h2
    rw [hcell]
    exact k.home c x f pl hd hsc hf h3 h4 hle
  · obtain ⟨f, h3, h4⟩ := hplan _ e pl h1 h2
    rw [hcell]
    exact k.surplus c x f pl hd hsc hf h3 h4 (by rw [← hcount]; exact hlt)
  · obtain ⟨f, h3, h4⟩ := hplan _ e pl h1 h2
    rw [hcell] at huc
    exact k.taken c x h f pl hd hsc huc hxo h3 h4
  · obtain ⟨f, h3, h4⟩ := hplan _ e pl h1 h2
    rw [hcount]
    exact k.counts h f pl h3 h4
  · obtain ⟨f, h1, -⟩ := hshort j hj
    exact k.served ⟨c, a, by rw [← hcell]; exact b⟩ _ h1
  · obtain ⟨f, h1, h2, h3⟩ := hshort j hj
    rw [hcell] at huc
    exact (k.first ho c x h e0 hd hsc huc hxo hse _ h1).imp id (comesFirst_congr_right h2 h3 _).mp

/-- A step that changes neither cells nor lanes, and of the entries neither class, sequence nor plan. -/
theorem Freeing.onward {s u t : State} {D : CellId → Prop} (k : Freeing s u D) (hc : t.cells = u.cells)
    (hl : t.lanes = u.lanes) (hr : t.rising)
    (he : ∀ h, (t.entry? h).map (fun e => (e.urgency, e.sequence, e.plan)) = (u.entry? h).map fun e => (e.urgency, e.sequence, e.plan)) :
    Freeing s t D := by
  refine FreeingBut.onward k hc hl hr (fun h e hx => ?_) (fun c h e pl _ _ _ hx hp => ?_) fun _ h => h
  · have := he h
    rw [hx] at this
    cases hu : u.entry? h with
    | none => simp [hu] at this
    | some f =>
      simp only [hu, Option.map_some, Option.some.injEq, Prod.mk.injEq] at this
      exact ⟨f, rfl, this.1.symm, this.2.1.symm, .inr this.2.2⟩
  · have := he h
    rw [hx] at this
    cases hu : t.entry? h with
    | none => simp [hu] at this
    | some f =>
      simp only [hu, Option.map_some, Option.some.injEq, Prod.mk.injEq] at this
      exact ⟨f, rfl, this.2.2.trans hp⟩

/-- R51: a plan is dropped. -/
theorem Freeing.dropPlan {s u : State} {D : CellId → Prop} (k : Freeing s u D) {h : Handle} {e : Entry}
    (he : u.entry? h = some e) : Freeing s (u.dropPlan h) fun c => D c ∨ e.plan ≠ none ∧ planCell u h c := by
  cases hp : e.plan with
  | none =>
    rw [State.dropPlan_none he hp]
    exact k.congr fun c => by simp
  | some pl =>
    rw [State.dropPlan_some he hp]
    have hr := State.rest_releaseBank (u.setEntry h { e with plan := none }) pl.bank
    generalize (u.setEntry h { e with plan := none }).releaseBank pl.bank = w at hr
    have hent : ∀ j, w.causeAttempt.entry? j = if j = h then some { e with plan := none } else u.entry? j := fun j => by
      rw [← State.entry_setEntry, ← hr]
      rfl
    have hcells : ∀ c, c ∈ w.causeAttempt.planCells h ↔ planCell u h c := fun c => by
      rw [State.mem_planCells, ← hr]
      exact Iff.rfl
    have hread : ∀ c, u.readByPass c ↔ s.readByPass c := fun c => by
      unfold State.readByPass State.lane
      rw [k.lanes]
    have hbut : FreeingBut s w.causeAttempt D fun c => ¬s.readByPass c ∧ u.cell c = some (floorCell h) := by
      refine FreeingBut.onward k ?_ ?_ ?_ (fun j f hf => ?_) (fun c j f q hn hnm hcj hj hq => ?_) fun c hc => hc.elim
      · rw [← hr]
        rfl
      · rw [← hr]
        rfl
      · have : w.causeAttempt.entries = Table.put u.entries h { e with plan := none } := by
          rw [← hr]
          rfl
        unfold State.rising
        rw [this]
        exact Table.sorted_put _ _ _ k.rising
      · rw [hent] at hf
        by_cases hjh : j = h
        · rw [if_pos hjh] at hf
          obtain rfl := Option.some.inj hf
          exact ⟨e, by rw [hjh]; exact he, rfl, rfl, .inl rfl⟩
        · rw [if_neg hjh] at hf
          exact ⟨f, hf, rfl, rfl, .inr rfl⟩
      · have hjh : j ≠ h := by
          rintro rfl
          exact hnm ⟨hn, hcj⟩
        exact ⟨f, by rw [hent, if_neg hjh]; exact hj, hq⟩
    refine (hbut.releaseAll _).congr (fun c => by simp [hcells]) fun c => ?_
    simp only [hcells, iff_false, not_and, Classical.not_not]
    exact fun ⟨hn, hcf⟩ => ⟨⟨_, hcf, rfl, .inl rfl⟩, fun hx => hn ((hread c).mp hx)⟩

/-- The fetch tables or the output queues change and cells of theirs are released. -/
theorem Freeing.ports {s u t : State} {D : CellId → Prop} (k : Freeing s u D) {f : Port → Port} {cs : Port → List CellId}
    {l : List PortId} (ht : t = l.foldl (portThenCells f cs) u) (hl : l.Nodup) :
    Freeing s t fun c => D c ∨ ∃ j ∈ l, c ∈ cs (u.port j) := by
  subst ht
  induction l generalizing u D with
  | nil => exact k.congr fun c => by simp
  | cons p rest ih =>
    obtain ⟨hp, hrest⟩ := List.nodup_cons.mp hl
    have h1 : Freeing s (u.modPort p f) D := k.onward rfl rfl k.rising fun _ => rfl
    refine (ih (h1.releaseAll (cs (u.port p))) hrest).congr fun c => ?_
    have hport : ∀ j ∈ rest, ((u.modPort p f).releaseAll (cs (u.port p))).port j = u.port j := fun j hj => by
      rw [(portThenCells_spec f cs u p).2.1 j, if_neg fun e => hp (by rw [← e]; exact hj)]
    simp only [List.mem_cons, exists_eq_or_imp, or_assoc]
    refine or_congr Iff.rfl (or_congr Iff.rfl (exists_congr fun j => and_congr_right fun hj => ?_))
    rw [hport j hj]

/-- R63: an entry that holds no cell is removed. -/
theorem Freeing.removeIfDone {s u : State} {D : CellId → Prop} (k : Freeing s u D) (h : Handle) :
    Freeing s (u.removeIfDone h) D := by
  cases he : u.entry? h with
  | none =>
    have : u.removeIfDone h = u := by simp only [State.removeIfDone, he]
    rwa [this]
  | some e =>
    by_cases hm : u.mayRemove h e = true
    · have heq : u.removeIfDone h = ({ u with entries := Table.erase u.entries h } : State).modProfile e.profile
          fun x => { x with users := x.users - 1 } := by
        simp only [State.removeIfDone, he, hm, if_true]
      have hent : ∀ j, (u.removeIfDone h).entry? j = if j = h then none else u.entry? j := fun j => by
        rw [heq]
        exact Table.find_erase _ _ _ k.rising
      obtain ⟨-, -, -, -, -, -, hown⟩ := (u.mayRemove_iff h e).mp hm
      refine FreeingBut.onward k (by rw [heq]; rfl) (by rw [heq]; rfl) ?_ (fun j f hf => ?_) (fun c j f q _ _ hcj hj hq => ?_)
        fun _ h => h
      · rw [heq]
        exact Table.sorted_erase _ _ k.rising
      · rw [hent] at hf
        split at hf
        · cases hf
        · exact ⟨f, hf, rfl, rfl, .inr rfl⟩
      · refine ⟨f, ?_, hq⟩
        rw [hent, if_neg]
        · exact hj
        · rintro rfl
          exact hown c _ hcj rfl
    · have : u.removeIfDone h = u := by simp only [State.removeIfDone, he, hm, Bool.false_eq_true, if_false]
      rwa [this]

/-- R120: the cells of an entry's LIVE fetches are released. -/
theorem Freeing.withdrawFetches {s u : State} {D : CellId → Prop} (k : Freeing s u D) (h : Handle) :
    Freeing s (u.withdrawFetches h) fun c => D c ∨ liveCell u h c :=
  (k.ports (f := fun q => { q with fetches := mapVec (withdrawSlot h) q.fetches })
    (cs := fun q => q.liveCells fun y => decide (y.handle = h)) (t := u.withdrawFetches h) rfl allPorts_nodup).congr
      fun c => or_congr Iff.rfl (mem_liveCells_iff u h c)

/-- R141: the cells of the outputs that a test names are released. -/
theorem Freeing.freeOutputs {s u : State} {D : CellId → Prop} (k : Freeing s u D) (f : Output → Bool) :
    Freeing s (u.freeOutputs f) fun c => D c ∨ ∃ j ∈ allPorts, c ∈ ((u.port j).outputs.filter f).map Output.cell :=
  k.ports (f := fun q => { q with outputs := q.outputs.filter (fun o => !f o) })
    (cs := fun q => (q.outputs.filter f).map Output.cell) (t := u.freeOutputs f) rfl allPorts_nodup

/-- A change of an entry that leaves its class, its sequence and its plan. -/
theorem Freeing.setEntry {s u : State} {D : CellId → Prop} (k : Freeing s u D) {h : Handle} {e f : Entry}
    (he : u.entry? h = some e) (hu : f.urgency = e.urgency) (hs : f.sequence = e.sequence) (hp : f.plan = e.plan) :
    Freeing s (u.setEntry h f) D := by
  refine k.onward rfl rfl (Table.sorted_put _ _ _ k.rising) fun j => ?_
  rw [State.entry_setEntry]
  by_cases hj : j = h
  · rw [if_pos hj, hj, he, Option.map_some, Option.map_some, hu, hs, hp]
  · rw [if_neg hj]

/-- R61: the entry's own fields and the park, before what it holds is given up. -/
theorem Freeing.beginClose {s u : State} {D : CellId → Prop} (k : Freeing s u D) {h : Handle} {e : Entry}
    (he : u.entry? h = some e) (o : EntryOutcome) : Freeing s (u.beginClose h e o) D := by
  have h1 : Freeing s (u.setEntry h (e.closing o)) D := k.setEntry he rfl rfl rfl
  unfold State.beginClose
  split
  · exact h1.onward rfl rfl h1.rising fun _ => rfl
  · exact h1

/-- R61 step 5 for one target. -/
theorem Freeing.releaseTarget {s u : State} {D : CellId → Prop} (k : Freeing s u D) (h : Handle) (i : Position) :
    Freeing s (State.releaseTarget h u i) D := by
  unfold State.releaseTarget
  split
  · rename_i e he
    split
    · split
      · refine Freeing.onward (u := u.modTarget h i _) ?_ rfl rfl ?_ fun _ => rfl
        · unfold State.modTarget State.modMember State.modEntry
          rw [he]
          exact k.setEntry he rfl rfl rfl
        · unfold State.modTarget State.modMember State.modEntry
          rw [he]
          exact Table.sorted_put _ _ _ k.rising
      · exact k
    · exact k
  · exact k

/-- R61 step 5. -/
theorem Freeing.releaseTargets {s u : State} {D : CellId → Prop} (k : Freeing s u D) (h : Handle) :
    Freeing s (u.releaseTargets h) D := by
  unfold State.releaseTargets
  split
  · rename_i e he
    clear he
    generalize List.range e.members.length = l
    induction l generalizing u with
    | nil => exact k
    | cons i rest ih => exact ih (k.releaseTarget h i)
  · exact k

/-- R61: a close, with the cells that it gives up. -/
theorem Freeing.closeEntry {s u : State} {D : CellId → Prop} (k : Freeing s u D) {h : Handle} {e : Entry}
    (he : u.entry? h = some e) (hc : e.state ≠ .closed) (o : EntryOutcome) :
    Freeing s (u.closeEntry h o) fun c =>
      D c ∨ (e.plan ≠ none ∧ planCell u h c) ∨ liveCell u h c ∨ queuedCell u h (fun _ => true) c := by
  rw [State.closeEntry_eq he hc]
  have k1 := k.beginClose he o
  have e1 : (u.beginClose h e o).entry? h = some (e.closing o) := by
    unfold State.beginClose
    split <;> exact (State.entry_setEntry u h h _).trans (if_pos rfl)
  have p1 : ∀ j, (u.beginClose h e o).port j = u.port j := fun j => by
    unfold State.beginClose
    split <;> rfl
  have c1 : ∀ c, planCell (u.beginClose h e o) h c ↔ planCell u h c := fun c => by
    unfold State.beginClose
    split <;> exact Iff.rfl
  generalize u.beginClose h e o = u1 at k1 e1 p1 c1 ⊢
  have k2 := k1.dropPlan e1
  have p2 : ∀ j, (u1.dropPlan h).port j = u.port j := fun j => by
    rw [← p1, ← (State.dropPlan_spec e1).rest]
    rfl
  generalize u1.dropPlan h = u2 at k2 p2 ⊢
  have k3 := k2.withdrawFetches h
  have w3 := (State.withdrawFetches_spec u2 h).all
  generalize u2.withdrawFetches h = u3 at k3 w3 ⊢
  have k4 := (k3.freeOutputs fun x => decide (x.handle = h)).releaseTargets h
  generalize (u3.freeOutputs fun x => decide (x.handle = h)).releaseTargets h = u4 at k4 ⊢
  have k5 : Freeing s (u4.count o.counter) _ := k4.onward rfl rfl k4.rising fun _ => rfl
  refine (k5.removeIfDone h).congr fun c => ?_
  rw [or_assoc, or_assoc]
  refine or_congr Iff.rfl (or_congr (and_congr Iff.rfl (c1 c)) (or_congr ?_ ?_))
  · unfold liveCell
    simp only [p2]
  · rw [mem_outputCells_iff u3 h (fun _ => true) _ (by simp)]
    unfold queuedCell
    simp only [w3, p2]

/-- The end of many releases, in the words of the statements. -/
theorem Freeing.cellsReleased {s t : State} {D : CellId → Prop} (k : Freeing s t D) : cellsReleased s t D where
  kept := k.kept
  free := k.free
  released c hc := (k.released c hc).imp id fun ⟨h, h1, h2⟩ => ⟨h, h1, fun hn => h2 hn id⟩
  home := k.home
  surplus := k.surplus
  taken := k.taken
  counts := k.counts
  served := k.served
  first ho c x h e hd hsc htc hxo hte j hj := by
    obtain ⟨e0, h1, h2, h3, -⟩ := k.entries (h, e) (State.mem_of_entry hte)
    exact (k.first ho c x h e0 hd hsc htc hxo h1 j hj).imp id (comesFirst_congr h2 h3 j).mpr

end Sys2Proof.Machine
end

