-- ==== Sys2Proof/Laws/Generator.lean ====
section
/-! SUPPORT. Any k rows of a generator are independent, and the rows of a bank rebuild every fragment (01 R3, R4, R14 to R16). -/

namespace Sys2Proof.Machine

/-! ### Cauchy matrices -/

open Polynomial in
/-- A Cauchy matrix loses no vector but zero: the numerator of Σ x_j / (p − y_j) has too many roots. -/
theorem cauchy_kernel {F ι : Type} [Field F] [DecidableEq ι] {T : Finset ι} {P : Finset F} {x y : ι → F}
    (hy : Set.InjOn y T) (hcard : T.card ≤ P.card) (hne : ∀ p ∈ P, ∀ j ∈ T, p ≠ y j)
    (hsum : ∀ p ∈ P, ∑ j ∈ T, (p - y j)⁻¹ * x j = 0) : ∀ j ∈ T, x j = 0 := by
  let f : F[X] := ∑ j ∈ T, C (x j) * ∏ i ∈ T.erase j, (X - C (y i))
  have hdeg : f.degree < P.card := by
    refine (Polynomial.degree_sum_le _ _).trans_lt ?_
    rw [Finset.sup_lt_iff (by exact_mod_cast WithBot.bot_lt_coe _)]
    intro j hj
    have h1 : (C (x j) * ∏ i ∈ T.erase j, (X - C (y i))).degree ≤ ((T.erase j).card : WithBot ℕ) := by
      refine (degree_mul_le _ _).trans ?_
      refine (add_le_add degree_C_le (degree_prod_le _ _)).trans ?_
      simp
    refine h1.trans_lt ?_
    have := Finset.card_erase_lt_of_mem hj
    exact_mod_cast this.trans_le hcard
  have hroot : ∀ p ∈ P, f.eval p = 0 := fun p hp => by
    have : f.eval p = (∏ i ∈ T, (p - y i)) * ∑ j ∈ T, (p - y j)⁻¹ * x j := by
      simp only [f, eval_finsetSum, eval_mul, eval_C, eval_prod, eval_sub, eval_X, Finset.mul_sum]
      refine Finset.sum_congr rfl fun j hj => ?_
      rw [← Finset.mul_prod_erase T _ hj]
      have := sub_ne_zero.mpr (hne p hp j hj)
      field_simp
    rw [this, hsum p hp, mul_zero]
  have hf : f = 0 := eq_zero_of_degree_lt_of_eval_finset_eq_zero P hdeg hroot
  intro j hj
  have h0 : f.eval (y j) = 0 := by rw [hf, eval_zero]
  simp only [f, eval_finsetSum, eval_mul, eval_C, eval_prod, eval_sub, eval_X] at h0
  rw [Finset.sum_eq_single_of_mem j hj] at h0
  · refine (mul_eq_zero.mp h0).resolve_right (Finset.prod_ne_zero_iff.mpr fun i hi => sub_ne_zero.mpr fun he => ?_)
    exact (Finset.ne_of_mem_erase hi) (hy (Finset.mem_of_mem_erase hi) hj he.symm)
  · intro i hi hij
    rw [Finset.prod_eq_zero (Finset.mem_erase.mpr ⟨hij.symm, hj⟩) (sub_self _), mul_zero]

/-! ### The field of R1 and R2 -/

/-- The bytes as elements of the field. -/
def GF : Type := Byte

/-- R1, R2: the field of 256 elements. -/
@[reducible] noncomputable def gfField : Field GF :=
  letI : Add GF := ⟨fun a b => BitVec.xor a b⟩
  letI : Zero GF := ⟨(0#8 : Byte)⟩
  letI : Neg GF := ⟨id⟩
  letI : Mul GF := ⟨gfMul⟩
  letI : One GF := ⟨(1#8 : Byte)⟩
  letI : Inv GF := ⟨fun a => @ite Byte (a = (0#8 : Byte)) (Classical.dec _) 0#8 (gfInv a)⟩
  { add_assoc := BitVec.xor_assoc, zero_add := fun a => BitVec.zero_xor, add_zero := fun a => BitVec.xor_zero
    add_comm := BitVec.xor_comm, neg_add_cancel := fun a => BitVec.xor_self
    left_distrib := gfMul_xor_right, right_distrib := gfMul_xor_left, zero_mul := gfMul_zero_left, mul_zero := gfMul_zero
    mul_assoc := gfMul_assoc, one_mul := gfMul_one, mul_one := fun a => (gfMul_comm a _).trans (gfMul_one a)
    mul_comm := gfMul_comm
    exists_pair_ne := ⟨(0#8 : Byte), (1#8 : Byte), show (0#8 : Byte) ≠ 1#8 by decide⟩
    mul_inv_cancel := fun a h => (congrArg (gfMul a) (if_neg h)).trans (gfMul_inv h)
    inv_zero := if_pos rfl
    nsmul := nsmulRec, zsmul := zsmulRec
    nnqsmul := _, nnqsmul_def := fun _ _ => rfl, qsmul := _, qsmul_def := fun _ _ => rfl }

/-- A byte as an element of the field. -/
def toGF (a : Byte) : GF := a

theorem toGF_add (a b : Byte) : letI := gfField; toGF (a ^^^ b) = toGF a + toGF b := rfl

theorem toGF_mul (a b : Byte) : letI := gfField; toGF (gfMul a b) = toGF a * toGF b := rfl

theorem toGF_zero : letI := gfField; toGF 0 = 0 := rfl

theorem toGF_inv {a : Byte} (h : a ≠ 0) : letI := gfField; toGF (gfInv a) = (toGF a)⁻¹ := (if_neg h).symm

/-- Every element is its own negative. -/
theorem toGF_sub (a b : Byte) : letI := gfField; toGF (a ^^^ b) = toGF a - toGF b := rfl

/-- A sum of products in the field. -/
theorem gfDot_eq_fieldSum (a x : List Byte) :
    letI := gfField
    toGF (gfDot a x) = ∑ j ∈ Finset.range x.length, toGF (a.getD j 0) * toGF (x.getD j 0) := by
  let := gfField
  induction x generalizing a with
  | nil => rw [gfDot_nil_right]; rfl
  | cons y x ih =>
    rw [List.length_cons, Finset.sum_range_succ']
    cases a with
    | nil =>
      have h1 := ih []
      rw [gfDot_nil_left] at h1 ⊢
      simp only [List.getD_nil, List.getD_cons_succ] at h1 ⊢
      rw [← h1, toGF_zero, zero_mul, add_zero]
    | cons p a =>
      rw [gfDot_cons, toGF_add, toGF_mul, ih a, add_comm]
      rfl

/-! ### Independence (R3) -/

/-- Place `j` of a row of the generator. -/
theorem generatorRow_getD (c : Code) (i : Position) {j : Nat} (hj : j < c.k) : (generatorRow c i).getD j 0 =
    if i < c.k then (if j = i then 1 else 0) else gfInv (BitVec.ofNat 8 (i - c.k) ^^^ BitVec.ofNat 8 (c.m + j)) := by
  simp [generatorRow, List.getD_eq_getElem?_getD, hj]

theorem length_generatorRow (c : Code) (i : Position) : (generatorRow c i).length = c.k := by simp [generatorRow]

theorem ofNat_inj {a b : Nat} (ha : a < 256) (hb : b < 256) (h : BitVec.ofNat 8 a = BitVec.ofNat 8 b) : a = b := by
  have := congrArg BitVec.toNat h
  simpa [Nat.mod_eq_of_lt ha, Nat.mod_eq_of_lt hb] using this

/-- R3: any k rows of a generator are independent. -/
theorem generator_independent {c : Code} (hn : c.k + c.m ≤ 24) {l : List Position} (hl : l.Nodup) (hk : l.length = c.k)
    (hin : ∀ i ∈ l, i < c.k + c.m) : trivialKernel c.k (l.map (generatorRow c)) := by
  intro x hx hz
  let := gfField
  classical
  have hdot : ∀ i ∈ l, gfDot (generatorRow c i) x = 0 := fun i hi => hz _ (List.mem_map_of_mem hi)
  have hdata : ∀ i ∈ l, i < c.k → x.getD i 0 = 0 := fun i hi hik => by
    have := hdot i hi
    simp only [generatorRow, hik, if_true] at this
    rwa [gfDot_unit i hx] at this
  let S : Finset Nat := l.toFinset
  let T : Finset Nat := Finset.range c.k \ S
  let P : Finset Nat := S \ Finset.range c.k
  let point (i : Nat) : GF := toGF (BitVec.ofNat 8 (i - c.k))
  let place (j : Nat) : GF := toGF (BitVec.ofNat 8 (c.m + j))
  have hP : ∀ i ∈ P, i ∈ l ∧ c.k ≤ i ∧ i < c.k + c.m := fun i hi => by
    simp only [P, S, Finset.mem_sdiff, List.mem_toFinset, Finset.mem_range, not_lt] at hi
    exact ⟨hi.1, hi.2, hin i hi.1⟩
  have hT : ∀ j ∈ T, j < c.k := fun j hj => by
    simp only [T, Finset.mem_sdiff, Finset.mem_range] at hj
    exact hj.1
  have hcard : T.card = P.card := by
    have hS : S.card = (Finset.range c.k).card := by
      simp only [S, List.toFinset_card_of_nodup hl, hk, Finset.card_range]
    exact (Finset.card_sdiff_comm hS).symm
  have hpoint : Set.InjOn point P := fun a ha b hb h => by
    have h1 := hP a ha
    have h2 := hP b hb
    have := ofNat_inj (by omega) (by omega) h
    omega
  have key := cauchy_kernel (T := T) (P := P.image point) (x := fun j => toGF (x.getD j 0)) (y := place)
    (fun a ha b hb h => by
      have h1 := hT a ha
      have h2 := hT b hb
      have := ofNat_inj (by omega) (by omega) h
      omega)
    (by rw [Finset.card_image_of_injOn hpoint, hcard])
    (fun p hp j hj h => by
      obtain ⟨i, hi, rfl⟩ := Finset.mem_image.mp hp
      have h1 := hP i hi
      have h2 := hT j hj
      have := ofNat_inj (by omega) (by omega) h
      omega)
    (fun p hp => by
      obtain ⟨i, hi, rfl⟩ := Finset.mem_image.mp hp
      obtain ⟨hil, hki, him⟩ := hP i hi
      have hsum := gfDot_eq_fieldSum (generatorRow c i) x
      rw [hdot i hil, toGF_zero, hx] at hsum
      rw [← Finset.sum_subset (s₁ := T) (fun j hj => Finset.mem_range.mpr (hT j hj)) (fun j hj hjT => by
        have hjS : j ∈ l := by
          simp only [T, S, Finset.mem_sdiff, List.mem_toFinset, not_and, not_not] at hjT
          exact hjT hj
        rw [hdata j hjS (Finset.mem_range.mp hj), toGF_zero, mul_zero])] at hsum
      rw [hsum]
      refine Finset.sum_congr rfl fun j hj => ?_
      have hjk := hT j hj
      have hne : BitVec.ofNat 8 (i - c.k) ^^^ BitVec.ofNat 8 (c.m + j) ≠ 0 := fun h => by
        have := ofNat_inj (a := i - c.k) (b := c.m + j) (by omega) (by omega) (by simpa using h)
        omega
      rw [generatorRow_getD c i hjk, if_neg (Nat.not_lt.mpr hki), toGF_inv hne, toGF_sub])
  refine List.ext_getElem (by simp [hx]) fun j h1 h2 => ?_
  have hj : j < c.k := hx ▸ h1
  have : x.getD j 0 = 0 := by
    by_cases hjS : j ∈ l
    · exact hdata j hjS hj
    · exact key j (by simp only [T, S, Finset.mem_sdiff, Finset.mem_range, List.mem_toFinset]; exact ⟨hj, hjS⟩)
  simpa [List.getD_eq_getElem?_getD, h1] using this

/-! ### The rows of a bank (R14, R15, R16) -/

/-- R14: the array [A | I] before the first column. -/
theorem eliminated_start {c : Code} {l : List Position} (hk : l.length = c.k)
    (hi : trivialKernel c.k (l.map (generatorRow c))) : Eliminated c.k 0 (l.map (generatorRow c)) (augmented c l) := by
  have hlen : (augmented c l).length = c.k := by simp [augmented, unitMatrix, hk]
  have hrow : ∀ r < c.k, (augmented c l).getD r [] =
      generatorRow c (l.getD r 0) ++ (List.range c.k).map fun j => if j = r then 1 else 0 := fun r hr => by
    have hr' : r < l.length := hk.symm ▸ hr
    simp [augmented, unitMatrix, List.getD_eq_getElem?_getD, hr, hr']
  refine ⟨hlen, fun row hm => ?_, fun x hx hz => hi x hx fun row hm => ?_, fun r _ j hj => absurd hj (Nat.not_lt_zero j)⟩
  · obtain ⟨r, hr, rfl⟩ := mem_iff_getD.mp hm
    rw [hlen] at hr
    have hr' : r < l.length := hk.symm ▸ hr
    have hg := length_generatorRow c (l.getD r 0)
    rw [hrow r hr]
    refine ⟨by simp only [List.length_append, hg, List.length_map, List.length_range]; omega, ?_⟩
    rw [List.take_left' hg, List.drop_left' hg]
    refine List.ext_getElem (by rw [hg, length_rowTimes]) fun j h1 h2 => ?_
    simp only [rowTimes, List.getElem_map, List.getElem_range]
    rw [gfDot_unit r (by simp [hk])]
    have hj : j < (generatorRow c l[r]).length := by rw [length_generatorRow]; exact hg ▸ h1
    simp [List.getD_eq_getElem?_getD, hr', hj]
  · obtain ⟨i, hil, rfl⟩ := List.mem_map.mp hm
    obtain ⟨r, hr, rfl⟩ := List.getElem_of_mem hil
    have hrk : r < c.k := hk ▸ hr
    have := hz _ (getD_mem [] (hlen.symm ▸ hrk))
    rw [hrow r hrk, gfDot_append (by rw [length_generatorRow, hx])] at this
    simpa [List.getD_eq_getElem?_getD, hr] using this

/-- R14: the array when every column has been treated. -/
theorem eliminated_end {k : Nat} {A a : List (List Byte)} (h : Eliminated k 0 A a) :
    Eliminated k k A ((List.range k).foldl eliminateColumn a) := by
  have : ∀ c ≤ k, Eliminated k c A ((List.range c).foldl eliminateColumn a) := by
    intro c
    induction c with
    | zero => exact fun _ => h
    | succ c ih =>
      intro hc
      rw [List.range_succ, List.foldl_append]
      exact (ih (by omega)).step (by omega)
  exact this k le_rfl

/-- R14 to R16: a row of the bank rebuilds its fragment's byte from the bytes of the sources, whatever the data. -/
theorem bankRow_rebuilds {c : Code} (hn : c.k + c.m ≤ 24) {l : List Position} (hl : l.Nodup) (hk : l.length = c.k)
    (hin : ∀ i ∈ l, i < c.k + c.m) (pos : Position) {data : List Byte} (hd : data.length = c.k) :
    gfDot (rowTimes c.k (generatorRow c pos) (invertArray c.k (augmented c l)))
      (l.map fun i => gfDot (generatorRow c i) data) = gfDot (generatorRow c pos) data := by
  have he := eliminated_end (eliminated_start hk (generator_independent hn hl hk hin))
  generalize hfin : (List.range c.k).foldl eliminateColumn (augmented c l) = fin at he
  have hinv : invertArray c.k (augmented c l) = fin.map (List.drop c.k) := by rw [invertArray, hfin]
  have hwidth : ∀ row ∈ fin.map (List.drop c.k), row.length = c.k := fun row hm => by
    obtain ⟨r, hr, rfl⟩ := List.mem_map.mp hm
    have := (he.combined r hr).1
    simp only [List.length_drop]
    omega
  have hbytes : (l.map fun i => gfDot (generatorRow c i) data) = (l.map (generatorRow c)).map fun row => gfDot row data := by
    rw [List.map_map]
    rfl
  rw [hinv, hbytes, gfDot_rowTimes hwidth, List.map_map]
  congr 1
  refine List.ext_getElem (by simp [he.rows, hd]) fun r h1 h2 => ?_
  have hr : r < c.k := hd ▸ h2
  have hr' : r < fin.length := he.rows.symm ▸ hr
  simp only [List.getElem_map, Function.comp_apply]
  have hc := he.combined fin[r] (List.getElem_mem hr')
  have hunit : fin[r].take c.k = (List.range c.k).map fun j => if j = r then 1 else 0 := by
    refine List.ext_getElem (by simp [hc.1]; omega) fun j h3 h4 => ?_
    have hj : j < c.k := by simpa using h4
    have := he.done r hr j hj
    have hw : j < fin[r].length := by rw [hc.1]; omega
    simpa [entryAt, List.getD_eq_getElem?_getD, hr', hw] using this
  have hsplit := gfDot_rowTimes (k := c.k) (M := l.map (generatorRow c)) (x := data)
    (fun row hm => by obtain ⟨i, -, rfl⟩ := List.mem_map.mp hm; exact length_generatorRow c i) (fin[r].drop c.k)
  rw [← hsplit, ← hc.2, hunit, gfDot_unit r hd]
  simp [List.getD_eq_getElem?_getD, h2]

end Sys2Proof.Machine
end

