-- ==== Sys2Proof/Laws/Losses.lean ====
section
/-! SUPPORT. What a step makes of a lost or struck member: closes and triggers seen through the steps around them (R42, R52, R55, R118, R119). -/

namespace Sys2Proof.Machine

open Sys2Proof.Config

/-! ### Closes and triggers, whatever comes before and after them -/

theorem closes.rebase {u t : State} {h : Handle} {e f : Entry} {o : EntryOutcome} (k : closes (u.setEntry h f) t h e o) :
    closes u t h e o := by
  obtain ⟨l, m, r⟩ := k.cells
  refine ⟨k.record, fun j hj => (k.others j hj).trans ((State.entry_setEntry ..).trans (if_neg hj)), k.park, k.counters,
    k.fetches, k.outputs, k.loads, k.banks, ⟨l, m, ?_⟩, k.attempt, k.rest⟩
  exact r.congr (Table.put_put ..).symm rfl id rfl id

theorem closes.count {u t : State} {h : Handle} {e : Entry} {o : EntryOutcome} (k : closes u t h e o) {i : Fin 18}
    (hi : o.counter ≠ i) : closes (u.count i) (t.count i) h e o := by
  obtain ⟨l, m, r⟩ := k.cells
  refine ⟨k.record, k.others, k.park, ?_, k.fetches, k.outputs, k.loads, k.banks, ⟨l, m, r.congr rfl rfl id rfl id⟩,
    k.attempt, k.rest⟩
  simp only [State.count, k.counters]
  refine Vector.ext fun j hj => ?_
  have := Fin.val_ne_of_ne hi
  simp only [Vector.getElem_set, Fin.getElem_fin]
  by_cases h1 : i.val = j
  · have : ¬o.counter.val = j := fun h2 => this (h2.trans h1.symm)
    have : ¬o.counter.val = i.val := fun h2 => this (h2.trans h1)
    simp_all
  · by_cases h2 : o.counter.val = j
    · have : ¬i.val = o.counter.val := fun h3 => h1 (h3.trans h2)
      simp_all
    · simp_all

/-- The answer to a request and the landing waits stand beside a close. -/
theorem closes.ports {u t w : State} {h : Handle} {e : Entry} {o : EntryOutcome} (k : closes u t h e o)
    (hr : { t with ports := w.ports } = w)
    (ht : ∀ q, (w.port q).fetches = (t.port q).fetches ∧ (w.port q).outputs = (t.port q).outputs) : closes u w h e o := by
  obtain ⟨l, m, r⟩ := k.cells
  have hc : w.cells = t.cells := by rw [← hr]
  have ha : w.attempt = t.attempt := by rw [← hr]
  refine ⟨?_, fun j hj => ?_, ?_, ?_, fun q tag => ?_, fun q => ?_, fun n => ?_, fun b => ?_,
    ⟨l, m, r.congr rfl rfl id hc (by rw [ha]; exact id)⟩, ?_, ?_⟩
  · rw [← k.record, ← hr]
    rfl
  · rw [← k.others j hj, ← hr]
    rfl
  · rw [← k.park, ← hr]
  · rw [← k.counters, ← hr]
  · rw [← k.fetches, (ht q).1]
  · rw [← k.outputs, (ht q).2]
  · rw [← k.loads, ← hr]
    rfl
  · rw [← k.banks, ← hr]
    rfl
  · rw [ha, k.attempt]
    unfold someCellFreed State.cell
    rw [hc]
  · rw [← k.rest.1, ← k.rest.2.1, ← k.rest.2.2.1, ← k.rest.2.2.2.1, ← k.rest.2.2.2.2, ← hr]
    exact ⟨rfl, rfl, rfl, rfl, rfl⟩

/-- The answer to a request and the landing waits stand beside a trigger. -/
theorem takesTrigger.ports {u t w : State} {h : Handle} {e : Entry} (k : takesTrigger u t h e)
    (hr : { t with ports := w.ports } = w)
    (ht : ∀ q, (w.port q).fetches = (t.port q).fetches ∧ (w.port q).outputs = (t.port q).outputs) : takesTrigger u w h e := by
  refine ⟨?_, fun j hj => ?_, ?_, fun q => ?_, ?_⟩
  · rw [← k.record, ← hr]
    rfl
  · rw [← k.others j hj, ← hr]
    rfl
  · rw [← k.attempt, ← hr]
  · rw [(ht q).1, (ht q).2]
    exact k.tables q
  · rw [← hr, ← k.rest]

theorem closes.refreshWaits {u t : State} {h : Handle} {e : Entry} {o : EntryOutcome} (k : closes u t h e o) :
    closes u t.refreshWaits h e o :=
  k.ports (rest_refreshWaits t) fun q => by rw [port_refreshWaits]; exact ⟨rfl, rfl⟩

theorem takesTrigger.refreshWaits {u t : State} {h : Handle} {e : Entry} (k : takesTrigger u t h e) :
    takesTrigger u t.refreshWaits h e :=
  k.ports (rest_refreshWaits t) fun q => by rw [port_refreshWaits]; exact ⟨rfl, rfl⟩

theorem takesTrigger.count {u t : State} {h : Handle} {e : Entry} (k : takesTrigger u t h e) (i : Fin 18) :
    takesTrigger (u.count i) (t.count i) h e := by
  refine ⟨k.record, k.others, k.attempt, k.tables, ?_⟩
  have := k.rest
  show ({ u with entries := t.entries, ports := t.ports, attempt := t.attempt } : State).count i = t.count i
  rw [this]

/-! ### Lost members -/

theorem Member.lose_held {m : Member} (h : m.state = .held) (cause : LostCause) : Member.lose cause m = m.lostNow cause := by
  simp only [Member.lose, h, if_true]
  rfl

theorem Entry.lostCount_pos {e : Entry} {pos : Position} {m : Member} (h : e.members[pos]? = some m) (hm : m.state ≠ .held) :
    0 < e.lostCount :=
  List.countP_pos_iff.mpr ⟨m, List.mem_of_getElem? h, by simpa [Member.gone] using hm⟩

/-- The member at a position, and one lost there. -/
theorem Entry.lostCount_set_pos {e : Entry} {pos : Position} {m x : Member} (h : e.members[pos]? = some m)
    (hx : x.state ≠ .held) : 0 < ({ e with members := e.members.set pos x } : Entry).lostCount := by
  have hl := (List.getElem?_eq_some_iff.mp h).1
  exact Entry.lostCount_pos (pos := pos) (List.getElem?_set_self hl) hx

/-- R112, R117, R118: a slot that empties releases its answer cell. -/
theorem State.emptySlotAt_after (s : State) (p : PortId) (t : FetchTag) (f : Fetch) :
    afterRelease (s.modPort p fun q => q.setFetch t none) (s.emptySlotAt p t f) (fun c => f.cell = some c) :=
  State.releaseAll_after _ f.cell.toList fun c => by cases f.cell <;> simp [eq_comm]

theorem deadlineReached_self (t : U48) : deadlineReached t t = true := by simp [deadlineReached]

end Sys2Proof.Machine
end

