-- ==== Sys2Proof/Laws/Notices.lean ====
section
/-! SUPPORT. What the queries for pending items find: the lowest sendable VOID, or none where there is none (R148, R166). -/

namespace Sys2Proof.Machine

open Sys2Proof.Config

/-- R148: the pair recorded with port `p` for a node may be sent for the target at a position. -/
def State.sendableAt (s : State) (p : PortId) (h : Handle) (e : Entry) (pos : Position) (n : NodeId) : Prop :=
  (∃ m t, e.members[pos]? = some m ∧ m.target = some t ∧ (n, p) ∈ t.voids)
  ∧ ∀ d ∈ s.deliveries, ¬(d.output.handle = h ∧ d.output.position = pos ∧ d.output.dest = n)

theorem lowestNode_none {l : List NodeId} : lowestNode l = none ↔ l = [] := by
  cases l with
  | nil => simp [lowestNode]
  | cons n rest =>
    simp only [lowestNode, reduceCtorEq, iff_false]
    split <;> simp

theorem lowestNode_some {l : List NodeId} {n : NodeId} (h : lowestNode l = some n) : n ∈ l ∧ ∀ k ∈ l, n ≤ k := by
  induction l generalizing n with
  | nil => simp [lowestNode] at h
  | cons a rest ih =>
    simp only [lowestNode] at h
    cases hr : lowestNode rest with
    | none =>
      rw [hr] at h
      obtain rfl : a = n := by simpa using h
      rw [lowestNode_none.mp hr]
      simp
    | some k =>
      rw [hr] at h
      obtain ⟨k1, k2⟩ := ih hr
      by_cases hk : k < a
      · obtain rfl : k = n := by simpa [hk] using h
        refine ⟨List.mem_cons_of_mem _ k1, fun j hj => ?_⟩
        rcases List.mem_cons.mp hj with rfl | hj
        · exact Fin.le_of_lt hk
        · exact k2 j hj
      · obtain rfl : a = n := by simpa [hk] using h
        refine ⟨List.mem_cons_self, fun j hj => ?_⟩
        rcases List.mem_cons.mp hj with rfl | hj
        · exact Fin.le_refl _
        · exact Fin.le_trans (Fin.not_lt.mp hk) (k2 j hj)

theorem mem_sendablePairs (s : State) (p : PortId) (h : Handle) (e : Entry) (pos : Position) (m : Member) (t : Target)
    (hm : e.members[pos]? = some m) (ht : m.target = some t) (n : NodeId) :
    n ∈ (t.voids.filter fun v => decide (v.2 = p) && !s.deliveryTo h pos v.1).map Prod.fst ↔ s.sendableAt p h e pos n := by
  simp only [List.mem_map, List.mem_filter, Bool.and_eq_true, decide_eq_true_eq, Bool.not_eq_true', State.deliveryTo,
    List.any_eq_false, State.sendableAt]
  constructor
  · rintro ⟨⟨k, q⟩, ⟨a, rfl, b⟩, rfl⟩
    exact ⟨⟨m, t, hm, ht, a⟩, b⟩
  · rintro ⟨⟨m', t', a, b, c⟩, d⟩
    obtain rfl := Option.some.inj (hm.symm.trans a)
    obtain rfl := Option.some.inj (ht.symm.trans b)
    exact ⟨(n, p), ⟨c, rfl, d⟩, rfl⟩

/-- The first position of a list that a function answers for. -/
theorem findSome?_zipIdx {α β : Type} (f : α × Nat → Option β) (l : List α) (i : Nat) (b : β)
    (hi : l[i]?.bind (fun a => f (a, i)) = some b) (hn : ∀ j < i, l[j]?.bind (fun a => f (a, j)) = none) :
    l.zipIdx.findSome? f = some b := by
  suffices ∀ (k : Nat) (i : Nat), l[i]?.bind (fun a => f (a, i + k)) = some b →
      (∀ j < i, l[j]?.bind (fun a => f (a, j + k)) = none) → (l.zipIdx k).findSome? f = some b from this 0 i hi hn
  clear hi hn
  induction l with
  | nil => intro k i h; simp at h
  | cons a rest ih =>
    intro k i hi hn
    rw [List.zipIdx_cons, List.findSome?_cons]
    cases i with
    | zero =>
      have : f (a, k) = some b := by simpa using hi
      rw [this]
    | succ i =>
      have : f (a, k) = none := by simpa using hn 0 (by omega)
      rw [this]
      refine ih (k + 1) i ?_ fun j hj => ?_
      · simpa [Nat.add_assoc, Nat.add_comm 1 k] using hi
      · simpa [Nat.add_assoc, Nat.add_comm 1 k] using hn (j + 1) (by omega)

/-- R148: the lowest sendable VOID of one entry. -/
def State.voidOf (s : State) (p : PortId) (he : Handle × Entry) (mi : Member × Nat) : Option VoidItem :=
  match mi.1.target with
  | some t => (s.sendableVoid p he.1 mi.2 t).map fun n => ⟨he.1, he.2.stripe, mi.2, n⟩
  | none => none

theorem State.voidItem_eq (s : State) (p : PortId) :
    s.voidItem p = s.entries.findSome? fun he => he.2.members.zipIdx.findSome? (s.voidOf p he) := rfl

theorem State.voidOf_none (s : State) (p : PortId) (h : Handle) (e : Entry) (pos : Position) (m : Member)
    (hm : e.members[pos]? = some m) : s.voidOf p (h, e) (m, pos) = none ↔ ∀ n, ¬s.sendableAt p h e pos n := by
  unfold State.voidOf
  cases ht : m.target with
  | none =>
    simp only [true_iff]
    rintro n ⟨⟨m', t, a, b, _⟩, _⟩
    obtain rfl := Option.some.inj (hm.symm.trans a)
    rw [ht] at b
    cases b
  | some t =>
    simp only [Option.map_eq_none_iff, State.sendableVoid, lowestNode_none, List.eq_nil_iff_forall_not_mem]
    exact forall_congr' fun n => not_congr (mem_sendablePairs s p h e pos m t hm ht n)

theorem State.voidsOf_none (s : State) (p : PortId) (h : Handle) (e : Entry) :
    e.members.zipIdx.findSome? (s.voidOf p (h, e)) = none ↔ ∀ pos n, ¬s.sendableAt p h e pos n := by
  rw [List.findSome?_eq_none_iff]
  constructor
  · intro hx pos n hs
    obtain ⟨m, t, hm, -, -⟩ := hs.1
    have := hx (m, pos) (by rw [List.mem_zipIdx_iff_getElem?]; exact hm)
    exact (s.voidOf_none p h e pos m hm).mp this n hs
  · rintro hx ⟨m, pos⟩ hmem
    rw [List.mem_zipIdx_iff_getElem?] at hmem
    exact (s.voidOf_none p h e pos m hmem).mpr (hx pos)

/-- R166: no VOID is sendable. -/
theorem State.voidItem_none (s : State) (p : PortId) :
    s.voidItem p = none ↔ ∀ he ∈ s.entries, ∀ pos n, ¬s.sendableAt p he.1 he.2 pos n := by
  rw [State.voidItem_eq, List.findSome?_eq_none_iff]
  exact forall_congr' fun he => imp_congr_right fun _ => s.voidsOf_none p he.1 he.2

/-- R166: the lowest sendable VOID, by handle, position and node id, is the one found. -/
theorem State.voidItem_lowest {s : State} {p : PortId} {h : Handle} {e : Entry} {pos : Position} {n : NodeId}
    {pre post : Table Entry} (hs : s.entries = pre ++ (h, e) :: post) (hv : s.sendableAt p h e pos n)
    (h1 : ∀ he ∈ pre, ∀ j k, ¬s.sendableAt p he.1 he.2 j k) (h2 : ∀ j < pos, ∀ k, ¬s.sendableAt p h e j k)
    (h3 : ∀ k < n, ¬s.sendableAt p h e pos k) : s.voidItem p = some ⟨h, e.stripe, pos, n⟩ := by
  obtain ⟨m, t, hm, ht, -⟩ := hv.1
  have hpos : s.voidOf p (h, e) (m, pos) = some ⟨h, e.stripe, pos, n⟩ := by
    simp only [State.voidOf, ht, State.sendableVoid]
    have hmem := (mem_sendablePairs s p h e pos m t hm ht n).mpr hv
    cases hl : lowestNode ((t.voids.filter fun v => decide (v.2 = p) && !s.deliveryTo h pos v.1).map Prod.fst) with
    | none =>
      rw [lowestNode_none.mp hl] at hmem
      simp at hmem
    | some k =>
      obtain ⟨k1, k2⟩ := lowestNode_some hl
      have hk := (mem_sendablePairs s p h e pos m t hm ht k).mp k1
      have : k = n := by
        rcases Nat.lt_or_eq_of_le (k2 n hmem) with hlt | heq
        · exact absurd hk (h3 k hlt)
        · exact Fin.ext heq
      rw [this]
      rfl
  have hentry : e.members.zipIdx.findSome? (s.voidOf p (h, e)) = some ⟨h, e.stripe, pos, n⟩ := by
    refine findSome?_zipIdx _ _ pos _ (by rw [hm]; exact hpos) fun j hj => ?_
    cases hmj : e.members[j]? with
    | none => rfl
    | some mj => exact (s.voidOf_none p h e j mj hmj).mpr (h2 j hj)
  rw [State.voidItem_eq, hs, List.findSome?_append, List.findSome?_cons, hentry]
  rw [List.findSome?_eq_none_iff.mpr fun he hhe => (s.voidsOf_none p he.1 he.2).mpr (h1 he hhe)]
  rfl

end Sys2Proof.Machine
end

