-- ==== Sys2Proof/Laws/Resets.lean ====
section
/-! SUPPORT. What resets do: the bytes an abandoned delivery may leave (R170). -/

namespace Sys2Proof.Machine

open Sys2Proof.Config

/-- R170: what the deliveries abandoned leave in a host's memory. -/
theorem find_abandon (l : List Delivery) (s : State) (p : PortId) (a : Nat) :
    Table.find ((l.foldl State.abandon s).port p).hostMem a = Table.find (s.port p).hostMem a
      ∨ ∃ d ∈ l, d.port = p ∧ ∃ i b, ((s.bytesOf d.output.cell).take d.output.length)[i]? = some b
          ∧ a = (d.buffer + BitVec.ofNat 64 i).toNat ∧ Table.find ((l.foldl State.abandon s).port p).hostMem a = some b := by
  induction l generalizing s with
  | nil => exact .inl rfl
  | cons d rest ih =>
    rw [List.foldl_cons]
    have hb : ∀ c, (s.abandon d).bytesOf c = s.bytesOf c := fun c => rfl
    rcases ih (s.abandon d) with h | ⟨x, h1, h2, i, b, h3, h4, h5⟩
    · have hport : ((s.abandon d).port p).hostMem = if p = d.port then
          landBytes (s.port p).hostMem d.buffer (Config.partlyWritten s.fresh) 0 ((s.bytesOf d.output.cell).take d.output.length)
        else (s.port p).hostMem := by
        have : (s.abandon d).port p = (s.setPort d.port { s.port d.port with
            hostMem := landBytes (s.port d.port).hostMem d.buffer (Config.partlyWritten s.fresh) 0 ((s.bytesOf d.output.cell).take d.output.length) }).port p := rfl
        rw [this, State.port_setPort]
        by_cases hp : p = d.port
        · subst hp; simp
        · simp [hp]
      by_cases hp : p = d.port
      · rw [if_pos hp] at hport
        rw [h, hport]
        rcases find_landBytes ((s.bytesOf d.output.cell).take d.output.length) (s.port p).hostMem d.buffer (Config.partlyWritten s.fresh) 0 a with k | ⟨i, b, k1, k2, k3⟩
        · exact .inl k
        · exact .inr ⟨d, List.mem_cons_self, hp.symm, i, b, k1, k2, k3⟩
      · rw [h, hport, if_neg hp]
        exact .inl rfl
    · exact .inr ⟨x, List.mem_cons_of_mem _ h1, h2, i, b, by rw [← hb]; exact h3, h4, h5⟩

end Sys2Proof.Machine
end

