-- ==== Sys2Proof/Tests/Slice0.lean ====
section
/-! SUPPORT. Tests: the form check, the worked cases of the spec, and for each statement with hypotheses a state and operands that meet them. -/

-- One theorem at a time: each evaluates in the kernel, and waiting theorems would hold a thread each.
set_option Elab.async false

namespace Sys2Proof.Tests

open Sys2Proof Sys2Proof.Machine Sys2Proof.Config

/-! ### The form check -/

theorem test_form_other_write_empty : (Instr.otherMemoryWrite 0 4 []).wellFormed = false := by decide
theorem test_form_other_write_host_index : (Instr.otherMemoryWrite 0 3 [1#8, 2#8]).wellFormed = false := by decide
theorem test_form_other_write_outside : (Instr.otherMemoryWrite 0 0x2FFF [1#8, 2#8]).wellFormed = false := by decide
theorem test_form_other_write_last_slot_byte : (Instr.otherMemoryWrite 0 0x17FFF [1#8]).wellFormed = true := by decide
theorem test_form_transfer_empty : (Instr.offerTransferEnd 5 []).wellFormed = false := by decide
theorem test_form_transfer_long : (Instr.offerTransferEnd 5 (List.replicate 65537 0#8)).wellFormed = false := by
  simp only [Instr.wellFormed, List.length_replicate, chunkBytes]
  decide
theorem test_form_visit_handle : (Instr.sweepVisit 4096).wellFormed = false ∧ (Instr.sweepVisit 4095).wellFormed = true := by decide

/-! ### The worked cases of 01 and 04 -/

/-- The table after R2. -/
theorem test_field_table : gfInv 0x02#8 = 0x8E#8 ∧ gfInv 0xF4#8 = 0x03#8 ∧ gfMul 0x8E#8 0x8E#8 = 0x47#8
    ∧ gfMul 0xF4#8 0x8E#8 = 0x7A#8 ∧ gfMul 0x02#8 0xF4#8 = 0xF5#8 ∧ gfMul 0xF4#8 0xF5#8 = 0x53#8 := by decide +kernel

/-- The corners of R5, with an ascending source set and its data. -/
theorem test_witness_FieldChecksumAndRowsAreRight : ∀ c ∈ [(⟨2, 1⟩ : Code), ⟨20, 4⟩, ⟨18, 6⟩],
    let l := (List.range c.k).map (· + 1)
    2 ≤ c.k ∧ c.k ≤ 20 ∧ 1 ≤ c.m ∧ c.m ≤ 6 ∧ c.k + c.m ≤ 24 ∧ l.Pairwise (· < ·) ∧ l.length = c.k
      ∧ (∀ i ∈ l, i < c.k + c.m) ∧ (List.replicate c.k 1#8).length = c.k := by decide

/-- 1.6: the double loss, rows for targets 0 and 2 from sources 1 and 3. -/
theorem test_double_loss :
    let c : Code := ⟨2, 2⟩
    invertedRows c ⟨0, [1, 3], [0, 2], none⟩ (invertArray 2 (augmented c [1, 3]))
      = [[0x8F#8, 0x03#8], [0x3D#8, 0x8F#8]]
    ∧ applyRow [0x3D#8, 0x8F#8] [[0x02#8], [0x12#8]] 1 = [0x61#8] := by decide +kernel

/-- 1.6: the single loss with check member 3. -/
theorem test_single_loss_with_check :
    let c : Code := ⟨2, 2⟩
    invertedRows c ⟨0, [1, 2], [0], some 3⟩ (invertArray 2 (augmented c [1, 2]))
      = [[0xF5#8, 0x02#8], [0xDD#8, 0xF5#8]] := by decide +kernel

/-- R79: the first five values after reset. -/
theorem test_selector_values : lfsrStep 0x5A3C#16 = 0xB479#16 ∧ lfsrStep 0xB479#16 = 0x68F3#16
    ∧ lfsrStep 0x68F3#16 = 0xD1E7#16 ∧ lfsrStep 0xD1E7#16 = 0xA3CF#16 ∧ lfsrStep 0xA3CF#16 = 0x479E#16 := by decide +kernel

/-- R10. -/
theorem test_chunks : chunkCount 65536 = 1 ∧ chunkCount 65537 = 2 ∧ chunkLength 65537 1 = 1 ∧ chunkLength 65537 0 = 65536 := by
  decide

/-! ### States for the witnesses

Six nodes behind port 0, racks 0 to 5; profile 0 is 2+2; one stripe with its fragment 0x11 under handle 7, its
members on nodes 0 to 3, position 3 being rebuilt onto node 4. -/

/-- A port with its link up that has a request posted, of a kind and with some bytes. -/
def asking (q : Port) (k : Byte) (bytes : List (Nat × Byte)) : Port :=
  { q with state := .up, link := true, reqTail := 1,
           slots := ((0, k) :: bytes).filterMap fun b => if b.2 = 0 then none else some (0x1000 + b.1, b.2) }

/-- Port 0 of a state asks. -/
def asks (s : State) (k : Byte) (bytes : List (Nat × Byte)) : State := s.setPort 0 (asking (s.port 0) k bytes)

/-- Port 0 with other contents. -/
def onPort (s : State) (f : Port → Port) : State := s.modPort 0 f

def nodeIn (st : NodeState) (rack : RackId) (load : Nat) : Node :=
  { Node.reset with state := st, rack := some rack, route := some 0, load := load }

/-- A node of a state in another state. -/
def nodeTo (s : State) (n : NodeId) (st : NodeState) : State := s.modNode n fun x => { x with state := st }

def opened : State := onPort State.reset fun q => { q with state := .up, link := true }

def world : State :=
  { opened.setProfile 0 ⟨some ⟨2, 2⟩, 1⟩ with
    quorum := 1
    nodes := ⟨⟨[nodeIn .up 0 0, nodeIn .up 1 0, nodeIn .up 2 0, nodeIn .up 3 0, nodeIn .up 4 1, nodeIn .up 5 0]
      ++ List.replicate 250 Node.reset⟩, by decide +kernel⟩ }

def heldOn (n : NodeId) (strikes : Nat) : Member := ⟨n, .held, none, strikes, none⟩
def lostOn (n : NodeId) : Member := ⟨n, .lost, some .reported, 0, none⟩
def target (coverage : List Offset) : Target := ⟨some 4, 0, coverage, false, []⟩
def rebuilt (coverage : List Offset) : Member := ⟨3, .rebuilding, some .reported, 0, some (target coverage)⟩

/-- The key for sources 0 and 1 and target 3. -/
def key3 : Key := ⟨0, [0, 1], [3], none⟩

/-- The entry: `strikes` at position 0, position 2 as given, the coverage of position 3's target. -/
def entryWith (st : EntryState) (strikes : Nat) (third : Member) (coverage : List Offset) : Entry :=
  { stripe := 0x11#64
    sequence := 0
    profile := 0
    length := 5
    members := [heldOn 0 strikes, heldOn 1 0, third, rebuilt coverage]
    submitters := 1#4
    state := st
    wait := none
    urgency := .urgent
    crossCheck := false
    plan := if st = .active ∨ st = .planning ∨ st = .draining then some ⟨some [0, 1], none, some 0, 0, 3, some key3⟩ else none
    replan := false
    outcome := none
    flags := ⟨false, false, false⟩
    closedMarks := 0 }

def held2 : Member := heldOn 2 0

/-- The rows of the bank for sources 0 and 1 and target 3. -/
def rows3 : List (List Byte) := [[0xF4#8, 0x8E#8]]

/-- The entry in the table, with bank 0 READY for its plan. -/
def withEntry (e : Entry) : State :=
  { world.setBank 0 ⟨.ready, some key3, rows3, 1, 0, false⟩ with entries := [(7, e)] }

def active : Entry := entryWith .active 0 held2 []

/-- The same with a LIVE fetch of position 0 in slot 5 of port 0, its cell 9. -/
def fetching (e : Entry) : State :=
  (onPort (withEntry e) fun q => { q with fetches := q.fetches.set 5 (some ⟨7, 0x11#64, 0, 0, 0, 5, 0, some 9⟩) }).setCell 9
    (some ⟨7, .floor, .fetch 0, []⟩)

def fetch0 : Fetch := ⟨7, 0x11#64, 0, 0, 0, 5, 0, some 9⟩

/-- The same with an offer of position 0 in transfer into cell 9. -/
def transfer0 (checksum : U32) : Transfer := ⟨7, 0x11#64, 0, 0, 5, 9, 0, 0, 1, checksum, true⟩
def arriving (e : Entry) (checksum : U32) : State :=
  { (withEntry e).setCell 9 (some ⟨7, .floor, .transfer 0, []⟩) with transfers := [transfer0 checksum] }

def bytes5 : List Byte := [1#8, 2#8, 3#8, 4#8, 5#8]

/-- Every source chunk of offset 0 is held, in cells 0 and 1; cell 2 is the entry's floor. -/
def gathered (e : Entry) : State :=
  (((withEntry e).setCell 0 (some ⟨7, .floor, .source 0 0 0, bytes5⟩)).setCell 1
    (some ⟨7, .floor, .source 1 0 0, bytes5⟩)).setCell 2 (some ⟨7, .floor, .floor, []⟩)

/-- A pass of offset 0 in lane 0, its output in cell 2. -/
def pass0 (check : Option (CellId × List Byte)) : Pass :=
  ⟨7, 0x11#64, 0, 5, [0, 1], check, [⟨3, 2, 4, [0xF4#8, 0x8E#8]⟩]⟩
def decoding (e : Entry) (check : Option (CellId × List Byte)) : State :=
  { (gathered e).setCell 2 (some ⟨7, .floor, .output 3 0, []⟩) with lanes := #v[some (pass0 check), none] }

/-- A rebuilt chunk of position 3 waits for delivery on port 0. -/
def output3 : Output := ⟨7, 0x11#64, 3, 0, 5, crc32c bytes5, 2, 4⟩
def outgoing (e : Entry) : State :=
  (onPort (withEntry e) fun q => { q with outputs := [output3] }).setCell 2 (some ⟨7, .floor, .output 3 0, bytes5⟩)
/-- The same chunk being delivered. -/
def delivery3 (owned : Bool) : Delivery := ⟨0, output3, 0xFFFFFFFFFFFFFFFE#64, owned⟩
def delivering (e : Entry) (owned : Bool) : State :=
  { (withEntry e).setCell 2 (some ⟨7, .floor, .output 3 0, bytes5⟩) with deliveries := [delivery3 owned] }

/-- The bytes that name the stripe 0x11 and the handle 7. -/
def naming : List (Nat × Byte) := [(8, 0x11#8), (16, 7#8)]

/-! ### Witnesses, in the order of the statements -/

theorem test_witness_StepExecutesFrontCommand :
    ({ State.reset with pending := [.timebaseTick, .sweepBegin] } : State).pending = .timebaseTick :: [.sweepBegin] := rfl

/-- An empty queue, a port that is not UP, and a QUERY at the head. -/
theorem test_witness_NothingToTakeChangesNothing : State.reset.pending = [] ∧ ¬State.reset.mayTakeNext 3
    ∧ (asks opened 3 []).mayTakeNext 0 ∧ ((asks opened 3 []).port 0).request.kind = 3 := by decide +kernel

/-- The kinds next to the 23. -/
theorem test_witness_UnknownKindIsRefusedInvalid :
    let holds (k : Byte) : Prop := (asks opened k []).mayTakeNext 0
      ∧ (((asks opened k []).port 0).request.kind.toNat = 0 ∨ 23 < ((asks opened k []).port 0).request.kind.toNat)
    holds 0 ∧ holds 24 ∧ holds 255 := by decide +kernel

theorem test_witness_LimitsAndPacingAreStored : (asks opened 17 []).offers 0 17 ∧ (asks opened 18 []).offers 0 18 := by decide +kernel

/-- Every mode, the values next to the modes, and a release. -/
theorem test_witness_PressureRequestsMoveHold :
    let mode (v : Byte) := asks opened 19 [(16, v)]
    (∀ v ∈ [0#8, 1#8, 2#8, 3#8, 4#8], (mode v).offers 0 19 ∧ ((mode v).port 0).request.pressureMode = v.toNat)
      ∧ (asks opened 20 []).offers 0 20 := by decide +kernel

theorem test_witness_SnapshotAndReadCountersUseBaseline :
    (asks opened 21 []).offers 0 21 ∧ (asks opened 22 []).offers 0 22 := by decide +kernel

/-- From head 0: tails 64 and 65; a head near the wrap. -/
theorem test_witness_RequestTailWriteKeepsQueueDepth :
    let open_ (s : State) (v : U32) : Prop := (s.port 0).state = .up ∧ (s.port 0).link = true ∧ v.toNat < 128
      ∧ (v.toNat + 128 - (s.port 0).reqHead % 128) % 128 ≤ 64
    let late := onPort opened fun q => { q with reqHead := 127 }
    opened.inReset = false ∧ open_ opened 64 ∧ ¬open_ opened 65 ∧ ¬open_ opened 128 ∧ open_ late 63 ∧ ¬open_ late 64 := by
  decide +kernel

theorem test_witness_ResponseHeadWriteTakesRecords :
    let s := onPort opened fun q => { q with respHead := 319, respTail := 1, responses := [.void 1 2 3, .void 1 2 4] }
    let open_ (v : U32) : Prop := (s.port 0).state = .up ∧ (s.port 0).link = true ∧ v.toNat < 320
      ∧ (v.toNat + 320 - (s.port 0).respHead % 320) % 320 ≤ (s.port 0).responses.length
    s.inReset = false ∧ open_ 319 ∧ open_ 1 ∧ ¬open_ 2 ∧ ¬open_ 320 := by decide +kernel

/-- The last byte of the request slots; bytes next to each region. -/
theorem test_witness_OtherMemoryWriteStoresOrStops :
    opened.inReset = false ∧ (opened.port 0).link = true ∧ Memory.wf (opened.port 0).slots
      ∧ (∀ i < [1#8, 2#8].length, otherOffset (0x2FFE + i) = true) ∧ (∀ i < [1#8].length, otherOffset (0x17FFF + i) = true)
      ∧ (∃ i < [1#8, 2#8].length, hostIndexOffset (11 + i) = true)
      ∧ ((∀ i < [1#8, 2#8].length, hostIndexOffset (0x2FFF + i) = false) ∧ ∃ i < [1#8, 2#8].length, otherOffset (0x2FFF + i) = false)
      ∧ ((∀ i < [1#8].length, hostIndexOffset (4 + i) = false ∧ otherOffset (4 + i) = true) ∧ (State.reset.port 0).link = false) := by
  decide +kernel

/-- Two records wait across the wrap of the slots; the last byte of a slot, the bytes next to each region. -/
theorem test_witness_HostReadsIndicesSlotsAndRecords :
    let s := onPort opened fun q => { q with respHead := 159, respTail := 161, responses := [.void 1 2 3, .void 0x0A0B 2 4] }
    (s.port 0).responses[0]? = some (.void 1 2 3) ∧ (s.port 0).responses[1]? = some (.void 0x0A0B 2 4)
      ∧ s.hostRead 0 (0x4000 + 512 * 159) = some 0x85 ∧ s.hostRead 0 (0x4000 + 9) = some 0x0A
      ∧ s.hostRead 0 12 = some 159 ∧ s.hostRead 0 15 = some 0 ∧ s.hostRead 0 0x1000 = some 0 ∧ s.hostRead 0 0x2FFF = some 0
      ∧ (∀ a ∈ [16, 0xFFF, 0x3000, 0x3FFF, 0x18000], s.hostRead 0 a = none) := by decide +kernel

theorem test_witness_EventEnableChangeMovesLine : opened.inReset = false ∧ (opened.port 0).link = true := by decide +kernel

theorem test_witness_PressureInputsMoveHold :
    (opened.port 0).pressure = false ∧ ((onPort opened fun q => { q with pressure := true }).port 0).pressure = true
      ∧ opened.inReset = false ∧ (onPort opened fun q => { q with pressure := true }).inReset = false
      ∧ (({ onPort opened fun q => { q with pressure := true } with inReset := true } : State).port 0).pressure = true := by
  decide +kernel

theorem test_witness_TimebaseTickAddsOne :
    State.reset.inReset = false ∧ ({ State.reset with timebase := 0xFFFFFFFFFFFF#48 } : State).inReset = false := by decide +kernel

/-- A DEFINE-NODE with the four bytes of its node, its rack and its port. -/
def defining (n0 n1 rack route : Byte) : State := asks (withEntry active) 9 [(16, n0), (17, n1), (18, rack), (19, route)]

/-- The ranges' ends. -/
theorem test_witness_DefineNodeDefinesOrRefuses_ranges :
    ((defining 0 1 63 3).offers 0 9 ∧ 255 < ((defining 0 1 63 3).port 0).request.nodeId)
      ∧ ((defining 255 0 64 3).offers 0 9 ∧ 63 < ((defining 255 0 64 3).port 0).request.rackId)
      ∧ ((defining 255 0 63 4).offers 0 9 ∧ 3 < ((defining 255 0 63 4).port 0).request.routePort) := by decide +kernel

/-- An UNDEFINED node, the same definition, and another one with and without a user. -/
theorem test_witness_DefineNodeDefinesOrRefuses :
    let holds (n rack route : Byte) : Prop := (defining n 0 rack route).offers 0 9
      ∧ ((defining n 0 rack route).port 0).request.nodeId = n.toNat
      ∧ ((defining n 0 rack route).port 0).request.rackId = rack.toNat
      ∧ ((defining n 0 rack route).port 0).request.routePort = route.toNat
    let users (n : NodeId) : Bool := (defining 0 0 0 0).entries.any fun he =>
      he.2.members.any fun m => decide (m.node = n ∨ m.target.bind Target.dest = some n)
    holds 255 63 3 ∧ ((defining 255 0 63 3).node 255).state = .undefined
      ∧ holds 0 0 0 ∧ ((defining 0 0 0 0).node 0).rack = some 0 ∧ ((defining 0 0 0 0).node 0).route = some 0
      ∧ holds 4 9 0 ∧ ((defining 4 0 9 0).node 4).rack ≠ some 9 ∧ users 4 = true
      ∧ holds 5 9 0 ∧ ((defining 5 0 9 0).node 5).state = .up ∧ users 5 = false := by decide +kernel

theorem test_witness_OneNodeRequestsRefuseUnknownNodes :
    let s (k lo hi : Byte) := asks world k [(16, lo), (17, hi)]
    ∀ k ∈ [10#8, 12#8, 13#8, 14#8], (s k 0 1).offers 0 k ∧ 255 < ((s k 0 1).port 0).request.nodeId
      ∧ (s k 255 0).offers 0 k ∧ ((s k 255 0).port 0).request.nodeId = 255 ∧ ((s k 255 0).node 255).state = .undefined := by
  decide +kernel

theorem test_witness_ReportDownAddsReportAndMeetsQuorum :
    let s := asks world 10 [(16, 5#8)]
    let high : State := { s with quorum := 2 }
    let holds (x : State) : Prop := x.offers 0 10 ∧ (x.port 0).request.nodeId = 5 ∧ (x.node 5).state = .up
    let falls (x : State) : Prop := x.quorum ≤ PortSet.size ((x.node 5).withReport 0).reports
    holds s ∧ falls s ∧ holds high ∧ ¬falls high := by decide +kernel

theorem test_witness_ReportRackDownTreatsWholeRack :
    let s (r : Byte) := asks world 11 [(18, r)]
    (s 64).offers 0 11 ∧ 63 < ((s 64).port 0).request.rackId ∧ (s 5).offers 0 11 ∧ ((s 5).port 0).request.rackId = 5
      ∧ ((s 5).node 5).rack = some 5 ∧ (s 63).offers 0 11 ∧ ((s 63).port 0).request.rackId = 63 := by decide +kernel

theorem test_witness_RetractAndClearSuspectActOnNode :
    let s (k : Byte) (st : NodeState) := asks (nodeTo world 5 st) k [(16, 5#8)]
    ∀ st ∈ [NodeState.up, .suspect, .down], ∀ k ∈ [12#8, 14#8],
      (s k st).offers 0 k ∧ ((s k st).port 0).request.nodeId = 5 ∧ ((s k st).node 5).state = st := by decide +kernel

theorem test_witness_ReviveNodeReturnsDownNodeToUp :
    let s (st : NodeState) := asks (nodeTo world 5 st) 13 [(16, 5#8)]
    ∀ st ∈ [NodeState.up, .suspect, .down],
      (s st).offers 0 13 ∧ ((s st).port 0).request.nodeId = 5 ∧ ((s st).node 5).state = st := by decide +kernel

/-- A beginning, an end with the FIFO empty and with an id in it, and a live entry ahead of the sweep. -/
theorem test_witness_SweepBeginsAtFifoHeadAndEnds :
    let a : State := { world with sweepFifo := [5, 4] }
    let b (next : Handle) (fifo : List NodeId) : State := { withEntry active with sweep := some ⟨5, next⟩, sweepFifo := fifo }
    a.inReset = false ∧ a.sweep = none ∧ a.sweepFifo = 5 :: [4] ∧ world.sweepFifo = []
      ∧ (∀ fifo ∈ [[], [(4 : NodeId)]], (b 8 fifo).inReset = false ∧ (b 8 fifo).sweep = some ⟨5, 8⟩ ∧ (b 8 fifo).sweepFifo = fifo
        ∧ ∀ he ∈ (b 8 fifo).entries, 8 ≤ he.1 → he.1 < 4096 → he.2.state = .closed)
      ∧ (b 7 []).sweep = some ⟨5, 7⟩ ∧ ∃ he ∈ (b 7 []).entries, 7 ≤ he.1 ∧ he.1 < 4096 ∧ he.2.state ≠ .closed := by decide +kernel

/-- R36: at the end of a sweep the next begins in the same step. -/
theorem test_sweep_end_begins_next :
    exec .sweepEnd { world with sweep := some ⟨5, 0⟩, sweepFifo := [4, 3] } =
      .next { world with sweep := some ⟨4, 0⟩, sweepFifo := [3], attempt := true } := rfl

/-- Each range past its end; an UNDEFINED index, the same code, another one with users and without, a bank keyed on it. -/
theorem test_witness_SetProfileDefinesOrRefuses :
    let s (i k m : Byte) := asks (withEntry active) 15 [(16, i), (17, k), (18, m)]
    let bad (x : State) : Prop := let r := (x.port 0).request
      7 < r.profileIndex ∨ r.profileK < 2 ∨ 20 < r.profileK ∨ r.profileM < 1 ∨ 6 < r.profileM ∨ 24 < r.profileK + r.profileM
    let free (x : State) : State := x.modProfile 0 fun y => { y with users := 0 }
    (∀ x ∈ [s 8 2 1, s 7 1 1, s 7 21 1, s 7 2 0, s 7 2 7, s 7 20 5], x.offers 0 15 ∧ bad x)
      ∧ (∀ x ∈ [s 7 20 4, s 7 18 6, s 0 2 2, s 0 2 6], x.offers 0 15 ∧ ¬bad x)
      ∧ ((s 7 20 4).profile 7).code = none ∧ ((s 0 2 2).profile 0).code = some ⟨2, 2⟩ ∧ ((s 0 2 6).profile 0).code ≠ some ⟨2, 6⟩
      ∧ 0 < ((s 0 2 6).profile 0).users ∧ ((free (s 0 2 6)).profile 0).users = 0 ∧ (free (s 0 2 6)).offers 0 15
      ∧ ((s 0 2 6).bank 0).key.map Key.profile = some 0 ∧ ((s 0 2 6).bank 0).state = .ready := by decide +kernel

/-- Of two INVERTING banks keyed on the profile, the one at the FIFO's head and the one behind it. -/
theorem test_witness_SetProfile_inverting :
    let waiting (s : State) (b : BankId) := s.setBank b ⟨.inverting, some key3, [], 0, b.val, false⟩
    let s : State := (asks (waiting (waiting world 1) 2) 15 [(17, 2#8), (18, 6#8)]).modProfile 0 fun y => { y with users := 0 }
    let t : State := { s with inversionFifo := [2, 1] }
    t.offers 0 15 ∧ (t.profile 0).code = some ⟨2, 2⟩ ∧ (t.profile 0).users = 0 ∧ t.inversionFifo.head? = some 2
      ∧ (t.bank 1).key = some key3 ∧ (t.bank 1).state = .inverting ∧ t.inversionFifo.head? ≠ some 1
      ∧ (t.bank 2).key = some key3 ∧ (t.bank 2).state = .inverting := by decide +kernel

theorem test_witness_SetDeviceWritesNonzeroValues :
    let s (v : Byte) := asks { world with quorum := 4 } 16 [(16, v)]
    (s 5).offers 0 16 ∧ ((s 5).port 0).request.quorum ≠ 0 ∧ 4 < ((s 5).port 0).request.quorum
      ∧ (s 2).offers 0 16 ∧ ((s 2).port 0).request.quorum = 2 ∧ ((s 2).port 0).request.window = 0
      ∧ ((s 2).port 0).request.fetchTimeout = 0 ∧ ((s 2).port 0).request.landingTimeout = 0
      ∧ ((s 2).port 0).request.epochLength = 0 ∧ (s 2).quorum = 4 ∧ (s 4).offers 0 16 ∧ ((s 4).port 0).request.quorum = 4 := by
  decide +kernel

theorem test_witness_LinkAndResetEndMovePort :
    let s (st : PortState) (link : Bool) := onPort world fun q => { q with state := st, link := link }
    ∀ st ∈ [PortState.down, .up, .resetting], ∀ link ∈ [true, false],
      (s st link).inReset = false ∧ ((s st link).port 0).state = st ∧ ((s st link).port 0).link = link := by decide +kernel

/-- A request and a lost link, with every output of the port bound for a node behind it; entries it drains, orphans,
triggers and leaves. -/
theorem test_witness_PortResetReturnsPortToDefaults :
    ∀ e ∈ [active, entryWith .draining 0 held2 [], { active with submitters := 3#4 }, entryWith .closed 0 held2 []],
      let s := outgoing e
      let t0 := target []
      (asks s 23 []).rising ∧ (asks s 23 []).offers 0 23 ∧ s.rising ∧ s.inReset = false ∧ (s.port 0).state = .up
        ∧ (s.port 0).link = true ∧ s.entry? 7 = some e
        ∧ ∀ o ∈ (s.port 0).outputs, s.entry? o.handle = some e ∧ e.target? o.position = some t0 ∧ t0.dest = some o.dest
            ∧ (s.node o.dest).route = some 0 := by decide +kernel

/-- The reset's cells: the answer cell of the port's fetch goes to the floor that is short, and where none is, FREE. -/
theorem test_port_reset_releases_cells :
    let after (e : Entry) (f : State → Bool) : Bool :=
      match exec (.portReset 0) (asks (fetching e) 23 []) with
      | .next t => f t
      | _ => false
    let whole : Entry := { active with submitters := 3#4, plan := active.plan.map fun pl => { pl with floorSize := 0 } }
    (fetching active).rising ∧ (fetching { active with submitters := 3#4 }).cell 9 = some ⟨7, .floor, .fetch 0, []⟩
      ∧ after { active with submitters := 3#4 } (fun t => t.cell 9 = some ⟨7, .floor, .floor, []⟩) = true
      ∧ after active (fun t => t.cell 9 = none) = true ∧ after whole (fun t => t.cell 9 = none) = true := by decide +kernel

/-- A delivery on port 0 and none on port 1; a part in reset. -/
theorem test_witness_DeviceResetReturnsEveryBlock :
    let s := delivering active true
    s.inReset = false ∧ ({ s with inReset := true } : State).inReset = true
      ∧ (∃ d ∈ s.deliveries, d.port = 0 ∧ ((s.bytesOf d.output.cell).take d.output.length)[4]? = some 5#8
          ∧ (d.buffer + 4#64).toNat = 2)
      ∧ ∀ d ∈ s.deliveries, d.port ≠ 1 := by decide +kernel

theorem test_witness_EpochBoundaryTreatsPortsAndWindows :
    let s : State := { world with timebase := 10 }
    s.inReset = false ∧ s.timebase = s.nextBoundary := by decide +kernel

/-- A SUBMIT: stripe, profile, member count, cross-check, length and loss flags, and the listed nodes. -/
def submitting (s : State) (stripe profile count check length lost : Byte) (nodes : List Byte) : State :=
  asks s 1 ([(8, stripe), (16, profile), (17, count), (18, check), (20, length), (24, lost)]
    ++ nodes.mapIdx fun i x => (32 + 2 * i, x))

def submitRequest (s : State) : Request := (s.port 0).request

theorem test_witness_SubmitAnswersWithoutCreating_form :
    let nodes := [0#8, 1#8, 2#8, 3#8]
    let profiles := [submitting world 0x22 8 4 0 5 4 nodes, submitting world 0x22 7 4 0 5 4 nodes]
    let fields := [submitting world 0x22 0 4 0 0 4 nodes, submitting world 0x22 0 5 0 5 4 nodes,
      submitting world 0x22 0 4 2 5 4 nodes, submitting world 0x22 0 4 0 5 16 nodes,
      submitting world 0x22 0 4 0 5 4 [0#8, 1#8, 2#8, 2#8]]
    let unknown := submitting world 0x22 0 4 0 5 4 [0#8, 1#8, 2#8, 6#8]
    (∀ s ∈ profiles, s.offers 0 1 ∧ submitCode s (submitRequest s) = none)
      ∧ (∀ s ∈ fields, s.offers 0 1 ∧ (s.profile 0).code = some ⟨2, 2⟩ ∧ (submitRequest s).submitProfile = 0
          ∧ let r := submitRequest s
            (r.length = 0 ∨ r.memberCount ≠ 4 ∨ 1 < r.crossCheck ∨ r.knownLost 4 = true ∨ r.memberNode 2 = r.memberNode 3))
      ∧ unknown.offers 0 1 ∧ (unknown.node (nodeAt (submitRequest unknown) 3)).state = .undefined := by decide +kernel

/-- The form passes: the fields of one record are checked one by one. -/
theorem fields_pass (r : Request) (h1 : r.length ≠ 0) (h2 : r.length ≤ 2 ^ 30) (h3 : r.memberCount = 4)
    (h4 : ∀ i < 4, r.memberNode i ≤ 255) (h5 : ∀ i < 4, ∀ j < 4, i ≠ j → r.memberNode i ≠ r.memberNode j)
    (h6 : r.field 24 3 < 2 ^ 4) (h7 : r.crossCheck ≤ 1) : ¬submitFieldsInvalid (2 + 2) r := by
  rintro (h | h | h | ⟨i, hi, h⟩ | ⟨i, hi, j, hj, hij, h⟩ | ⟨i, hi, h⟩ | h)
  · exact h1 h
  · omega
  · exact h h3
  · exact absurd (h4 i hi) (by omega)
  · exact h5 i hi j hj hij h
  · have : r.field 24 3 < 2 ^ i := h6.trans_le (Nat.pow_le_pow_right (by omega) hi)
    simp only [Request.knownLost, Nat.testBit_lt_two_pow this, Bool.false_eq_true] at h
  · omega

/-- A form of four members under profile 0 passes. -/
theorem form_passes (s : State) (hd : let r := submitRequest s
      r.submitProfile = 0 ∧ (s.profile 0).code = some ⟨2, 2⟩ ∧ r.length ≠ 0 ∧ r.length ≤ 2 ^ 30 ∧ r.memberCount = 4
      ∧ (∀ i < 4, r.memberNode i ≤ 255) ∧ (∀ i < 4, ∀ j < 4, i ≠ j → r.memberNode i ≠ r.memberNode j)
      ∧ r.field 24 3 < 2 ^ 4 ∧ r.crossCheck ≤ 1 ∧ ∀ j < 4, (s.node (nodeAt r j)).state ≠ .undefined) :
    submitPasses s (submitRequest s) 0 ⟨2, 2⟩ := by
  obtain ⟨a, b, c, d, e, f, g, h, i, j⟩ := hd
  exact ⟨a.symm, b, fields_pass _ c d e f g h i, j⟩

/-- A SUBMIT of the stripe 0x22, or of the entry's own, on nodes 0 to 3. -/
def submitted (s : State) (stripe length lost : Byte) : State := submitting s stripe 0 4 0 length lost [0#8, 1#8, 2#8, 3#8]

theorem passes_new : submitPasses (submitted world 0x22 5 4) (submitRequest (submitted world 0x22 5 4)) 0 ⟨2, 2⟩ :=
  form_passes _ (by decide +kernel)
theorem passes_old : submitPasses (submitted (withEntry active) 0x11 5 1) (submitRequest (submitted (withEntry active) 0x11 5 1)) 0 ⟨2, 2⟩ :=
  form_passes _ (by decide +kernel)

def present (s : State) : Option (Nat × Entry) := s.entries.find? fun he => decide (he.2.stripe = (submitRequest s).stripe)

/-- CLOSING, CONFLICT (another length), NOTHING-LOST, UNRECOVERABLE and FULL. -/
theorem test_witness_SubmitAnswersWithoutCreating :
    let closed := submitted (withEntry (entryWith .closed 0 held2 [])) 0x11 5 4
    let other := submitted (withEntry active) 0x11 6 4
    let full : State := { world with entries := (List.range 4096).map fun h => (h, { active with stripe := 0x100 + h }) }
    submitPasses closed (submitRequest closed) 0 ⟨2, 2⟩ ∧ present closed = some (7, entryWith .closed 0 held2 [])
      ∧ submitPasses other (submitRequest other) 0 ⟨2, 2⟩ ∧ present other = some (7, active)
      ∧ active.length ≠ (submitRequest other).length
      ∧ submitPasses (submitted world 0x22 5 0) (submitRequest (submitted world 0x22 5 0)) 0 ⟨2, 2⟩
      ∧ submitLost (submitted world 0x22 5 0) (submitRequest (submitted world 0x22 5 0)) ⟨2, 2⟩ = 0
      ∧ submitPasses (submitted world 0x22 5 7) (submitRequest (submitted world 0x22 5 7)) 0 ⟨2, 2⟩
      ∧ submitLost (submitted world 0x22 5 7) (submitRequest (submitted world 0x22 5 7)) ⟨2, 2⟩ = 3
      ∧ submitPasses (submitted full 0x22 5 3) (submitRequest (submitted full 0x22 5 3)) 0 ⟨2, 2⟩
      ∧ present (submitted full 0x22 5 3) = none ∧ 4096 ≤ (submitted full 0x22 5 3).entries.length
      ∧ submitLost (submitted full 0x22 5 3) (submitRequest (submitted full 0x22 5 3)) ⟨2, 2⟩ = 2 := by
  refine ⟨form_passes _ (by decide +kernel), by decide +kernel, form_passes _ (by decide +kernel), by decide +kernel,
    by decide +kernel, form_passes _ (by decide +kernel), by decide +kernel, form_passes _ (by decide +kernel),
    by decide +kernel, form_passes _ (by decide +kernel), by decide +kernel, by decide +kernel, by decide +kernel⟩

theorem test_witness_SubmitCreatesEntryAtLowestHandle :
    let s := submitted world 0x22 5 4
    s.offers 0 1 ∧ submitPasses s (submitRequest s) 0 ⟨2, 2⟩ ∧ present s = none ∧ submitLost s (submitRequest s) ⟨2, 2⟩ = 1
      ∧ s.entries.length < 4096 ∧ s.entry? 0 = none :=
  ⟨by decide +kernel, passes_new, by decide +kernel, by decide +kernel, by decide +kernel, by decide +kernel⟩

/-- No member flagged HELD (the lost one is flagged), one flagged, two flagged. -/
theorem test_witness_SubmitMergesIntoPresentEntry :
    ∀ lost ∈ [0#8, 8#8, 1#8, 3#8],
      let s := submitted (withEntry active) 0x11 5 lost
      let r := submitRequest s
      s.offers 0 1 ∧ submitPasses s r 0 ⟨2, 2⟩ ∧ present s = some (7, active) ∧ active.state ≠ .closed
        ∧ active.state ≠ .draining ∧ submitAgrees r ⟨2, 2⟩ active := by
  intro lost hl
  simp only [List.mem_cons, List.not_mem_nil, or_false] at hl
  rcases hl with rfl | rfl | rfl | rfl <;>
    exact ⟨by decide +kernel, form_passes _ (by decide +kernel), by decide +kernel, by decide, by decide,
      by unfold submitAgrees; decide +kernel⟩

/-! Named entries. -/

/-- A request that names the entry, with some further bytes. -/
def names (s : State) (k : Byte) (more : List (Nat × Byte)) : State := asks s k (naming ++ more)

theorem test_witness_StaleNamesAreRefused :
    ∀ k ∈ [2#8, 3#8, 7#8, 8#8],
      let high := asks (withEntry active) k [(8, 0x11#8), (17, 0x10#8)]
      let free := asks (withEntry active) k [(8, 0x11#8), (16, 0xFF#8), (17, 0x0F#8)]
      let stale := asks (withEntry active) k [(8, 0x12#8), (16, 7#8)]
      high.offers 0 k ∧ (high.port 0).request.handle = 4096 ∧ free.offers 0 k ∧ (free.port 0).request.handle = 4095
        ∧ free.entry? 4095 = none ∧ stale.offers 0 k ∧ (stale.port 0).request.handle = 7
        ∧ stale.entry? 7 = some active ∧ active.stripe ≠ (stale.port 0).request.stripe := by decide +kernel

/-- The modes next to the two; a port outside the set, a CLOSED entry, two submitters, a DRAINING entry. -/
theorem test_witness_WithdrawLeavesOrKeepsEntry :
    let s (e : Entry) (mode : Byte) := names (withEntry e) 2 [(18, mode)]
    let closed := entryWith .closed 0 held2 []
    let draining := entryWith .draining 0 held2 []
    ∀ e ∈ [active, closed, draining, { active with submitters := 2#4 }, { active with submitters := 3#4 }],
      ∀ mode ∈ [0#8, 1#8, 2#8, 3#8],
        (s e mode).offers 0 2 ∧ ((s e mode).port 0).request.handle = 7 ∧ (s e mode).entry? 7 = some e
          ∧ e.stripe = ((s e mode).port 0).request.stripe ∧ ((s e mode).port 0).request.withdrawMode = mode.toNat := by
  decide +kernel

/-- An entry of every live state, and a pass in flight for an ACTIVE one. -/
theorem test_witness_LastSubmitterWithdrawsEntry :
    (∀ st ∈ [EntryState.queued, .planning, .active, .settling, .draining], ∀ mode ∈ [1#8, 2#8],
      let e := entryWith st 0 held2 []
      let s := names (withEntry e) 2 [(18, mode)]
      s.offers 0 2 ∧ (s.port 0).request.handle = 7 ∧ s.entry? 7 = some e ∧ e.stripe = (s.port 0).request.stripe
        ∧ e.state ≠ .closed ∧ PortSet.has e.submitters 0 = true ∧ (∀ q, PortSet.has e.submitters q = true → q = 0)
        ∧ ∀ j, s.lane j = none)
    ∧ (∀ j k, (names (decoding active none) 2 [(18, 1#8)]).lane j ≠ none →
        (names (decoding active none) 2 [(18, 1#8)]).lane k ≠ none → j = k)
    ∧ (names (decoding active none) 2 [(18, 1#8)]).busyWith 7 ∧ (names (decoding active none) 2 [(18, 1#8)]).offers 0 2
    ∧ ¬(names (withEntry active) 2 [(18, 1#8)]).busyWith 7 := by
  simp only [State.busyWith_iff]
  decide +kernel

theorem test_witness_QueryReportsEntryUnchanged :
    let s := names (withEntry active) 3 []
    s.offers 0 3 ∧ (s.port 0).request.handle = 7 ∧ s.entry? 7 = some active
      ∧ active.stripe = (s.port 0).request.stripe := by decide +kernel

/-! The Gather Unit. -/

/-- An OFFER or DECLINE of tag `tag` and a stripe, with the DECLINE's cause 1. -/
def answering (s : State) (k stripe tag : Byte) : State :=
  asks s k [(8, stripe), (16, tag), (17, if k = 5 then 1 else 0)]

theorem test_witness_OfferChecksRefuseOrEmptySlot :
    let s (k stripe tag : Byte) := answering (fetching active) k stripe tag
    let routed (k : Byte) := answering ((fetching active).modNode 0 fun x => { x with route := some 1 }) k 0x11 5
    let withdrawn (k : Byte) := answering (onPort (fetching active) fun q =>
      { q with fetches := q.fetches.set 5 (some { fetch0 with cell := none }) }) k 0x11 5
    ∀ k ∈ [4#8, 5#8],
      (s k 0x11 32).offers 0 k ∧ (k = 5 → ((s k 0x11 32).port 0).request.declineCause = 1)
        ∧ 31 < ((s k 0x11 32).port 0).request.fetchTag
        ∧ (s k 0x11 31).offers 0 k ∧ ((s k 0x11 31).port 0).request.fetchTag = 31
        ∧ ((s k 0x11 31).port 0).fetches[(31 : FetchTag)] = none
        ∧ (s k 0x12 5).offers 0 k ∧ ((s k 0x12 5).port 0).request.fetchTag = 5
        ∧ ((s k 0x12 5).port 0).fetches[(5 : FetchTag)] = some fetch0
        ∧ fetch0.stripe ≠ ((s k 0x12 5).port 0).request.stripe
        ∧ (routed k).offers 0 k ∧ ((routed k).port 0).fetches[(5 : FetchTag)] = some fetch0
        ∧ fetch0.stripe = ((routed k).port 0).request.stripe ∧ ((routed k).node 0).route ≠ some 0
        ∧ (withdrawn k).offers 0 k ∧ ((withdrawn k).port 0).fetches[(5 : FetchTag)] = some { fetch0 with cell := none } := by
  decide +kernel

/-- A DECLINE with another cause. -/
theorem test_witness_DeclineCause :
    let s (cause : Byte) := asks (fetching active) 5 [(8, 0x11#8), (16, 5#8), (17, cause)]
    ∀ c ∈ [0#8, 2#8], (s c).offers 0 5 ∧ ((s c).port 0).request.declineCause ≠ 1 := by decide +kernel

theorem test_witness_OfferTakenBeginsTransfer :
    let s := answering (fetching active) 4 0x11 5
    (s.offers 0 4 ∧ (s.port 0).request.fetchTag = 5 ∧ (s.port 0).fetches[(5 : FetchTag)] = some fetch0
      ∧ fetch0.stripe = (s.port 0).request.stripe ∧ (s.node fetch0.node).route = some 0 ∧ fetch0.cell = some 9
      ∧ s.cell 9 = some ⟨7, .floor, .fetch 0, []⟩)
    ∧ usesMemberNow s 7 0 :=
  ⟨by decide +kernel, (State.usesMember_iff ..).mp (by decide +kernel)⟩

/-- An entry with one lost position, and one with two, so that a further loss is one too many. -/
def full : Entry := entryWith .active 0 (lostOn 2) []

theorem test_witness_DeclineLosesMember : ∀ e ∈ [active, full],
    let s := answering (fetching e) 5 0x11 5
    (s.offers 0 5 ∧ (s.port 0).request.declineCause = 1 ∧ (s.port 0).request.fetchTag = 5
      ∧ (s.port 0).fetches[(5 : FetchTag)] = some fetch0 ∧ fetch0.stripe = (s.port 0).request.stripe
      ∧ (s.node fetch0.node).route = some 0 ∧ fetch0.cell ≠ none ∧ s.entry? 7 = some e
      ∧ e.members[0]? = some (heldOn 0 0) ∧ e.state ≠ .closed ∧ e.submitters ≠ 0)
    ∧ usesMemberNow s 7 0 := by
  intro e he
  simp only [List.mem_cons, List.not_mem_nil, or_false] at he
  rcases he with rfl | rfl <;>
    exact ⟨by decide +kernel, (State.usesMember_iff ..).mp (by decide +kernel)⟩

/-- The first, the second and the third strike, the last with room for the loss and without. -/
theorem test_witness_FetchExpiryEmptiesSlot : ∀ third ∈ [held2, lostOn 2], ∀ strikes < 3,
    let e := entryWith .active strikes third []
    let s := fetching e
    (s.inReset = false ∧ (s.port 0).fetches[(5 : FetchTag)] = some fetch0 ∧ s.timebase = fetch0.expiry
      ∧ s.entry? 7 = some e ∧ e.members[0]? = some (heldOn 0 strikes) ∧ e.state ≠ .closed ∧ e.submitters ≠ 0)
    ∧ usesMemberNow s 7 0 := by
  intro third ht strikes hs
  simp only [List.mem_cons, List.not_mem_nil, or_false] at ht
  have : strikes = 0 ∨ strikes = 1 ∨ strikes = 2 := by omega
  rcases ht with rfl | rfl <;> rcases this with rfl | rfl | rfl <;>
    exact ⟨by decide +kernel, (State.usesMember_iff ..).mp (by decide +kernel)⟩

/-- A WITHDRAWN fetch at its expiry. -/
theorem test_witness_FetchExpiry_withdrawn :
    let s := onPort (withEntry active) fun q => { q with fetches := q.fetches.set 5 (some { fetch0 with cell := none }) }
    s.inReset = false ∧ (s.port 0).fetches[(5 : FetchTag)] = some { fetch0 with cell := none } ∧ s.timebase = 0 := by
  decide +kernel

/-- A LIVE fetch, at its expiry, of a member that its entry no longer uses: its node is DOWN. -/
theorem test_witness_FetchExpiry_unused :
    let s := nodeTo (fetching active) 0 .down
    (s.inReset = false ∧ (s.port 0).fetches[(5 : FetchTag)] = some fetch0 ∧ s.timebase = fetch0.expiry ∧ fetch0.cell = some 9)
      ∧ ¬usesMemberNow s 7 0 :=
  ⟨by decide +kernel, fun h => absurd ((State.usesMember_iff ..).mpr h) (by decide +kernel)⟩

/-- A fetch can be issued: into the entry's floor cell, and into a pool cell. -/
theorem test_witness_FetchIssueTakesSlotCellAndCharge :
    let floor := (withEntry active).setCell 2 (some ⟨7, .floor, .floor, []⟩)
    ((withEntry active).nextFetch 0).map (fun x => (x.1.handle, x.1.position, x.2)) = some (7, 0, 0)
      ∧ (floor.nextFetch 0).map (fun x => (x.1.handle, x.1.position, x.2)) = some (7, 0, 2)
      ∧ world.nextFetch 0 = none ∧ (withEntry active).inReset = false
      ∧ ((withEntry active).port 0).fetches[(0 : FetchTag)] = none := by
  refine ⟨by decide +kernel, by decide +kernel, ?_, by decide +kernel, by decide +kernel⟩
  have : (world.nextFetch 0).isNone = true := by decide +kernel
  exact Option.isNone_iff_eq_none.mp this

/-- The table is in order; chunks wanted where none can be fetched, for want of a cell and of credit. -/
theorem test_witness_FetchIssue_order :
    let s := withEntry active
    let noCells : State := { s with cells := Vector.replicate 512 (some ⟨6, .floor, .floor, []⟩) }
    let noCredit := onPort s fun q => { q with fetches := Vector.replicate 32 (some { fetch0 with handle := 6 }) }
    (s.rising ∧ s.oneEra)
      ∧ (∀ x ∈ [s, noCells, noCredit], x.wanted.map Wanted.position = [0, 1])
      ∧ (noCells.nextFetch 0).isNone = true ∧ (noCredit.nextFetch 0).isNone = true :=
  ⟨⟨by decide +kernel, 0, by decide +kernel⟩, by decide +kernel⟩

/-- The window of 1 past its end: of three offsets the decode point alone. -/
theorem test_witness_WantedChunksAreMissingInWindow :
    let e : Entry := { active with length := 3 * 65536 }
    let s (window : Nat) : State := { withEntry e with window := window }
    (s 1).rising ∧ (s 1).wanted.map (fun w => (w.position, w.offset)) = [(0, 0), (1, 0)]
      ∧ (s 2).wanted.map (fun w => (w.position, w.offset)) = [(0, 0), (1, 0), (0, 1), (1, 1)]
      ∧ (fetching active).wanted.map Wanted.position = [1] := by decide +kernel

/-- Unused (the entry stands DRAINING, or the reset took the answer) and held. -/
theorem test_witness_OfferTransferEndsUnusedOrHeld :
    let s := arriving active (crc32c bytes5)
    let unused := arriving (entryWith .draining 0 held2 []) (crc32c bytes5)
    (s.inReset = false ∧ (s.transfers.find? fun y => decide (y.cell = 9)) = some (transfer0 (crc32c bytes5))
      ∧ bytes5.length = (transfer0 (crc32c bytes5)).length ∧ s.entry? 7 = some active ∧ active.state = .active
      ∧ s.park ≠ some 7 ∧ (transfer0 (crc32c bytes5)).answers = true)
    ∧ usesMemberNow s 7 0
    ∧ (unused.inReset = false ∧ (unused.transfers.find? fun y => decide (y.cell = 9)) = some (transfer0 (crc32c bytes5))
      ∧ (unused.entry? 7).map Entry.state = some .draining) :=
  ⟨by decide +kernel, (State.usesMember_iff ..).mp (by decide +kernel), by decide +kernel⟩

theorem test_witness_BadChecksumStrikesMember : ∀ third ∈ [held2, lostOn 2], ∀ strikes < 3,
    let e := entryWith .active strikes third []
    let s := arriving e 0
    (s.inReset = false ∧ (s.transfers.find? fun y => decide (y.cell = 9)) = some (transfer0 0)
      ∧ bytes5.length = (transfer0 0).length ∧ (transfer0 0).answers = true ∧ s.entry? 7 = some e ∧ e.state = .active
      ∧ s.park ≠ some 7 ∧ e.members[0]? = some (heldOn 0 strikes) ∧ e.submitters ≠ 0 ∧ crc32c bytes5 ≠ 0
      ∧ (s.node 0).state = .up)
    ∧ usesMemberNow s 7 0 := by
  intro third ht strikes hs
  simp only [List.mem_cons, List.not_mem_nil, or_false] at ht
  have : strikes = 0 ∨ strikes = 1 ∨ strikes = 2 := by omega
  rcases ht with rfl | rfl <;> rcases this with rfl | rfl | rfl <;>
    exact ⟨by decide +kernel, (State.usesMember_iff ..).mp (by decide +kernel)⟩

/-! Passes. -/

/-- A check chunk that agrees, and one that does not: the row takes source 0's bytes. -/
def checkOf (agrees : Bool) : Option (CellId × List Byte) := some (if agrees then 1 else 2, [1#8, 0#8])

theorem test_witness_PassDispatchDrawsOutputsAndRows :
    let s := gathered active
    s.inReset = false ∧ s.lane 0 = none ∧ s.chosen = some (7, active) ∧ active.plan = some ⟨some [0, 1], none, some 0, 0, 3, some key3⟩
      ∧ (s.bank 0).key = some key3 ∧ (∀ pos ∈ [0, 1], pos < active.members.length)
      ∧ world.chosen = none ∧ (∀ l, ({ s with lanes := #v[some (pass0 none), some (pass0 none)] } : State).lane l ≠ none) := by
  decide +kernel

/-- A plan with a check member. -/
theorem test_witness_PassDispatch_check :
    let e : Entry := { active with crossCheck := true, plan := some ⟨some [0, 1], some 2, some 0, 0, 4, some ⟨0, [0, 1], [3], some 2⟩⟩ }
    let s := ((gathered e).setCell 3 (some ⟨7, .floor, .source 2 0 0, bytes5⟩)).setBank 0
      ⟨.ready, some ⟨0, [0, 1], [3], some 2⟩, rows3 ++ rows3, 1, 0, false⟩
    s.chosen = some (7, e) ∧ (s.bank 0).key.isSome = true ∧ s.lane 0 = none := by decide +kernel

/-- Two ready entries in order: the URGENT one before the ROUTINE one of a lower handle; and none ready for want of an
output cell. -/
theorem test_witness_PassDispatch_order :
    let s := gathered active
    let other : Entry := { active with stripe := 0x12#64, urgency := .routine }
    let two : State := { (s.setCell 3 (some ⟨5, .floor, .source 0 0 0, bytes5⟩)).setCell 4
      (some ⟨5, .floor, .source 1 0 0, bytes5⟩) with entries := [(5, other), (7, active)] }
    let starved : State := { s with cells := Vector.ofFn fun c => if c < 2 then s.cell c else some ⟨6, .floor, .floor, []⟩ }
    (two.rising ∧ two.oneEra) ∧ two.chosen = some (7, active)
      ∧ ({ two with entries := [(5, other)] } : State).chosen = some (5, other) ∧ starved.chosen = none :=
  ⟨⟨by decide +kernel, 0, by decide +kernel⟩, by decide +kernel⟩

/-- The entry absent, in each state, covered or not, under a park; the pass's cells as its dispatch leaves them. -/
theorem test_witness_PassCompletionDecidesResults :
    ∀ e ∈ [entryWith .closed 0 held2 [], entryWith .planning 0 held2 [], entryWith .queued 0 held2 [],
        entryWith .settling 0 held2 [], active, entryWith .active 0 held2 [0], entryWith .draining 0 held2 [],
        entryWith .draining 0 held2 [0]],
      ∀ check ∈ [none, checkOf true],
        let s := decoding e check
        (s.inReset = false ∧ s.lane 0 = some (pass0 check) ∧ ((pass0 check).outputs.map PassOutput.position).Nodup
          ∧ ((pass0 check).outputs.map PassOutput.cell).Nodup ∧ (∀ o ∈ (pass0 check).outputs, s.cell o.cell ≠ none)
          ∧ s.entry? 7 = some e ∧ e.submitters ≠ 0 ∧ s.rising)
        ∧ passBytes s (pass0 check) [1#8, 0#8] = (s.bytesOf 1).take 5
        ∧ passBytes s (pass0 check) [1#8, 0#8] ≠ (s.bytesOf 2).take 5 := by decide +kernel

/-- The last output kept of an ACTIVE entry, and a park that completes: the plan is given up. -/
theorem test_witness_PassCompletion_plan :
    let whole := decoding (entryWith .active 0 held2 [0]) none
    let parked : State := { decoding active none with park := some 7 }
    whole.park ≠ some 7 ∧ (entryWith .active 0 held2 [0]).allCovered = true ∧ active.allCovered = false
      ∧ whole.lane 1 = none ∧ parked.park = some 7 ∧ (parked.entry? 7).map Entry.state = some .active := by decide +kernel

theorem test_witness_PassAgrees : passAgrees (decoding active none) (pass0 none)
    ∧ passAgrees (decoding active (checkOf true)) (pass0 (checkOf true))
    ∧ ¬passAgrees (decoding active (checkOf false)) (pass0 (checkOf false)) := by
  refine ⟨fun c row h => by simp [pass0] at h, fun c row h => ?_, fun h => ?_⟩
  · obtain ⟨rfl, rfl⟩ : (1 : CellId) = c ∧ [1#8, 0#8] = row := by simpa [pass0, checkOf] using h
    decide +kernel
  · exact absurd (h 2 [1#8, 0#8] rfl) (by decide +kernel)

/-- A DRAINING entry with a second pass in flight, and with none. -/
theorem test_witness_PassCompletion_draining :
    let e := entryWith .draining 0 held2 []
    let done : State := { decoding e none with lanes := #v[none, none] }
    ({ decoding e none with lanes := #v[none, some (pass0 none)] } : State).busyWith 7 ∧ ¬done.busyWith 7
      ∧ ({ decoding active none with park := some 7 } : State).park = some 7
      ∧ ({ decoding active none with entries := [] } : State).entry? 7 = none := by
  simp only [State.busyWith_iff]
  decide +kernel

/-- R145: a landing wait begins where a pass completes with an output for a port without a landing buffer, and where a
port with such an output enters UP. -/
theorem test_wait_begins :
    (match exec (.passComplete 0) (decoding active none) with
      | .next t => decide ((t.port 0).outputs ≠ [] ∧ (t.port 0).wait = some 2000)
      | _ => false) = true
    ∧ (match exec (.linkUp 0) (onPort (outgoing active) fun q => { q with state := .down, link := false }) with
      | .next t => decide ((t.port 0).state = .up ∧ (t.port 0).wait = some 2000)
      | _ => false) = true := by decide +kernel

/-! Delivery and restoration. -/

theorem test_witness_PostLandingJoinsListTail :
    let s (n : Nat) := asks (onPort world fun q => { q with landing := List.replicate n 64#64 }) 6 [(24, 64#8)]
    (s 31).offers 0 6 ∧ ((s 31).port 0).landing.length = 31 ∧ (s 32).offers 0 6 ∧ ((s 32).port 0).landing.length = 32 := by
  decide +kernel

/-- The position past the last, a CLOSED entry, a HELD member, another port, a target not covered. -/
theorem test_witness_StoredAndRefuseCheckTarget :
    let s (e : Entry) (k pos : Byte) := names (withEntry e) k [(18, pos)]
    let away (k : Byte) := (s active k 3).modNode 4 fun x => { x with route := some 1 }
    ∀ k ∈ [7#8, 8#8],
      (∀ pos ∈ [0#8, 3#8, 4#8], (s active k pos).offers 0 k ∧ ((s active k pos).port 0).request.position = pos.toNat
        ∧ ((s active k pos).port 0).request.handle = 7 ∧ (s active k pos).entry? 7 = some active
        ∧ active.stripe = ((s active k pos).port 0).request.stripe)
      ∧ active.members.length = 4 ∧ active.members[0]? = some (heldOn 0 0) ∧ active.members[3]? = some (rebuilt [])
      ∧ (rebuilt []).state = .rebuilding ∧ (rebuilt []).target.bind Target.dest = some 4
      ∧ (away k).offers 0 k ∧ ((away k).node 4).route ≠ some 0 ∧ ((s active k 3).node 4).route = some 0
      ∧ (∃ o < (active.length + 65535) / 65536, o ∉ (target []).coverage)
      ∧ (s (entryWith .closed 0 held2 []) k 3).offers 0 k := by decide +kernel

/-- A position left lost, and none left. -/
theorem test_witness_StoredRestoresMember : ∀ third ∈ [held2, lostOn 2],
    let e := entryWith .settling 0 third [0]
    let s := names (withEntry e) 7 [(18, 3#8)]
    s.offers 0 7 ∧ (s.port 0).request.handle = 7 ∧ (s.port 0).request.position = 3 ∧ s.entry? 7 = some e
      ∧ e.stripe = (s.port 0).request.stripe ∧ e.state ≠ .closed ∧ e.submitters ≠ 0 ∧ e.members[3]? = some (rebuilt [0])
      ∧ (s.node 4).route = some 0 ∧ (∀ o < (e.length + 65535) / 65536, o ∈ (target [0]).coverage) := by decide +kernel

/-- An ACTIVE entry with its chunk landed, and a DRAINING one with nothing under way. -/
theorem test_witness_RefuseFragmentLosesDestination :
    ∀ e ∈ [entryWith .active 0 held2 [0], entryWith .draining 0 held2 [0]],
      let s := names (withEntry e) 8 [(18, 3#8)]
      s.offers 0 8 ∧ (s.port 0).request.handle = 7 ∧ (s.port 0).request.position = 3 ∧ s.entry? 7 = some e
        ∧ e.stripe = (s.port 0).request.stripe ∧ e.state ≠ .closed ∧ e.submitters ≠ 0
        ∧ e.members[3]? = some (rebuilt [0]) ∧ (rebuilt [0]).state = .rebuilding ∧ (target [0]).stored = false
        ∧ (s.node 4).route = some 0 := by decide +kernel

theorem test_witness_DeliveryBeginTakesOutputAndBuffer :
    let s := onPort (outgoing active) fun q => { q with landing := [64#64] }
    let may (s : State) : Prop := (s.port 0).state = .up
      ∧ (s.port 0).responses.countP Record.isLanded + s.deliveries.countP (fun d => decide (d.port = 0)) < 32
      ∧ (s.port 0).held = false ∧ ((s.port 0).budget.active = 0 ∨ (s.port 0).budget.used < (s.port 0).budget.active)
    s.inReset = false ∧ may s ∧ (s.port 0).outputs = [] ++ output3 :: [] ∧ (s.node output3.dest).state ≠ .down
      ∧ (s.port 0).landing = 64#64 :: [] ∧ ((outgoing active).port 0).landing = []
      ∧ ¬may (onPort s fun q => { q with held := true }) := by decide +kernel

/-- Owned and disowned, for a live, a DRAINING and a CLOSED entry, one closed ORPHANED too, and for none; the last chunk
of the target or not. -/
theorem test_witness_DeliveryEndLandsChunk :
    ∀ e ∈ [active, { active with length := 65537 }, entryWith .draining 0 held2 [], entryWith .closed 0 held2 [],
        { entryWith .closed 0 held2 [] with submitters := 0 }], ∀ owned ∈ [true, false],
      let s := delivering e owned
      s.inReset = false ∧ (s.deliveries.find? fun y => decide (y.output.cell = 2)) = some (delivery3 owned)
        ∧ (delivery3 owned).output.length ≤ 65536 ∧ s.entry? 7 = some e ∧ (e.state ≠ .closed → e.submitters ≠ 0)
        ∧ e.members[3]? = some (rebuilt []) ∧ s.rising ∧ ({ s with entries := [] } : State).entry? 7 = none := by decide +kernel

/-- R63: the end of the last delivery of an entry closed ORPHANED removes it. -/
theorem test_delivery_end_removes_orphaned :
    (match exec (.deliveryEnd 2) (delivering { entryWith .closed 0 held2 [] with submitters := 0 } false) with
      | .next t => t.entries.isEmpty
      | _ => false) = true := by decide +kernel

theorem test_witness_LandingTimeoutTakesDestination :
    let s := onPort (outgoing active) fun q => { q with wait := some 0 }
    s.inReset = false ∧ (s.port 0).wait = some s.timebase ∧ (s.port 0).outputs = [] ++ output3 :: []
      ∧ (s.node output3.dest).state ≠ .down ∧ s.entry? output3.handle = some active ∧ active.state ≠ .closed
      ∧ active.submitters ≠ 0 ∧ active.members[output3.position]? = some (rebuilt []) ∧ (target []).stored = false
      ∧ (target []).dest = some 4 := by decide +kernel

/-! The Planner and the banks. -/

/-- With a check member, with none to spare, and with too few sources. -/
theorem test_witness_PlannerChoicesMeetTheirRules :
    let e (third : Member) : Entry := { entryWith .queued 0 third [] with crossCheck := true }
    let found (s : State) (third : Member) := (s.chooseSources (e third) 2).map fun x => (x.sources, x.check, x.skipped)
    found (withEntry active) held2 = some ([0, 1], some 2, false) ∧ found (withEntry active) (lostOn 2) = some ([0, 1], none, true)
      ∧ found (nodeTo (withEntry active) 0 .down) (lostOn 2) = none
      ∧ ((withEntry active).destChoice (e (lostOn 2))).chosen = [(2, 5)] := by decide +kernel

/-- R77, R78, R80: with one eligible node two targets take it both, the second against the rack rule. -/
theorem test_one_node_takes_two_targets :
    let e : Entry := { entryWith .queued 0 (lostOn 2) [] with members := [heldOn 0 0, heldOn 1 0, lostOn 2, lostOn 3] }
    let c := (nodeTo { world with entries := [(7, e)] } 4 .down).destChoice e
    c.chosen = [(2, 5), (3, 5)] ∧ c.relaxed = true ∧ c.complete = true := by decide +kernel

/-- R92: a plan that lacks its bank seeks it under the key its revision formed, whatever STORED came since. -/
theorem test_incomplete_plan_keeps_key :
    let key : Key := ⟨0, [0, 1], [2, 3], none⟩
    let e : Entry := { entryWith .planning 0 held2 [] with plan := some ⟨some [0, 1], none, none, 0, 4, some key⟩ }
    let t := ({ withEntry e with attempt := true } : State).plan
    e.targetPositions = [3] ∧ ((t.entry? 7).bind Entry.plan).bind Plan.bank = some 1
      ∧ (t.bank 1).key = some key := by decide +kernel

/-- The table holds one QUEUED entry whose position 2 wants a destination. -/
def queued : Entry := entryWith .queued 0 (lostOn 2) []
def planning (f : State → State) : State := f { withEntry queued with attempt := true }

/-- Each need that can fail, and none failing with a bank to take. -/
theorem test_witness_PlanningAttemptDecidesQueuedEntry :
    let key : Key := ⟨0, [0, 1], [2, 3], none⟩
    let sources (s : State) := (s.chooseSources queued 2).map SourceChoice.sources
    let fits := planning id
    let noSources := planning fun s => nodeTo s 0 .down
    let noDestination := planning fun s => nodeTo s 5 .down
    let noCells := planning fun s => { s with cells := Vector.replicate 512 (some ⟨7, .floor, .floor, []⟩) }
    let noBank := planning fun s => { s with banks := Vector.replicate 8 ⟨.inverting, none, [], 1, 0, false⟩ }
    let hit := planning fun s => s.setBank 0 ⟨.ready, some key, [], 0, 0, false⟩
    (∀ s ∈ [fits, noSources, noDestination, noCells, noBank, hit],
        s.inReset = false ∧ s.attempt = true ∧ s.entries = [(7, queued)] ∧ queued.state = .queued)
      ∧ sources noSources = none
      ∧ (∀ s ∈ [fits, noDestination, noCells, noBank, hit], sources s = some [0, 1])
      ∧ (noDestination.destChoice queued).complete = false
      ∧ (∀ s ∈ [fits, noCells, noBank, hit], (s.destChoice queued).complete = true)
      ∧ noCells.freeCount < 4 ∧ (∀ s ∈ [fits, noBank, hit], 4 ≤ s.freeCount)
      ∧ (∀ b, (noBank.bank b).hits key = false)
      ∧ (∀ b, (noBank.bank b).state ≠ .empty ∧ ((noBank.bank b).state = .inverting ∨ (noBank.bank b).refs ≠ 0))
      ∧ (hit.bank 0).hits key = true ∧ (fits.bank 1).state = .empty
      ∧ world.attempt = false ∧ ({ world with attempt := true } : State).entries = [] := by decide +kernel

/-- A table in order, with a PLANNING entry to revise, ROUTINE and CRITICAL QUEUED ones behind it, and 16 slots held. -/
theorem test_witness_PlanningAttempt_order :
    let revising : Entry := { entryWith .planning 0 held2 [] with replan := true }
    let routine : Entry := { queued with stripe := 0x12#64, sequence := 1, urgency := .routine }
    let critical : Entry := { queued with stripe := 0x13#64, sequence := 2, urgency := .critical }
    let s : State := { withEntry active with attempt := true, entries := [(7, revising), (8, routine), (9, critical)] }
    let crowded : State := { s with
      entries := (List.range 16).map (fun h => (h, { active with stripe := 0x100 + h, urgency := .routine })) ++ [(16, critical)] }
    (s.inReset = false ∧ s.attempt = true ∧ s.rising ∧ s.oneEra)
      ∧ (crowded.inReset = false ∧ crowded.attempt = true ∧ crowded.rising ∧ crowded.oneEra)
      ∧ (s.inOrder fun e => decide (e.state = .planning)) = [7] ∧ (s.inOrder fun e => decide (e.state = .queued)) = [9, 8]
      ∧ crowded.slotsHeld = 16 ∧ crowded.walkQueue.starved = true ∧ crowded.youngestRoutine = some 15 :=
  ⟨⟨by decide +kernel, by decide +kernel, by decide +kernel, 0, by decide +kernel⟩,
    ⟨by decide +kernel, by decide +kernel, by decide +kernel, 0, by decide +kernel⟩, by decide +kernel⟩

/-- A bank at the head of the FIFO, to begin and to end, kept and discarded, with an entry waiting on it. -/
theorem test_witness_InversionsRunInFifoOrder :
    let key : Key := ⟨0, [0, 1], [3], none⟩
    let s (discard : Bool) (matrix : Option Inversion) : State :=
      { (withEntry (entryWith .planning 0 held2 [])).setBank 0 ⟨.inverting, some key, [], 1, 0, discard⟩ with
        inversionFifo := [0, 3], matrix := matrix }
    let working : Option Inversion := some ⟨⟨2, 2⟩, augmented ⟨2, 2⟩ [0, 1]⟩
    ∀ discard ∈ [true, false],
      (s discard none).inReset = false ∧ (s discard none).matrix = none ∧ (s discard none).inversionFifo = 0 :: [3]
        ∧ ((s discard none).bank 0).key = some key ∧ (s discard working).inversionFifo = 0 :: [3]
        ∧ ((s discard working).bank 0).key = some key ∧ ((s discard working).bank 0).discard = discard
        ∧ (s discard working).rising ∧ ((s discard working).entry? 7).map Entry.planComplete = some true := by decide +kernel

/-- R99, R100: the end of the inversion at the head begins the next one in the same step. -/
theorem test_inversion_end_begins_next :
    let key : Key := ⟨0, [0, 1], [3], none⟩
    let waits (s : State) (b : BankId) : State := s.setBank b ⟨.inverting, some key, [], 1, 0, false⟩
    let t := (waits (waits (withEntry active) 0) 3).endInversion ⟨⟨2, 2⟩, augmented ⟨2, 2⟩ [0, 1]⟩ 0 [3]
    t.matrix = some ⟨⟨2, 2⟩, augmented ⟨2, 2⟩ [0, 1]⟩ ∧ t.inversionFifo = [3] ∧ t.counters[14] = 1
      ∧ (t.bank 0).rows = rows3 := by decide +kernel

/-! Sweeps and coalesced notices. -/

/-- A member on the node (one loss, and one too many), a destination on it, and neither. -/
theorem test_witness_SweepVisitTreatsEntry : ∀ e ∈ [active, full], ∀ n ∈ [(0 : NodeId), 4, 5],
    let s : State := { withEntry e with sweep := some ⟨n, 7⟩ }
    s.inReset = false ∧ s.sweep = some ⟨n, 7⟩ ∧ (∀ he ∈ s.entries, 7 ≤ he.1 → he.1 < 7 → he.2.state = .closed) ∧ s.rising
      ∧ s.entry? 7 = some e ∧ e.state ≠ .closed ∧ e.submitters ≠ 0 := by decide +kernel

/-- A CLOSED notice, a VOID and a NODE-STATE notice to send, and a port that may send none. -/
theorem test_witness_PendingNoticesAreSentInOrder :
    let closed : Entry := { entryWith .closed 0 held2 [] with outcome := some .done, closedMarks := 1#4 }
    let owes : Entry := { active with members := [heldOn 0 0, heldOn 1 0, held2,
      { rebuilt [] with target := some { target [] with voids := [(3, 1), (5, 0)] } }] }
    let pair (s : State) (h : Handle) (pos : Position) (n : NodeId) : Bool :=
      ((s.entry? h).bind fun e => e.target? pos).any fun t => decide ((n, (0 : PortId)) ∈ t.voids)
    let marked := world.modNode 3 fun x => { x with marks := 1#4 }
    let may (s : State) : Prop := s.inReset = false ∧ (s.port 0).state = .up ∧ (s.port 0).responses.countP Record.isCoalesced < 32
      ∧ s.rising
    may (withEntry closed) ∧ (withEntry closed).entries = [] ++ (7, closed) :: [] ∧ PortSet.has closed.closedMarks 0 = true
      ∧ may (withEntry owes) ∧ (∀ he ∈ (withEntry owes).entries, PortSet.has he.2.closedMarks 0 = false)
      ∧ (withEntry owes).entry? 7 = some owes ∧ (withEntry owes).deliveries = [] ∧ pair (withEntry owes) 7 3 5 = true
      ∧ (∀ j < (3 : Position), ∀ k, pair (withEntry owes) 7 j k = false) ∧ (∀ k < (5 : NodeId), pair (withEntry owes) 7 3 k = false)
      ∧ (withEntry owes).voidItem 0 = some ⟨7, 0x11#64, 3, 5⟩ ∧ marked.entries = []
      ∧ may marked ∧ marked.voidItem 0 = none ∧ PortSet.has (marked.node 3).marks 0 = true
      ∧ (∀ k < (3 : NodeId), PortSet.has (marked.node k).marks 0 = false)
      ∧ ¬may (onPort marked fun q => { q with responses := List.replicate 32 (.void 1 2 3) }) := by decide +kernel

/-! Invariants. -/

/-- A state beyond reset in which the invariants hold and a step goes on. -/
theorem test_witness_EveryStepKeepsInvariants :
    let s : State := { withEntry active with pending := [.timebaseTick] }
    s.settingsHold ∧ s.tableHolds ∧ s.sharesHold ∧ ∃ t, step s = .next t := by
  refine ⟨?_, ?_, ?_, _, rfl⟩
  · unfold State.settingsHold
    decide +kernel
  · unfold State.tableHolds
    decide +kernel
  · unfold State.sharesHold
    decide +kernel

end Sys2Proof.Tests
end

section
/-! PROOFS. The arithmetic of 01: the field, the checksum, the generator and the rows of a bank (O56). -/

namespace Sys2Proof.Machine

/-! ### Doubling and the product's 0 and 1 (R1) -/

/-- The bit that is shifted out is bit 7. -/
theorem gfDouble_eq_shift_xor (a : Byte) :
    gfDouble a = (a <<< 1) ^^^ (if a.getLsbD 7 = true then 0x1D#8 else 0#8) := by
  have hmsb : a.msb = a.getLsbD 7 := BitVec.msb_eq_getLsbD_last a
  unfold gfDouble
  rw [hmsb]
  split
  · rfl
  · exact BitVec.xor_zero.symm

/-- With nothing left to multiply by, no term is added. -/
@[simp] theorem gfMulBits_zero_right (n : Nat) (a : Byte) : gfMulBits n a 0#8 = 0#8 := by
  induction n generalizing a with
  | zero => rfl
  | succ n ih => simp [gfMulBits, ih]

/-- Of the bits of 2 only the second is set, and its term is the double. -/
theorem gfMul_two (a : Byte) : gfMul a 2#8 = gfDouble a := by
  simp [gfMul, gfMulBits]

theorem gfMul_one_right (a : Byte) : gfMul a 1#8 = a := by rw [gfMul_comm, gfMul_one]

/-! ### The check value (R19) -/

/-- The published check value of CRC-32C: its nine bytes spell "123456789". -/
theorem crc32c_check_value :
    crc32c [0x31#8, 0x32#8, 0x33#8, 0x34#8, 0x35#8, 0x36#8, 0x37#8, 0x38#8, 0x39#8] = 0xE3069283#32 := by
  decide +kernel

/-! ### The generator (R3) -/

/-- Entry (i, j) of the generator: the unit matrix above, the inverses of R3 below. -/
theorem generatorRow_getElem? (c : Code) (i : Position) {j : Nat} (hj : j < c.k) : (generatorRow c i)[j]? =
    some (if i < c.k then (if j = i then 1 else 0)
      else gfInv (BitVec.ofNat 8 (i - c.k) ^^^ BitVec.ofNat 8 (c.m + j))) := by
  have hlen : j < (generatorRow c i).length := by rwa [length_generatorRow]
  rw [← generatorRow_getD c i hj, List.getD_eq_getElem _ _ hlen, List.getElem?_eq_getElem hlen]

/-- Settles O56: the field laws of R1 and R2, and for the rows of a bank `bankRow_rebuilds`, an ascending source set
having no position twice. -/
theorem fieldChecksumAndRowsAreRight : Obligations.FieldChecksumAndRowsAreRight := by
  unfold Obligations.FieldChecksumAndRowsAreRight
  refine ⟨fun a => (gfMul_two a).trans (gfDouble_eq_shift_xor a), fun a => ⟨gfMul_zero a, gfMul_one_right a⟩, gfMul_comm,
    fun a b c => ⟨gfMul_assoc a b c, gfMul_xor_right a b c⟩, fun _ ha => gfMul_inv ha, crc32c_check_value, ?_⟩
  intro c _ _ _ _ hn
  refine ⟨fun i _ j hj => generatorRow_getElem? c i hj, ?_⟩
  intro l pos data hascending hk hin _ hdata
  have hnodup : l.Nodup := hascending.imp Nat.ne_of_lt
  exact bankRow_rebuilds hn hnodup hk hin pos hdata

end Sys2Proof.Machine
end

section
/-! PROOFS. SET-PROFILE: its answers and the banks keyed on the profile it changes (O21). -/

namespace Sys2Proof.Machine

/-! ### Requests that act on tables alone -/

/-- A request whose decision leaves the ports as the taking of the record does: its port is answered, and the tables are
those the decision leaves. -/
theorem exec_tables {s t : State} {p : PortId} {k : Byte} {d : Request → State → Answer} (h : s.offers p k) (st : Status)
    (b : Body) (ht : t.ports = s.ports)
    (hd : d (s.port p).request (s.advance p) = ⟨{ t with ports := (s.advance p).ports }, st, b⟩) :
    withAnswer p k s d = .next (t.answered p k st b) := by
  have hport : ∀ q, t.port q = s.port q := fun q => by simp only [State.port, ht]
  rw [withAnswer_next (State.takes_of_offers h), hd]
  congr 1
  apply countRises_eq
  · intro q
    have hq : ({ t with ports := (s.advance p).ports } : State).port q = (s.advance p).port q := rfl
    have hp : ({ t with ports := (s.advance p).ports } : State).port p = (s.advance p).port p := rfl
    simp only [State.answered, port_respond, State.port_setPort, hq, hp, port_advance, hport, if_true]
    by_cases hqp : q = p
    · rw [if_pos hqp, if_pos hqp, hqp]
      exact Port.risen_answered k _ st b h.1.2.1 rfl rfl rfl
    · rw [if_neg hqp, if_neg hqp, if_neg hqp]
      exact Port.risen_of_line_eq rfl
  · rfl

/-! ### What SET-PROFILE decides (R6, R7) -/

/-- R6: the values refused. -/
theorem profileBad_iff (r : Request) : profileBad r = true ↔
    7 < r.profileIndex ∨ r.profileK < 2 ∨ 20 < r.profileK ∨ r.profileM < 1 ∨ 6 < r.profileM
      ∨ 24 < r.profileK + r.profileM := by
  simp only [profileBad, Bool.or_eq_true, decide_eq_true_eq, or_assoc]

theorem asFin_val {n : Nat} (i : Fin n) : asFin n i.val = some i := dif_pos i.isLt

/-! What is decided, one lemma per case of R6 and R7. -/

theorem setProfileDecide_bad {r : Request} (hbad : profileBad r = true) (s : State) :
    setProfileDecide r s = Answer.only s .invalid := if_pos hbad

section Decide

variable {r : Request} {i : ProfileId} {s : State} {old : Code}

theorem setProfileDecide_undefined (hgood : ¬profileBad r = true) (hi : i.val = r.profileIndex)
    (hcode : (s.profile i).code = none) : setProfileDecide r s =
    Answer.only (s.modProfile i fun x => { x with code := some ⟨r.profileK, r.profileM⟩ }) .ok := by
  simp [setProfileDecide, hgood, ← hi, asFin_val, hcode]

theorem setProfileDecide_same (hgood : ¬profileBad r = true) (hi : i.val = r.profileIndex)
    (hcode : (s.profile i).code = some ⟨r.profileK, r.profileM⟩) : setProfileDecide r s = Answer.only s .ok := by
  simp [setProfileDecide, hgood, ← hi, asFin_val, hcode]

theorem setProfileDecide_inUse (hgood : ¬profileBad r = true) (hi : i.val = r.profileIndex)
    (hcode : (s.profile i).code = some old) (hne : old ≠ ⟨r.profileK, r.profileM⟩) (husers : 0 < (s.profile i).users) :
    setProfileDecide r s = Answer.only s .inUse := by
  simp [setProfileDecide, hgood, ← hi, asFin_val, hcode, hne, husers]

theorem setProfileDecide_changed (hgood : ¬profileBad r = true) (hi : i.val = r.profileIndex)
    (hcode : (s.profile i).code = some old) (hne : old ≠ ⟨r.profileK, r.profileM⟩) (husers : (s.profile i).users = 0) :
    setProfileDecide r s = Answer.only (allBanks.foldl (State.emptyKeyed i)
      (s.modProfile i fun x => { x with code := some ⟨r.profileK, r.profileM⟩ })) .ok := by
  simp [setProfileDecide, hgood, ← hi, asFin_val, hcode, hne, husers]

end Decide

/-! ### The banks keyed on a profile (R102) -/

/-- R102: the bank is INVERTING for the profile, and its inversion does not run: emptied, it leaves the FIFO. -/
def State.leavesFifo (s : State) (i : ProfileId) (b : BankId) : Bool :=
  (s.bank b).keyedOn i && decide ((s.bank b).state = .inverting) && !s.running b

/-- R102: the bank is emptied. -/
def State.emptiesBank (s : State) (i : ProfileId) (b : BankId) : Bool :=
  (s.bank b).keyedOn i && decide ((s.bank b).state = .ready) || s.leavesFifo i b

/-- R102: the bank's inversion runs, and its result is to be discarded. -/
def State.discardsBank (s : State) (i : ProfileId) (b : BankId) : Bool :=
  (s.bank b).keyedOn i && decide ((s.bank b).state = .inverting) && s.running b

/-- R102: what becomes of the bank. -/
def State.bankAfter (s : State) (i : ProfileId) (b : BankId) : Bank :=
  if s.emptiesBank i b then (s.bank b).emptied
  else if s.discardsBank i b then { s.bank b with discard := true }
  else s.bank b

theorem Bank.keyedOn_iff (i : ProfileId) (x : Bank) : x.keyedOn i = true ↔ ∃ k, x.key = some k ∧ k.profile = i := by
  unfold Bank.keyedOn
  cases x.key <;> simp

theorem State.running_iff (s : State) (b : BankId) : s.running b = true ↔ s.inversionFifo.head? = some b := beq_iff_eq

theorem State.leavesFifo_iff (s : State) (i : ProfileId) (b : BankId) : s.leavesFifo i b = true ↔
    (∃ k, (s.bank b).key = some k ∧ k.profile = i) ∧ (s.bank b).state = .inverting ∧ ¬s.inversionFifo.head? = some b := by
  simp only [State.leavesFifo, Bool.and_eq_true, Bool.not_eq_true', ← Bool.not_eq_true, decide_eq_true_eq,
    Bank.keyedOn_iff, State.running_iff, and_assoc]

theorem State.emptiesBank_iff (s : State) (i : ProfileId) (b : BankId) : s.emptiesBank i b = true ↔
    (∃ k, (s.bank b).key = some k ∧ k.profile = i)
      ∧ ((s.bank b).state = .ready ∨ ((s.bank b).state = .inverting ∧ ¬s.inversionFifo.head? = some b)) := by
  simp only [State.emptiesBank, Bool.or_eq_true, Bool.and_eq_true, decide_eq_true_eq, Bank.keyedOn_iff,
    State.leavesFifo_iff, and_or_left]

/-- Of the banks emptied, those that leave the FIFO are the INVERTING ones. -/
theorem State.leavesFifo_iff_empties (s : State) (i : ProfileId) (b : BankId) :
    s.leavesFifo i b = true ↔ s.emptiesBank i b = true ∧ (s.bank b).state = .inverting := by
  rw [State.leavesFifo_iff, State.emptiesBank_iff]
  constructor
  · rintro ⟨hkey, hinv, hrun⟩
    exact ⟨⟨hkey, .inr ⟨hinv, hrun⟩⟩, hinv⟩
  · rintro ⟨⟨hkey, hready | ⟨_, hrun⟩⟩, hinv⟩
    · exact absurd (hready.symm.trans hinv) (by decide)
    · exact ⟨hkey, hinv, hrun⟩

theorem State.discardsBank_iff (s : State) (i : ProfileId) (b : BankId) : s.discardsBank i b = true ↔
    (∃ k, (s.bank b).key = some k ∧ k.profile = i) ∧ (s.bank b).state = .inverting ∧ s.inversionFifo.head? = some b := by
  simp only [State.discardsBank, Bool.and_eq_true, decide_eq_true_eq, Bank.keyedOn_iff, State.running_iff, and_assoc]

theorem setBank_self (s : State) (b : BankId) : s.setBank b (s.bank b) = s := by
  have hbanks : s.banks.set b (s.bank b) = s.banks := Vector.set_getElem_self b.isLt
  unfold State.setBank
  rw [hbanks]

/-- R102: the treatment of one bank, in every case. -/
theorem State.emptyKeyed_eq (i : ProfileId) (s : State) (b : BankId) : s.emptyKeyed i b =
    { s.setBank b (s.bankAfter i b) with
      inversionFifo := s.inversionFifo.filter fun x => !(s.leavesFifo i b && x == b)
      attempt := s.attempt || s.emptiesBank i b } := by
  unfold State.emptyKeyed State.bankAfter State.emptiesBank State.discardsBank State.leavesFifo
  cases hkey : (s.bank b).keyedOn i
  · simp [setBank_self]
  · cases hstate : (s.bank b).state
    case ready => simp [State.causeAttempt]
    case empty => simp [setBank_self]
    case inverting =>
      cases hrun : s.running b
      · simp [State.causeAttempt, State.setBank, bne]
      · simp [State.setBank]

/-- R102: what the state comes to when the banks of `l` have been treated. -/
structure BanksTreated (s : State) (i : ProfileId) (l : List BankId) (t : State) : Prop where
  rest : { s with banks := t.banks, inversionFifo := t.inversionFifo, attempt := t.attempt } = t
  bank : ∀ b, t.bank b = if b ∈ l then s.bankAfter i b else s.bank b
  fifo : t.inversionFifo = s.inversionFifo.filter fun b => !(s.leavesFifo i b && decide (b ∈ l))
  attempt : t.attempt = (s.attempt || l.any (s.emptiesBank i))

/-- A filter that keeps the first element keeps the head. -/
theorem head?_filter_of_keeps_head {α : Type} {l : List α} {f : α → Bool} (h : ∀ a, l.head? = some a → f a = true) :
    (l.filter f).head? = l.head? := by
  cases l with
  | nil => rfl
  | cons a l => rw [List.filter_cons_of_pos (h a rfl), List.head?_cons, List.head?_cons]

section Treated

variable {s t : State} {i : ProfileId} {l : List BankId}

/-- The bank at the head of the FIFO never leaves it, so the same inversion runs throughout. -/
theorem BanksTreated.running (h : BanksTreated s i l t) (b : BankId) : t.running b = s.running b := by
  unfold State.running
  rw [h.fifo, head?_filter_of_keeps_head]
  intro a ha
  have hrun : s.running a = true := (s.running_iff a).mpr ha
  simp [State.leavesFifo, hrun]

/-- A bank not treated yet is treated as it would be at the start. -/
theorem BanksTreated.leavesFifo (h : BanksTreated s i l t) {b : BankId} (hb : b ∉ l) :
    t.leavesFifo i b = s.leavesFifo i b := by
  simp only [State.leavesFifo, h.running, h.bank, if_neg hb]

theorem BanksTreated.emptiesBank (h : BanksTreated s i l t) {b : BankId} (hb : b ∉ l) :
    t.emptiesBank i b = s.emptiesBank i b := by
  simp only [State.emptiesBank, h.leavesFifo hb, h.bank, if_neg hb]

theorem BanksTreated.discardsBank (h : BanksTreated s i l t) {b : BankId} (hb : b ∉ l) :
    t.discardsBank i b = s.discardsBank i b := by
  simp only [State.discardsBank, h.running, h.bank, if_neg hb]

theorem BanksTreated.bankAfter (h : BanksTreated s i l t) {b : BankId} (hb : b ∉ l) :
    t.bankAfter i b = s.bankAfter i b := by
  simp only [State.bankAfter, h.emptiesBank hb, h.discardsBank hb, h.bank, if_neg hb]

theorem BanksTreated.start (s : State) (i : ProfileId) : BanksTreated s i [] s where
  rest := rfl
  bank := by simp
  fifo := by simp
  attempt := by simp

theorem BanksTreated.step (h : BanksTreated s i l t) {b : BankId} (hb : b ∉ l) :
    BanksTreated s i (b :: l) (t.emptyKeyed i b) := by
  rw [State.emptyKeyed_eq, h.bankAfter hb, h.leavesFifo hb, h.emptiesBank hb]
  refine ⟨?_, fun j => ?_, ?_, ?_⟩
  · rw [← h.rest]
    rfl
  · have hbank : (t.setBank b (s.bankAfter i b)).bank j =
        if j ∈ b :: l then s.bankAfter i j else s.bank j := by
      rw [State.bank_setBank, h.bank]
      by_cases hj : j = b
      · simp [hj]
      · simp [hj]
    exact hbank
  · show List.filter _ t.inversionFifo = _
    rw [h.fifo, List.filter_filter]
    refine List.filter_congr fun j _ => ?_
    by_cases hj : j = b
    · simp [hj, hb]
    · simp [hj]
  · show (t.attempt || s.emptiesBank i b) = _
    rw [h.attempt, List.any_cons, Bool.or_assoc, Bool.or_comm (l.any _)]

theorem BanksTreated.foldl (h : BanksTreated s i l t) {l' : List BankId} (hnodup : l'.Nodup) (hnew : ∀ b ∈ l', b ∉ l) :
    BanksTreated s i (l'.reverse ++ l) (l'.foldl (State.emptyKeyed i) t) := by
  induction l' generalizing l t with
  | nil => exact h
  | cons b l' ih =>
    obtain ⟨hb, hnodup'⟩ := List.nodup_cons.mp hnodup
    have hnew' : ∀ j ∈ l', j ∉ b :: l := fun j hj => by
      have hjb : j ≠ b := fun e => hb (e ▸ hj)
      simp [hjb, hnew j (List.mem_cons_of_mem b hj)]
    rw [List.reverse_cons, List.append_assoc]
    exact ih (h.step (hnew b List.mem_cons_self)) hnodup' hnew'

theorem State.foldl_emptyKeyed_treats (s : State) (i : ProfileId) :
    BanksTreated s i allBanks.reverse (allBanks.foldl (State.emptyKeyed i) s) := by
  have htreated := (BanksTreated.start s i).foldl (l' := allBanks) (by decide) (by simp)
  rwa [List.append_nil] at htreated

theorem BanksTreated.bank_of_empties (h : BanksTreated s i l t) {b : BankId} (hb : b ∈ l)
    (he : s.emptiesBank i b = true) : t.bank b = (s.bank b).emptied := by
  rw [h.bank, if_pos hb, State.bankAfter, if_pos he]

theorem BanksTreated.bank_of_discards (h : BanksTreated s i l t) {b : BankId} (hb : b ∈ l)
    (hd : s.discardsBank i b = true) : t.bank b = { s.bank b with discard := true } := by
  obtain ⟨_, hinv, hrun⟩ := (s.discardsBank_iff i b).mp hd
  have he : ¬s.emptiesBank i b = true := fun he => by
    obtain ⟨_, hready | ⟨_, hwaits⟩⟩ := (s.emptiesBank_iff i b).mp he
    · exact absurd (hready.symm.trans hinv) (by decide)
    · exact hwaits hrun
  rw [h.bank, if_pos hb, State.bankAfter, if_neg he, if_pos hd]

theorem BanksTreated.bank_of_not_keyed (h : BanksTreated s i l t) {b : BankId}
    (hkey : ¬∃ k, (s.bank b).key = some k ∧ k.profile = i) : t.bank b = s.bank b := by
  have he : ¬s.emptiesBank i b = true := fun he => hkey ((s.emptiesBank_iff i b).mp he).1
  have hd : ¬s.discardsBank i b = true := fun hd => hkey ((s.discardsBank_iff i b).mp hd).1
  rw [h.bank, State.bankAfter, if_neg he, if_neg hd, ite_self]

theorem BanksTreated.mem_fifo (h : BanksTreated s i l t) {b : BankId} (hb : b ∈ l) :
    b ∈ t.inversionFifo ↔ b ∈ s.inversionFifo ∧ ¬s.leavesFifo i b = true := by
  simp [h.fifo, hb]

theorem BanksTreated.fifo_sublist (h : BanksTreated s i l t) : t.inversionFifo.Sublist s.inversionFifo :=
  h.fifo ▸ List.filter_sublist

theorem BanksTreated.attempt_of_empties (h : BanksTreated s i l t) {b : BankId} (hb : b ∈ l)
    (he : s.emptiesBank i b = true) : t.attempt = true := by
  rw [h.attempt, List.any_eq_true.mpr ⟨b, hb, he⟩, Bool.or_true]

theorem BanksTreated.attempt_of_none (h : BanksTreated s i l t) (hnone : ∀ b, ¬s.emptiesBank i b = true) :
    t.attempt = s.attempt := by
  have hany : l.any (s.emptiesBank i) = false := List.any_eq_false.mpr fun b _ => hnone b
  rw [h.attempt, hany, Bool.or_false]

end Treated

/-! ### The request -/

theorem exec_setProfile (p : PortId) (s : State) : exec (.setProfile p) s = withAnswer p 15 s setProfileDecide := rfl

/-- R7, R102: a profile without users takes another code, and the banks are treated from the state that has it. -/
theorem exec_setProfile_changed {s : State} {p : PortId} {i : ProfileId} {old : Code} (h : s.offers p 15)
    (hgood : ¬profileBad (s.port p).request = true) (hi : i.val = (s.port p).request.profileIndex)
    (hcode : (s.profile i).code = some old)
    (hne : old ≠ ⟨(s.port p).request.profileK, (s.port p).request.profileM⟩) (husers : (s.profile i).users = 0) :
    ∃ t : State, exec (.setProfile p) s = .next (t.answered p 15 .ok .none)
      ∧ BanksTreated (s.modProfile i fun x =>
          { x with code := some ⟨(s.port p).request.profileK, (s.port p).request.profileM⟩ }) i allBanks.reverse t := by
  have hd := setProfileDecide_changed (s := s.advance p) hgood hi hcode hne husers
  have htreated := State.foldl_emptyKeyed_treats ((s.advance p).modProfile i fun x =>
    { x with code := some ⟨(s.port p).request.profileK, (s.port p).request.profileM⟩ }) i
  generalize allBanks.foldl (State.emptyKeyed i) _ = u at hd htreated
  obtain ⟨hrest, hbank, hfifo, hattempt⟩ := htreated
  refine ⟨{ u with ports := s.ports }, ?_, ?_, hbank, hfifo, hattempt⟩
  · refine exec_tables h .ok .none rfl (hd.trans ?_)
    rw [← hrest]
    rfl
  · rw [← hrest]
    rfl

/-- Settles O21, by the cases of R7; what becomes of the banks when the code changes is `BanksTreated`. -/
theorem setProfileDefinesOrRefuses : Obligations.SetProfileDefinesOrRefuses := by
  unfold Obligations.SetProfileDefinesOrRefuses
  intro s p h
  dsimp only
  rw [exec_setProfile, ← profileBad_iff]
  refine ⟨fun hbad => ?_, fun i hi hgood => ⟨fun hcode => ?_, fun hcode => ?_,
    fun old hcode hne => ⟨fun husers => ?_, fun husers => ?_⟩⟩⟩
  · exact exec_only h .invalid .none (setProfileDecide_bad hbad _)
  · exact exec_tables h .ok .none rfl (setProfileDecide_undefined (s := s.advance p) hgood hi hcode)
  · exact exec_only h .ok .none (setProfileDecide_same (s := s.advance p) hgood hi hcode)
  · exact exec_only h .inUse .none (setProfileDecide_inUse (s := s.advance p) hgood hi hcode hne husers)
  · obtain ⟨t, hexec, ht⟩ := exec_setProfile_changed h hgood hi hcode hne husers
    have hall : ∀ b, b ∈ allBanks.reverse := by decide
    have hempties := State.emptiesBank_iff s i
    have hdiscards := State.discardsBank_iff s i
    have hleaves := State.leavesFifo_iff_empties s i
    refine ⟨t, hexec, ht.rest, fun b => ⟨fun he => ?_, fun hkey hinv hrun => ?_, ht.bank_of_not_keyed⟩, fun b => ?_,
      ht.fifo_sublist, ?_, fun hnone => ?_⟩
    · exact ht.bank_of_empties (hall b) ((hempties b).mpr he)
    · exact ht.bank_of_discards (hall b) ((hdiscards b).mpr ⟨hkey, hinv, hrun⟩)
    · rw [← hempties, ← hleaves]
      exact ht.mem_fifo (hall b)
    · rintro ⟨b, he⟩
      exact ht.attempt_of_empties (hall b) ((hempties b).mpr he)
    · exact ht.attempt_of_none fun b he => hnone b ((hempties b).mp he)

end Sys2Proof.Machine
end

section
/-! PROOFS. What the release of a cell reads of the Repair Table, and what becomes of an entry several of whose targets lose one node (R124, R146). -/

namespace Sys2Proof.Machine

/-! ### What R124 reads of the Repair Table -/

/-- What the release of a cell reads of an entry: its plan, its class and its sequence. -/
def Entry.standing (e : Entry) : Option Plan × Urgency × U32 := (e.plan, e.urgency, e.sequence)

theorem Entry.standing_eq_iff {e f : Entry} :
    e.standing = f.standing ↔ e.plan = f.plan ∧ e.urgency = f.urgency ∧ e.sequence = f.sequence := by
  simp only [Entry.standing, Prod.mk.injEq]

/-- The two tables hold entries of one standing at each handle. -/
def sameStandings (s s' : State) : Prop := ∀ k, (s'.entry? k).map Entry.standing = (s.entry? k).map Entry.standing

theorem sameStandings.symm {s s' : State} (h : sameStandings s s') : sameStandings s' s := fun k => (h k).symm

theorem sameStandings.entry {s s' : State} (h : sameStandings s s') {k : Handle} {e : Entry} (he : s.entry? k = some e) :
    ∃ f, s'.entry? k = some f ∧ f.standing = e.standing := by
  have hk := h k
  rw [he, Option.map_some, Option.map_eq_some_iff] at hk
  exact hk

theorem sameStandings.setEntry {s : State} {h : Handle} {e f : Entry} (he : s.entry? h = some e)
    (hf : f.standing = e.standing) : sameStandings s (s.setEntry h f) := fun k => by
  rw [State.entry_setEntry]
  by_cases hk : k = h
  · rw [if_pos hk, hk, he, Option.map_some, Option.map_some, hf]
  · rw [if_neg hk]

theorem State.rising_setEntry {s : State} (hr : s.rising) (h : Handle) (e : Entry) : (s.setEntry h e).rising :=
  Table.sorted_put s.entries h e hr

theorem State.short_iff {s : State} (hr : s.rising) (k : Handle) (e : Entry) :
    s.short (k, e) ↔ s.entry? k = some e ∧ ∃ pl, e.plan = some pl ∧ s.floorCount k < pl.floorSize :=
  and_congr ⟨State.entry_of_mem hr, Table.mem_of_find⟩ Iff.rfl

section Standings

variable {s s' t : State}

theorem State.floorCount_congr (hc : s'.cells = s.cells) (k : Handle) : s'.floorCount k = s.floorCount k := by
  unfold State.floorCount State.cellCount
  rw [hc]

theorem sameStandings.short (h : sameStandings s s') (hr : s.rising) (hr' : s'.rising) (hc : s'.cells = s.cells)
    {k : Handle} {e : Entry} (he : s.short (k, e)) : ∃ f, s'.short (k, f) ∧ f.standing = e.standing := by
  obtain ⟨hfind, pl, hplan, hlt⟩ := (State.short_iff hr k e).mp he
  obtain ⟨f, hf, hst⟩ := h.entry hfind
  obtain ⟨hplan', -, -⟩ := Entry.standing_eq_iff.mp hst
  refine ⟨f, (State.short_iff hr' k f).mpr ⟨hf, pl, hplan'.trans hplan, ?_⟩, hst⟩
  rwa [State.floorCount_congr hc]

theorem sameStandings.hasHome (h : sameStandings s s') (hc : s'.cells = s.cells) {x : Cell} (hx : s.hasHome x) :
    s'.hasHome x := by
  obtain ⟨hfloor, e, pl, he, hplan, hle⟩ := hx
  obtain ⟨f, hf, hst⟩ := h.entry he
  obtain ⟨hplan', -, -⟩ := Entry.standing_eq_iff.mp hst
  refine ⟨hfloor, f, pl, hf, hplan'.trans hplan, ?_⟩
  rwa [State.floorCount_congr hc]

theorem comesFirst_of_standing {i j : Handle} {e e' f f' : Entry} (he : e'.standing = e.standing)
    (hf : f'.standing = f.standing) (h : comesFirst (i, e) (j, f)) : comesFirst (i, e') (j, f') := by
  obtain ⟨-, hu, hs⟩ := Entry.standing_eq_iff.mp he
  obtain ⟨-, hu', hs'⟩ := Entry.standing_eq_iff.mp hf
  rw [comesFirst_congr hu hs, comesFirst_congr_right hu' hs']
  exact h

/-- R124: where a cell goes depends on the cells and on the entries' standings. -/
theorem givesUpCell.of_standings {c : CellId} (k : givesUpCell s' t c) (h : sameStandings s s') (hr : s.rising)
    (hr' : s'.rising) (hc : s'.cells = s.cells) : givesUpCell s t c := by
  have hcell : s'.cell = s.cell := by
    unfold State.cell
    rw [hc]
  have hhome : ∀ {x}, ¬s.hasHome x → ¬s'.hasHome x := fun hn hx => hn (h.symm.hasHome hc.symm hx)
  obtain ⟨hother, hfree, htaken⟩ := k
  rw [hcell] at hother hfree htaken
  refine ⟨hother, hfree, fun x hx => ?_⟩
  obtain ⟨hback, hfirst, hsome, hnone⟩ := htaken x hx
  refine ⟨fun hh => hback (h.hasHome hc hh), fun hn he hshort hall => ?_, fun hn ⟨he, hshort⟩ => ?_,
    fun hn hno => hnone (hhome hn) ?_⟩
  · obtain ⟨f, hf, hst⟩ := h.short hr hr' hc hshort
    refine hfirst (hhome hn) (he.1, f) hf fun j hj => ?_
    obtain ⟨g, hg, hst'⟩ := h.symm.short hr' hr hc.symm hj
    refine (hall (j.1, g) hg).imp (fun heq => ?_) (comesFirst_of_standing hst hst'.symm)
    obtain ⟨hfindj, -⟩ := (State.short_iff hr' j.1 j.2).mp hj
    obtain ⟨hfindf, -⟩ := (State.short_iff hr' he.1 f).mp hf
    have hkey : j.1 = he.1 := by rw [← heq]
    rw [hkey, hfindf] at hfindj
    exact Prod.ext hkey (Option.some.inj hfindj).symm
  · obtain ⟨f, hf, -⟩ := h.short hr hr' hc hshort
    obtain ⟨j, hj, hcellj⟩ := hsome (hhome hn) ⟨_, hf⟩
    obtain ⟨g, hg, -⟩ := h.symm.short hr' hr hc.symm hj
    exact ⟨_, hg, hcellj⟩
  · rintro ⟨j, hj⟩
    obtain ⟨g, hg, -⟩ := h.symm.short hr' hr hc.symm hj
    exact hno ⟨_, hg⟩

theorem releases.of_standings {l : List CellId} (k : releases s' l t) (h : sameStandings s s') (hr : s.rising)
    (hr' : s'.rising) (hc : s'.cells = s.cells) (ha : s.attempt = true → s'.attempt = true) : releases s l t := by
  induction l generalizing s s' with
  | nil => exact ⟨k.1.trans hc, fun hs => k.2 (ha hs)⟩
  | cons c l ih =>
    obtain ⟨u, hgives, hrest, hattempt, hl⟩ := k
    have hentries : u.entries = s'.entries := by rw [← hrest]
    refine ⟨{ s with cells := u.cells, attempt := u.attempt }, (hgives.of_standings h hr hr' hc).final rfl id, rfl,
      fun hs => hattempt (ha hs), ih hl (fun j => ?_) hr (by rwa [State.rising, hentries]) rfl id⟩
    refine Eq.trans ?_ (h j)
    unfold State.entry?
    rw [hentries]

end Standings

/-- R124: cells go the same ways where an entry has taken other members. -/
theorem releases.of_setEntry {s t : State} {l : List CellId} {h : Handle} {e f : Entry}
    (k : releases (s.setEntry h f) l t) (hr : s.rising) (he : s.entry? h = some e) (hf : f.standing = e.standing) :
    releases s l t :=
  k.of_standings (.setEntry he hf) hr (State.rising_setEntry hr h f) rfl id

/-! ### Several targets of one entry lose one node (R146) -/

/-- R146 step 1: a port without the queued outputs of an entry at the positions that `lost` names. -/
def Port.withoutOutputs (h : Handle) (lost : Position → Bool) (q : Port) : Port :=
  { q with outputs := q.outputs.filter fun o => !(decide (o.handle = h) && lost o.position) }

/-- R146 step 2: a delivery, disowned if it is one of an entry at a position that `lost` names. -/
def Delivery.disowned (h : Handle) (lost : Position → Bool) (d : Delivery) : Delivery :=
  if d.output.handle = h ∧ lost d.output.position = true then { d with owned := false } else d

theorem lossState_eq (s : State) (h : Handle) (lost : Position → Bool) (n : NodeId) (count : Nat) :
    lossState s h lost n count =
      { s.setNode n { s.node n with load := (s.node n).load - count } with
        attempt := s.attempt || decide (0 < count)
        deliveries := s.deliveries.map (Delivery.disowned h lost)
        ports := mapVec (Port.withoutOutputs h lost) s.ports } := rfl

section

variable (h : Handle) (lost lost' : Position → Bool)

theorem Port.withoutOutputs_none (q : Port) : q.withoutOutputs h (fun _ => false) = q := by
  simp [Port.withoutOutputs]

theorem Port.withoutOutputs_twice (q : Port) :
    (q.withoutOutputs h lost).withoutOutputs h lost' = q.withoutOutputs h fun j => lost j || lost' j := by
  simp only [Port.withoutOutputs, List.filter_filter]
  congr 2
  funext o
  rw [Bool.and_or_distrib_left, Bool.not_or, Bool.and_comm]

@[simp] theorem Delivery.disowned_output (d : Delivery) : (d.disowned h lost).output = d.output := by
  unfold Delivery.disowned
  split <;> rfl

theorem Delivery.disowned_none (d : Delivery) : d.disowned h (fun _ => false) = d := by
  simp [Delivery.disowned]

theorem Delivery.disowned_twice (d : Delivery) :
    (d.disowned h lost).disowned h lost' = d.disowned h fun j => lost j || lost' j := by
  unfold Delivery.disowned
  by_cases hh : d.output.handle = h
  · cases hl : lost d.output.position
    · simp [hh, hl]
    · simp [hh, hl]
  · simp [hh]

end

theorem State.port_congr {s t : State} (hp : t.ports = s.ports) : t.port = s.port := by
  unfold State.port
  rw [hp]

theorem mapVec_id {α : Type} {n : Nat} {f : α → α} (hf : ∀ a, f a = a) (v : Vector α n) : mapVec f v = v := by
  refine Vector.ext fun i hi => ?_
  simp [mapVec, hf]

theorem mapVec_mapVec {α β γ : Type} {n : Nat} (f : α → β) (g : β → γ) (v : Vector α n) :
    mapVec g (mapVec f v) = mapVec (fun a => g (f a)) v := by
  refine Vector.ext fun i hi => ?_
  simp [mapVec]

theorem setNode_self (s : State) (n : NodeId) : s.setNode n (s.node n) = s := by
  have hnodes : s.nodes.set n (s.node n) = s.nodes := Vector.set_getElem_self n.isLt
  unfold State.setNode
  rw [hnodes]

theorem lossState_nothing (s : State) (h : Handle) (n : NodeId) : lossState s h (fun _ => false) n 0 = s := by
  have hports := mapVec_id (Port.withoutOutputs_none h) s.ports
  have hdeliveries := List.map_id'' (Delivery.disowned_none h) s.deliveries
  have hnode := setNode_self s n
  simp only [lossState_eq, Nat.sub_zero, hports, hdeliveries, hnode, Nat.lt_irrefl, decide_false, Bool.or_false]

theorem node_lossState (s : State) (h : Handle) (lost : Position → Bool) (n : NodeId) (count : Nat) (k : NodeId) :
    (lossState s h lost n count).node k =
      if k = n then { s.node n with load := (s.node n).load - count } else s.node k := State.node_setNode ..

theorem lossState_lossState (s : State) (h : Handle) (lost lost' : Position → Bool) (n : NodeId) (count count' : Nat) :
    lossState (lossState s h lost n count) h lost' n count' =
      lossState s h (fun j => lost j || lost' j) n (count + count') := by
  have hattempt : (s.attempt || decide (0 < count) || decide (0 < count')) = (s.attempt || decide (0 < count + count')) := by
    simp only [Bool.or_assoc, Nat.add_pos_iff_pos_or_pos, Bool.decide_or]
  have hports : mapVec (Port.withoutOutputs h lost') (mapVec (Port.withoutOutputs h lost) s.ports) =
      mapVec (Port.withoutOutputs h fun j => lost j || lost' j) s.ports := by
    rw [mapVec_mapVec]
    exact congrArg (mapVec · s.ports) (funext (Port.withoutOutputs_twice h lost lost'))
  have hdeliveries : (s.deliveries.map (Delivery.disowned h lost)).map (Delivery.disowned h lost') =
      s.deliveries.map (Delivery.disowned h fun j => lost j || lost' j) := by
    rw [List.map_map]
    exact congrArg (List.map · s.deliveries) (funext (Delivery.disowned_twice h lost lost'))
  rw [lossState_eq (lossState ..), node_lossState, if_pos rfl]
  simp only [lossState_eq, State.setNode, hattempt, hports, hdeliveries, Vector.set_set, Nat.sub_sub]

theorem voidOwed_lossState (s : State) (h : Handle) (lost : Position → Bool) (n : NodeId) (count : Nat) (pos : Position)
    (k : NodeId) (t : Target) : voidOwed (lossState s h lost n count) h pos k t ↔ voidOwed s h pos k t := by
  simp only [voidOwed, lossState_eq, List.mem_map, exists_exists_and_eq_and, Delivery.disowned_output]

theorem route_lossState (s : State) (h : Handle) (lost : Position → Bool) (n : NodeId) (count : Nat) (k : NodeId) :
    ((lossState s h lost n count).node k).route = (s.node k).route := by
  rw [node_lossState]
  split
  · next hk => rw [hk]
  · rfl

/-- R44: a disowned delivery is a delivery still, so the VOIDs owed are those owed before. -/
theorem unbound_lossState (s : State) (h : Handle) (lost : Position → Bool) (n : NodeId) (count : Nat) (pos : Position)
    (k : NodeId) (t : Target) : t.unbound (lossState s h lost n count) h pos k = t.unbound s h pos k := by
  simp only [Target.unbound, voidsAfter, route_lossState, voidOwed_lossState]

/-- A member at position `j` after its target, if `lost` names the position, has lost the node `n`. -/
def Member.unbinding (s : State) (h : Handle) (lost : Position → Bool) (n : NodeId) (j : Position) (m : Member) : Member :=
  if lost j = true then { m with target := m.target.map (Target.unbound s h j n) } else m

/-- The entry after its targets at the positions that `lost` names have lost the node `n`. -/
def Entry.unbinding (s : State) (h : Handle) (lost : Position → Bool) (n : NodeId) (e : Entry) : Entry :=
  { e with members := e.members.mapIdx (Member.unbinding s h lost n) }

/-- R146 steps 1 to 5: from `s` to `t` the targets of the entry `e` at `h`, at the positions that `lost` names and `count`
in number, have lost the node `n`. -/
def DestsLost (s t : State) (h : Handle) (e : Entry) (n : NodeId) (lost : Position → Bool) (count : Nat) : Prop :=
  ∃ v, afterRelease (lossState s h lost n count) v (queuedCell s h lost) ∧ t = v.setEntry h (e.unbinding s h lost n)

theorem Entry.getElem?_unbinding (s : State) (h : Handle) (lost : Position → Bool) (n : NodeId) (e : Entry) (j : Position) :
    (e.unbinding s h lost n).members[j]? = e.members[j]?.map (Member.unbinding s h lost n j) := List.getElem?_mapIdx ..

theorem Member.unbinding_of_not {s : State} {h : Handle} {lost : Position → Bool} {n : NodeId} {j : Position}
    (hj : lost j = false) (m : Member) : m.unbinding s h lost n j = m := by
  simp [Member.unbinding, hj]

theorem Entry.unbinding_nothing (s : State) (h : Handle) (n : NodeId) (e : Entry) :
    e.unbinding s h (fun _ => false) n = e := by
  have hmembers : e.members.mapIdx (Member.unbinding s h (fun _ => false) n) = e.members := by
    refine List.ext_getElem? fun i => ?_
    rw [List.getElem?_mapIdx]
    cases e.members[i]? <;> simp [Member.unbinding_of_not]
  unfold Entry.unbinding
  rw [hmembers]

/-- One more target loses the node. -/
theorem Entry.unbinding_set (s : State) (h : Handle) (lost : Position → Bool) (n : NodeId) {e : Entry} {j : Position}
    {m : Member} {t : Target} (hj : lost j = false) (hm : e.members[j]? = some m) (ht : m.target = some t) :
    (e.members.mapIdx (Member.unbinding s h lost n)).set j { m with target := some (t.unbound s h j n) } =
      e.members.mapIdx (Member.unbinding s h (fun i => lost i || (i == j)) n) := by
  have hlt : j < e.members.length := (List.getElem?_eq_some_iff.mp hm).1
  refine List.ext_getElem? fun i => ?_
  rw [List.getElem?_set, List.getElem?_mapIdx, List.getElem?_mapIdx]
  by_cases hij : j = i
  · subst hij
    simp only [if_true, List.length_mapIdx, hlt, hm, Option.map_some, Member.unbinding, hj, Bool.false_or, beq_self_eq_true, ht]
  · rw [if_neg hij]
    cases e.members[i]? <;> simp [Member.unbinding, Ne.symm hij]

/-- The outputs that a position frees after others were freed. -/
theorem queuedCell_lossState {s t : State} {h : Handle} {lost : Position → Bool} {n : NodeId} {count : Nat} {j : Position}
    (ht : t.ports = (lossState s h lost n count).ports) (hj : lost j = false) (c : CellId) :
    queuedCell s h lost c ∨ queuedCell t h (· == j) c ↔ queuedCell s h (fun i => lost i || (i == j)) c := by
  have houtputs : ∀ q o, o ∈ (t.port q).outputs ↔ o ∈ (s.port q).outputs ∧ ¬(o.handle = h ∧ lost o.position = true) := by
    intro q o
    have hport : t.port q = (s.port q).withoutOutputs h lost := by
      rw [State.port_congr ht]
      exact mapVec_get ..
    simp only [hport, Port.withoutOutputs, List.mem_filter, Bool.not_eq_true', Bool.and_eq_false_iff, decide_eq_false_iff_not,
      not_and_or, Bool.not_eq_true]
  simp only [queuedCell, houtputs, ← exists_or, beq_iff_eq, Bool.or_eq_true]
  refine exists_congr fun q => exists_congr fun o => ?_
  by_cases ho : o.position = j
  · rw [ho, hj]
    simp
  · simp [ho]

theorem DestsLost.start {s : State} {h : Handle} (e : Entry) (n : NodeId) :
    DestsLost s (s.setEntry h e) h e n (fun _ => false) 0 := by
  refine ⟨s, ?_, by rw [Entry.unbinding_nothing]⟩
  rw [lossState_nothing]
  exact s.releaseAll_after [] fun c => by simp [queuedCell]

section

variable {s t : State} {h : Handle} {e e0 : Entry} {n : NodeId} {lost : Position → Bool} {count : Nat}

theorem DestsLost.entry (k : DestsLost s t h e n lost count) : t.entry? h = some (e.unbinding s h lost n) := by
  obtain ⟨v, -, rfl⟩ := k
  rw [State.entry_setEntry, if_pos rfl]

/-- A target that is bound for the node loses it. -/
theorem DestsLost.lose (k : DestsLost s t h e n lost count) (hr : s.rising) (he : s.entry? h = some e0)
    (hst : e.standing = e0.standing) {j : Position} (hj : lost j = false)
    (hd : (e.target? j).bind Target.dest = some n) :
    DestsLost s (t.dropDestination true h j) h e n (fun i => lost i || (i == j)) (count + 1) := by
  obtain ⟨x, hx, hdest⟩ := Option.bind_eq_some_iff.mp hd
  obtain ⟨m, hm, hmt, hstored⟩ := Entry.target?_some.mp hx
  have hmember : (e.unbinding s h lost n).members[j]? = some m := by
    rw [Entry.getElem?_unbinding, hm, Option.map_some, Member.unbinding_of_not hj]
  obtain ⟨w, ⟨hwrest, ⟨l', hmem', hrel'⟩, -⟩, hdrop⟩ :=
    State.dropDestination_spec k.entry hmember hmt hstored hdest
  obtain ⟨v, ⟨hvrest, ⟨l, hmem, hrel⟩, -⟩, rfl⟩ := k
  have hventries : v.entries = s.entries := by rw [← hvrest]; rfl
  have hvports : v.ports = (lossState s h lost n count).ports := by rw [← hvrest]
  have hunbound : x.unbound (v.setEntry h (e.unbinding s h lost n)) h j n = x.unbound s h j n := by
    rw [← unbound_lossState s h lost n count, ← hvrest]
    rfl
  have hattempt : w.attempt = true := hrel'.attempt (Bool.or_true _)
  have hrel'' : releases v l' w := by
    have hvr : v.rising := by rwa [State.rising, hventries]
    have hve : v.entry? h = some e0 := by rwa [State.entry?, hventries]
    refine releases.of_setEntry (f := e.unbinding s h lost n) ?_ hvr hve hst
    exact hrel'.congr rfl rfl (fun _ => Bool.or_true _) rfl id
  refine ⟨{ w with entries := s.entries }, ⟨?_, ⟨l ++ l', fun c => ?_, ?_⟩, ?_⟩, ?_⟩
  · rw [← lossState_lossState, ← hwrest, ← hvrest]
    rfl
  · rw [List.mem_append, hmem, hmem']
    exact queuedCell_lossState hvports hj c
  · refine (hrel.append hrel'' hventries).raised.congr rfl rfl (fun _ => rfl) rfl fun _ => hattempt
  · have hcaused : (lossState s h (fun i => lost i || (i == j)) n (count + 1)).attempt = true := by simp [lossState]
    rw [hcaused]
    exact ⟨fun _ => .inl rfl, fun _ => hattempt⟩
  · have hwentries : w.entries = Table.put s.entries h (e.unbinding s h lost n) := by
      rw [← hwrest, ← hventries]
      rfl
    rw [hdrop, hunbound, Entry.unbinding, Entry.unbinding_set s h lost n hj hm hmt]
    unfold State.setEntry
    rw [hwentries, Table.put_put]
    rfl

end

/-- The target of the position is bound for the node. -/
def Entry.isBound (n : NodeId) (e : Entry) (j : Position) : Bool := decide ((e.target? j).bind Target.dest = some n)

section

variable {s t : State} {h : Handle} {e e0 : Entry} {n : NodeId} {lost : Position → Bool} {count : Nat}

theorem DestsLost.congr (k : DestsLost s t h e n lost count) {lost' : Position → Bool} {count' : Nat}
    (hl : ∀ j, lost j = lost' j) (hc : count = count') : DestsLost s t h e n lost' count' := by
  rwa [← hc, ← funext hl]

/-- A target with no destination has none to lose. -/
theorem DestsLost.idle (k : DestsLost s t h e n lost count) {j : Position} (hj : lost j = false)
    (hd : (e.target? j).bind Target.dest = none) : t.dropDestination true h j = t := by
  have htarget : (e.unbinding s h lost n).target? j = e.target? j := by
    refine Entry.target?_congr ?_
    rw [Entry.getElem?_unbinding]
    cases e.members[j]? <;> simp [Member.unbinding_of_not hj]
  unfold State.dropDestination
  simp only [k.entry, htarget]
  cases hx : e.target? j with
  | none => rfl
  | some x =>
    have hdest : x.dest = none := by simpa [hx] using hd
    simp only [hdest]

/-- Positions whose targets have no destination or are bound for the node are treated one after another. -/
theorem DestsLost.foldl (k : DestsLost s t h e n lost count) (hr : s.rising) (he : s.entry? h = some e0)
    (hst : e.standing = e0.standing) {l : List Position} (hnodup : l.Nodup) (hnew : ∀ j ∈ l, lost j = false)
    (hdest : ∀ j ∈ l, (e.target? j).bind Target.dest = none ∨ (e.target? j).bind Target.dest = some n) :
    DestsLost s (l.foldl (fun t pos => t.dropDestination true h pos) t) h e n
      (fun j => lost j || (decide (j ∈ l) && e.isBound n j)) (count + l.countP (e.isBound n)) := by
  induction l generalizing t lost count with
  | nil => exact k.congr (by simp) rfl
  | cons j l ih =>
    obtain ⟨hjl, hnodup'⟩ := List.nodup_cons.mp hnodup
    have hj : lost j = false := hnew j List.mem_cons_self
    have hnew' : ∀ i ∈ l, lost i = false := fun i hi => hnew i (List.mem_cons_of_mem j hi)
    have hdest' := fun i hi => hdest i (List.mem_cons_of_mem j hi)
    rw [List.foldl_cons]
    rcases hdest j List.mem_cons_self with hnone | hsome
    · have hb : e.isBound n j = false := by simp [Entry.isBound, hnone]
      rw [k.idle hj hnone]
      refine (ih k hnodup' hnew' hdest').congr (fun i => ?_) (by simp [hb])
      by_cases hi : i = j
      · simp [hi, hb]
      · simp [hi]
    · have hb : e.isBound n j = true := by simp [Entry.isBound, hsome]
      have hnew'' : ∀ i ∈ l, (lost i || (i == j)) = false := fun i hi => by
        have hij : i ≠ j := fun heq => hjl (heq ▸ hi)
        simp [hnew' i hi, hij]
      refine (ih (k.lose hr he hst hj hsome) hnodup' hnew'' hdest').congr (fun i => ?_) ?_
      · by_cases hi : i = j
        · simp [hi, hb]
        · simp [hi, beq_eq_false_iff_ne.mpr hi]
      · rw [List.countP_cons_of_pos hb]
        omega

end

end Sys2Proof.Machine
end

section
/-! PROOFS. A sweep's visit to a live entry (O54). -/

namespace Sys2Proof.Machine

open Sys2Proof.Config

/-! ### Members and destinations on the node (R37) -/

/-- R37: the sweep of the node turns the member LOST. -/
def Member.hitBy (n : NodeId) (m : Member) : Bool := decide (m.node = n ∧ m.state = .held)

/-- R37 step 1: a member as the sweep of the node leaves it. -/
def Member.swept (n : NodeId) (m : Member) : Member := if m.hitBy n = true then m.lostNow .nodeDown else m

theorem sweepMembers_eq (n : NodeId) (e : Entry) : sweepMembers n e = { e with members := e.members.map (Member.swept n) } := by
  have hswept : ∀ m : Member, (if m.node = n then m.lose .nodeDown else m) = m.swept n := fun m => by
    unfold Member.swept Member.hitBy
    by_cases hn : m.node = n
    · by_cases hs : m.state = .held
      · simp [hn, hs, Member.lose_held]
      · simp [hn, hs, Member.lose]
    · simp [hn]
  simp only [sweepMembers, hswept]

theorem sweepMembers_getElem? (n : NodeId) (e : Entry) (j : Position) :
    (sweepMembers n e).members[j]? = e.members[j]?.map (Member.swept n) := by
  rw [sweepMembers_eq]
  exact List.getElem?_map ..

theorem sweepMembers_of_no_hit {n : NodeId} {e : Entry} (h : sweepHits n e = false) : sweepMembers n e = e := by
  have hsame : e.members.map (Member.swept n) = e.members := by
    refine (List.map_congr_left fun m hm => ?_).trans (List.map_id _)
    have hmiss : ¬m.hitBy n = true := List.any_eq_false.mp h m hm
    exact if_neg hmiss
  rw [sweepMembers_eq, hsame]

/-- The sweep leaves a member's target as it is, or without a destination. -/
theorem sweepMembers_target? (n : NodeId) (e : Entry) (j : Position) :
    ((sweepMembers n e).target? j).bind Target.dest =
      if (e.members[j]?.any (Member.hitBy n)) = true then none else (e.target? j).bind Target.dest := by
  unfold Entry.target?
  rw [sweepMembers_getElem?]
  cases hm : e.members[j]? with
  | none => rfl
  | some m =>
    by_cases hh : m.hitBy n = true
    · simp only [Option.map_some, Option.any_some, Member.swept, hh, if_true, Member.lostNow]
      cases m.target <;> rfl
    · simp only [Option.map_some, Option.any_some, Member.swept, hh, if_false, Bool.false_eq_true]

theorem isBound_sweepMembers (n : NodeId) (e : Entry) (j : Position) :
    (sweepMembers n e).isBound n j = (e.isBound n j && !e.members[j]?.any (Member.hitBy n)) := by
  unfold Entry.isBound
  rw [sweepMembers_target?]
  cases e.members[j]?.any (Member.hitBy n) <;> simp

theorem Entry.boundFor_eq (e : Entry) (n : NodeId) :
    e.boundFor n = (List.range e.members.length).filter (e.isBound n) := by
  unfold Entry.boundFor
  rw [Entry.targets_eq, List.filterMap_filterMap, ← List.filterMap_eq_filter]
  refine List.filterMap_congr fun j _ => ?_
  unfold Entry.isBound
  cases ht : e.target? j <;> simp [Option.guard, ht]

theorem Entry.lt_of_isBound {e : Entry} {n : NodeId} {j : Position} (h : e.isBound n j = true) : j < e.members.length := by
  obtain ⟨t, ht, -⟩ := Option.bind_eq_some_iff.mp (of_decide_eq_true h)
  obtain ⟨m, hm, -⟩ := Entry.target?_some.mp ht
  exact (List.getElem?_eq_some_iff.mp hm).1

/-- How many targets the visit of a sweep takes the node from. -/
def sweepCount (n : NodeId) (e : Entry) : Nat := (List.range e.members.length).countP ((sweepMembers n e).isBound n)

/-- R37 step 2: the destinations on the node are taken away. -/
theorem State.sweepDests_spec {s : State} {h : Handle} {e : Entry} {n : NodeId} (hr : s.rising) (he : s.entry? h = some e) :
    DestsLost s ((e.boundFor n).foldl (fun t pos => t.dropDestination true h pos) (s.setEntry h (sweepMembers n e))) h
      (sweepMembers n e) n ((sweepMembers n e).isBound n) (sweepCount n e) := by
  have hst : (sweepMembers n e).standing = e.standing := rfl
  have hnodup : (e.boundFor n).Nodup := by
    rw [Entry.boundFor_eq]
    exact List.nodup_range.filter _
  have hdest : ∀ j ∈ e.boundFor n, ((sweepMembers n e).target? j).bind Target.dest = none
      ∨ ((sweepMembers n e).target? j).bind Target.dest = some n := fun j hj => by
    rw [Entry.boundFor_eq, List.mem_filter] at hj
    rw [sweepMembers_target?]
    split
    · exact .inl rfl
    · exact .inr (of_decide_eq_true hj.2)
  refine ((DestsLost.start (sweepMembers n e) n).foldl hr he hst hnodup (fun _ _ => rfl) hdest).congr (fun j => ?_) ?_
  · rw [Bool.false_or, Bool.and_eq_right_iff_imp]
    intro hb
    rw [isBound_sweepMembers, Bool.and_eq_true] at hb
    rw [decide_eq_true_eq, Entry.boundFor_eq, List.mem_filter, List.mem_range]
    exact ⟨Entry.lt_of_isBound hb.1, hb.1⟩
  · rw [Nat.zero_add, Entry.boundFor_eq, List.countP_filter, sweepCount]
    refine List.countP_congr fun j _ => ?_
    rw [isBound_sweepMembers]
    cases e.isBound n j <;> simp

/-! ### What follows the losses (R52, R55, R59) -/

/-- R37 steps 1 and 2, R42, R146: the entry after its members on the node and its destinations on it are lost. -/
def Entry.sweptOf (s : State) (h : Handle) (n : NodeId) (e : Entry) : Entry :=
  (sweepMembers n e).unbinding s h ((sweepMembers n e).isBound n) n

theorem Kept.sweepEntry (s : State) (n : NodeId) (h : Handle) (e : Entry) : Kept s (s.sweepEntry n h e) := by
  have hdests : Kept s ((e.boundFor n).foldl (fun t pos => t.dropDestination true h pos) (s.setEntry h (sweepMembers n e))) :=
    (Kept.setEntry s h _).trans (Kept.foldl (fun t pos => Kept.dropDestination t true h pos) _ _)
  have hreckoned := Kept.ite (c := sweepHits n e = true) (hdests.trans (Kept.reckon _ h)) hdests
  exact Kept.ite ((hreckoned.trans (Kept.trigger _ h)).trans (Kept.closeIfDrained _ h)) hreckoned

theorem State.closeIfDrained_closed {s : State} {h : Handle} {e : Entry} (he : s.entry? h = some e)
    (hc : e.state = .closed) : s.closeIfDrained h = s := by
  simp [State.closeIfDrained, he, hc]

theorem entries_refreshWaits (s : State) : s.refreshWaits.entries = s.entries := by
  rw [← rest_refreshWaits s]

theorem entry_refreshWaits (s : State) (h : Handle) : s.refreshWaits.entry? h = s.entry? h := by
  unfold State.entry?
  rw [entries_refreshWaits]

theorem passesOn.refreshWaits {u t : State} {h : Handle} {e : Entry} (k : passesOn u t h e) :
    passesOn u t.refreshWaits h e := by
  refine ⟨fun j hj => ?_, fun hs => (k.stands hs).refreshWaits, fun hd hb => (k.drained hd hb).refreshWaits⟩
  rw [entry_refreshWaits, k.others j hj]

/-- What passes a trigger on keeps a planning attempt that was caused before. -/
theorem passesOn.attempt {u t : State} {h : Handle} {e : Entry} (k : passesOn u t h e) (ha : u.attempt = true) :
    t.attempt = true := by
  by_cases hs : e.state ≠ .draining ∨ u.busyWith h
  · exact (k.stands hs).attempt.mpr (.inl ha)
  · obtain ⟨hd, hb⟩ := not_or.mp hs
    exact (k.drained (not_ne_iff.mp hd) hb).attempt.mpr (.inl ha)

section

variable {s : State} {h : Handle} {e : Entry} {n : NodeId}

theorem sweepCount_pos_iff (hn : sweepHits n e = false) : 0 < sweepCount n e ↔ (e.boundFor n).isEmpty = false := by
  rw [sweepCount, sweepMembers_of_no_hit hn, Entry.boundFor_eq, List.countP_eq_length_filter, List.length_pos_iff]
  simp

/-- R37: an entry with nothing on the node is left. -/
theorem State.sweepEntry_misses (hn : sweepHits n e = false) (hb : (e.boundFor n).isEmpty = true) :
    s.sweepEntry n h e = s.setEntry h e := by
  simp [State.sweepEntry, sweepMembers_of_no_hit hn, hn, List.isEmpty_iff.mp hb]

variable (hr : s.rising) (he : s.entry? h = some e)

include hr he in
/-- R37: what the visit comes to once members and destinations are lost. -/
theorem State.sweepEntry_lost : ∃ v, afterRelease (lossState s h ((sweepMembers n e).isBound n) n (sweepCount n e)) v
        (queuedCell s h ((sweepMembers n e).isBound n))
      ∧ (sweepHits n e = false → (e.boundFor n).isEmpty = false →
          s.sweepEntry n h e = ((v.setEntry h (e.sweptOf s h n)).trigger h).closeIfDrained h)
      ∧ (sweepHits n e = true →
          s.sweepEntry n h e = ((v.setEntry h (e.sweptOf s h n)).afterLoss h).closeIfDrained h) := by
  obtain ⟨v, hv, hdests⟩ := State.sweepDests_spec (n := n) hr he
  refine ⟨v, hv, fun hn hb => ?_, fun hn => ?_⟩
  · simp only [State.sweepEntry, hdests, hn, hb, Bool.false_or, Bool.not_false, if_true, if_false, Bool.false_eq_true]
    rfl
  · simp only [State.sweepEntry, hdests, hn, Bool.true_or, if_true]
    rfl

end

theorem setEntry_setEntry (s : State) (h : Handle) (e f : Entry) : (s.setEntry h e).setEntry h f = s.setEntry h f := by
  unfold State.setEntry
  rw [Table.put_put]

/-- R52: a lost count from 1 to m gives the entry its class. -/
theorem State.reckon_lives {s : State} {h : Handle} {e : Entry} (he : s.entry? h = some e) (hc : e.state ≠ .closed)
    (hpos : 0 < e.lostCount) (hm : e.lostCount ≤ (s.code e.profile).m) :
    s.reckon h = s.setEntry h { e with urgency := classFor (s.code e.profile).m e.lostCount } := by
  simp only [State.reckon, he, hc, if_false, Nat.not_lt.mpr hm, Nat.ne_of_gt hpos, urgencyOf_eq]

@[simp] theorem Member.unbinding_state (s : State) (h : Handle) (lost : Position → Bool) (n : NodeId) (j : Position)
    (m : Member) : (m.unbinding s h lost n j).state = m.state := by
  unfold Member.unbinding
  split <;> rfl

theorem Entry.getElem?_sweptOf (s : State) (h : Handle) (n : NodeId) (e : Entry) (j : Position) :
    (e.sweptOf s h n).members[j]? =
      e.members[j]?.map fun m => (m.swept n).unbinding s h ((sweepMembers n e).isBound n) n j := by
  rw [Entry.sweptOf, Entry.getElem?_unbinding, sweepMembers_getElem?, Option.map_map]
  rfl

theorem Entry.lostCount_sweptOf_pos {s : State} {h : Handle} {n : NodeId} {e : Entry} (hn : sweepHits n e = true) :
    0 < (e.sweptOf s h n).lostCount := by
  obtain ⟨m, hm, hhit⟩ := List.any_eq_true.mp hn
  obtain ⟨j, hj⟩ := List.getElem?_of_mem hm
  have hmember := Entry.getElem?_sweptOf s h n e j
  rw [hj, Option.map_some] at hmember
  have hhit : m.hitBy n = true := hhit
  refine Entry.lostCount_pos hmember ?_
  simp [Member.swept, hhit, Member.lostNow]

section

variable {s : State} {h : Handle} {e : Entry} {n : NodeId} (hr : s.rising) (he : s.entry? h = some e)
  (hc : e.state ≠ .closed) (hs : e.submitters ≠ 0)

include hr he hc hs in
/-- R37, R52, R55, R59: the visit to a live entry with something on the node. -/
theorem State.sweepEntry_spec : ∃ v, afterRelease (lossState s h ((sweepMembers n e).isBound n) n (sweepCount n e)) v
        (queuedCell s h ((sweepMembers n e).isBound n))
      ∧ (sweepHits n e = false → 0 < sweepCount n e → passesOn v (s.sweepEntry n h e) h (e.sweptOf s h n))
      ∧ (sweepHits n e = true → (e.sweptOf s h n).lostCount ≤ (s.code e.profile).m →
          passesOn v (s.sweepEntry n h e) h
            { e.sweptOf s h n with urgency := classFor (s.code e.profile).m (e.sweptOf s h n).lostCount })
      ∧ (sweepHits n e = true → (s.code e.profile).m < (e.sweptOf s h n).lostCount →
          closes v (s.sweepEntry n h e) h (e.sweptOf s h n) (.failed .unrecoverable)) := by
  obtain ⟨v, hv, hpasses, hloses⟩ := State.sweepEntry_lost (n := n) hr he
  have hcode : (v.setEntry h (e.sweptOf s h n)).code e.profile = s.code e.profile := by
    rw [← hv.rest]
    rfl
  have hself : ∀ f, (v.setEntry h f).entry? h = some f := fun f => (State.entry_setEntry ..).trans (if_pos rfl)
  refine ⟨v, hv, fun hn hpos => ?_, fun hn hle => ?_, fun hn hlt => ?_⟩
  · rw [hpasses hn ((sweepCount_pos_iff hn).mp hpos)]
    exact passesOn.rebase (State.triggerThenDrain_spec (hself _) hs)
  · rw [← hcode] at hle ⊢
    have hreckon := State.reckon_lives (hself (e.sweptOf s h n)) hc (Entry.lostCount_sweptOf_pos hn) hle
    rw [hloses hn, State.afterLoss, hreckon, setEntry_setEntry]
    exact passesOn.rebase (State.triggerThenDrain_spec (hself _) hs)
  · rw [← hcode] at hlt
    have hcloses := State.afterLoss_closes (hself (e.sweptOf s h n)) hc hs hlt
    rw [hloses hn, State.closeIfDrained_closed hcloses.record rfl]
    exact hcloses.rebase

end

/-! ### The step -/

theorem countRises_congr {s u : State} (hp : u.ports = s.ports) (t : State) : countRises u t = countRises s t := by
  have hrise : riseAt u = riseAt s := by
    unfold riseAt
    rw [State.port_congr hp]
  unfold countRises
  rw [hrise]

/-- An event that changes a state outside the ports, keeps what the shared operations keep and then treats the waits. -/
theorem event_kept_after {s u t : State} {a : Bool} (h : s.inReset = false) (ha : a = true) (hi : u.inReset = false)
    (hp : u.ports = s.ports) (hk : Kept u t) : event s a t.refreshWaits = .next t.refreshWaits := by
  have hu := (event_kept hi ha hk).1
  rw [event_next hi ha, countRises_congr hp] at hu
  rwa [event_next h ha]

/-- Where the ports are untouched, the treatment of the waits leaves the ports but for their waits. -/
theorem portsButWaits_refreshWaits {s t : State} (hp : t.ports = s.ports) : portsButWaits s t.refreshWaits := fun q => by
  have hq : t.port q = s.port q := congrFun (State.port_congr hp) q
  rw [← wait_after_refreshWaits (by rw [hq]), ← hq]
  exact port_refreshWaits t q

theorem exec_sweepVisit (h : Handle) (s : State) : exec (.sweepVisit h) s = execSweepVisit h s := rfl

theorem State.liveBetween_iff (s : State) (a b : Handle) :
    s.liveBetween a b = true ↔ ∃ he ∈ s.entries, a ≤ he.1 ∧ he.1 < b ∧ he.2.state ≠ .closed := by
  simp [State.liveBetween, and_assoc]

theorem State.liveBetween_eq_false_iff (s : State) (a b : Handle) :
    s.liveBetween a b = false ↔ ∀ he ∈ s.entries, a ≤ he.1 → he.1 < b → he.2.state = .closed := by
  rw [← Bool.not_eq_true, s.liveBetween_iff]
  push Not
  rfl

theorem exec_sweepVisit_live {s : State} {w : Sweep} {h : Handle} {e : Entry} (hreset : s.inReset = false)
    (hw : s.sweep = some w) (hle : w.next ≤ h) (hlt : h < 4096)
    (hpassed : ∀ he ∈ s.entries, w.next ≤ he.1 → he.1 < h → he.2.state = .closed) (he : s.entry? h = some e)
    (hc : e.state ≠ .closed) : exec (.sweepVisit h) s =
      .next (({ s with sweep := some { w with next := h + 1 } } : State).sweepEntry w.node h e).refreshWaits := by
  have harises : (decide (w.next ≤ h ∧ h < tableSize) && !s.liveBetween w.next h) = true := by
    rw [(s.liveBetween_eq_false_iff w.next h).mpr hpassed]
    simp [hle, hlt, tableSize]
  simp only [exec_sweepVisit, execSweepVisit, hw, State.sweepAt, he, hc, if_false]
  exact event_kept_after (u := { s with sweep := some { w with next := h + 1 } }) hreset harises hreset rfl
    (Kept.sweepEntry _ w.node h e)

/-- Settles O54: the statement's tests and members are those of `Entry.sweptOf`, and what follows the losses is
`State.sweepEntry_spec`. -/
theorem sweepVisitTreatsEntry : Obligations.SweepVisitTreatsEntry := by
  unfold Obligations.SweepVisitTreatsEntry
  intro s w h e hreset hw hle hlt hpassed hr he hc hs passed hits bound swept count unbound e1 pm
  have hbound : bound = (sweepMembers w.node e).isBound w.node := by
    funext j
    rw [isBound_sweepMembers]
    simp only [bound, hits, Entry.isBound]
    cases hm : e.members[j]? with
    | none => simp [Entry.target?, hm]
    | some m => cases e.target? j <;> simp [Member.hitBy, Bool.and_comm]
  have hmember : ∀ j m, e.members[j]? = some m →
      swept j m = (m.swept w.node).unbinding passed h ((sweepMembers w.node e).isBound w.node) w.node j := fun j m hm => by
    have hb : bound j = (e.isBound w.node j && !m.hitBy w.node) := by rw [hbound, isBound_sweepMembers, hm, Option.any_some]
    rw [← hbound]
    by_cases hhit : m.hitBy w.node = true
    · have hmiss : bound j = false := by rw [hb, hhit, Bool.not_true, Bool.and_false]
      rw [Member.unbinding_of_not hmiss, Member.swept, if_pos hhit]
      exact if_pos hhit
    · rw [Member.swept, if_neg hhit]
      exact if_neg hhit
  have hswept : e1 = e.sweptOf passed h w.node := by
    have hmembers : e.members.mapIdx swept = (e.sweptOf passed h w.node).members := by
      refine List.ext_getElem? fun j => ?_
      rw [List.getElem?_mapIdx, Entry.getElem?_sweptOf]
      cases hm : e.members[j]? with
      | none => rfl
      | some m => exact congrArg some (hmember j m hm)
    simp only [e1, hmembers]
    rfl
  have hcount : count = sweepCount w.node e := by
    simp only [count, hbound, sweepCount]
  have hhits : e.members.any hits = sweepHits w.node e := rfl
  obtain ⟨v, hv, hmoved, hlives, hcloses⟩ := State.sweepEntry_spec (s := passed) (n := w.node) hr he hc hs
  have hunbound : unbound = lossState passed h ((sweepMembers w.node e).isBound w.node) w.node (sweepCount w.node e) := by
    simp only [unbound, hbound, hcount]
  rw [hbound, hcount, hswept, hhits, hunbound]
  refine ⟨_, v, exec_sweepVisit_live hreset hw hle hlt hpassed he hc, (Kept.sweepEntry ..).workFrame, hv, ?_, ?_, ?_, ?_⟩
  · intro hn hnone
    have hempty : (e.boundFor w.node).isEmpty = true := by
      rw [← Bool.not_eq_false, ← sweepCount_pos_iff hn]
      omega
    have hentry : ∀ k, ((passed.setEntry h e).refreshWaits).entry? k = s.entry? k := fun k => by
      rw [entry_refreshWaits, State.entry_setEntry]
      split
      · next hk => rw [hk, he]
      · rfl
    rw [State.sweepEntry_misses hn hempty]
    refine ⟨(hentry h).trans he, fun k _ => hentry k, portsButWaits_refreshWaits rfl, ?_⟩
    rw [← rest_refreshWaits (passed.setEntry h e)]
    rfl
  · intro hn hpos
    have hpass := (hmoved hn hpos).refreshWaits
    exact ⟨hpass.attempt (hv.attempt.mpr (.inl (by simp [lossState, hpos]))), hpass⟩
  · exact fun hn hm => (hlives hn hm).refreshWaits
  · exact fun hn hm => (hcloses hn hm).refreshWaits

end Sys2Proof.Machine
end

section
/-! PROOFS. The requests of the Node Table (O14 to O19). -/

namespace Sys2Proof.Machine

/-! ### Requests that name one node -/

theorem asFin_eq_none {n x : Nat} (h : n ≤ x) : asFin n x = none := dif_neg (Nat.not_lt.mpr h)

theorem oneNode_invalid {act : NodeId → State → State} {r : Request} (h : 255 < r.nodeId) (s : State) :
    oneNode act r s = Answer.only s .invalid := by
  simp only [oneNode, asFin_eq_none (show 256 ≤ r.nodeId from h)]

section

variable {act : NodeId → State → State} {s t : State} {p : PortId} {n : NodeId}

theorem oneNode_unknown (hn : n.val = (s.port p).request.nodeId) (hx : (s.node n).state = .undefined) :
    oneNode act (s.port p).request (s.advance p) = Answer.only (s.advance p) .unknown := by
  have hx' : ((s.advance p).node n).state = .undefined := hx
  simp only [oneNode, ← hn, asFin_val, hx', if_true]

theorem oneNode_acts (hn : n.val = (s.port p).request.nodeId) (hx : (s.node n).state ≠ .undefined)
    (ht : act n (s.advance p) = t) : oneNode act (s.port p).request (s.advance p) = Answer.only t .ok := by
  have hx' : ((s.advance p).node n).state ≠ .undefined := hx
  simp only [oneNode, ← hn, asFin_val, hx', if_false, ht]

end

theorem exec_defineNode (p : PortId) (s : State) : exec (.defineNode p) s = withAnswer p 9 s defineNodeDecide := rfl

theorem exec_reportDown (p : PortId) (s : State) :
    exec (.reportDown p) s = withAnswer p 10 s (oneNode fun n t => (t.reportNode p n).refreshWaits) := rfl

theorem exec_reportRackDown (p : PortId) (s : State) :
    exec (.reportRackDown p) s = withAnswer p 11 s (reportRackDecide p) := rfl

theorem exec_retractDown (p : PortId) (s : State) :
    exec (.retractDown p) s = withAnswer p 12 s (oneNode fun n t => t.retract p n) := rfl

theorem exec_reviveNode (p : PortId) (s : State) :
    exec (.reviveNode p) s = withAnswer p 13 s (oneNode fun n t => (t.revive n).refreshWaits) := rfl

theorem exec_clearSuspect (p : PortId) (s : State) :
    exec (.clearSuspect p) s = withAnswer p 14 s (oneNode fun n t => t.clearSuspect n) := rfl

/-- Settles O15: each of the four requests is a `oneNode`, whatever it does to a node that it accepts. -/
theorem oneNodeRequestsRefuseUnknownNodes : Obligations.OneNodeRequestsRefuseUnknownNodes := by
  unfold Obligations.OneNodeRequestsRefuseUnknownNodes
  intro s p k i hi h
  have hexec : ∃ act, exec i s = withAnswer p k s (oneNode act) := by
    simp only [List.mem_cons, List.not_mem_nil, or_false, Prod.mk.injEq] at hi
    rcases hi with ⟨rfl, rfl⟩ | ⟨rfl, rfl⟩ | ⟨rfl, rfl⟩ | ⟨rfl, rfl⟩
    · exact ⟨_, exec_reportDown p s⟩
    · exact ⟨_, exec_retractDown p s⟩
    · exact ⟨_, exec_reviveNode p s⟩
    · exact ⟨_, exec_clearSuspect p s⟩
  obtain ⟨act, hact⟩ := hexec
  rw [hact]
  exact ⟨fun hbad => exec_only h .invalid .none (oneNode_invalid hbad _),
    fun n hn hx => exec_only h .unknown .none (oneNode_unknown hn hx)⟩

/-! ### DEFINE-NODE (R22 to R24) -/

section

variable {r : Request} {s : State} {n : NodeId} {rack : RackId} {route : PortId}

theorem defineNodeDecide_bad (h : 255 < r.nodeId ∨ 63 < r.rackId ∨ 3 < r.routePort) (s : State) :
    defineNodeDecide r s = Answer.only s .invalid := by
  unfold defineNodeDecide
  rcases h with h | h | h
  · rw [asFin_eq_none (show 256 ≤ r.nodeId from h)]
  · rw [asFin_eq_none (show 64 ≤ r.rackId from h)]
    cases asFin 256 r.nodeId <;> rfl
  · rw [asFin_eq_none (show 4 ≤ r.routePort from h)]
    cases asFin 256 r.nodeId <;> cases asFin 64 r.rackId <;> rfl

/-- R23: the node has a user. -/
theorem State.nodeUsed_iff (s : State) (n : NodeId) : s.nodeUsed n = true ↔
    ∃ he ∈ s.entries, ∃ m ∈ he.2.members, m.node = n ∨ ∃ t, m.target = some t ∧ t.dest = some n := by
  simp only [State.nodeUsed, List.any_eq_true, Bool.or_eq_true, decide_eq_true_eq]
  refine exists_congr fun he => and_congr_right fun _ => exists_congr fun m => and_congr_right fun _ => or_congr_right ?_
  cases m.target <;> simp

variable (hn : n.val = r.nodeId) (hrack : rack.val = r.rackId) (hroute : route.val = r.routePort)

include hn hrack hroute

/-- DEFINE-NODE with values in range. -/
theorem defineNodeDecide_eq : defineNodeDecide r s =
    if (s.node n).state = .undefined then Answer.only ((s.setNode n { s.node n with
      state := .up, rack := some rack, route := some route, marks := PortSet.all }).causeAttempt) .ok
    else if (s.node n).rack = some rack ∧ (s.node n).route = some route then Answer.only s .ok
    else if s.nodeUsed n = true then Answer.only s .inUse
    else Answer.only (s.setNode n { s.node n with rack := some rack, route := some route, marks := PortSet.all }) .ok := by
  simp only [defineNodeDecide, ← hn, ← hrack, ← hroute, asFin_val]

end

/-- Settles O14, by the branches of `defineNodeDecide_eq`. -/
theorem defineNodeDefinesOrRefuses : Obligations.DefineNodeDefinesOrRefuses := by
  unfold Obligations.DefineNodeDefinesOrRefuses
  intro s p h
  refine ⟨fun hbad => exec_only h .invalid .none (defineNodeDecide_bad hbad _), fun n rack route hn hrack hroute => ?_⟩
  have hdecide := defineNodeDecide_eq (s := s.advance p) hn hrack hroute
  have hnode : (s.advance p).node n = s.node n := rfl
  have hused : (s.advance p).nodeUsed n = s.nodeUsed n := rfl
  rw [hnode, hused] at hdecide
  dsimp only
  rw [← State.nodeUsed_iff, exec_defineNode]
  refine ⟨fun hx => ?_, fun hx hsame => ?_, fun hx hother huser => ?_, fun hx hother hfree => ?_⟩
  · exact exec_tables h .ok .none rfl (hdecide.trans (if_pos hx))
  · exact exec_only h .ok .none (hdecide.trans ((if_neg hx).trans (if_pos hsame)))
  · exact exec_only h .inUse .none (hdecide.trans ((if_neg hx).trans ((if_neg hother).trans (if_pos huser))))
  · exact exec_tables h .ok .none rfl (hdecide.trans ((if_neg hx).trans ((if_neg hother).trans (if_neg hfree))))

/-! ### RETRACT-DOWN and CLEAR-SUSPECT (R28, R34) -/

theorem NodeState.serves_iff (st : NodeState) : st.serves = true ↔ st = .up ∨ st = .suspect := by
  cases st <;> simp [NodeState.serves]

section

variable {s : State} {n : NodeId}

theorem State.retract_open (p : PortId) (hx : (s.node n).state = .up ∨ (s.node n).state = .suspect) :
    s.retract p n = s.setNode n { s.node n with reports := PortSet.remove (s.node n).reports p } :=
  if_pos ((NodeState.serves_iff _).mpr hx)

theorem State.retract_down (p : PortId) (hx : (s.node n).state = .down) : s.retract p n = s :=
  if_neg (by rw [hx]; decide)

theorem State.clearSuspect_suspect (hx : (s.node n).state = .suspect) : s.clearSuspect n =
    (s.setNode n { s.node n with state := .up, severe := 0, clean := 0, marks := PortSet.all }).causeAttempt := if_pos hx

theorem State.clearSuspect_other (hx : (s.node n).state ≠ .suspect) : s.clearSuspect n = s := if_neg hx

end

/-- Settles O18, by the state of the node. -/
theorem retractAndClearSuspectActOnNode : Obligations.RetractAndClearSuspectActOnNode := by
  unfold Obligations.RetractAndClearSuspectActOnNode
  refine ⟨fun s p n h hn => ⟨fun hx => ?_, fun hx => ?_⟩, fun s p n h hn => ⟨fun hx => ?_, fun hx => ?_⟩⟩
  · have hdefined : (s.node n).state ≠ .undefined := by rcases hx with hx | hx <;> simp [hx]
    exact exec_tables h .ok .none rfl (oneNode_acts hn hdefined (State.retract_open (s := s.advance p) p hx))
  · have hdefined : (s.node n).state ≠ .undefined := by simp [hx]
    exact exec_only h .ok .none (oneNode_acts hn hdefined (State.retract_down (s := s.advance p) p hx))
  · have hdefined : (s.node n).state ≠ .undefined := by simp [hx]
    exact exec_tables h .ok .none rfl (oneNode_acts hn hdefined (State.clearSuspect_suspect (s := s.advance p) hx))
  · have hdefined : (s.node n).state ≠ .undefined := by rcases hx with hx | hx <;> simp [hx]
    have hother : (s.node n).state ≠ .suspect := by rcases hx with hx | hx <;> simp [hx]
    exact exec_only h .ok .none (oneNode_acts hn hdefined (State.clearSuspect_other (s := s.advance p) hother))

/-! ### REVIVE-NODE (R29) -/

/-- A request is decided by what is decided of the record at the head. -/
theorem withAnswer_congr {p : PortId} {k : Byte} {s : State} {d d' : Request → State → Answer}
    (hd : d (s.port p).request (s.advance p) = d' (s.port p).request (s.advance p)) :
    withAnswer p k s d = withAnswer p k s d' := by
  simp only [withAnswer, withRequest, hd]

section

variable {s : State} {n : NodeId}

theorem State.revive_down (hx : (s.node n).state = .down) : s.revive n =
    { s.setNode n { s.node n with state := .up, reports := 0, marks := PortSet.all } with
      sweepFifo := s.sweepFifo.filter (· ≠ n), attempt := true } := by
  have hfilter : (s.sweepFifo.filter fun x => x != n) = s.sweepFifo.filter (· ≠ n) :=
    List.filter_congr fun x _ => by rw [Bool.eq_iff_iff]; simp
  rw [State.revive, if_pos hx, hfilter]
  rfl

theorem State.revive_other (hx : (s.node n).state ≠ .down) : s.revive n = s := if_neg hx

theorem State.port_revive (s : State) (n : NodeId) (q : PortId) : (s.revive n).port q = s.port q := by
  by_cases hx : (s.node n).state = .down
  · rw [State.revive_down hx]
    rfl
  · rw [State.revive_other hx]

end

/-- Settles O19. The state of an UNDEFINED node, of which the statement asks the frame alone, is that of a request which
skips the check; on every other node the two requests decide the same. -/
theorem reviveNodeReturnsDownNodeToUp : Obligations.ReviveNodeReturnsDownNodeToUp := by
  unfold Obligations.ReviveNodeReturnsDownNodeToUp
  intro s p n h hn
  obtain ⟨u, hexec, hports, hrest⟩ := exec_waits (d := fun _ t => ⟨(t.revive n).refreshWaits, .ok, .none⟩) h rfl
    ((s.advance p).port_revive n)
  refine ⟨u, fun hx => ?_, hports, fun hx => ?_, fun hx => ?_⟩
  · rw [exec_reviveNode, ← hexec]
    exact withAnswer_congr (oneNode_acts hn hx rfl)
  · rw [State.revive_down (s := s.advance p) hx] at hrest
    exact hrest
  · rw [State.revive_other (s := s.advance p) hx] at hrest
    exact hrest

/-! ### Down reports (R25 to R27) -/

/-- R25, R27: the report of port `p` makes the node DOWN. -/
def State.fallsBy (s : State) (p : PortId) (n : NodeId) : Bool :=
  ((s.node n).withReport p).state.serves && decide (s.quorum ≤ PortSet.size ((s.node n).withReport p).reports)

theorem State.fallsBy_iff (s : State) (p : PortId) (n : NodeId) :
    s.fallsBy p n = true ↔ ((s.node n).withReport p).falls s.quorum := by
  rw [State.fallsBy, Bool.and_eq_true, NodeState.serves_iff, decide_eq_true_eq, Node.falls]

/-- R25, R27: what the report of port `p` makes of the node. -/
def State.afterReport (s : State) (p : PortId) (n : NodeId) : Node :=
  if s.fallsBy p n = true then ((s.node n).withReport p).fallen else (s.node n).withReport p

theorem setNode_setNode (s : State) (n : NodeId) (x y : Node) : (s.setNode n x).setNode n y = s.setNode n y := by
  unfold State.setNode
  rw [Vector.set_set]

theorem State.nodeGoesDown_eq (s : State) (n : NodeId) : s.nodeGoesDown n =
    { s.setNode n (s.node n).fallen with sweepFifo := s.sweepFifo ++ [n], attempt := true } := rfl

/-- R25, R27: the report of one node, in every case. -/
theorem State.reportNode_eq (p : PortId) (s : State) (n : NodeId) : s.reportNode p n =
    { s.setNode n (s.afterReport p n) with
      sweepFifo := s.sweepFifo ++ (if s.fallsBy p n = true then [n] else [])
      attempt := s.attempt || s.fallsBy p n } := by
  by_cases hserves : (s.node n).state.serves = true
  · have hreport : (s.node n).withReport p = { s.node n with reports := PortSet.add (s.node n).reports p } :=
      if_pos ((NodeState.serves_iff _).mp hserves)
    have hnode : (s.setNode n ((s.node n).withReport p)).node n = (s.node n).withReport p :=
      (State.node_setNode ..).trans (if_pos rfl)
    have hreported : s.reportNode p n =
        if s.fallsBy p n = true then (s.setNode n ((s.node n).withReport p)).nodeGoesDown n
        else s.setNode n ((s.node n).withReport p) := by
      rw [State.reportNode, if_pos hserves, State.modNode, ← hreport, State.downIfQuorum, hnode]
      rfl
    rw [hreported, State.afterReport]
    by_cases hfalls : s.fallsBy p n = true
    · have hdown := State.nodeGoesDown_eq (s.setNode n ((s.node n).withReport p)) n
      rw [hnode, setNode_setNode] at hdown
      rw [if_pos hfalls, if_pos hfalls, if_pos hfalls, hfalls, Bool.or_true, hdown]
      rfl
    · rw [if_neg hfalls, if_neg hfalls, if_neg hfalls, Bool.eq_false_iff.mpr hfalls, Bool.or_false, List.append_nil]
      rfl
  · have hreport : (s.node n).withReport p = s.node n := if_neg fun hx => hserves ((NodeState.serves_iff _).mpr hx)
    have hfalls : s.fallsBy p n = false := by
      rw [State.fallsBy, hreport, Bool.eq_false_iff.mpr hserves, Bool.false_and]
    simp [State.reportNode, State.afterReport, hserves, hfalls, hreport, setNode_self]

theorem State.port_reportNode (p : PortId) (s : State) (n : NodeId) (q : PortId) : (s.reportNode p n).port q = s.port q := by
  rw [State.reportNode_eq]
  rfl

/-- Settles O16, by `State.reportNode_eq`. -/
theorem reportDownAddsReportAndMeetsQuorum : Obligations.ReportDownAddsReportAndMeetsQuorum := by
  unfold Obligations.ReportDownAddsReportAndMeetsQuorum
  intro s p n h hn hx
  obtain ⟨u, hexec, hports, hrest⟩ := exec_waits h (oneNode_acts (act := fun n t => (t.reportNode p n).refreshWaits) hn hx rfl)
    ((s.advance p).port_reportNode p n)
  have hfalls : (s.advance p).fallsBy p n = s.fallsBy p n := rfl
  have hafter : (s.advance p).afterReport p n = s.afterReport p n := rfl
  rw [State.reportNode_eq, hfalls, hafter, State.afterReport] at hrest
  refine ⟨u, hexec, hports, fun hf => ?_, fun hf => ?_⟩
  · rw [← s.fallsBy_iff] at hf
    rw [if_pos hf, if_pos hf, hf, Bool.or_true] at hrest
    exact hrest
  · rw [← s.fallsBy_iff] at hf
    rw [if_neg hf, if_neg hf, Bool.eq_false_iff.mpr hf, Bool.or_false, List.append_nil] at hrest
    exact hrest

/-! ### REPORT-RACK-DOWN (R26) -/

/-- R26: what the state comes to when the nodes of `l` have been reported one after another. -/
structure NodesReported (p : PortId) (s : State) (l : List NodeId) (t : State) : Prop where
  rest : { s with nodes := t.nodes, sweepFifo := t.sweepFifo, attempt := t.attempt } = t
  node : ∀ n, t.node n = if n ∈ l then s.afterReport p n else s.node n
  fifo : t.sweepFifo = s.sweepFifo ++ l.filter (s.fallsBy p)
  attempt : t.attempt = (s.attempt || l.any (s.fallsBy p))

section Reported

variable {p : PortId} {s t : State} {l : List NodeId}

theorem NodesReported.start (p : PortId) (s : State) : NodesReported p s [] s where
  rest := rfl
  node := by simp
  fifo := by simp
  attempt := by simp

/-- A node not reported yet is treated as it would be at the start. -/
theorem NodesReported.fallsBy (h : NodesReported p s l t) {n : NodeId} (hn : n ∉ l) : t.fallsBy p n = s.fallsBy p n := by
  have hquorum : t.quorum = s.quorum := by rw [← h.rest]
  simp only [State.fallsBy, hquorum, h.node, if_neg hn]

theorem NodesReported.afterReport (h : NodesReported p s l t) {n : NodeId} (hn : n ∉ l) :
    t.afterReport p n = s.afterReport p n := by
  simp only [State.afterReport, h.fallsBy hn, h.node, if_neg hn]

theorem NodesReported.step (h : NodesReported p s l t) {n : NodeId} (hn : n ∉ l) :
    NodesReported p s (l ++ [n]) (t.reportNode p n) := by
  rw [State.reportNode_eq, h.fallsBy hn, h.afterReport hn]
  refine ⟨?_, fun k => ?_, ?_, ?_⟩
  · rw [← h.rest]
    rfl
  · have hnode : (t.setNode n (s.afterReport p n)).node k = if k ∈ l ++ [n] then s.afterReport p k else s.node k := by
      rw [State.node_setNode, h.node]
      by_cases hk : k = n
      · simp [hk]
      · simp [hk]
    exact hnode
  · show t.sweepFifo ++ _ = _
    rw [h.fifo, List.filter_append, List.append_assoc, List.filter_singleton]
    cases s.fallsBy p n <;> rfl
  · show (t.attempt || s.fallsBy p n) = _
    rw [h.attempt, List.any_append, List.any_cons, List.any_nil, Bool.or_false, Bool.or_assoc]

theorem NodesReported.foldl (h : NodesReported p s l t) {l' : List NodeId} (hnodup : (l ++ l').Nodup) :
    NodesReported p s (l ++ l') (l'.foldl (State.reportNode p) t) := by
  induction l' generalizing l t with
  | nil => rwa [List.append_nil]
  | cons n l' ih =>
    have hn : n ∉ l := fun hmem => (List.nodup_append.mp hnodup).2.2 n hmem n List.mem_cons_self rfl
    rw [List.append_cons] at hnodup ⊢
    exact ih (h.step hn) hnodup

/-- What the reports come to is seen beside any change of the ports. -/
theorem NodesReported.withPorts (h : NodesReported p s l t) {u : State} (hu : { t with ports := u.ports } = u) :
    NodesReported p { s with ports := u.ports } l u := by
  obtain ⟨hrest, hnode, hfifo, hattempt⟩ := h
  refine ⟨?_, fun n => ?_, ?_, ?_⟩
  · rw [← hu, ← hrest]
  · rw [← hu]
    exact hnode n
  · rw [← hu]
    exact hfifo
  · rw [← hu]
    exact hattempt

end Reported

theorem State.mem_rackNodes (s : State) (rack : RackId) (n : NodeId) :
    n ∈ s.rackNodes rack ↔ (s.node n).state ≠ .undefined ∧ (s.node n).rack = some rack := by
  simp [State.rackNodes, indicesWhere_eq, State.node]

theorem State.rackNodes_rising (s : State) (rack : RackId) : (s.rackNodes rack).Pairwise (· < ·) := by
  rw [State.rackNodes, indicesWhere_eq]
  exact (List.pairwise_lt_finRange 256).filter _

theorem State.reportRack_spec (p : PortId) (s : State) (rack : RackId) :
    NodesReported p s (s.rackNodes rack) ((s.rackNodes rack).foldl (State.reportNode p) s) := by
  have hnodup : (s.rackNodes rack).Nodup := (s.rackNodes_rising rack).imp Fin.ne_of_lt
  exact (NodesReported.start p s).foldl hnodup

section

variable {r : Request} {s : State}

theorem reportRackDecide_bad (p : PortId) (h : 63 < r.rackId) (s : State) :
    reportRackDecide p r s = Answer.only s .invalid := by
  simp only [reportRackDecide, asFin_eq_none (show 64 ≤ r.rackId from h)]

theorem reportRackDecide_good (p : PortId) {rack : RackId} (h : rack.val = r.rackId) (s : State) :
    reportRackDecide p r s = Answer.only ((s.rackNodes rack).foldl (State.reportNode p) s).refreshWaits .ok := by
  simp only [reportRackDecide, ← h, asFin_val]

end

/-- Settles O17: the nodes that fall are those of the rack that `fallsBy` names, in the ascending order of `rackNodes`. -/
theorem reportRackDownTreatsWholeRack : Obligations.ReportRackDownTreatsWholeRack := by
  unfold Obligations.ReportRackDownTreatsWholeRack
  intro s p h
  dsimp only
  rw [exec_reportRackDown]
  refine ⟨fun hbad => exec_only h .invalid .none (reportRackDecide_bad p hbad _), fun rack hrack => ?_⟩
  have hreported := State.reportRack_spec p (s.advance p) rack
  obtain ⟨u, hexec, hports, hu⟩ := exec_waits h (reportRackDecide_good p hrack (s.advance p)) fun q => by
    rw [← hreported.rest]
    rfl
  obtain ⟨hrest, hnode, hfifo, hattempt⟩ := hreported.withPorts hu
  have hfifo : u.sweepFifo = s.sweepFifo ++ (s.rackNodes rack).filter (s.fallsBy p) := hfifo
  have hattempt : u.attempt = (s.attempt || (s.rackNodes rack).any (s.fallsBy p)) := hattempt
  refine ⟨u, hexec, hports, hrest, fun n => ?_, _, hfifo, (s.rackNodes_rising rack).filter _, fun n => ?_, fun hl => ?_,
    fun hl => ?_⟩
  · have hnode : u.node n = if n ∈ s.rackNodes rack then s.afterReport p n else s.node n := hnode n
    rw [hnode, ← s.mem_rackNodes, ← s.fallsBy_iff, State.afterReport]
    refine ⟨fun ⟨hin, hf⟩ => ?_, fun hin hf => ?_, fun hout => if_neg hout⟩
    · rw [if_pos hin, if_pos hf]
    · rw [if_pos hin, if_neg fun hfalls => hf ⟨hin, hfalls⟩]
  · rw [List.mem_filter, s.mem_rackNodes, s.fallsBy_iff]
  · obtain ⟨n, hn⟩ := List.exists_mem_of_ne_nil _ hl
    rw [hattempt, List.any_eq_true.mpr ⟨n, List.mem_filter.mp hn⟩, Bool.or_true]
  · have hnone : (s.rackNodes rack).any (s.fallsBy p) = false :=
      List.any_eq_false.mpr (List.filter_eq_nil_iff.mp hl)
    rw [hattempt, hnone, Bool.or_false]

end Sys2Proof.Machine
end

section
/-! PROOFS. The beginning and the end of a sweep (O20). -/

namespace Sys2Proof.Machine

open Sys2Proof.Config

theorem exec_sweepBegin (s : State) : exec .sweepBegin s = event s true s.startSweep := rfl

theorem exec_sweepEnd (s : State) : exec .sweepEnd s = execSweepEnd s := rfl

/-- An event that leaves the ports as they are. -/
theorem event_tables {s t : State} {a : Bool} (h : s.inReset = false) (ha : a = true) (hp : t.ports = s.ports) :
    event s a t = .next t := by
  rw [event_next h ha, countRises_eq (u := t) (fun q => ?_) rfl]
  rw [State.port_congr hp]
  exact Port.risen_of_line_eq rfl

section

variable {s : State} {n : NodeId} {rest : List NodeId}

theorem State.startSweep_begins (hw : s.sweep = none) (hf : s.sweepFifo = n :: rest) :
    s.startSweep = { s with sweepFifo := rest, sweep := some ⟨n, 0⟩ } := by
  simp only [State.startSweep, hw, hf]

theorem State.startSweep_idle (h : s.sweep ≠ none ∨ s.sweepFifo = []) : s.startSweep = s := by
  unfold State.startSweep
  split
  · next hw hf => simp [hw, hf] at h
  · rfl

theorem State.ports_startSweep (s : State) : s.startSweep.ports = s.ports := by
  unfold State.startSweep
  split <;> rfl

theorem exec_sweepEnd_ends {w : Sweep} (hreset : s.inReset = false) (hw : s.sweep = some w)
    (hl : s.liveBetween w.next tableSize = false) {t : State}
    (ht : ({ s with sweep := none, attempt := true } : State).startSweep = t) : exec .sweepEnd s = .next t := by
  rw [← ht]
  simp only [exec_sweepEnd, execSweepEnd, hw]
  exact event_tables hreset (by rw [hl]; rfl) (State.ports_startSweep _)

end

/-- Settles O20, by what stands in the sweep and at the head of the FIFO. -/
theorem sweepBeginsAtFifoHeadAndEnds : Obligations.SweepBeginsAtFifoHeadAndEnds := by
  unfold Obligations.SweepBeginsAtFifoHeadAndEnds
  intro s hreset
  have hbegin : exec .sweepBegin s = .next s.startSweep :=
    (exec_sweepBegin s).trans (event_tables hreset rfl s.ports_startSweep)
  refine ⟨fun n rest hw hf => ?_, fun hidle => ?_, fun w hw hclosed => ⟨fun hf => ?_, fun n rest hf => ?_⟩, ?_⟩
  · rw [hbegin, State.startSweep_begins hw hf]
  · rw [hbegin, State.startSweep_idle hidle]
  · exact exec_sweepEnd_ends hreset hw ((s.liveBetween_eq_false_iff ..).mpr hclosed) (State.startSweep_idle (.inr hf))
  · exact exec_sweepEnd_ends hreset hw ((s.liveBetween_eq_false_iff ..).mpr hclosed) (State.startSweep_begins rfl hf)
  · rintro (hw | ⟨w, hw, hlive⟩)
    · simp only [exec_sweepEnd, execSweepEnd, hw]
      exact event_idle (.inr rfl)
    · have hl : s.liveBetween w.next tableSize = true := (s.liveBetween_iff ..).mpr hlive
      simp only [exec_sweepEnd, execSweepEnd, hw]
      exact event_idle (.inr (by rw [hl]; rfl))

end Sys2Proof.Machine
end

section
/-! PROOFS. The Repair Table's invariant through the shared operations: those that change no entry's standing in it, and
those of an entry's life (O60). -/

namespace Sys2Proof.Machine

open Sys2Proof.Config

/-! ### The invariant, handle by handle (R40, R56) -/

/-- R40, R56: a live entry has a submitter, and a plan is present only in PLANNING, ACTIVE and DRAINING. -/
def Entry.lawful (e : Entry) : Prop :=
  (e.state ≠ .closed → e.submitters ≠ 0)
    ∧ (e.plan ≠ none → e.state = .planning ∨ e.state = .active ∨ e.state = .draining)

/-- The table's invariant, but for what the entry at `h` itself must meet: what holds in the middle of a step on it. -/
structure TableBut (s : State) (h : Handle) : Prop where
  rising : s.rising
  below : ∀ k e, s.entry? k = some e → k < 4096
  stripes : ∀ j k e f, s.entry? j = some e → s.entry? k = some f → e.stripe = f.stripe → j = k
  lawful : ∀ k e, k ≠ h → s.entry? k = some e → e.lawful

theorem State.mem_entries_iff {s : State} (hr : s.rising) (h : Handle) (e : Entry) :
    (h, e) ∈ s.entries ↔ s.entry? h = some e :=
  ⟨State.entry_of_mem hr, Table.mem_of_find⟩

theorem TableBut.holds {s : State} {h : Handle} (k : TableBut s h) (hl : ∀ e, s.entry? h = some e → e.lawful) :
    s.tableHolds := by
  have hentry : ∀ he ∈ s.entries, s.entry? he.1 = some he.2 := fun he hm => (State.mem_entries_iff k.rising ..).mp hm
  refine ⟨k.rising, fun he hm => k.below _ _ (hentry he hm),
    fun a ha b hb => k.stripes _ _ _ _ (hentry a ha) (hentry b hb), fun he hm => ?_⟩
  by_cases hk : he.1 = h
  · exact hl he.2 (hk ▸ hentry he hm)
  · exact k.lawful _ _ hk (hentry he hm)

section

variable {s t : State} {h : Handle} {e f : Entry}

theorem State.tableHolds.rising (k : s.tableHolds) : s.rising := k.1

theorem State.tableHolds.lawful (k : s.tableHolds) (he : s.entry? h = some e) : e.lawful := by
  obtain ⟨-, -, -, hl⟩ := k
  exact hl (h, e) (Table.mem_of_find he)

theorem State.tableHolds.but (k : s.tableHolds) (h : Handle) : TableBut s h := by
  refine ⟨k.rising, fun j f hf => ?_, fun i j e f he hf => ?_, fun j f _ hf => k.lawful hf⟩
  · obtain ⟨-, hbelow, -, -⟩ := k
    exact hbelow (j, f) (Table.mem_of_find hf)
  · obtain ⟨-, -, hstripes, -⟩ := k
    exact hstripes (i, e) (Table.mem_of_find he) (j, f) (Table.mem_of_find hf)

/-- Where each entry stands for one of the same stripe, and is lawful at every handle but `h` if that one is. -/
theorem TableBut.carry (k : TableBut s h) (hr : t.rising)
    (hc : ∀ j f, t.entry? j = some f → ∃ e, s.entry? j = some e ∧ f.stripe = e.stripe ∧ (j ≠ h → e.lawful → f.lawful)) :
    TableBut t h := by
  refine ⟨hr, fun j f hf => ?_, fun i j e f he hf hs => ?_, fun j f hj hf => ?_⟩
  · obtain ⟨e, he, -⟩ := hc j f hf
    exact k.below j e he
  · obtain ⟨e', he', hse, -⟩ := hc i e he
    obtain ⟨f', hf', hsf, -⟩ := hc j f hf
    exact k.stripes i j e' f' he' hf' (by rw [← hse, ← hsf, hs])
  · obtain ⟨e, he, -, hl⟩ := hc j f hf
    exact hl hj (k.lawful j e hj he)

/-- The entry at the exempt handle is written anew. -/
theorem TableBut.setEntry (k : TableBut s h) (he : s.entry? h = some e) (hs : f.stripe = e.stripe) :
    TableBut (s.setEntry h f) h := by
  refine k.carry (State.rising_setEntry k.rising h f) fun j g hg => ?_
  rw [State.entry_setEntry] at hg
  by_cases hj : j = h
  · rw [if_pos hj, Option.some.injEq] at hg
    exact ⟨e, hj ▸ he, hg ▸ hs, fun hn => absurd hj hn⟩
  · rw [if_neg hj] at hg
    exact ⟨g, hg, rfl, fun _ hl => hl⟩

theorem TableBut.setEntry_holds (k : TableBut s h) (he : s.entry? h = some e) (hl : f.lawful)
    (hs : f.stripe = e.stripe) : (s.setEntry h f).tableHolds := by
  refine (k.setEntry he hs).holds fun g hg => ?_
  rw [State.entry_put, Option.some.injEq] at hg
  exact hg ▸ hl

theorem State.tableHolds.setEntry (k : s.tableHolds) (he : s.entry? h = some e) (hl : f.lawful)
    (hs : f.stripe = e.stripe) : (s.setEntry h f).tableHolds := (k.but h).setEntry_holds he hl hs

end

/-! ### Operations that change nothing the invariant reads -/

/-- What the table's invariant reads of an entry. -/
def Entry.shape (e : Entry) : U64 × PortSet × EntryState × Bool := (e.stripe, e.submitters, e.state, e.plan.isSome)

theorem Entry.shape_eq_iff {e f : Entry} : e.shape = f.shape ↔
    e.stripe = f.stripe ∧ e.submitters = f.submitters ∧ e.state = f.state ∧ e.plan.isSome = f.plan.isSome := by
  simp only [Entry.shape, Prod.mk.injEq]

theorem Entry.lawful_of_shape {e f : Entry} (h : f.shape = e.shape) (hl : e.lawful) : f.lawful := by
  obtain ⟨-, hsub, hstate, hplan⟩ := Entry.shape_eq_iff.mp h
  obtain ⟨hlive, hp⟩ := hl
  unfold Entry.lawful
  rw [hstate, hsub]
  refine ⟨hlive, fun hn => hp ?_⟩
  rwa [← Option.isSome_iff_ne_none, ← hplan, Option.isSome_iff_ne_none]

/-- From `s` to `t` no entry comes or goes, and none changes in what the table's invariant reads. -/
structure ShapesKept (s t : State) : Prop where
  rising : s.rising → t.rising
  shape : ∀ k, (t.entry? k).map Entry.shape = (s.entry? k).map Entry.shape

theorem ShapesKept.of_entries {s t : State} (h : t.entries = s.entries) : ShapesKept s t := by
  refine ⟨fun hr => ?_, fun k => ?_⟩
  · rwa [State.rising, h]
  · rw [State.entry?, h]
    rfl

theorem ShapesKept.refl (s : State) : ShapesKept s s := .of_entries rfl

theorem ShapesKept.trans {s t u : State} (h : ShapesKept s t) (k : ShapesKept t u) : ShapesKept s u :=
  ⟨fun hr => k.rising (h.rising hr), fun j => (k.shape j).trans (h.shape j)⟩

theorem ShapesKept.foldl {α : Type} {f : State → α → State} (hf : ∀ s a, ShapesKept s (f s a)) (l : List α) (s : State) :
    ShapesKept s (l.foldl f s) := by
  induction l generalizing s with
  | nil => exact .refl s
  | cons a l ih => exact (hf s a).trans (ih _)

section

variable {s t : State} {h : Handle} {e : Entry}

theorem ShapesKept.entry (k : ShapesKept s t) (he : t.entry? h = some e) : ∃ f, s.entry? h = some f ∧ e.shape = f.shape := by
  have hshape := k.shape h
  rw [he, Option.map_some] at hshape
  obtain ⟨f, hf, hs⟩ := Option.map_eq_some_iff.mp hshape.symm
  exact ⟨f, hf, hs.symm⟩

theorem ShapesKept.entry_of (k : ShapesKept s t) (he : s.entry? h = some e) :
    ∃ f, t.entry? h = some f ∧ f.shape = e.shape := by
  have hshape := k.shape h
  rw [he, Option.map_some] at hshape
  exact Option.map_eq_some_iff.mp hshape

theorem ShapesKept.but (k : ShapesKept s t) (hs : TableBut s h) : TableBut t h := by
  refine hs.carry (k.rising hs.rising) fun j f hf => ?_
  obtain ⟨e, he, hshape⟩ := k.entry hf
  exact ⟨e, he, (Entry.shape_eq_iff.mp hshape).1, fun _ => Entry.lawful_of_shape hshape⟩

theorem ShapesKept.holds (k : ShapesKept s t) (hs : s.tableHolds) : t.tableHolds := by
  refine (k.but (hs.but 0)).holds fun f hf => ?_
  obtain ⟨e, he, hshape⟩ := k.entry hf
  exact Entry.lawful_of_shape hshape (hs.lawful he)

theorem ShapesKept.setEntry {f : Entry} (he : s.entry? h = some e) (hf : f.shape = e.shape) :
    ShapesKept s (s.setEntry h f) := by
  refine ⟨fun hr => State.rising_setEntry hr h f, fun k => ?_⟩
  rw [State.entry_setEntry]
  by_cases hk : k = h
  · rw [if_pos hk, hk, he, Option.map_some, Option.map_some, hf]
  · rw [if_neg hk]

end

theorem ShapesKept.modEntry (s : State) (h : Handle) {f : Entry → Entry} (hf : ∀ e, (f e).shape = e.shape) :
    ShapesKept s (s.modEntry h f) := by
  unfold State.modEntry
  split
  · next e he => exact .setEntry he (hf e)
  · exact .refl s

theorem ShapesKept.modMember (s : State) (h : Handle) (pos : Position) (f : Member → Member) :
    ShapesKept s (s.modMember h pos f) := .modEntry s h fun _ => rfl

theorem ShapesKept.modTarget (s : State) (h : Handle) (pos : Position) (f : Target → Target) :
    ShapesKept s (s.modTarget h pos f) := .modMember ..

theorem ShapesKept.modPlan (s : State) (h : Handle) (f : Plan → Plan) : ShapesKept s (s.modPlan h f) :=
  .modEntry s h fun e => by simp [Entry.shape]

theorem ShapesKept.cells {s t : State} (h : CellsOnly s t) : ShapesKept s t := .of_entries h.entries

theorem ShapesKept.release (s : State) (c : CellId) : ShapesKept s (s.release c) := .cells (.release s c)

theorem ShapesKept.releaseAll (s : State) (l : List CellId) : ShapesKept s (s.releaseAll l) := .cells (.releaseAll s l)

theorem ShapesKept.portsAndCells {f : Port → Port} {cs : Port → List CellId} {l : List PortId} {s t : State}
    (h : PortsAndCells f cs l s t) : ShapesKept s t := .of_entries (by rw [← h.rest])

theorem ShapesKept.withdrawFetches (s : State) (h : Handle) : ShapesKept s (s.withdrawFetches h) :=
  .portsAndCells (s.withdrawFetches_spec h)

theorem ShapesKept.freeOutputs (s : State) (f : Output → Bool) : ShapesKept s (s.freeOutputs f) :=
  .portsAndCells (s.freeOutputs_spec f)

theorem ShapesKept.emptyFetches (s : State) (p : PortId) (f : Fetch → Bool) : ShapesKept s (s.emptyFetches p f) :=
  .of_entries (CellsOnly.releaseAll _ _).entries

theorem ShapesKept.releaseBank (s : State) (b : Option BankId) : ShapesKept s (s.releaseBank b) :=
  .of_entries (by rw [← State.rest_releaseBank])

theorem ShapesKept.lookup (s : State) (key : Key) : ShapesKept s (s.lookup key).1 :=
  .of_entries (by rw [← State.lookup_rest])

theorem ShapesKept.startInversion (s : State) : ShapesKept s s.startInversion :=
  .of_entries (by rw [← State.startInversion_rest])

theorem ShapesKept.refreshWaits (s : State) : ShapesKept s s.refreshWaits := .of_entries (entries_refreshWaits s)

theorem ShapesKept.countRises (s t : State) : ShapesKept t (countRises s t) := .of_entries (by rw [← rest_countRises])

theorem ShapesKept.causeAttempt (s : State) : ShapesKept s s.causeAttempt := .of_entries rfl

theorem ShapesKept.count (s : State) (i : Fin 18) : ShapesKept s (s.count i) := .of_entries rfl

theorem ShapesKept.lowerLoad (s : State) (n : NodeId) : ShapesKept s (s.lowerLoad n) := .of_entries rfl

theorem ShapesKept.setPark (s : State) (x : Option Handle) : ShapesKept s { s with park := x } := .of_entries rfl

theorem ShapesKept.setDeliveries (s : State) (l : List Delivery) : ShapesKept s { s with deliveries := l } := .of_entries rfl

theorem ShapesKept.releaseTarget (h : Handle) (s : State) (pos : Position) : ShapesKept s (State.releaseTarget h s pos) := by
  unfold State.releaseTarget
  split
  · split
    · split
      · exact ShapesKept.trans (.modTarget ..) (.lowerLoad ..)
      · exact .refl s
    · exact .refl s
  · exact .refl s

theorem ShapesKept.releaseTargets (s : State) (h : Handle) : ShapesKept s (s.releaseTargets h) := by
  unfold State.releaseTargets
  split
  · exact .foldl (ShapesKept.releaseTarget h) _ s
  · exact .refl s

theorem ShapesKept.dropDestination (s : State) (owesVoid : Bool) (h : Handle) (pos : Position) :
    ShapesKept s (s.dropDestination owesVoid h pos) := by
  unfold State.dropDestination
  split
  · split
    · split
      · dsimp only
        refine ShapesKept.trans (.trans (.trans ?_ (.setDeliveries _ _)) (.modTarget ..)) (.lowerLoad ..)
        exact .freeOutputs ..
      · exact .refl s
    · exact .refl s
  · exact .refl s

theorem ite_holds {c : Prop} [Decidable c] {a b : State} (ha : c → a.tableHolds) (hb : ¬c → b.tableHolds) :
    (if c then a else b).tableHolds := by
  split
  · next hc => exact ha hc
  · next hc => exact hb hc

/-! ### Removal, plans dropped and closes (R51, R61, R63) -/

section

variable {s : State} {h : Handle} {e : Entry}

theorem State.tableHolds.removeIfDone (k : s.tableHolds) (h : Handle) : (s.removeIfDone h).tableHolds := by
  have herase : ∀ i f, (({ s with entries := Table.erase s.entries h } : State).modProfile i f).tableHolds := fun i f => by
    have hcarry : ∀ j g, Table.find (Table.erase s.entries h) j = some g → s.entry? j = some g := fun j g hg => by
      rw [Table.find_erase _ _ _ k.rising] at hg
      split at hg
      · cases hg
      · exact hg
    refine ((k.but h).carry (Table.sorted_erase _ _ k.rising) fun j g hg => ?_).holds fun g hg => ?_
    · exact ⟨g, hcarry j g hg, rfl, fun _ hl => hl⟩
    · exact k.lawful (hcarry h g hg)
  unfold State.removeIfDone
  split
  · split
    · exact herase _ _
    · exact k
  · exact k

theorem TableBut.dropPlan (k : TableBut s h) (he : s.entry? h = some e) (hl : e.state ≠ .closed → e.submitters ≠ 0) :
    (s.dropPlan h).tableHolds := by
  have hdrop := State.dropPlan_spec he
  have hrising : (s.dropPlan h).rising := by
    rcases hdrop.entries with hx | ⟨hx, -⟩
    · rw [State.rising, hx]
      exact Table.sorted_put _ _ _ k.rising
    · rw [State.rising, hx]
      exact k.rising
  refine (k.carry hrising fun j f hf => ?_).holds fun f hf => ?_
  · rw [hdrop.entry] at hf
    by_cases hj : j = h
    · rw [if_pos hj, Option.some.injEq] at hf
      exact ⟨e, hj ▸ he, hf ▸ rfl, fun hn => absurd hj hn⟩
    · rw [if_neg hj] at hf
      exact ⟨f, hf, rfl, fun _ hl => hl⟩
  · rw [hdrop.entry, if_pos rfl, Option.some.injEq] at hf
    subst hf
    exact ⟨hl, fun hn => absurd rfl hn⟩

theorem State.dropPlan_absent (he : s.entry? h = none) : s.dropPlan h = s := by
  simp only [State.dropPlan, he]

theorem State.tableHolds.dropPlan (k : s.tableHolds) (h : Handle) : (s.dropPlan h).tableHolds := by
  cases he : s.entry? h with
  | none => rwa [State.dropPlan_absent he]
  | some e => exact (k.but h).dropPlan he (k.lawful he).1

/-- R61: a live entry closes, whatever it lacked in the middle of the step. -/
theorem TableBut.closeEntry (k : TableBut s h) (he : s.entry? h = some e) (hc : e.state ≠ .closed) (o : EntryOutcome) :
    (s.closeEntry h o).tableHolds := by
  have hentries : (s.beginClose h e o).entries = (s.setEntry h (e.closing o)).entries := by
    unfold State.beginClose
    split <;> rfl
  have hbegun : TableBut (s.beginClose h e o) h :=
    (ShapesKept.of_entries hentries).but (k.setEntry (f := e.closing o) he rfl)
  have hentry : (s.beginClose h e o).entry? h = some (e.closing o) := by
    rw [State.entry?, hentries]
    exact State.entry_put ..
  have hdropped := hbegun.dropPlan hentry fun hn => absurd rfl hn
  rw [State.closeEntry_eq he hc]
  refine State.tableHolds.removeIfDone ?_ h
  refine ShapesKept.holds (.trans ?_ (.count ..)) hdropped
  exact .trans (.withdrawFetches _ h) (.trans (.freeOutputs ..) (.releaseTargets ..))

theorem State.tableHolds.closeEntry (k : s.tableHolds) (h : Handle) (o : EntryOutcome) : (s.closeEntry h o).tableHolds := by
  cases he : s.entry? h with
  | none => simpa only [State.closeEntry, he] using k
  | some e =>
    by_cases hc : e.state = .closed
    · simpa only [State.closeEntry, he, hc, if_true] using k
    · exact (k.but h).closeEntry he hc o

/-! ### Lost counts, triggers, settling, parks (R52, R53, R55, R59, R82, R119) -/

/-- R51: a live entry without a plan becomes QUEUED. -/
theorem State.tableHolds.enterQueued (k : s.tableHolds) (he : s.entry? h = some e) (hc : e.state ≠ .closed)
    (hp : e.plan = none) : (s.enterQueued h).tableHolds := by
  obtain ⟨hlive, -⟩ := k.lawful he
  have hqueued : ({ e with state := .queued, wait := some .noSlot, replan := false } : Entry).lawful :=
    ⟨fun _ => hlive hc, fun hn => absurd hp hn⟩
  unfold State.enterQueued
  rw [State.modEntry_eq he]
  exact (ShapesKept.causeAttempt _).holds (k.setEntry he hqueued rfl)

theorem State.tableHolds.reckon (k : s.tableHolds) (h : Handle) : (s.reckon h).tableHolds := by
  unfold State.reckon
  split
  · next e he =>
    split
    · exact k
    · dsimp only
      split
      · exact k.closeEntry ..
      · split
        · exact k.closeEntry ..
        · have hlawful : e.lawful := k.lawful he
          exact k.setEntry he hlawful rfl
  · exact k

theorem State.tableHolds.trigger (k : s.tableHolds) (h : Handle) : (s.trigger h).tableHolds := by
  cases he : s.entry? h with
  | none => simpa only [State.trigger, he] using k
  | some e =>
    obtain ⟨hlive, hplan⟩ := k.lawful he
    have hreplans : e.state ≠ .closed → ((s.setEntry h { e with state := .planning, replan := true }).causeAttempt).tableHolds :=
      fun hc => (ShapesKept.causeAttempt _).holds (k.setEntry he ⟨fun _ => hlive hc, fun _ => .inl rfl⟩ rfl)
    cases hs : e.state with
    | queued | draining | closed => simpa only [State.trigger, he, hs] using k
    | planning | active =>
      simp only [State.trigger, he, hs]
      split
      · exact k
      · exact hreplans (by simp [hs])
    | settling =>
      simp only [State.trigger, he, hs]
      refine k.enterQueued he (by simp [hs]) ?_
      by_contra hn
      simpa [hs] using hplan hn

theorem State.tableHolds.afterLoss (k : s.tableHolds) (h : Handle) : (s.afterLoss h).tableHolds := (k.reckon h).trigger h

theorem State.tableHolds.strike (k : s.tableHolds) (h : Handle) (pos : Position) (cause : LostCause) :
    (s.strike h pos cause).tableHolds := by
  unfold State.strike
  split
  · split
    · exact (ShapesKept.modMember ..).holds k
    · exact ((ShapesKept.modMember ..).holds k).afterLoss h
  · exact k

theorem State.tableHolds.closeIfDrained (k : s.tableHolds) (h : Handle) : (s.closeIfDrained h).tableHolds := by
  unfold State.closeIfDrained
  split
  · split
    · exact k.closeEntry ..
    · exact k
  · exact k

theorem State.tableHolds.loseDestination (k : s.tableHolds) (owesVoid : Bool) (h : Handle) (pos : Position) :
    (s.loseDestination owesVoid h pos).tableHolds :=
  (((ShapesKept.dropDestination ..).holds k).trigger h).closeIfDrained h

theorem State.tableHolds.settleIfDone (k : s.tableHolds) (h : Handle) : (s.settleIfDone h).tableHolds := by
  unfold State.settleIfDone
  split
  · next e he =>
    split
    · next hs =>
      have hsub : e.submitters ≠ 0 := (k.lawful he).1 (by simp [hs.1])
      have hsettling := (k.but h).setEntry (f := { e with state := .settling }) he rfl
      exact hsettling.dropPlan (State.entry_put ..) fun _ => hsub
    · exact k
  · exact k

/-- R84 to R86: a live entry enters ACTIVE. -/
theorem State.tableHolds.enterActive (k : s.tableHolds) (he : s.entry? h = some e) (hc : e.state ≠ .closed) :
    (s.enterActive h).tableHolds := by
  obtain ⟨hlive, -⟩ := k.lawful he
  unfold State.enterActive
  rw [State.modEntry_eq he]
  exact (k.setEntry (f := { e with state := .active }) he ⟨fun _ => hlive hc, fun _ => .inr (.inl rfl)⟩ rfl).settleIfDone h

theorem State.tableHolds.activateIfReady (k : s.tableHolds) (h : Handle) : (s.activateIfReady h).tableHolds := by
  cases he : s.entry? h with
  | none => simpa only [State.activateIfReady, he] using k
  | some e =>
    simp only [State.activateIfReady, he]
    refine ite_holds (fun hs => ?_) fun _ => k
    exact k.enterActive he (by simp [hs.1])

/-- R82: a live entry is parked. -/
theorem State.tableHolds.completePark (k : s.tableHolds) (he : s.entry? h = some e) (hc : e.state ≠ .closed) :
    (s.completePark h).tableHolds := by
  have hdropped : (({ s with park := none } : State).dropPlan h).tableHolds :=
    State.tableHolds.dropPlan ((ShapesKept.setPark s none).holds k) h
  have he' : ({ s with park := none } : State).entry? h = some e := he
  have hdrop := State.dropPlan_spec he'
  unfold State.completePark
  exact hdropped.enterQueued (e := { e with plan := none }) (by rw [hdrop.entry, if_pos rfl]) hc rfl

end

end Sys2Proof.Machine
end

section
/-! PROOFS. The Repair Table's invariant through planning, and through every command (O60). -/

namespace Sys2Proof.Machine

open Sys2Proof.Config

/-! ### The parts of a plan (R72, R73, R84, R85) -/

theorem ShapesKept.setCell (s : State) (c : CellId) (x : Option Cell) : ShapesKept s (s.setCell c x) := .of_entries rfl

theorem ShapesKept.reserveOne (h : Handle) (s : State) : ShapesKept s (s.reserveOne h) := by
  unfold State.reserveOne
  split
  · exact .setCell ..
  · exact .refl s

theorem ShapesKept.reserveFloor (h : Handle) (n : Nat) (s : State) : ShapesKept s (reserveFloor h n s) := by
  induction n generalizing s with
  | zero => exact .refl s
  | succ n ih => exact (ShapesKept.reserveOne h s).trans (ih _)

theorem ShapesKept.shrinkOne (h : Handle) (s : State) : ShapesKept s (s.shrinkOne h) := by
  unfold State.shrinkOne
  split
  · exact .release ..
  · exact .refl s

theorem ShapesKept.shrinkFloor (h : Handle) (n : Nat) (s : State) : ShapesKept s (shrinkFloor h n s) := by
  induction n generalizing s with
  | zero => exact .refl s
  | succ n ih => exact (ShapesKept.shrinkOne h s).trans (ih _)

theorem ShapesKept.resizeFloor (s : State) (h : Handle) (size : Nat) : ShapesKept s (s.resizeFloor h size) := by
  unfold State.resizeFloor
  dsimp only
  split
  · exact .trans (.modPlan ..) (.shrinkFloor ..)
  · exact .trans (.modPlan ..) (.reserveFloor ..)

theorem ShapesKept.giveDest (h : Handle) (start : Offset) (s : State) (c : Position × NodeId) :
    ShapesKept s (giveDest h start s c) := .trans (.modMember ..) (.of_entries rfl)

theorem ShapesKept.giveDests (s : State) (h : Handle) (start : Offset) (c : DestChoice) :
    ShapesKept s (s.giveDests h start c) :=
  .trans (.foldl (ShapesKept.giveDest h start) c.chosen s) (.of_entries rfl)

theorem ShapesKept.setStarts (s : State) (h : Handle) (start : Offset) (c : DestChoice) :
    ShapesKept s (s.setStarts h start c) := .foldl (fun _ _ => .modTarget ..) c.chosen s

theorem ShapesKept.setWait (s : State) (h : Handle) (w : WaitReason) : ShapesKept s (s.setWait h w) :=
  .modEntry s h fun _ => rfl

theorem ShapesKept.dropOutside (s : State) (h : Handle) (keeps : Position → Bool) : ShapesKept s (s.dropOutside h keeps) :=
  .trans (.releaseAll ..) (.foldl (fun _ _ => .emptyFetches ..) _ _)

theorem ShapesKept.reviseDests (s : State) (h : Handle) (d : Offset) : ShapesKept s (s.reviseDests h d) := by
  unfold State.reviseDests
  split
  · next e he =>
    have hrecords : ShapesKept s (s.setEntry h e.withRecords) := .setEntry he rfl
    exact (hrecords.trans (.giveDests ..)).trans (.modEntry _ h fun _ => rfl)
  · exact .refl s

theorem ShapesKept.rebank (s : State) (h : Handle) (old : Option BankId) (key : Key) : ShapesKept s (s.rebank h old key) := by
  unfold State.rebank
  split
  · split
    · exact .refl s
    · exact ((ShapesKept.releaseBank ..).trans (.lookup ..)).trans (.modPlan ..)
  · exact (ShapesKept.lookup ..).trans (.modPlan ..)

/-! ### Activations (R73) -/

/-- From `s` to `t` no entry closes. -/
structure ClosesNone (s t : State) : Prop where
  closed : ∀ k e, t.entry? k = some e → e.state = .closed → ∃ f, s.entry? k = some f ∧ f.state = .closed

theorem ClosesNone.refl (s : State) : ClosesNone s s := ⟨fun _ e he hc => ⟨e, he, hc⟩⟩

theorem ClosesNone.trans {s t u : State} (h : ClosesNone s t) (k : ClosesNone t u) : ClosesNone s u :=
  ⟨fun j e he hc => by
    obtain ⟨f, hf, hfc⟩ := k.closed j e he hc
    exact h.closed j f hf hfc⟩

theorem ShapesKept.closesNone {s t : State} (h : ShapesKept s t) : ClosesNone s t := ⟨fun k e he hc => by
  obtain ⟨f, hf, hshape⟩ := h.entry he
  obtain ⟨-, -, hstate, -⟩ := Entry.shape_eq_iff.mp hshape
  exact ⟨f, hf, hstate.symm.trans hc⟩⟩

/-- One entry changes, and does not close. -/
theorem ClosesNone.replaced {s t : State} {h : Handle} {g f : Entry} (hs : s.entry? h = some g)
    (ht : ∀ k, t.entry? k = if k = h then some f else s.entry? k) (hf : f.state = .closed → g.state = .closed) :
    ClosesNone s t := ⟨fun k e he hc => by
  rw [ht] at he
  by_cases hk : k = h
  · rw [if_pos hk] at he
    obtain rfl := Option.some.inj he
    exact ⟨g, hk ▸ hs, hf hc⟩
  · rw [if_neg hk] at he
    exact ⟨e, he, hc⟩⟩

theorem ClosesNone.setEntry {s : State} {h : Handle} {g f : Entry} (hs : s.entry? h = some g)
    (hf : f.state = .closed → g.state = .closed) : ClosesNone s (s.setEntry h f) :=
  .replaced hs (fun k => State.entry_setEntry s h k f) hf

theorem ClosesNone.modEntry (s : State) (h : Handle) {f : Entry → Entry}
    (hf : ∀ e, (f e).state = .closed → e.state = .closed) : ClosesNone s (s.modEntry h f) := by
  unfold State.modEntry
  split
  · next g hg => exact .setEntry hg (hf g)
  · exact .refl s

theorem ClosesNone.dropPlan (s : State) (h : Handle) : ClosesNone s (s.dropPlan h) := by
  cases hs : s.entry? h with
  | none =>
    rw [State.dropPlan_absent hs]
    exact .refl s
  | some g => exact .replaced hs (State.dropPlan_spec hs).entry fun hc => hc

theorem ClosesNone.settleIfDone (s : State) (h : Handle) : ClosesNone s (s.settleIfDone h) := by
  unfold State.settleIfDone
  split
  · next e he =>
    split
    · exact .trans (.setEntry he fun hc => absurd hc (by simp)) (.dropPlan ..)
    · exact .refl s
  · exact .refl s

theorem ClosesNone.enterActive (s : State) (h : Handle) : ClosesNone s (s.enterActive h) :=
  .trans (.modEntry s h fun _ hc => absurd hc (by simp)) (.settleIfDone ..)

theorem ClosesNone.activateIfReady (s : State) (h : Handle) : ClosesNone s (s.activateIfReady h) := by
  have hite : ∀ {c : Prop} [Decidable c], ClosesNone s (if c then s.enterActive h else s) := by
    intro c _
    split
    · exact .enterActive ..
    · exact .refl s
  unfold State.activateIfReady
  cases s.entry? h with
  | none => exact .refl s
  | some e => exact hite

/-- R73: what an activation comes to before the entry takes its plan: the entry is PLANNING. -/
theorem State.activate_eq (s : State) (h : Handle) (e : Entry) (t : Trial) :
    ∃ (f : Entry) (u : State) (pl : Plan), f.stripe = e.stripe ∧ f.submitters = e.submitters ∧ f.state = .planning
      ∧ ShapesKept (s.setEntry h f) u
      ∧ s.activate h e t = (u.modEntry h fun x => { x with plan := some pl }).activateIfReady h := by
  unfold State.activate
  dsimp only
  refine ⟨{ e.withRecords with
    state := .planning, wait := none, replan := false
    flags := e.flags.join t.dests.relaxed t.sources.skipped t.sources.suspect }, _, _, rfl, rfl, rfl, ?_, rfl⟩
  exact ((ShapesKept.giveDests ..).trans (.setStarts ..)).trans ((ShapesKept.reserveFloor ..).trans (.lookup ..))

theorem State.tableHolds.activate {s : State} {h : Handle} {e : Entry} (k : s.tableHolds) (he : s.entry? h = some e)
    (hc : e.state ≠ .closed) (t : Trial) : (s.activate h e t).tableHolds := by
  obtain ⟨f, u, pl, hstripe, hsub, hstate, hkept, heq⟩ := s.activate_eq h e t
  obtain ⟨g, hg, hshape⟩ := hkept.entry_of (State.entry_put ..)
  obtain ⟨-, hgsub, hgstate, -⟩ := Entry.shape_eq_iff.mp hshape
  have hsubmitters : g.submitters ≠ 0 := by
    rw [hgsub, hsub]
    exact (k.lawful he).1 hc
  have hbut : TableBut u h := hkept.but ((k.but h).setEntry he hstripe)
  have hlawful : ({ g with plan := some pl } : Entry).lawful :=
    ⟨fun _ => hsubmitters, fun _ => .inl (hgstate.trans hstate)⟩
  rw [heq, State.modEntry_eq hg]
  exact (hbut.setEntry_holds hg hlawful rfl).activateIfReady h

theorem ClosesNone.activate {s : State} {h : Handle} {e : Entry} (he : s.entry? h = some e) (t : Trial) :
    ClosesNone s (s.activate h e t) := by
  obtain ⟨f, u, pl, -, -, hstate, hkept, heq⟩ := s.activate_eq h e t
  have hplanning : ClosesNone s (s.setEntry h f) := .setEntry he fun hc => absurd hc (by simp [hstate])
  have hplan : ClosesNone u (u.modEntry h fun x => { x with plan := some pl }) := .modEntry u h fun _ hc => hc
  rw [heq]
  exact ((hplanning.trans hkept.closesNone).trans hplan).trans (.activateIfReady ..)

/-! ### The walk, revisions and parks (R68 to R70, R81, R84) -/

/-- R69, R70: a step of the walk leaves the state, records a wait reason or activates the entry. -/
theorem walkStep_state (w : Walk) (h : Handle) :
    (walkStep w h).state = w.state ∨ (∃ r, (walkStep w h).state = w.state.setWait h r)
      ∨ ∃ e t, w.state.entry? h = some e ∧ (walkStep w h).state = w.state.activate h e t := by
  unfold walkStep
  cases he : w.state.entry? h with
  | none => exact .inl rfl
  | some e =>
    dsimp only
    cases w.state.tryEntry e with
    | error r => exact .inr (.inl ⟨r, rfl⟩)
    | ok t =>
      cases w.hold with
      | none => exact .inr (.inr ⟨e, t, rfl, rfl⟩)
      | some r =>
        dsimp only
        split
        · exact .inr (.inr ⟨e, t, rfl, rfl⟩)
        · exact .inr (.inl ⟨r, rfl⟩)

/-- The entries at the handles still to be walked live. -/
def walksLive (s : State) (l : List Handle) : Prop := ∀ h ∈ l, ∀ e, s.entry? h = some e → e.state ≠ .closed

theorem ClosesNone.walkStep (w : Walk) (h : Handle) : ClosesNone w.state (walkStep w h).state := by
  rcases walkStep_state w h with hw | ⟨r, hw⟩ | ⟨e, t, he, hw⟩ <;> rw [hw]
  · exact .refl _
  · exact (ShapesKept.setWait ..).closesNone
  · exact .activate he t

theorem walkStep_tableHolds {w : Walk} {h : Handle} (k : w.state.tableHolds)
    (hl : ∀ e, w.state.entry? h = some e → e.state ≠ .closed) : (walkStep w h).state.tableHolds := by
  rcases walkStep_state w h with hw | ⟨r, hw⟩ | ⟨e, t, he, hw⟩ <;> rw [hw]
  · exact k
  · exact (ShapesKept.setWait ..).holds k
  · exact k.activate he (hl e he) t

theorem walk_tableHolds {w : Walk} {l : List Handle} (k : w.state.tableHolds) (hl : walksLive w.state l) :
    (l.foldl walkStep w).state.tableHolds := by
  induction l generalizing w with
  | nil => exact k
  | cons h l ih =>
    refine ih (walkStep_tableHolds k (hl h List.mem_cons_self)) fun j hj e he hc => ?_
    obtain ⟨f, hf, hfc⟩ := (ClosesNone.walkStep w h).closed j e he hc
    exact hl j (List.mem_cons_of_mem h hj) f hf hfc

/-- R67: the entries listed in queue order pass the test. -/
theorem State.entry_of_mem_inOrder {s : State} (hr : s.rising) {f : Entry → Bool} {h : Handle} (hm : h ∈ s.inOrder f) :
    ∃ e, s.entry? h = some e ∧ f e = true := by
  obtain ⟨⟨j, e⟩, hmem, rfl⟩ := List.mem_map.mp hm
  obtain ⟨hin, hf⟩ := List.mem_filter.mp (mem_queueOrder.mp hmem)
  exact ⟨e, State.entry_of_mem hr hin, hf⟩

section

variable {s : State}

theorem State.tableHolds.walkQueue (k : s.tableHolds) : s.walkQueue.state.tableHolds := by
  refine walk_tableHolds k fun h hh e he hc => ?_
  obtain ⟨f, hf, hq⟩ := State.entry_of_mem_inOrder k.rising hh
  obtain rfl := Option.some.inj (hf.symm.trans he)
  exact absurd (of_decide_eq_true hq) (by simp [hc])

theorem State.tableHolds.revise {h : Handle} {e : Entry} (k : s.tableHolds) (he : s.entry? h = some e)
    (hs : e.state = .planning) (pl : Plan) : (s.revise h e pl).tableHolds := by
  have hlawful : ∀ (x : Plan) (g : EntryFlags), ({ e with replan := false, plan := some x, flags := g } : Entry).lawful :=
    fun x g => ⟨fun hc => (k.lawful he).1 hc, fun _ => .inl hs⟩
  unfold State.revise
  dsimp only
  refine State.tableHolds.activateIfReady (ShapesKept.holds (.count ..) ?_) h
  have hset := fun x g => k.setEntry he (hlawful x g) rfl
  split
  · refine ShapesKept.holds (.trans (.trans (.trans (.dropOutside ..) (.reviseDests ..)) (.resizeFloor ..)) (.rebank ..)) ?_
    exact hset _ _
  · refine ShapesKept.holds (.trans (.trans (.trans (.trans (.dropOutside ..) (.reviseDests ..)) (.resizeFloor ..))
      (.releaseBank ..)) (.modPlan ..)) ?_
    exact hset _ _

theorem State.tableHolds.completePlan (k : s.tableHolds) (h : Handle) (pl : Plan) : (s.completePlan h pl).tableHolds := by
  unfold State.completePlan
  dsimp only
  refine State.tableHolds.activateIfReady ?_ h
  split
  · exact ShapesKept.holds (.trans (.reviseDests ..) (.rebank ..)) k
  · exact ShapesKept.holds (.reviseDests ..) k

theorem State.tableHolds.serve (k : s.tableHolds) (h : Handle) : (s.serve h).tableHolds := by
  unfold State.serve
  split
  · next e he =>
    split
    · next pl _ =>
      refine ite_holds (fun hs => ?_) fun _ => k
      exact ite_holds (fun _ => k.revise he hs.1 pl) fun _ => k.completePlan h pl
    · exact k
  · exact k

theorem State.tableHolds.markPark {h : Handle} {e : Entry} (k : s.tableHolds) (he : s.entry? h = some e)
    (hc : e.state ≠ .closed) : (s.markPark h).tableHolds := by
  have hkept : ShapesKept s ((({ s with park := some h } : State).withdrawFetches h).count 16) :=
    .trans (.trans (.setPark ..) (.withdrawFetches ..)) (.count ..)
  unfold State.markPark
  dsimp only
  generalize (({ s with park := some h } : State).withdrawFetches h).count 16 = u at hkept ⊢
  obtain ⟨f, hf, hshape⟩ := hkept.entry_of he
  obtain ⟨-, -, hstate, -⟩ := Entry.shape_eq_iff.mp hshape
  split
  · exact hkept.holds k
  · exact (hkept.holds k).completePark hf (by rwa [hstate])

theorem State.tableHolds.parkIfStarved (k : s.tableHolds) (starved : Bool) : (s.parkIfStarved starved).tableHolds := by
  unfold State.parkIfStarved
  split
  · split
    · next h hy =>
      obtain ⟨e, he, hactive⟩ := State.entry_of_mem_inOrder k.rising (List.mem_of_getLast? hy)
      have hstate : e.state = .active := (of_decide_eq_true hactive).1
      exact k.markPark he (by simp [hstate])
    · exact k
  · exact k

theorem State.tableHolds.foldl {α : Type} {f : State → α → State} (hf : ∀ s a, s.tableHolds → (f s a).tableHolds)
    (k : s.tableHolds) (l : List α) : (l.foldl f s).tableHolds := by
  induction l generalizing s with
  | nil => exact k
  | cons a l ih => exact ih (hf s a k)

/-- R68: a planning attempt. -/
theorem State.tableHolds.plan (k : s.tableHolds) : s.plan.tableHolds := by
  have hstart : ({ s with attempt := false } : State).tableHolds := (ShapesKept.of_entries rfl).holds k
  have hserved : ({ s with attempt := false } : State).servePlanning.tableHolds :=
    State.tableHolds.foldl (fun _ h k => k.serve h) hstart _
  exact hserved.walkQueue.parkIfStarved _

end

end Sys2Proof.Machine
end

section
/-! PROOFS. The Repair Table's invariant through every command (O60). -/

namespace Sys2Proof.Machine

open Sys2Proof.Config

/-! ### The shape of a command -/

theorem ShapesKept.modPort (s : State) (p : PortId) (f : Port → Port) : ShapesKept s (s.modPort p f) := .of_entries rfl

theorem ShapesKept.respond (s : State) (p : PortId) (k : Byte) (tag : U16) (st : Status) (b : Body) :
    ShapesKept s (s.respond p k tag st b) := .of_entries rfl

theorem ShapesKept.modNode (s : State) (n : NodeId) (f : Node → Node) : ShapesKept s (s.modNode n f) := .of_entries rfl

theorem ShapesKept.modProfile (s : State) (i : ProfileId) (f : Profile → Profile) : ShapesKept s (s.modProfile i f) :=
  .of_entries rfl

section

variable {s t result : State}

theorem event_tableHolds {a : Bool} (h : event s a result = .next t) (k : s.tableHolds) (hr : result.tableHolds) :
    t.tableHolds := by
  obtain rfl := Host.Outcome.next.inj h
  exact ite_holds (fun _ => (ShapesKept.countRises s result).holds hr) fun _ => k

theorem withRequest_tableHolds {p : PortId} {f : Byte → Bool} {body : Request → State → State}
    (h : withRequest p f s body = .next t) (k : s.tableHolds) (hb : ∀ r u, u.tableHolds → (body r u).tableHolds) :
    t.tableHolds := by
  obtain rfl := Host.Outcome.next.inj h
  have hadvance : ShapesKept s (s.advance p) := .of_entries rfl
  exact ite_holds (fun _ => (ShapesKept.countRises s _).holds (hb _ _ (hadvance.holds k))) fun _ => k

theorem withAnswer_tableHolds {p : PortId} {b : Byte} {d : Request → State → Answer}
    (h : withAnswer p b s d = .next t) (k : s.tableHolds) (hd : ∀ r u, u.tableHolds → (d r u).state.tableHolds) :
    t.tableHolds :=
  withRequest_tableHolds h k fun r u hu => (ShapesKept.respond ..).holds (hd r u hu)

end

section

variable {s : State}

theorem State.tableHolds.refreshWaits (k : s.tableHolds) : s.refreshWaits.tableHolds := (ShapesKept.refreshWaits s).holds k

theorem State.tableHolds.answers (k : s.tableHolds) (st : Status) : (Answer.only s.refreshWaits st).state.tableHolds := by
  simpa only [Answer.only] using k.refreshWaits

/-! ### Nodes, profiles and settings (01, 02, 10) -/

theorem ShapesKept.reportNode (p : PortId) (s : State) (n : NodeId) : ShapesKept s (s.reportNode p n) :=
  .of_entries (by rw [State.reportNode_eq]; rfl)

theorem ShapesKept.downIfQuorum (s : State) (n : NodeId) : ShapesKept s (s.downIfQuorum n) := by
  unfold State.downIfQuorum
  split
  · exact .of_entries rfl
  · exact .refl s

theorem ShapesKept.retract (p : PortId) (s : State) (n : NodeId) : ShapesKept s (s.retract p n) := by
  unfold State.retract
  split
  · exact .of_entries rfl
  · exact .refl s

theorem ShapesKept.revive (s : State) (n : NodeId) : ShapesKept s (s.revive n) := by
  unfold State.revive
  split
  · exact .of_entries rfl
  · exact .refl s

theorem ShapesKept.clearSuspect (s : State) (n : NodeId) : ShapesKept s (s.clearSuspect n) := by
  unfold State.clearSuspect
  split
  · exact .of_entries rfl
  · exact .refl s

theorem ShapesKept.chargeFailure (s : State) (n : NodeId) : ShapesKept s (s.chargeFailure n) := by
  unfold State.chargeFailure
  split
  · exact .of_entries rfl
  · exact .refl s

theorem ShapesKept.emptyKeyed (i : ProfileId) (s : State) (b : BankId) : ShapesKept s (s.emptyKeyed i b) :=
  .of_entries (by rw [State.emptyKeyed_eq]; rfl)

theorem ShapesKept.endWindows (s : State) : ShapesKept s s.endWindows := by
  unfold State.endWindows
  dsimp only
  split <;> exact .of_entries rfl

theorem ShapesKept.startSweep (s : State) : ShapesKept s s.startSweep := by
  unfold State.startSweep
  split
  · exact .of_entries rfl
  · exact .refl s

theorem defineNodeDecide_tableHolds (r : Request) (k : s.tableHolds) : (defineNodeDecide r s).state.tableHolds := by
  unfold defineNodeDecide
  split
  · dsimp only
    split
    · exact (ShapesKept.of_entries rfl).holds k
    · split
      · exact k
      · split
        · exact k
        · exact (ShapesKept.of_entries rfl).holds k
  · exact k

theorem oneNode_tableHolds {act : NodeId → State → State} (ha : ∀ n u, u.tableHolds → (act n u).tableHolds) (r : Request)
    (k : s.tableHolds) : (oneNode act r s).state.tableHolds := by
  unfold oneNode
  split
  · exact k
  · next n _ =>
    split
    · exact k
    · exact ha n s k

theorem reportRackDecide_tableHolds (p : PortId) (r : Request) (k : s.tableHolds) :
    (reportRackDecide p r s).state.tableHolds := by
  unfold reportRackDecide
  split
  · exact k
  · exact ((ShapesKept.foldl (ShapesKept.reportNode p) _ s).holds k).answers .ok

theorem setProfileDecide_tableHolds (r : Request) (k : s.tableHolds) : (setProfileDecide r s).state.tableHolds := by
  have hcode : ∀ i f, (s.modProfile i f).tableHolds := fun i f => (ShapesKept.of_entries rfl).holds k
  unfold setProfileDecide
  split
  · exact k
  · split
    · exact k
    · next i _ =>
      dsimp only
      split
      · exact hcode ..
      · split
        · exact k
        · split
          · exact k
          · have hemptied := (ShapesKept.foldl (ShapesKept.emptyKeyed i) allBanks _).holds
              (hcode i fun x => { x with code := some ⟨r.profileK, r.profileM⟩ })
            simpa only [Answer.only] using hemptied

theorem setDeviceDecide_tableHolds (r : Request) (k : s.tableHolds) : (setDeviceDecide r s).state.tableHolds := by
  have hwritten : (s.writeDevice r).tableHolds := (ShapesKept.of_entries rfl).holds k
  unfold setDeviceDecide
  split
  · exact k
  · dsimp only
    split
    · exact ((ShapesKept.foldl ShapesKept.downIfQuorum allNodes (s.writeDevice r)).holds hwritten).answers .ok
    · exact hwritten

theorem setModeDecide_tableHolds (p : PortId) (r : Request) (k : s.tableHolds) : (setModeDecide p r s).state.tableHolds := by
  unfold setModeDecide
  split
  · exact k
  · exact (ShapesKept.of_entries rfl).holds k

theorem postLandingDecide_tableHolds (p : PortId) (r : Request) (k : s.tableHolds) :
    (postLandingDecide p r s).state.tableHolds := by
  unfold postLandingDecide
  split
  · exact k
  · exact ((ShapesKept.modPort ..).holds k).answers .ok

/-! ### SUBMIT (R46 to R49) -/

/-- R41: the lowest free handle of those tried is the one found. -/
theorem lowestFree_eq {t : Table Entry} {h : Nat} (hn : Table.find t h = none) (n : Nat) :
    ∀ j : Nat, j ≤ h → h < j + n → (∀ k : Nat, j ≤ k → k < h → Table.find t k ≠ none) → lowestFree t n j = h := by
  induction n with
  | zero => intro j hle hlt; omega
  | succ n ih =>
    intro j hle hlt hused
    simp only [lowestFree]
    by_cases hj : j = h
    · rw [hj, hn]
      rfl
    · have hsome : ¬(Table.find t j).isNone = true := by
        simpa using hused j (Nat.le_refl j) (by omega)
      rw [if_neg hsome]
      exact ih (j + 1) (by omega) (by omega) fun k hk => hused k (by omega)

/-- R49: a table that is not full has a free handle. -/
theorem exists_free_handle {t : Table Entry} (h : t.length < 4096) : ∃ k : Nat, k < 4096 ∧ Table.find t k = none := by
  by_contra hn
  push Not at hn
  have hsubset : List.range 4096 ⊆ t.map Prod.fst := fun k hk => by
    obtain ⟨e, he⟩ := Option.ne_none_iff_exists'.mp (hn k (List.mem_range.mp hk))
    exact List.mem_map.mpr ⟨(k, e), Table.mem_of_find he, rfl⟩
  have hle := (List.nodup_range.subperm hsubset).length_le
  rw [List.length_range, List.length_map] at hle
  omega

theorem lowestFree_free {t : Table Entry} (h : t.length < 4096) :
    lowestFree t 4096 0 < 4096 ∧ Table.find t (lowestFree t 4096 0) = none := by
  have hex := exists_free_handle h
  obtain ⟨hlt, hfree⟩ := Nat.find_spec hex
  have hfound : lowestFree t 4096 0 = Nat.find hex :=
    lowestFree_eq hfree 4096 0 (Nat.zero_le _) (by omega) fun k _ hk hn => Nat.find_min hex hk ⟨hk.trans hlt, hn⟩
  rw [hfound]
  exact ⟨hlt, hfree⟩

theorem State.entryOfStripe_none {stripe : U64} (h : s.entryOfStripe stripe = none) {k : Handle} {e : Entry}
    (he : s.entry? k = some e) : e.stripe ≠ stripe := by
  have hall := List.find?_eq_none.mp h (k, e) (Table.mem_of_find he)
  simpa using hall

theorem State.entryOfStripe_some {stripe : U64} {h : Handle} {e : Entry} (hf : s.entryOfStripe stripe = some (h, e)) :
    (h, e) ∈ s.entries ∧ e.stripe = stripe :=
  ⟨List.mem_of_find?_eq_some hf, by simpa using List.find?_some hf⟩

/-- R40: an entry of a stripe that has none takes a free handle. -/
theorem State.tableHolds.setEntry_new {h : Handle} {f : Entry} (k : s.tableHolds) (hh : h < 4096) (hn : s.entry? h = none)
    (hs : ∀ j e, s.entry? j = some e → e.stripe ≠ f.stripe) (hl : f.lawful) : (s.setEntry h f).tableHolds := by
  have hentry : ∀ j e, (s.setEntry h f).entry? j = some e → j = h ∧ e = f ∨ j ≠ h ∧ s.entry? j = some e := fun j e he => by
    rw [State.entry_setEntry] at he
    by_cases hj : j = h
    · rw [if_pos hj] at he
      exact .inl ⟨hj, (Option.some.inj he).symm⟩
    · rw [if_neg hj] at he
      exact .inr ⟨hj, he⟩
  refine TableBut.holds (h := h) ⟨State.rising_setEntry k.rising h f, fun j e he => ?_, fun i j e g he hg hst => ?_,
    fun j e hj he => ?_⟩ fun e he => ?_
  · rcases hentry j e he with ⟨rfl, -⟩ | ⟨-, he⟩
    · exact hh
    · exact (k.but h).below j e he
  · rcases hentry i e he with ⟨hi, hf⟩ | ⟨-, hi⟩ <;> rcases hentry j g hg with ⟨hj, hf'⟩ | ⟨-, hj⟩
    · rw [hi, hj]
    · exact absurd (hst.symm.trans (congrArg Entry.stripe hf)) (hs j g hj)
    · exact absurd (hst.trans (congrArg Entry.stripe hf')) (hs i e hi)
    · exact (k.but h).stripes i j e g hi hj hst
  · rcases hentry j e he with ⟨rfl, -⟩ | ⟨-, he⟩
    · exact absurd rfl hj
    · exact k.lawful he
  · rw [State.entry_put, Option.some.injEq] at he
    exact he ▸ hl

theorem PortSet.single_ne_zero (p : PortId) : PortSet.single p ≠ 0 := by revert p; decide

theorem PortSet.add_ne_zero (a : PortSet) (p : PortId) : PortSet.add a p ≠ 0 := by revert a p; decide

theorem newEntry_lawful (s : State) (p : PortId) (r : Request) (sub : Submission) : (newEntry s p r sub).lawful :=
  ⟨fun _ => PortSet.single_ne_zero p, fun hn => absurd rfl hn⟩

theorem State.tableHolds.createEntry (k : s.tableHolds) (p : PortId) (r : Request) (sub : Submission)
    (hn : s.entryOfStripe r.stripe = none) (hlen : s.entries.length < 4096) : (s.createEntry p r sub).tableHolds := by
  obtain ⟨hlt, hfree⟩ := lowestFree_free hlen
  have hset := k.setEntry_new hlt hfree (f := newEntry s p r sub) (fun _ _ he => State.entryOfStripe_none hn he)
    (newEntry_lawful ..)
  exact (ShapesKept.of_entries rfl).holds hset

theorem State.tableHolds.merge {h : Handle} {e : Entry} (k : s.tableHolds) (he : s.entry? h = some e) (p : PortId)
    (r : Request) : (s.merge p r h e).tableHolds := by
  obtain ⟨-, hplan⟩ := k.lawful he
  have hjoined := k.setEntry he (f := flagLost r
    { e with submitters := PortSet.add e.submitters p, crossCheck := e.crossCheck || decide (r.crossCheck = 1) })
    ⟨fun _ => PortSet.add_ne_zero e.submitters p, hplan⟩ rfl
  unfold State.merge
  exact (ShapesKept.count ..).holds (ite_holds (fun _ => hjoined.afterLoss h) fun _ => hjoined)

theorem submitDecide_tableHolds (p : PortId) (r : Request) (k : s.tableHolds) : (submitDecide p r s).state.tableHolds := by
  unfold submitDecide
  split
  · exact k
  · next sub _ =>
    split
    · exact k
    · split
      · next h e hpresent =>
        split
        · exact k
        · split
          · have he := State.entry_of_mem k.rising (State.entryOfStripe_some hpresent).1
            exact (k.merge he p r).answers .merged
          · exact k
      · next hnew =>
        dsimp only
        split
        · exact k
        · split
          · exact k
          · split
            · exact k
            · next hroom => exact k.createEntry p r sub hnew (Nat.not_le.mp hroom)

/-! ### WITHDRAW, STORED and REFUSE-FRAGMENT (R45, R57, R58, R147, R149) -/

/-- R45: a request that passes the staleness check names an entry. -/
theorem State.named_ok {r : Request} {e : Entry} (h : s.named r = .ok e) : s.entry? r.handle = some e := by
  unfold State.named at h
  split at h
  · cases h
  · split at h
    · cases h
    · next f hf =>
      split at h
      · rwa [← Except.ok.inj h]
      · cases h

theorem State.tableHolds.drain {h : Handle} {e : Entry} (k : s.tableHolds) (he : s.entry? h = some e) :
    (s.drain h e).tableHolds := by
  obtain ⟨hlive, -⟩ := k.lawful he
  cases hs : e.state with
  | queued | planning | settling =>
    simp only [State.drain, hs]
    exact k.closeEntry ..
  | draining | closed => simpa only [State.drain, hs] using k
  | active =>
    have hdraining : (s.setEntry h { e with state := .draining }).tableHolds :=
      k.setEntry he ⟨fun _ => hlive (by simp [hs]), fun _ => .inr (.inr rfl)⟩ rfl
    simp only [State.drain, hs]
    refine State.tableHolds.closeIfDrained (ShapesKept.holds (.trans (.withdrawFetches ..) (.releaseAll ..)) ?_) h
    exact ite_holds (fun _ => (ShapesKept.setPark ..).holds hdraining) fun _ => hdraining

theorem withdrawDecide_tableHolds (p : PortId) (r : Request) (k : s.tableHolds) :
    (withdrawDecide p r s).state.tableHolds := by
  unfold withdrawDecide
  split
  · exact k
  · next e hnamed =>
    have he := State.named_ok hnamed
    split
    · exact k
    · split
      · exact k
      · split
        · exact k
        · split
          · next hleft =>
            obtain ⟨-, hplan⟩ := k.lawful he
            exact k.setEntry he ⟨fun _ => hleft, hplan⟩ rfl
          · split
            · exact (k.drain he).answers .ok
            · exact (k.closeEntry ..).answers .ok

theorem queryDecide_tableHolds (r : Request) (k : s.tableHolds) : (queryDecide r s).state.tableHolds := by
  unfold queryDecide
  split <;> exact k

theorem storedDecide_tableHolds (p : PortId) (r : Request) (k : s.tableHolds) : (storedDecide p r s).state.tableHolds := by
  unfold storedDecide
  split
  · exact k
  · split
    · exact k
    · split
      · refine (State.tableHolds.reckon ?_ _).answers .ok
        exact ShapesKept.holds (.trans (.modMember ..) (.lowerLoad ..)) k
      · exact k

theorem refuseDecide_tableHolds (p : PortId) (r : Request) (k : s.tableHolds) : (refuseDecide p r s).state.tableHolds := by
  unfold refuseDecide
  split
  · exact k
  · split
    · exact k
    · exact (k.loseDestination ..).answers .ok

/-! ### The Gather Unit (06) -/

theorem ShapesKept.emptySlotAt (s : State) (p : PortId) (t : FetchTag) (f : Fetch) : ShapesKept s (s.emptySlotAt p t f) := by
  unfold State.emptySlotAt
  exact .trans (.modPort ..) (.releaseAll ..)

theorem offerDecide_tableHolds (p : PortId) (r : Request) (k : s.tableHolds) : (offerDecide p r s).tableHolds := by
  unfold offerDecide
  split
  · exact (ShapesKept.of_entries rfl).holds k
  · exact ShapesKept.holds (.trans (.emptySlotAt ..) (.respond ..)) k
  · exact (ShapesKept.of_entries rfl).holds k

theorem declineDecide_tableHolds (p : PortId) (r : Request) (k : s.tableHolds) : (declineDecide p r s).state.tableHolds := by
  unfold declineDecide
  split
  · exact k
  · split
    · exact k
    · exact (ShapesKept.emptySlotAt ..).holds k
    · refine (State.tableHolds.afterLoss ?_ _).answers .ok
      exact ShapesKept.holds (.trans (.emptySlotAt ..) (.modMember ..)) k

theorem State.tableHolds.expire (k : s.tableHolds) (p : PortId) (t : FetchTag) (f : Fetch) : (s.expire p t f).tableHolds := by
  have hemptied := (ShapesKept.emptySlotAt s p t f).holds k
  unfold State.expire
  exact ite_holds (fun _ => ((ShapesKept.count ..).holds (hemptied.strike ..)).refreshWaits) fun _ => hemptied

theorem State.tableHolds.badsum (k : s.tableHolds) (x : Transfer) : (s.badsum x).tableHolds := by
  have hreleased : ((s.respond x.port 4 x.tag .badsum .none).release x.cell).tableHolds :=
    ShapesKept.holds (.trans (.respond ..) (.release ..)) k
  unfold State.badsum
  dsimp only
  refine State.tableHolds.refreshWaits (ShapesKept.holds (.count ..) (State.tableHolds.strike ?_ ..))
  split
  · exact (ShapesKept.chargeFailure ..).holds hreleased
  · exact hreleased

theorem State.tableHolds.endTransfer (k : s.tableHolds) (x : Transfer) (data : List Byte) :
    (s.endTransfer x data).tableHolds := by
  have hended : ({ s with transfers := s.transfers.filter fun (t : Transfer) => decide (t.cell ≠ x.cell) } : State).tableHolds :=
    (ShapesKept.of_entries rfl).holds k
  unfold State.endTransfer
  dsimp only
  refine ite_holds (fun _ => ((ShapesKept.release ..).holds hended).removeIfDone _) fun _ => ?_
  refine ite_holds (fun _ => State.tableHolds.removeIfDone ?_ _) fun _ => ?_
  · exact ShapesKept.holds (.trans (.release ..) (.respond ..)) hended
  · exact ite_holds (fun _ => (ShapesKept.of_entries rfl).holds hended) fun _ => hended.badsum x

/-! ### The Delivery Unit (08) -/

theorem State.tableHolds.creditDelivery (k : s.tableHolds) (d : Delivery) : (s.creditDelivery d).tableHolds := by
  have hcovered : (s.cover d.output).tableHolds := ShapesKept.holds (.trans (.modTarget ..) (.count ..)) k
  unfold State.creditDelivery
  split
  · refine ite_holds (fun _ => k.removeIfDone _) fun _ => ite_holds (fun _ => ?_) fun _ => k.closeIfDrained _
    exact (hcovered.settleIfDone _).closeIfDrained _
  · exact k

theorem State.tableHolds.endDelivery (k : s.tableHolds) (d : Delivery) : (s.endDelivery d).tableHolds := by
  unfold State.endDelivery
  refine State.tableHolds.creditDelivery (ShapesKept.holds (.trans ?_ (.release ..)) k) d
  exact .of_entries rfl

/-! ### The Decode Lanes (07) -/

theorem ShapesKept.drawOutput (h : Handle) (o : Offset) (bank : Bank) (a : State × List PassOutput) (pt : Position × Target) :
    ShapesKept a.1 (drawOutput h o bank a pt).1 := by
  unfold Machine.drawOutput
  split
  · exact .of_entries rfl
  · exact .refl _

theorem ShapesKept.drawOutputs (s : State) (h : Handle) (o : Offset) (bank : Bank) (l : List (Position × Target)) :
    ShapesKept s (s.drawOutputs h o bank l).1 := by
  suffices ∀ a : State × List PassOutput, ShapesKept a.1 (l.foldl (Machine.drawOutput h o bank) a).1 from this (s, [])
  induction l with
  | nil => exact fun a => .refl a.1
  | cons pt l ih => exact fun a => (ShapesKept.drawOutput h o bank a pt).trans (ih _)

theorem ShapesKept.dispatch (s : State) (l : LaneId) (h : Handle) (e : Entry) (pl : Plan) :
    ShapesKept s (s.dispatch l h e pl) := by
  unfold State.dispatch
  exact .trans (.drawOutputs ..) (.of_entries rfl)

theorem ShapesKept.settleOutput (x : Pass) (s : State) (o : PassOutput) : ShapesKept s (s.settleOutput x o) := by
  unfold State.settleOutput
  split
  · split
    · split
      · exact .of_entries rfl
      · exact .release ..
    · exact .release ..
  · exact .release ..

theorem ShapesKept.keepOutputs (s : State) (x : Pass) : ShapesKept s (s.keepOutputs x) :=
  .trans (.foldl (ShapesKept.settleOutput x) _ s) (.releaseAll ..)

theorem ShapesKept.advancePoint (s : State) (h : Handle) : ShapesKept s (s.advancePoint h) := by
  unfold State.advancePoint
  split
  · exact .modPlan ..
  · exact .refl s

theorem State.tableHolds.passStands {x : Pass} {e : Entry} (k : s.tableHolds) (he : s.entry? x.handle = some e) :
    (s.passStands x e).tableHolds := by
  have hoffered := (ShapesKept.keepOutputs s x).holds k
  have hadvanced := (ShapesKept.advancePoint (s.keepOutputs x) x.handle).holds hoffered
  obtain ⟨f, hf, hshape⟩ := (ShapesKept.keepOutputs s x).entry_of he
  obtain ⟨-, -, hstate, -⟩ := Entry.shape_eq_iff.mp hshape
  cases hs : e.state with
  | active =>
    simp only [State.passStands, hs]
    exact ite_holds (fun _ => hoffered.completePark hf (by simp [hstate, hs])) fun _ => hadvanced.settleIfDone _
  | draining =>
    simp only [State.passStands, hs]
    exact hoffered.closeIfDrained _
  | planning | queued | settling => simpa only [State.passStands, hs] using hadvanced
  | closed => simpa only [State.passStands, hs] using k

theorem State.tableHolds.completePass (k : s.tableHolds) (l : LaneId) (x : Pass) : (s.completePass l x).tableHolds := by
  have houtputs : ShapesKept s (s.writeOutputs x) := .foldl (fun _ _ => .setCell ..) x.outputs s
  have hwritten : (((s.writeOutputs x).setLane l none).count 15).tableHolds :=
    (houtputs.trans (.of_entries rfl)).holds k
  unfold State.completePass
  generalize ((s.writeOutputs x).setLane l none).count 15 = u at hwritten ⊢
  refine State.tableHolds.refreshWaits ?_
  have hdropped : (u.passDropped x).tableHolds := (ShapesKept.releaseAll ..).holds hwritten
  unfold State.decidePass
  split
  · next e he =>
    refine ite_holds (fun _ => hdropped.removeIfDone _) fun _ => ?_
    exact ite_holds (fun _ => hwritten.passStands he) fun _ => hdropped.closeEntry ..
  · exact hdropped

/-! ### Sweeps and the end of an inversion (02, 05) -/

theorem State.tableHolds.sweepEntry {h : Handle} {e : Entry} (k : s.tableHolds) (he : s.entry? h = some e) (n : NodeId) :
    (s.sweepEntry n h e).tableHolds := by
  have hmembers : ShapesKept s (s.setEntry h (sweepMembers n e)) := .setEntry he rfl
  have hdests := (hmembers.trans (.foldl (fun t pos => .dropDestination t true h pos) (e.boundFor n) _)).holds k
  have hreckoned := ite_holds (c := sweepHits n e = true) (fun _ => hdests.reckon h) fun _ => hdests
  exact ite_holds (fun _ => (hreckoned.trigger h).closeIfDrained h) fun _ => hreckoned

theorem State.tableHolds.sweepAt (k : s.tableHolds) (w : Sweep) (h : Handle) : (s.sweepAt w h).tableHolds := by
  have hreached : ({ s with sweep := some { w with next := h + 1 } } : State).tableHolds := (ShapesKept.of_entries rfl).holds k
  unfold State.sweepAt
  split
  · next e he => exact ite_holds (fun _ => hreached) fun _ => (hreached.sweepEntry he w.node).refreshWaits
  · exact hreached

theorem State.tableHolds.endInversion (k : s.tableHolds) (inv : Inversion) (b : BankId) (rest : List BankId) :
    (s.endInversion inv b rest).tableHolds := by
  unfold State.endInversion
  refine ShapesKept.holds (.trans (.causeAttempt _) (.startInversion _)) ?_
  refine State.tableHolds.foldl (fun _ h k => k.activateIfReady h) (ShapesKept.holds ?_ k) _
  exact .of_entries rfl

/-! ### The Port Units (10) -/

theorem State.tableHolds.triggerVia (k : s.tableHolds) (p : PortId) (h : Handle) : (s.triggerVia p h).tableHolds := by
  unfold State.triggerVia
  split
  · exact ite_holds (fun _ => k.trigger h) fun _ => k
  · exact k

theorem State.tableHolds.unbindVia (k : s.tableHolds) (p : PortId) (h : Handle) : (s.unbindVia p h).tableHolds := by
  unfold State.unbindVia
  split
  · refine ite_holds (fun _ => k) fun _ => State.tableHolds.closeIfDrained (State.tableHolds.trigger ?_ h) h
    exact (ShapesKept.foldl (fun t pos => .dropDestination t false h pos) _ s).holds k
  · exact k

/-- R65: an entry without a submitter closes at once. -/
theorem State.tableHolds.orphan (k : s.tableHolds) (p : PortId) (h : Handle) : (s.orphan p h).tableHolds := by
  unfold State.orphan
  split
  · next e he =>
    refine ite_holds (fun _ => k) fun hlive => ?_
    have hc : e.state ≠ .closed := fun hx => hlive (.inl hx)
    have hbut := (k.but h).setEntry (f := { e with submitters := PortSet.remove e.submitters p }) he rfl
    refine ite_holds (fun _ => hbut.closeEntry (State.entry_put ..) hc _) fun hleft => ?_
    obtain ⟨-, hplan⟩ := k.lawful he
    exact k.setEntry he ⟨fun _ => hleft, hplan⟩ rfl
  · exact k

theorem State.tableHolds.forget (k : s.tableHolds) (p : PortId) (h : Handle) : (s.forget p h).tableHolds :=
  ((ShapesKept.modEntry (f := Entry.dropItems p) s h fun _ => rfl).holds k).removeIfDone h

theorem State.tableHolds.resetFetching (k : s.tableHolds) (p : PortId) : (s.resetFetching p).tableHolds := by
  have htriggered := State.tableHolds.foldl (fun _ h k => k.triggerVia p h) ((ShapesKept.emptyFetches s p fun _ => true).holds k)
    (s.emptyFetches p fun _ => true).handles
  exact State.tableHolds.foldl (fun _ h k => k.unbindVia p h) ((ShapesKept.modPort ..).holds htriggered) _

theorem State.tableHolds.resetSubmitters (k : s.tableHolds) (p : PortId) : (s.resetSubmitters p).tableHolds :=
  State.tableHolds.foldl (fun _ h k => k.forget p h) (State.tableHolds.foldl (fun _ h k => k.orphan p h) k _) _

theorem State.tableHolds.beginReset (k : s.tableHolds) (p : PortId) : (s.beginReset p).tableHolds := by
  have hqueues : (s.resetQueues p).tableHolds := (ShapesKept.of_entries rfl).holds k
  have hreset := (hqueues.resetFetching p).resetSubmitters p
  unfold State.beginReset
  generalize ((s.resetQueues p).resetFetching p).resetSubmitters p = u at hreset ⊢
  exact State.tableHolds.refreshWaits ((ShapesKept.of_entries rfl).holds hreset)

theorem State.tableHolds.enterUp (k : s.tableHolds) (p : PortId) : (s.enterUp p).tableHolds :=
  State.tableHolds.refreshWaits ((ShapesKept.of_entries rfl).holds k)

theorem State.tableHolds.endReset (k : s.tableHolds) (p : PortId) : (s.endReset p).tableHolds :=
  ite_holds (fun _ => k.enterUp p) fun _ => (ShapesKept.of_entries rfl).holds k

theorem State.tableHolds.raiseLink (k : s.tableHolds) (p : PortId) : (s.raiseLink p).tableHolds := by
  have hlink : (s.modPort p fun q => { q with link := true }).tableHolds := (ShapesKept.of_entries rfl).holds k
  exact ite_holds (fun _ => hlink.enterUp p) fun _ => hlink

theorem State.tableHolds.loseLink (k : s.tableHolds) (p : PortId) : (s.loseLink p).tableHolds := by
  have hlink : (s.modPort p fun q => { q with link := false, eventEnable := false }).tableHolds :=
    (ShapesKept.of_entries rfl).holds k
  exact ite_holds (fun _ => hlink.beginReset p) fun _ => hlink

/-- R170: an empty table. -/
theorem tableHolds_of_empty (h : s.entries = []) : s.tableHolds := by
  simp [State.tableHolds, State.rising, h]

theorem State.tableHolds.sendClosedItem {h : Handle} {e : Entry} (k : s.tableHolds) (he : s.entry? h = some e) (p : PortId) :
    (s.sendClosedItem p h e).tableHolds := by
  have hmark : ShapesKept s (s.setEntry h { e with closedMarks := PortSet.remove e.closedMarks p }) := .setEntry he rfl
  exact State.tableHolds.removeIfDone ((hmark.trans (.modPort ..)).holds k) h

theorem State.tableHolds.sendVoidItem (k : s.tableHolds) (p : PortId) (v : VoidItem) : (s.sendVoidItem p v).tableHolds := by
  unfold State.sendVoidItem
  exact State.tableHolds.removeIfDone (ShapesKept.holds (.trans (.modTarget ..) (.modPort ..)) k) v.handle

theorem pinChange_tableHolds {t : State} {p : PortId} {level : Bool} {f : Port → Port} (k : s.tableHolds)
    (h : pinChange p level f s = .next t) : t.tableHolds := by
  obtain rfl := Host.Outcome.next.inj h
  refine ite_holds (fun _ => k) fun _ => ite_holds (fun _ => ?_) fun _ => ?_
  · exact (ShapesKept.of_entries rfl).holds k
  · exact (ShapesKept.of_entries rfl).holds k

end

end Sys2Proof.Machine
end

section
/-! PROOFS. Every step keeps the Repair Table's invariant (O60). -/

namespace Sys2Proof.Machine

open Sys2Proof.Config

section

variable {s t : State} (k : s.tableHolds)

include k

/-- A command that keeps every entry keeps the table's invariant. -/
theorem State.tableHolds.of_entries (h : t.entries = s.entries) : t.tableHolds := (ShapesKept.of_entries h).holds k

/-! ### The events that act on a record found -/

theorem fetchExpiry_tableHolds {p : PortId} {tag : FetchTag} (h : execFetchExpiry p tag s = .next t) : t.tableHolds := by
  unfold execFetchExpiry at h
  split at h
  · next f _ => exact event_tableHolds h k (k.expire p tag f)
  · exact event_tableHolds h k k

theorem fetchIssue_tableHolds {p : PortId} (h : execFetchIssue p s = .next t) : t.tableHolds := by
  unfold execFetchIssue at h
  split at h
  · exact event_tableHolds h k (k.of_entries rfl)
  · exact event_tableHolds h k k

theorem offerTransferEnd_tableHolds {c : CellId} {data : List Byte} (h : execOfferTransferEnd c data s = .next t) :
    t.tableHolds := by
  unfold execOfferTransferEnd at h
  split at h
  · next x _ => exact event_tableHolds h k (k.endTransfer x data)
  · exact event_tableHolds h k k

theorem deliveryBegin_tableHolds {p : PortId} (h : execDeliveryBegin p s = .next t) : t.tableHolds := by
  unfold execDeliveryBegin at h
  split at h
  · refine event_tableHolds h k (State.tableHolds.refreshWaits ?_)
    exact k.of_entries rfl
  · exact event_tableHolds h k k

theorem deliveryEnd_tableHolds {c : CellId} (h : execDeliveryEnd c s = .next t) : t.tableHolds := by
  unfold execDeliveryEnd at h
  split at h
  · next d _ => exact event_tableHolds h k (k.endDelivery d).refreshWaits
  · exact event_tableHolds h k k

theorem landingTimeout_tableHolds {p : PortId} (h : execLandingTimeout p s = .next t) : t.tableHolds := by
  unfold execLandingTimeout at h
  split at h
  · next o _ =>
    refine event_tableHolds h k (State.tableHolds.refreshWaits (ShapesKept.holds (.modPort ..) ?_))
    exact (ShapesKept.count ..).holds (k.loseDestination ..)
  · exact event_tableHolds h k k

theorem passDispatch_tableHolds (h : execPassDispatch s = .next t) : t.tableHolds := by
  unfold execPassDispatch at h
  split at h
  · split at h
    · exact event_tableHolds h k ((ShapesKept.dispatch ..).holds k)
    · exact event_tableHolds h k k
  · exact event_tableHolds h k k

theorem passComplete_tableHolds {l : LaneId} (h : execPassComplete l s = .next t) : t.tableHolds := by
  unfold execPassComplete at h
  split at h
  · next x _ => exact event_tableHolds h k (k.completePass l x)
  · exact event_tableHolds h k k

theorem inversionEnd_tableHolds (h : execInversionEnd s = .next t) : t.tableHolds := by
  unfold execInversionEnd at h
  split at h
  · next inv b rest _ _ => exact event_tableHolds h k (k.endInversion inv b rest)
  · exact event_tableHolds h k k

theorem sweepVisit_tableHolds {i : Handle} (h : execSweepVisit i s = .next t) : t.tableHolds := by
  unfold execSweepVisit at h
  split at h
  · next w _ => exact event_tableHolds h k (k.sweepAt w i)
  · exact event_tableHolds h k k

theorem sweepEnd_tableHolds (h : execSweepEnd s = .next t) : t.tableHolds := by
  unfold execSweepEnd at h
  split at h
  · refine event_tableHolds h k ((ShapesKept.startSweep _).holds ?_)
    exact k.of_entries rfl
  · exact event_tableHolds h k k

theorem sendClosed_tableHolds {p : PortId} (h : execSendClosed p s = .next t) : t.tableHolds := by
  unfold execSendClosed at h
  split at h
  · next i e hitem =>
    have he := State.entry_of_mem k.rising (List.mem_of_find?_eq_some hitem)
    exact event_tableHolds h k (k.sendClosedItem he p)
  · exact event_tableHolds h k k

theorem sendVoid_tableHolds {p : PortId} (h : execSendVoid p s = .next t) : t.tableHolds := by
  unfold execSendVoid at h
  split at h
  · next v _ _ => exact event_tableHolds h k (k.sendVoidItem p v)
  · exact event_tableHolds h k k

theorem sendNodeState_tableHolds {p : PortId} (h : execSendNodeState p s = .next t) : t.tableHolds := by
  unfold execSendNodeState at h
  split at h
  · exact event_tableHolds h k (k.of_entries rfl)
  · exact event_tableHolds h k k

theorem otherMemoryWrite_tableHolds {p : PortId} {a : Nat} {data : List Byte}
    (h : execOtherMemoryWrite p a data s = .next t) : t.tableHolds := by
  unfold execOtherMemoryWrite at h
  split at h
  · cases h
  · split at h
    · cases h
    · exact event_tableHolds h k (k.of_entries rfl)

theorem portReset_tableHolds {p : PortId} (h : execPortReset p s = .next t) : t.tableHolds := by
  unfold execPortReset at h
  exact withRequest_tableHolds h k fun _ _ hu => hu.beginReset p

theorem unknownKindRequest_tableHolds {p : PortId} (h : execUnknownKindRequest p s = .next t) : t.tableHolds := by
  unfold execUnknownKindRequest at h
  exact withRequest_tableHolds h k fun r u hu => (ShapesKept.respond u p r.kind r.tag .invalid .none).holds hu

/-! ### Every command -/

/-- R25 to R34: the requests that name one node. -/
theorem oneNode_kept {p : PortId} {b : Byte} {act : NodeId → State → State}
    (h : withAnswer p b s (oneNode act) = .next t) (ha : ∀ n u, ShapesKept u (act n u)) : t.tableHolds :=
  withAnswer_tableHolds h k fun r _ hu => oneNode_tableHolds (fun n u k => (ha n u).holds k) r hu

theorem exec_tableHolds (i : Instr) (h : exec i s = .next t) : t.tableHolds := by
  cases i with
  | submit p => exact withAnswer_tableHolds h k fun r _ => submitDecide_tableHolds p r
  | withdraw p => exact withAnswer_tableHolds h k fun r _ => withdrawDecide_tableHolds p r
  | query p => exact withAnswer_tableHolds h k fun r _ => queryDecide_tableHolds r
  | offer p => exact withRequest_tableHolds h k fun r _ => offerDecide_tableHolds p r
  | decline p => exact withAnswer_tableHolds h k fun r _ => declineDecide_tableHolds p r
  | postLanding p => exact withAnswer_tableHolds h k fun r _ => postLandingDecide_tableHolds p r
  | stored p => exact withAnswer_tableHolds h k fun r _ => storedDecide_tableHolds p r
  | refuseFragment p => exact withAnswer_tableHolds h k fun r _ => refuseDecide_tableHolds p r
  | defineNode p => exact withAnswer_tableHolds h k fun r _ => defineNodeDecide_tableHolds r
  | reportDown p => exact oneNode_kept k h fun n u => .trans (.reportNode p u n) (.refreshWaits _)
  | reportRackDown p => exact withAnswer_tableHolds h k fun r _ => reportRackDecide_tableHolds p r
  | retractDown p => exact oneNode_kept k h fun n u => .retract p u n
  | reviveNode p => exact oneNode_kept k h fun n u => .trans (.revive u n) (.refreshWaits _)
  | clearSuspect p => exact oneNode_kept k h fun n u => .clearSuspect u n
  | setProfile p => exact withAnswer_tableHolds h k fun r _ => setProfileDecide_tableHolds r
  | setDevice p => exact withAnswer_tableHolds h k fun r _ => setDeviceDecide_tableHolds r
  | setLimits p => exact withAnswer_tableHolds h k fun _ _ hu => hu.of_entries rfl
  | setPacing p => exact withAnswer_tableHolds h k fun _ _ hu => hu.of_entries rfl
  | setPressureMode p => exact withAnswer_tableHolds h k fun r _ => setModeDecide_tableHolds p r
  | releasePressure p => exact withAnswer_tableHolds h k fun _ _ hu => hu.of_entries rfl
  | snapshot p => exact withAnswer_tableHolds h k fun _ _ hu => hu.of_entries rfl
  | readCounters p => exact withAnswer_tableHolds h k fun _ _ hu => hu
  | portReset p => exact portReset_tableHolds k h
  | unknownKindRequest p => exact unknownKindRequest_tableHolds k h
  | requestTailWrite p value => exact event_tableHolds h k (k.of_entries rfl)
  | responseHeadWrite p value => exact event_tableHolds h k (k.of_entries rfl)
  | otherMemoryWrite p offset data => exact otherMemoryWrite_tableHolds k h
  | eventEnableChange p on => exact event_tableHolds h k (k.of_entries rfl)
  | linkUp p => exact event_tableHolds h k (k.raiseLink p)
  | linkLost p => exact event_tableHolds h k (k.loseLink p)
  | pressureAssertion p => exact pinChange_tableHolds k h
  | pressureDeassertion p => exact pinChange_tableHolds k h
  | deviceReset => exact event_tableHolds h k (tableHolds_of_empty rfl)
  | deviceResetRelease =>
    obtain rfl := Host.Outcome.next.inj h
    exact ite_holds (fun _ => k.of_entries rfl) fun _ => k
  | timebaseTick => exact event_tableHolds h k (k.of_entries rfl)
  | epochBoundary => exact event_tableHolds h k ((ShapesKept.endWindows _).holds (k.of_entries rfl))
  | fetchExpiry p tag => exact fetchExpiry_tableHolds k h
  | landingTimeout p => exact landingTimeout_tableHolds k h
  | planningAttempt => exact event_tableHolds h k k.plan
  | fetchIssue p => exact fetchIssue_tableHolds k h
  | offerTransferEnd cell data => exact offerTransferEnd_tableHolds k h
  | passDispatch => exact passDispatch_tableHolds k h
  | passComplete lane => exact passComplete_tableHolds k h
  | deliveryBegin p => exact deliveryBegin_tableHolds k h
  | deliveryEnd cell => exact deliveryEnd_tableHolds k h
  | inversionBegin => exact event_tableHolds h k ((ShapesKept.startInversion s).holds k)
  | inversionEnd => exact inversionEnd_tableHolds k h
  | sweepBegin => exact event_tableHolds h k ((ShapesKept.startSweep s).holds k)
  | sweepVisit i => exact sweepVisit_tableHolds k h
  | sweepEnd => exact sweepEnd_tableHolds k h
  | portResetEnd p => exact event_tableHolds h k (k.endReset p)
  | sendClosed p => exact sendClosed_tableHolds k h
  | sendVoid p => exact sendVoid_tableHolds k h
  | sendNodeState p => exact sendNodeState_tableHolds k h

end

/-- Settles O60, by cases on the command: an operation either keeps what the invariant reads of every entry
(`ShapesKept`), or writes one entry anew, closes it or takes it away (`TableBut`). -/
theorem everyStepKeepsTableInvariant : Obligations.EveryStepKeepsTableInvariant := by
  intro s t k h
  unfold step at h
  split at h
  · obtain rfl := Host.Outcome.next.inj h
    exact k
  · next i rest _ =>
    have htaken : ({ s with pending := rest } : State).tableHolds := k.of_entries rfl
    exact exec_tableHolds htaken i h

end Sys2Proof.Machine
end

section
/-! PROOFS. The staleness check, QUERY, and the WITHDRAWs that close nothing (O30, O31, O33). -/

namespace Sys2Proof.Machine

open Sys2Proof.Config

/-! ### The staleness check (R45) -/

section

variable {s : State} {p : PortId} {r : Request} {e : Entry} {st : Status}

theorem State.named_invalid (h : 4095 < r.handle) (s : State) : s.named r = .error .invalid := if_pos h

theorem State.named_unknown (hle : r.handle ≤ 4095) (hn : s.entry? r.handle = none) : s.named r = .error .unknown := by
  simp only [State.named, if_neg (show ¬tableSize ≤ r.handle from Nat.not_le.mpr (Nat.lt_succ_of_le hle)), hn]

theorem State.named_stale (hle : r.handle ≤ 4095) (he : s.entry? r.handle = some e) (hs : e.stripe ≠ r.stripe) :
    s.named r = .error .stale := by
  simp only [State.named, if_neg (show ¬tableSize ≤ r.handle from Nat.not_le.mpr (Nat.lt_succ_of_le hle)), he, if_neg hs]

theorem State.named_entry (hle : r.handle ≤ 4095) (he : s.entry? r.handle = some e) (hs : e.stripe = r.stripe) :
    s.named r = .ok e := by
  simp only [State.named, if_neg (show ¬tableSize ≤ r.handle from Nat.not_le.mpr (Nat.lt_succ_of_le hle)), he, if_pos hs]

theorem withdrawDecide_refused (p : PortId) (h : s.named r = .error st) : withdrawDecide p r s = Answer.only s st := by
  simp only [withdrawDecide, h]

theorem queryDecide_refused (h : s.named r = .error st) : queryDecide r s = Answer.only s st := by
  simp only [queryDecide, h]

theorem storedDecide_refused (p : PortId) (h : s.named r = .error st) : storedDecide p r s = Answer.only s st := by
  simp only [storedDecide, h]

theorem refuseDecide_refused (p : PortId) (h : s.named r = .error st) : refuseDecide p r s = Answer.only s st := by
  simp only [refuseDecide, h]

/-- A request that fails the staleness check is answered by it alone. -/
theorem exec_refused {k : Byte} {i : Instr}
    (hi : (k, i) ∈ [(2#8, Instr.withdraw p), (3#8, .query p), (7#8, .stored p), (8#8, .refuseFragment p)])
    (h : s.offers p k) (hn : (s.advance p).named (s.port p).request = .error st) :
    exec i s = .next (s.answered p k st .none) := by
  simp only [List.mem_cons, Prod.mk.injEq, List.not_mem_nil, or_false] at hi
  rcases hi with ⟨rfl, rfl⟩ | ⟨rfl, rfl⟩ | ⟨rfl, rfl⟩ | ⟨rfl, rfl⟩
  case inl => exact exec_only h st .none (withdrawDecide_refused p hn)
  case inr.inl => exact exec_only h st .none (queryDecide_refused hn)
  case inr.inr.inl => exact exec_only h st .none (storedDecide_refused p hn)
  case inr.inr.inr => exact exec_only h st .none (refuseDecide_refused p hn)

end

/-- Settles O30: each of the four requests decides nothing before the staleness check. -/
theorem staleNamesAreRefused : Obligations.StaleNamesAreRefused := by
  intro s p k i hi h
  exact ⟨fun hbig => exec_refused hi h (State.named_invalid hbig _),
    fun hle hn => exec_refused hi h (State.named_unknown (s := s.advance p) hle hn),
    fun e hle he hs => exec_refused hi h (State.named_stale (s := s.advance p) hle he hs)⟩

/-! ### QUERY (R64) -/

theorem queryDecide_entry {s : State} {r : Request} {e : Entry} (h : s.named r = .ok e) :
    queryDecide r s = ⟨s, .ok, .report (s.report r.handle e)⟩ := by
  simp only [queryDecide, h]

theorem Entry.chunks_eq (e : Entry) : e.chunks = (e.length + 65535) / 65536 := rfl

/-- R64: a member is reported with its target record, where it has one. -/
theorem Member.report_shows (m : Member) :
    m.report.node = m.node ∧ m.report.state = m.state ∧ m.report.cause = m.cause ∧ m.report.strikes = m.strikes
      ∧ m.report.targetPresent = m.target.isSome
      ∧ ∀ t, m.target = some t → m.report.stored = t.stored ∧ m.report.dest = t.dest ∧ m.report.start = t.start
          ∧ m.report.covered = t.coverage.length ∧ m.report.voids = t.voids.length := by
  unfold Member.report
  cases m.target with
  | none => exact ⟨rfl, rfl, rfl, rfl, rfl, fun t ht => by cases ht⟩
  | some t =>
    refine ⟨rfl, rfl, rfl, rfl, rfl, fun u hu => ?_⟩
    obtain rfl := Option.some.inj hu
    exact ⟨rfl, rfl, rfl, rfl, rfl⟩

/-- Settles O33: the report is `State.report`, which copies the entry field by field. -/
theorem queryReportsEntryUnchanged : Obligations.QueryReportsEntryUnchanged := by
  intro s p e h r hle he hs
  have hnamed : (s.advance p).named r = .ok e := State.named_entry (s := s.advance p) hle he hs
  refine ⟨s.report r.handle e, exec_only h .ok _ (queryDecide_entry hnamed), ?_, ?_, fun pl hpl => ?_, ?_, ?_⟩
  · exact ⟨rfl, rfl, rfl, rfl, rfl, rfl, rfl, rfl, rfl, rfl, e.chunks_eq, rfl, rfl, rfl, rfl⟩
  · exact ⟨rfl, beq_eq_decide .., rfl⟩
  · simp [State.report, hpl]
  · exact List.length_map ..
  · intro j m x hm hx
    have hreport : (e.members.map Member.report)[j]? = some x := hx
    rw [List.getElem?_map, hm, Option.map_some] at hreport
    obtain rfl := Option.some.inj hreport
    exact m.report_shows

/-! ### WITHDRAW that closes nothing (R57, R58) -/

/-- R57: a port of the set is the last of it when the set without it is empty. -/
theorem PortSet.remove_eq_zero_iff {a : PortSet} {p : PortId} :
    PortSet.remove a p = 0 ↔ ∀ q, PortSet.has a q = true → q = p := by revert a p; decide

section

variable {s : State} {p : PortId} {r : Request} {e : Entry} (hn : s.named r = .ok e)

include hn

theorem withdrawDecide_invalid (h1 : r.withdrawMode ≠ 1) (h2 : r.withdrawMode ≠ 2) :
    withdrawDecide p r s = Answer.only s .invalid := by
  simp only [withdrawDecide, hn]
  exact if_pos ⟨h1, h2⟩

variable (hmode : r.withdrawMode = 1 ∨ r.withdrawMode = 2)

include hmode

/-- What a WITHDRAW in one of the two modes goes on to decide. -/
theorem withdrawDecide_moded : withdrawDecide p r s =
    if PortSet.has e.submitters p = false then Answer.only s .notSubmitter
    else if e.state = .closed then Answer.only s .ok
    else if PortSet.remove e.submitters p ≠ 0 then
      Answer.only (s.setEntry r.handle { e with submitters := PortSet.remove e.submitters p }) .ok
    else if r.withdrawMode = 1 then Answer.only (s.drain r.handle e).refreshWaits .ok
    else Answer.only (s.closeEntry r.handle (.failed .cancelled)).refreshWaits .ok := by
  simp only [withdrawDecide, hn]
  exact if_neg (by omega)

theorem withdrawDecide_outsider (hout : ¬PortSet.has e.submitters p = true) :
    withdrawDecide p r s = Answer.only s .notSubmitter := by
  rw [withdrawDecide_moded hn hmode, if_pos (Bool.eq_false_of_not_eq_true hout)]

variable (hin : PortSet.has e.submitters p = true)

include hin

theorem withdrawDecide_closed (hc : e.state = .closed) : withdrawDecide p r s = Answer.only s .ok := by
  rw [withdrawDecide_moded hn hmode, if_neg (by simp [hin]), if_pos hc]

theorem withdrawDecide_leaves (hc : e.state ≠ .closed) (hothers : ∃ q, q ≠ p ∧ PortSet.has e.submitters q = true) :
    withdrawDecide p r s =
      Answer.only (s.setEntry r.handle { e with submitters := PortSet.remove e.submitters p }) .ok := by
  have hleft : PortSet.remove e.submitters p ≠ 0 := fun h0 => by
    obtain ⟨q, hq, hhas⟩ := hothers
    exact hq (PortSet.remove_eq_zero_iff.mp h0 q hhas)
  rw [withdrawDecide_moded hn hmode, if_neg (by simp [hin]), if_neg hc, if_pos hleft]

/-- R58, R60: what the last submitter's WITHDRAW of a live entry goes on to decide. -/
theorem withdrawDecide_last (hc : e.state ≠ .closed) (hlast : ∀ q, PortSet.has e.submitters q = true → q = p) :
    withdrawDecide p r s = if r.withdrawMode = 1 then Answer.only (s.drain r.handle e).refreshWaits .ok
      else Answer.only (s.closeEntry r.handle (.failed .cancelled)).refreshWaits .ok := by
  rw [withdrawDecide_moded hn hmode, if_neg (by simp [hin]), if_neg hc,
    if_neg (not_not.mpr (PortSet.remove_eq_zero_iff.mpr hlast))]

end

theorem State.drain_draining {s : State} {e : Entry} (h : Handle) (hs : e.state = .draining) : s.drain h e = s := by
  simp only [State.drain, hs]

/-- Settles O31, one lemma per case of R57. -/
theorem withdrawLeavesOrKeepsEntry : Obligations.WithdrawLeavesOrKeepsEntry := by
  intro s p e h r answers isIn hle he hs
  have hnamed : (s.advance p).named r = .ok e := State.named_entry (s := s.advance p) hle he hs
  refine ⟨fun h1 h2 => ?_, fun hmode => ⟨fun hout => ?_, fun hin hc => ?_, fun hin hc hothers => ?_,
    fun hin hdraining hlast hdrain => ?_⟩⟩
  · exact exec_only h .invalid .none (withdrawDecide_invalid hnamed h1 h2)
  · exact exec_only h .notSubmitter .none (withdrawDecide_outsider hnamed hmode hout)
  · exact exec_only h .ok .none (withdrawDecide_closed hnamed hmode hin hc)
  · have hdecide := withdrawDecide_leaves hnamed hmode hin hc hothers
    exact exec_tables (t := s.setEntry r.handle { e with submitters := PortSet.remove e.submitters p }) h .ok .none rfl hdecide
  · have hdecide := withdrawDecide_last hnamed hmode hin (by simp [hdraining]) hlast
    rw [if_pos hdrain, State.drain_draining _ hdraining] at hdecide
    exact exec_waits (t := s.advance p) (st := .ok) (b := .none) h hdecide fun _ => rfl

end Sys2Proof.Machine
end

section
/-! PROOFS. The form of a SUBMIT, the SUBMITs that create nothing, and the creation (O27, O28). -/

namespace Sys2Proof.Machine

open Sys2Proof.Config

/-! ### The form of a SUBMIT (R46, R171) -/

theorem littleEndian_lt (l : List Byte) : littleEndian l < 256 ^ l.length := by
  induction l with
  | nil => exact Nat.one_pos
  | cons b l ih =>
    have hb : b.toNat < 256 := b.isLt
    simp only [littleEndian, List.length_cons, Nat.pow_succ]
    omega

theorem Request.field_lt (r : Request) (off n : Nat) : r.field off n < 256 ^ n :=
  (littleEndian_lt _).trans_le (Nat.pow_le_pow_right (by omega) (List.length_take_le ..))

/-- R171: the known-lost field has 24 bits. -/
theorem Request.knownLost_beyond (r : Request) {j : Nat} (hj : 24 ≤ j) : r.knownLost j = false :=
  Nat.testBit_lt_two_pow ((r.field_lt 24 3).trans_le (Nat.pow_le_pow_right (n := 2) (by omega) hj))

/-- The node ids that a SUBMIT under code `c` lists. -/
def listedNodes (r : Request) (c : Code) : List NodeId := (List.range (c.k + c.m)).map (nodeAt r)

theorem nodup_map_range {f : Nat → Nat} {n : Nat} :
    ((List.range n).map f).Nodup ↔ ¬∃ i < n, ∃ j < n, i ≠ j ∧ f i = f j := by
  rw [List.nodup_map_iff_inj_on List.nodup_range]
  simp only [List.mem_range]
  push Not
  exact ⟨fun h i hi j hj hne hf => hne (h i hi j hj hf), fun h i hi j hj hf => by_contra fun hne => h i hi j hj hne hf⟩

theorem submitFieldsBad_iff (c : Code) (r : Request) : submitFieldsBad c r = true ↔ submitFieldsInvalid (c.k + c.m) r := by
  have hlost : (List.range 24).any (fun j => decide (c.k + c.m ≤ j) && r.knownLost j) = true
      ↔ ∃ j, c.k + c.m ≤ j ∧ r.knownLost j = true := by
    simp only [List.any_eq_true, List.mem_range, Bool.and_eq_true, decide_eq_true_eq]
    refine ⟨fun ⟨j, _, h⟩ => ⟨j, h⟩, fun ⟨j, h⟩ => ⟨j, Nat.lt_of_not_le fun hj => ?_, h⟩⟩
    exact absurd h.2 (by simp [r.knownLost_beyond hj])
  have hids : ((List.range (c.k + c.m)).map r.memberNode).any (fun x => decide (256 ≤ x)) = true
      ↔ ∃ j < c.k + c.m, 255 < r.memberNode j := by
    simp only [List.any_map, List.any_eq_true, List.mem_range, Function.comp_apply, decide_eq_true_eq]
    rfl
  have hnodup : (!decide ((List.range (c.k + c.m)).map r.memberNode).Nodup) = true
      ↔ ∃ i < c.k + c.m, ∃ j < c.k + c.m, i ≠ j ∧ r.memberNode i = r.memberNode j := by
    rw [Bool.not_eq_true', decide_eq_false_iff_not, nodup_map_range, not_not]
  simp only [submitFieldsBad, submitFieldsInvalid, Bool.or_eq_true, hlost, hids, hnodup, decide_eq_true_eq, or_assoc,
    maxFragment, Nat.reducePow]

theorem filterMap_asFin {l : List Nat} {f : Nat → Nat} (h : ∀ j ∈ l, f j < 256) :
    (l.map f).filterMap (asFin 256) = l.map fun j => Fin.ofNat 256 (f j) := by
  rw [List.filterMap_map, ← List.filterMap_eq_map]
  refine List.filterMap_congr fun j hj => ?_
  have hfin : Fin.ofNat 256 (f j) = ⟨f j, h j hj⟩ := Fin.ext (Nat.mod_eq_of_lt (h j hj))
  simp only [Function.comp_apply, asFin, dif_pos (h j hj), hfin]

section

variable {s : State} {r : Request} {i : ProfileId} {c : Code}

/-- R46, R8, R10: a profile index above 7, or of an UNDEFINED profile. -/
theorem submission_noCode (h : submitCode s r = none) : submission s r = none := by
  unfold submission
  cases hi : asFin 8 r.submitProfile with
  | none => rfl
  | some i =>
    have hcode : (s.profile i).code = none := by simpa [submitCode, hi] using h
    simp only [hcode]

variable (hi : i.val = r.submitProfile) (hc : (s.profile i).code = some c)

include hi hc

theorem submission_bad (hbad : submitFieldsInvalid (c.k + c.m) r) : submission s r = none := by
  simp only [submission, ← hi, asFin_val, hc, if_pos ((submitFieldsBad_iff c r).mpr hbad)]

theorem submission_good (hgood : ¬submitFieldsInvalid (c.k + c.m) r) : submission s r = some ⟨i, c, listedNodes r c⟩ := by
  have hids : ∀ j ∈ List.range (c.k + c.m), r.memberNode j < 256 := fun j hj => Nat.lt_of_not_le fun hle =>
    hgood (.inr (.inr (.inr (.inl ⟨j, List.mem_range.mp hj, hle⟩))))
  have hnodes := filterMap_asFin hids
  simp only [submission, ← hi, asFin_val, hc, if_neg (mt (submitFieldsBad_iff c r).mp hgood), hnodes]
  rfl

end

theorem listedNodes_undefined (s : State) (r : Request) (c : Code) :
    (listedNodes r c).any (fun n => decide ((s.node n).state = .undefined)) = true
      ↔ ∃ j < c.k + c.m, (s.node (nodeAt r j)).state = .undefined := by
  simp [listedNodes]

/-! ### What is lost at the creation (R49, R42) -/

theorem zipIdx_map_range {α : Type} (f : Nat → α) (n : Nat) :
    ((List.range n).map f).zipIdx = (List.range n).map fun j => (f j, j) := by
  refine List.ext_getElem (by simp) fun j h1 h2 => ?_
  simp

theorem countP_bornLost (s : State) (r : Request) (c : Code) :
    (listedNodes r c).zipIdx.countP (fun np => bornLost s r np.2 np.1) = submitLost s r c := by
  rw [listedNodes, zipIdx_map_range, List.countP_map]
  rfl

theorem newMember_eq (s : State) (r : Request) (j : Position) : newMember s r j (nodeAt r j) =
    { node := nodeAt r j
      state := if submitLoses s r j then .lost else .held
      cause := if r.knownLost j then some .reported else if submitLoses s r j then some .nodeDown else none
      strikes := 0
      target := none } := by
  unfold newMember submitLoses
  by_cases hk : r.knownLost j = true
  · simp [hk]
  · by_cases hd : (s.node (nodeAt r j)).state = .down <;> simp [hk, hd]

theorem newMember_gone (s : State) (r : Request) (j : Position) :
    Member.gone (newMember s r j (nodeAt r j)) = submitLoses s r j := by
  rw [newMember_eq]
  cases hl : submitLoses s r j <;> simp [Member.gone]

/-- R49, R42: the entry created is the one the statement writes out. -/
theorem newEntry_eq (s : State) (p : PortId) (r : Request) (i : ProfileId) (c : Code) :
    newEntry s p r ⟨i, c, listedNodes r c⟩ = submitEntry s p r i c := by
  have hmembers : (listedNodes r c).zipIdx.map (fun np => newMember s r np.2 np.1) =
      (List.range (c.k + c.m)).map fun j => newMember s r j (nodeAt r j) := by
    rw [listedNodes, zipIdx_map_range, List.map_map]
    rfl
  have hlost : ((List.range (c.k + c.m)).map fun j => newMember s r j (nodeAt r j)).countP Member.gone = submitLost s r c := by
    rw [List.countP_map, submitLost]
    congr 1
    exact funext (newMember_gone s r)
  simp only [newEntry, submitEntry, hmembers, hlost, urgencyOf_eq]
  simp only [newMember_eq]

/-! ### What a SUBMIT decides (R46, R47, R49) -/

section

variable {s : State} {p : PortId} {r : Request} {i : ProfileId} {c : Code}

theorem submitDecide_invalid (p : PortId) (h : submission s r = none) : submitDecide p r s = Answer.only s .invalid := by
  simp only [submitDecide, h]

theorem submitDecide_unknown (p : PortId) (hsub : submission s r = some ⟨i, c, listedNodes r c⟩)
    (hu : ∃ j < c.k + c.m, (s.node (nodeAt r j)).state = .undefined) : submitDecide p r s = Answer.only s .unknown := by
  simp only [submitDecide, hsub, if_pos ((listedNodes_undefined s r c).mpr hu)]

section

variable (hp : submitPasses s r i c)

include hp

theorem submission_of_passes : submission s r = some ⟨i, c, listedNodes r c⟩ := by
  obtain ⟨hi, hc, hgood, -⟩ := hp
  exact submission_good hi hc hgood

theorem listed_of_passes : ¬(listedNodes r c).any (fun n => decide ((s.node n).state = .undefined)) = true := by
  obtain ⟨-, -, -, hdefined⟩ := hp
  rw [listedNodes_undefined]
  rintro ⟨j, hj, hu⟩
  exact hdefined j hj hu

theorem submitAgrees_iff {e : Entry} : submitAgrees r c e ↔
    e.profile = i ∧ e.length = r.length ∧ e.members.map Member.node = listedNodes r c := by
  obtain ⟨hi, -, -, -⟩ := hp
  rw [submitAgrees, ← hi, Fin.val_inj, listedNodes]

section

variable {h : Handle} {e : Entry} (hx : s.entryOfStripe r.stripe = some (h, e))

include hx

theorem submitDecide_closing (hs : e.state = .closed ∨ e.state = .draining) :
    submitDecide p r s = ⟨s, .closing, .closing h e.state⟩ := by
  simp only [submitDecide, submission_of_passes hp, if_neg (listed_of_passes hp), hx, if_pos hs]

variable (hs : ¬(e.state = .closed ∨ e.state = .draining))

include hs

theorem submitDecide_conflict (hn : ¬submitAgrees r c e) : submitDecide p r s = ⟨s, .conflict, .existing h⟩ := by
  simp only [submitDecide, submission_of_passes hp, if_neg (listed_of_passes hp), hx, if_neg hs]
  exact if_neg (mt (submitAgrees_iff hp).mpr hn)

theorem submitDecide_merged (ha : submitAgrees r c e) :
    submitDecide p r s = ⟨(s.merge p r h e).refreshWaits, .merged, .existing h⟩ := by
  simp only [submitDecide, submission_of_passes hp, if_neg (listed_of_passes hp), hx, if_neg hs]
  exact if_pos ((submitAgrees_iff hp).mp ha)

end

section

variable (hx : s.entryOfStripe r.stripe = none)

include hx

theorem submitDecide_nothingLost (h0 : submitLost s r c = 0) : submitDecide p r s = Answer.only s .nothingLost := by
  simp only [submitDecide, submission_of_passes hp, if_neg (listed_of_passes hp), hx, countP_bornLost, if_pos h0]

theorem submitDecide_unrecoverable (hm : c.m < submitLost s r c) : submitDecide p r s = Answer.only s .unrecoverable := by
  simp only [submitDecide, submission_of_passes hp, if_neg (listed_of_passes hp), hx, countP_bornLost,
    if_neg (show ¬submitLost s r c = 0 by omega), if_pos hm]

variable (h0 : 0 < submitLost s r c) (hm : submitLost s r c ≤ c.m)

include h0 hm

theorem submitDecide_full (hfull : 4096 ≤ s.entries.length) : submitDecide p r s = Answer.only s .full := by
  simp only [submitDecide, submission_of_passes hp, if_neg (listed_of_passes hp), hx, countP_bornLost,
    if_neg (Nat.ne_of_gt h0), if_neg (Nat.not_lt.mpr hm)]
  exact if_pos hfull

theorem submitDecide_created (hroom : s.entries.length < 4096) : submitDecide p r s =
    ⟨s.createEntry p r ⟨i, c, listedNodes r c⟩, .ok, .created (lowestFree s.entries tableSize 0) s.sequenceCounter⟩ := by
  simp only [submitDecide, submission_of_passes hp, if_neg (listed_of_passes hp), hx, countP_bornLost,
    if_neg (Nat.ne_of_gt h0), if_neg (Nat.not_lt.mpr hm)]
  exact if_neg (Nat.not_le.mpr hroom)

end

end

end

/-- Settles O27, one lemma per answer, in the order of R46, R47 and R49. -/
theorem submitAnswersWithoutCreating : Obligations.SubmitAnswersWithoutCreating := by
  intro s p h r present answers
  refine ⟨fun hnone => ?_, fun i c hi hc => ⟨fun hbad => ?_, fun hgood hu => ?_, fun hp =>
    ⟨fun k e hx => ⟨fun hs => ?_, fun hclosed hdraining hn => ?_⟩, fun hx => ⟨fun h0 => ?_, fun hm => ?_,
      fun h0 hm hfull => ?_⟩⟩⟩⟩
  · exact exec_only h .invalid .none (submitDecide_invalid p (submission_noCode (s := s.advance p) hnone))
  · exact exec_only h .invalid .none (submitDecide_invalid p (submission_bad (s := s.advance p) hi hc hbad))
  · exact exec_only h .unknown .none (submitDecide_unknown p (submission_good (s := s.advance p) hi hc hgood) hu)
  · exact exec_only h .closing _ (submitDecide_closing (s := s.advance p) hp hx hs)
  · exact exec_only h .conflict _
      (submitDecide_conflict (s := s.advance p) hp hx (not_or.mpr ⟨hclosed, hdraining⟩) hn)
  · exact exec_only h .nothingLost .none (submitDecide_nothingLost (s := s.advance p) hp hx h0)
  · exact exec_only h .unrecoverable .none (submitDecide_unrecoverable (s := s.advance p) hp hx hm)
  · exact exec_only h .full .none (submitDecide_full (s := s.advance p) hp hx h0 hm hfull)

/-! ### The creation (R49, R41) -/

theorem createEntry_advance (s : State) (p q : PortId) (r : Request) (sub : Submission) :
    (s.advance p).createEntry q r sub = { s.createEntry q r sub with ports := (s.advance p).ports } := rfl

/-- Settles O28: the handle is `lowestFree_eq`, the entry `newEntry_eq`. -/
theorem submitCreatesEntryAtLowestHandle : Obligations.SubmitCreatesEntryAtLowestHandle := by
  intro s p i c h hoffers r hp hx h0 hm hroom hlt hfree hlower
  have hhandle : lowestFree s.entries tableSize 0 = h :=
    lowestFree_eq hfree tableSize 0 (Nat.zero_le h) (by simpa [tableSize] using hlt) fun k _ hk => hlower k hk
  have hdecide := submitDecide_created (s := s.advance p) (p := p) hp hx h0 hm hroom
  rw [createEntry_advance] at hdecide
  have hentry : newEntry s p r ⟨i, c, listedNodes r c⟩ = submitEntry s p r i c := newEntry_eq s p r i c
  refine ⟨s.createEntry p r ⟨i, c, listedNodes r c⟩, ?_, rfl, ?_, fun k hk => ?_⟩
  · rw [← hhandle]
    exact exec_tables (t := s.createEntry p r ⟨i, c, listedNodes r c⟩) hoffers .ok _ rfl hdecide
  · rw [← hentry, ← hhandle]
    exact State.entry_put ..
  · have hput := State.entry_setEntry s (lowestFree s.entries tableSize 0) k (newEntry s p r ⟨i, c, listedNodes r c⟩)
    rw [hhandle, if_neg hk] at hput
    rw [← hput, ← hhandle]
    rfl

end Sys2Proof.Machine
end

section
/-! PROOFS. A SUBMIT that merges into the entry present (O29). -/

namespace Sys2Proof.Machine

open Sys2Proof.Config

/-! ### Triggers and closes that follow a request's taking -/

section

variable {u v t : State} {h : Handle} {e : Entry} {o : EntryOutcome}

/-- The taking of the request stands beside a trigger. -/
theorem takesTrigger.portsBefore (k : takesTrigger u t h e)
    (hu : { u with ports := v.ports } = v)
    (hq : ∀ q, (v.port q).fetches = (u.port q).fetches ∧ (v.port q).outputs = (u.port q).outputs) : takesTrigger v t h e := by
  obtain ⟨hrecord, hothers, hattempt, htables, hrest⟩ := k
  have hfrom : ({ v with entries := t.entries, ports := t.ports, attempt := t.attempt } : State) = t := by rw [← hu, ← hrest]
  have hentry : ∀ j, v.entry? j = u.entry? j := fun j => by rw [← hu]; rfl
  have hpark : v.park = u.park := by rw [← hu]
  refine ⟨hpark ▸ hrecord, fun j hj => (hothers j hj).trans (hentry j).symm, ?_, fun q => ?_, hfrom⟩
  · rw [hattempt, ← hu]
  · rw [(hq q).1, (hq q).2]
    exact htables q

/-- The taking of the request stands beside a close. -/
theorem closes.portsBefore (k : closes u t h e o)
    (hu : { u with ports := v.ports } = v)
    (hq : ∀ q, (v.port q).fetches = (u.port q).fetches ∧ (v.port q).outputs = (u.port q).outputs) : closes v t h e o := by
  have hentry : ∀ j, v.entry? j = u.entry? j := fun j => by rw [← hu]; rfl
  have hplan : planCell v h = planCell u h := by rw [← hu]; rfl
  have hlive : liveCell v h = liveCell u h := funext fun c => by simp only [liveCell, (hq _).1]
  have hqueued : queuedCell v h = queuedCell u h := funext fun f => funext fun c => by simp only [queuedCell, (hq _).2]
  have hrecord : e.closedWith v h o = e.closedWith u h o := by rw [← hu]; rfl
  obtain ⟨l, hl, hreleases⟩ := k.cells
  refine ⟨hrecord ▸ k.record, fun j hj => (k.others j hj).trans (hentry j).symm, ?_, ?_, fun q tag => ?_, fun q => ?_,
    fun n => ?_, fun b => ?_, ⟨l, fun c => ?_, ?_⟩, ?_, ?_⟩
  · rw [k.park, ← hu]
  · rw [k.counters, ← hu]
  · rw [k.fetches, (hq q).1]
  · rw [k.outputs, (hq q).2]
  · rw [k.loads, ← hu]
    rfl
  · rw [k.banks, ← hu]
    rfl
  · rw [hl, hplan, hlive, hqueued]
  · exact hreleases.congr (by rw [← hu]; rfl) (by rw [← hu]; rfl) (by rw [← hu]; exact id) rfl id
  · rw [k.attempt, ← hu]
    rfl
  · rw [← hu]
    exact k.rest

end

/-! ### What the flags of a SUBMIT make of an entry (R48) -/

/-- The port and the cross-check request of a SUBMIT join the entry. -/
def Entry.joined (p : PortId) (r : Request) (e : Entry) : Entry :=
  { e with submitters := PortSet.add e.submitters p, crossCheck := e.crossCheck || decide (r.crossCheck = 1) }

/-- The HELD members of an entry that a SUBMIT flags become LOST. -/
def Entry.flagged (r : Request) (e : Entry) : Entry :=
  { e with members := e.members.mapIdx fun j m => if m.state = .held ∧ r.knownLost j = true then m.lostNow .reported else m }

/-- R48: a SUBMIT flags a HELD member of the entry. -/
def Entry.hitBy (r : Request) (e : Entry) : Prop :=
  ∃ j m, e.members[j]? = some m ∧ m.state = .held ∧ r.knownLost j = true

theorem Member.lose_lost {m : Member} (h : m.state ≠ .held) (cause : LostCause) : Member.lose cause m = m := if_neg h

theorem flagLost_eq (r : Request) (e : Entry) : flagLost r e = e.flagged r := by
  have hmember : ∀ (m : Member) (j : Position), (if r.knownLost j = true then m.lose .reported else m)
      = if m.state = .held ∧ r.knownLost j = true then m.lostNow .reported else m := fun m j => by
    by_cases hk : r.knownLost j = true
    · by_cases hm : m.state = .held
      · rw [if_pos hk, if_pos ⟨hm, hk⟩, Member.lose_held hm]
      · rw [if_pos hk, if_neg fun hx => hm hx.1, Member.lose_lost hm]
    · rw [if_neg hk, if_neg fun hx => hk hx.2]
  rw [flagLost, Entry.flagged, List.mapIdx_eq_zipIdx_map]
  simp only [hmember]

theorem flagsHeld_iff (r : Request) (e : Entry) : flagsHeld r e = true ↔ e.hitBy r := by
  simp only [flagsHeld, Entry.hitBy, List.any_eq_true, Bool.and_eq_true, decide_eq_true_eq]
  refine ⟨fun ⟨mj, hmem, hk, hm⟩ => ⟨mj.2, mj.1, List.mem_zipIdx_iff_getElem?.mp hmem, hm, hk⟩, fun ⟨j, m, hj, hm, hk⟩ =>
    ⟨(m, j), List.mem_zipIdx_iff_getElem?.mpr hj, hk, hm⟩⟩

section

variable {s : State} {p : PortId} {r : Request} {h : Handle} {e : Entry}

theorem Entry.flagged_of_not_hit (hn : ¬e.hitBy r) : e.flagged r = e := by
  have hmembers : e.members.mapIdx (fun j m => if m.state = .held ∧ r.knownLost j = true then m.lostNow .reported else m)
      = e.members := by
    refine List.ext_getElem? fun j => ?_
    rw [List.getElem?_mapIdx]
    cases hm : e.members[j]? with
    | none => rfl
    | some m => rw [Option.map_some, if_neg fun hx => hn ⟨j, m, hm, hx⟩]
  rw [Entry.flagged, hmembers]

theorem Entry.flagged_lostCount_pos (hhit : e.hitBy r) : 0 < (e.flagged r).lostCount := by
  obtain ⟨j, m, hj, hm, hk⟩ := hhit
  refine Entry.lostCount_pos (pos := j) (m := m.lostNow .reported) ?_ (by simp [Member.lostNow])
  rw [Entry.flagged, List.getElem?_mapIdx, hj, Option.map_some, if_pos ⟨hm, hk⟩]

/-! ### The merge (R48, R52, R55) -/

/-- The entry as the merge first leaves it. -/
def Entry.mergedBy (p : PortId) (r : Request) (e : Entry) : Entry := (e.joined p r).flagged r

theorem State.merge_unhit (hn : ¬e.hitBy r) : s.merge p r h e = (s.setEntry h (e.joined p r)).count 1 := by
  have hflagged : flagLost r (e.joined p r) = e.joined p r := by
    rw [flagLost_eq]
    exact Entry.flagged_of_not_hit (e := e.joined p r) hn
  simp only [State.merge, if_neg (mt (flagsHeld_iff r e).mp hn)]
  exact congrArg (fun f => (s.setEntry h f).count 1) hflagged

theorem State.merge_hit (hhit : e.hitBy r) :
    s.merge p r h e = ((s.setEntry h (e.mergedBy p r)).afterLoss h).count 1 := by
  simp only [State.merge, if_pos ((flagsHeld_iff r e).mpr hhit)]
  exact congrArg (fun f => ((s.setEntry h f).afterLoss h).count 1) (flagLost_eq r (e.joined p r))

theorem Kept.merge (s : State) (p : PortId) (r : Request) (h : Handle) (e : Entry) : Kept s (s.merge p r h e) := by
  unfold State.merge
  dsimp only
  exact (Kept.ite ((Kept.setEntry ..).trans (Kept.afterLoss ..)) (Kept.setEntry ..)).trans (Kept.count ..)

variable (hc : e.state ≠ .closed) (hhit : e.hitBy r)

include hc hhit

theorem State.merge_lives (hm : (e.mergedBy p r).lostCount ≤ (s.code e.profile).m) :
    takesTrigger (s.count 1) (s.merge p r h e) h
      { e.mergedBy p r with urgency := classFor (s.code e.profile).m (e.mergedBy p r).lostCount } := by
  rw [State.merge_hit hhit]
  have hlives := State.afterLoss_lives (State.entry_put s h (e.mergedBy p r)) hc (Entry.flagged_lostCount_pos hhit) hm
  exact hlives.rebase.count 1

theorem State.merge_closes (hm : (s.code e.profile).m < (e.mergedBy p r).lostCount) :
    closes (s.count 1) (s.merge p r h e) h (e.mergedBy p r) (.failed .unrecoverable) := by
  rw [State.merge_hit hhit]
  have hcloses := State.afterLoss_closes (State.entry_put s h (e.mergedBy p r)) hc (PortSet.add_ne_zero e.submitters p) hm
  exact hcloses.rebase.count (by decide)

end

theorem State.merge_others {s : State} {h : Handle} {e : Entry} (p : PortId) (r : Request) (hc : e.state ≠ .closed) :
    onlyEntry s (s.merge p r h e) h := by
  by_cases hhit : e.hitBy r
  · rcases Nat.lt_or_ge (s.code e.profile).m (e.mergedBy p r).lostCount with hm | hm
    · exact (State.merge_closes hc hhit hm).others
    · exact (State.merge_lives hc hhit hm).others
  · rw [State.merge_unhit hhit]
    exact fun j hj => (State.entry_setEntry ..).trans (if_neg hj)

theorem State.code_of_profile {s : State} {i : ProfileId} {c : Code} (h : (s.profile i).code = some c) : s.code i = c := by
  simp only [State.code, h, Option.getD_some]

/-- The taking of a request changes no fetch and no output. -/
theorem advance_tables (s : State) (p q : PortId) :
    (s.port q).fetches = ((s.advance p).port q).fetches ∧ (s.port q).outputs = ((s.advance p).port q).outputs := by
  rw [port_advance]
  split
  · next hq => exact hq ▸ ⟨rfl, rfl⟩
  · exact ⟨rfl, rfl⟩

/-- Settles O29: the merge is `State.merge_unhit` where no HELD member is flagged, `State.merge_lives` with at most m
lost and `State.merge_closes` with more. -/
theorem submitMergesIntoPresentEntry : Obligations.SubmitMergesIntoPresentEntry := by
  intro s p i c h e hoffers r hp hx hclosed hdraining hagrees hits joined flagged some_ counted
  obtain ⟨hprofile, -, -⟩ := (submitAgrees_iff hp).mp hagrees
  have hcode : (s.advance p).code e.profile = c := by
    obtain ⟨-, hi, -, -⟩ := hp
    rw [hprofile]
    exact State.code_of_profile (s := s.advance p) hi
  have hdecide := submitDecide_merged (s := s.advance p) (p := p) hp hx (not_or.mpr ⟨hclosed, hdraining⟩) hagrees
  obtain ⟨t, hexec, hframe, hrest, htables⟩ := exec_kept hoffers hdecide (Kept.merge ..)
  have hothers : onlyEntry s t h := fun j hj => by
    refine Eq.trans ?_ (State.merge_others (s := s.advance p) p r hclosed j hj)
    rw [← hrest]
    rfl
  refine ⟨t, hexec, hframe, hothers, fun hn => ?_, fun hhit h0 hm => ?_, fun hhit hm => ?_⟩
  · have hmerge := State.merge_unhit (s := s.advance p) (p := p) (h := h) (r := r) (e := e) hn
    rw [hmerge] at hdecide
    obtain ⟨u, hexec', hports, hrest'⟩ := exec_waits hoffers hdecide fun _ => rfl
    obtain rfl : u = t := Host.Outcome.next.inj (hexec'.symm.trans hexec)
    refine ⟨?_, hports, ?_⟩
    · rw [← hrest']
      exact State.entry_put ..
    · rw [← hrest']
      rfl
  · have hlives := State.merge_lives (s := s.advance p) (p := p) (h := h) hclosed hhit (by rw [hcode]; exact hm)
    rw [hcode] at hlives
    exact (hlives.ports hrest htables).portsBefore (v := { s with counters := counted }) rfl (advance_tables s p)
  · have hcloses := State.merge_closes (s := s.advance p) (p := p) (h := h) hclosed hhit (by rw [hcode]; exact hm)
    exact (hcloses.ports hrest htables).portsBefore (v := { s with counters := counted }) rfl (advance_tables s p)

end Sys2Proof.Machine
end

section
/-! PROOFS. The last submitter's WITHDRAW (O32). -/

namespace Sys2Proof.Machine

open Sys2Proof.Config

/-! ### Work under way (R59, log 18) -/

theorem State.busyWith_iff_remains (s : State) (h : Handle) :
    s.busyWith h ↔ ¬(s.passInFlight h = false ∧ s.outputsRemain h = false) := by
  have hlanes : (s.lanes.toList.any fun x => decide (x.map Pass.handle = some h)) = s.passInFlight h := by
    unfold State.passInFlight
    congr 1
    funext x
    cases x <;> simp
  rw [State.busyWith_iff, hlanes, Bool.or_assoc, ← Bool.or_eq_false_iff, Bool.not_eq_false]
  rfl

section

variable {s : State} {h : Handle} {e : Entry} (he : s.entry? h = some e) (hd : e.state = .draining)

include he hd

/-- R59: a DRAINING entry stays while work of it is under way. -/
theorem State.closeIfDrained_busy (hb : s.busyWith h) : s.closeIfDrained h = s := by
  simp only [State.closeIfDrained, he, hd, true_and, if_neg ((s.busyWith_iff_remains h).mp hb)]

theorem State.closeIfDrained_idle (hb : ¬s.busyWith h) : s.closeIfDrained h = s.closeEntry h (.failed .cancelled) := by
  have hidle := not_not.mp (mt (s.busyWith_iff_remains h).mpr hb)
  simp only [State.closeIfDrained, he, hd, true_and, if_pos hidle]

end

/-! ### The SOURCE cells a DRAIN gives up (R58, R131) -/

/-- A SOURCE cell of an entry at an offset that no pass of it was dispatched for. -/
def undispatchedCell (s : State) (h : Handle) (c : CellId) : Prop :=
  ∃ x pos o v, s.cell c = some x ∧ x.owner = h ∧ x.use = .source pos o v
    ∧ ∀ k y, s.lane k = some y → y.handle = h → y.offset ≠ o

/-- An entry has at most one pass in flight. -/
def State.onePass (s : State) (h : Handle) : Prop :=
  ∀ j k x y, s.lane j = some x → s.lane k = some y → x.handle = h → y.handle = h → j = k

/-- What the offset of an entry's pass is looked for in each lane. -/
def laneOffset (h : Handle) (l : Option Pass) : Option Offset :=
  match l with
  | some p => if p.handle = h then some p.offset else none
  | none => none

theorem laneOffset_eq_some {h : Handle} {l : Option Pass} {o : Offset} :
    laneOffset h l = some o ↔ ∃ x, l = some x ∧ x.handle = h ∧ x.offset = o := by
  cases l with
  | none => simp [laneOffset]
  | some x => simp [laneOffset]

theorem State.passOffset_eq (s : State) (h : Handle) : s.passOffset h = s.lanes.toList.findSome? (laneOffset h) := by
  unfold State.passOffset laneOffset
  rfl

theorem State.mem_lanes_iff (s : State) (l : Option Pass) : l ∈ s.lanes.toList ↔ ∃ k, s.lane k = l := by
  rw [Vector.mem_toList_iff, Vector.mem_iff_getElem]
  exact ⟨fun ⟨i, hi, hl⟩ => ⟨⟨i, hi⟩, hl⟩, fun ⟨k, hl⟩ => ⟨k.val, k.isLt, hl⟩⟩

theorem State.lane_of_passOffset {s : State} {h : Handle} {o : Offset} (ho : s.passOffset h = some o) :
    ∃ k x, s.lane k = some x ∧ x.handle = h ∧ x.offset = o := by
  rw [State.passOffset_eq] at ho
  obtain ⟨l, hl, hlo⟩ := List.exists_of_findSome?_eq_some ho
  obtain ⟨x, rfl, hx⟩ := laneOffset_eq_some.mp hlo
  obtain ⟨k, hk⟩ := (s.mem_lanes_iff _).mp hl
  exact ⟨k, x, hk, hx⟩

/-- R58: the offset of the entry's pass in flight, where there is no other. -/
theorem State.passOffset_eq_some_iff {s : State} {h : Handle} (hone : s.onePass h) (o : Offset) :
    s.passOffset h = some o ↔ ∃ k x, s.lane k = some x ∧ x.handle = h ∧ x.offset = o := by
  refine ⟨State.lane_of_passOffset, fun ⟨k, x, hk, hx, ho⟩ => ?_⟩
  cases hp : s.passOffset h with
  | none =>
    rw [State.passOffset_eq] at hp
    have hnone := List.findSome?_eq_none_iff.mp hp (some x) ((s.mem_lanes_iff _).mpr ⟨k, hk⟩)
    exact absurd (laneOffset_eq_some.mpr ⟨x, rfl, hx, ho⟩) (by simp [hnone])
  | some o' =>
    obtain ⟨j, y, hj, hy, ho'⟩ := State.lane_of_passOffset hp
    obtain rfl := hone j k y x hj hk hy hx
    obtain rfl := Option.some.inj (hj.symm.trans hk)
    rw [← ho, ← ho']

/-- The SOURCE cells released are those of offsets whose pass has not been dispatched. -/
theorem State.mem_undispatched_iff {s : State} {h : Handle} (hone : s.onePass h) (c : CellId) :
    c ∈ s.undispatched h ↔ undispatchedCell s h c := by
  unfold State.undispatched State.cellsWhere
  rw [indicesWhere_eq, List.mem_filter, cellIs_iff]
  simp only [List.mem_finRange, true_and, Bool.and_eq_true, decide_eq_true_eq]
  refine exists_congr fun x => ?_
  have hoffset : ∀ o, (s.passOffset h != some o) = true ↔ ∀ k y, s.lane k = some y → y.handle = h → y.offset ≠ o := fun o => by
    rw [bne_iff_ne, Ne, State.passOffset_eq_some_iff hone]
    exact ⟨fun hn k y hk hy ho => hn ⟨k, y, hk, hy, ho⟩, fun hn ⟨k, y, hk, hy, ho⟩ => hn k y hk hy ho⟩
  constructor
  · rintro ⟨hx, howner, huse⟩
    cases hxu : x.use with
    | source pos o v =>
      rw [hxu] at huse
      exact ⟨pos, o, v, hx, howner, rfl, (hoffset o).mp huse⟩
    | _ => simp [hxu] at huse
  · rintro ⟨pos, o, v, hx, howner, hxu, hn⟩
    refine ⟨hx, howner, ?_⟩
    rw [hxu]
    exact (hoffset o).mpr hn

/-! ### The DRAIN of an ACTIVE entry (R58, R120) -/

/-- The entry as a DRAIN of its ACTIVE state leaves it. -/
def Entry.draining (e : Entry) : Entry := { e with state := .draining }

/-- A port with the entry's fetches WITHDRAWN. -/
def Port.withdrawn (h : Handle) (q : Port) : Port :=
  { q with fetches := mapVec (fun x => x.map fun f => if f.handle = h then { f with cell := none } else f) q.fetches }

/-- The entry DRAINING, its park dropped. -/
def State.beginDrain (s : State) (h : Handle) (e : Entry) : State :=
  { s.setEntry h e.draining with park := if s.park = some h then none else s.park }

/-- The entry DRAINING, its park dropped and its fetches WITHDRAWN, their cells still held. -/
def State.drained (s : State) (h : Handle) (e : Entry) : State :=
  { s.beginDrain h e with ports := mapVec (Port.withdrawn h) s.ports }

/-- A DRAIN of an ACTIVE entry up to the close of an idle one. -/
def State.drainCells (s : State) (h : Handle) (e : Entry) : State :=
  let w := (s.beginDrain h e).withdrawFetches h
  w.releaseAll (w.undispatched h)

theorem withdrawSlot_eq (h : Handle) :
    withdrawSlot h = fun x => x.map fun f => if f.handle = h then { f with cell := none } else f := by
  funext x
  cases x with
  | none => rfl
  | some f => by_cases hf : f.handle = h <;> simp [withdrawSlot, hf]

section

variable {s : State} {h : Handle} {e : Entry}

theorem State.drain_active (hs : e.state = .active) : s.drain h e = (s.drainCells h e).closeIfDrained h := by
  have hpark : (if (s.setEntry h e.draining).park = some h then { s.setEntry h e.draining with park := none }
      else s.setEntry h e.draining) = s.beginDrain h e := by
    unfold State.beginDrain
    change (if s.park = some h then _ else _) = _
    split <;> rfl
  rw [State.drainCells, ← hpark]
  simp only [State.drain, hs]
  rfl

theorem Kept.drain (s : State) (h : Handle) (e : Entry) : Kept s (s.drain h e) := by
  cases hs : e.state with
  | queued | planning | settling =>
    simp only [State.drain, hs]
    exact Kept.closeEntry ..
  | draining | closed =>
    simp only [State.drain, hs]
    exact Kept.refl s
  | active =>
    rw [State.drain_active hs]
    refine Kept.trans ?_ (Kept.closeIfDrained ..)
    refine Kept.trans ?_ (Kept.releaseAll ..)
    refine Kept.trans ?_ (Kept.withdrawFetches ..)
    exact (Kept.setEntry s h e.draining).trans (Kept.setPark ..)

theorem State.port_drained (s : State) (h : Handle) (e : Entry) (q : PortId) :
    (s.drained h e).port q = (s.port q).withdrawn h := mapVec_get ..

/-- R58, R120, R124: what a DRAIN of an ACTIVE entry does before the close of an idle one. -/
theorem State.drainCells_after (e : Entry) (hone : s.onePass h) : afterRelease (s.drained h e) (s.drainCells h e)
    (fun c => liveCell s h c ∨ undispatchedCell s h c) := by
  have hspec := State.withdrawFetches_spec (s.beginDrain h e) h
  unfold State.drainCells
  generalize (s.beginDrain h e).withdrawFetches h = w at hspec ⊢
  dsimp only
  have hports : w.ports = (s.drained h e).ports := Vector.ext fun i hi => by
    have hq := hspec.all ⟨i, hi⟩
    rw [withdrawSlot_eq] at hq
    exact hq.trans (s.port_drained h e ⟨i, hi⟩).symm
  have hw : { s.drained h e with cells := w.cells, attempt := w.attempt } = w := by
    rw [← hspec.rest, hports]
    rfl
  have hlanes : w.lane = s.lane := by
    rw [← hw]
    rfl
  have honew : w.onePass h := by
    unfold State.onePass
    rwa [hlanes]
  obtain ⟨l, hl, hreleases⟩ := hspec.cells
  have hlive : ∀ c, c ∈ l ↔ liveCell s h c := fun c => (hl c).trans (mem_liveCells_iff (s.beginDrain h e) h c)
  have hmem := State.mem_undispatched_iff honew
  generalize w.undispatched h = l' at hmem ⊢
  have hmore := w.releaseAll_spec l'
  have hcauses := w.releaseAll_causes l'
  have honly := CellsOnly.releaseAll w l'
  generalize w.releaseAll l' = v at hmore hcauses honly ⊢
  refine ⟨?_, ⟨l ++ l', fun c => ?_, ?_⟩, ?_⟩
  · rw [← honly, ← hw]
  · rw [List.mem_append, hlive, hmem]
    by_cases hc : liveCell s h c
    · simp [hc]
    · have hcell : w.cell c = s.cell c := hreleases.other (mt (hlive c).mp hc)
      rw [undispatchedCell, undispatchedCell, hcell, hlanes]
  · have hentries : w.entries = (s.drained h e).entries := by rw [← hw]
    exact (hreleases.append hmore hentries).congr rfl rfl id rfl id
  · have hboth := hspec.causes.trans hcauses
    exact (hboth.rebase (s' := s.drained h e) (t' := v) rfl rfl rfl rfl).1.trans (by simp)

theorem State.drainCells_entry (e : Entry) (hone : s.onePass h) : (s.drainCells h e).entry? h = some e.draining := by
  have hentries : (s.drainCells h e).entries = (s.setEntry h e.draining).entries := by
    rw [← (State.drainCells_after e hone).rest]
    rfl
  rw [← State.entry_put s h e.draining, State.entry?, State.entry?, hentries]

theorem State.drainCells_port (e : Entry) (hone : s.onePass h) (q : PortId) :
    (s.drainCells h e).port q = (s.port q).withdrawn h := by
  have hports : (s.drainCells h e).ports = (s.drained h e).ports := by rw [← (State.drainCells_after e hone).rest]
  rw [← s.port_drained h e q, State.port, State.port, hports]

/-- A DRAIN leaves the work under way. -/
theorem State.drainCells_busy (e : Entry) (hone : s.onePass h) : (s.drainCells h e).busyWith h ↔ s.busyWith h := by
  have hafter := State.drainCells_after e hone
  have hlanes : (s.drainCells h e).lanes = s.lanes := by
    rw [← hafter.rest]
    rfl
  have hdeliveries : (s.drainCells h e).deliveries = s.deliveries := by
    rw [← hafter.rest]
    rfl
  simp only [State.busyWith, hlanes, hdeliveries, State.drainCells_port e hone]
  rfl

end

/-! ### The last submitter's WITHDRAW (R58, R60) -/

theorem PortSet.ne_zero_of_has {a : PortSet} {p : PortId} (h : PortSet.has a p = true) : a ≠ 0 := by
  revert a p
  decide

theorem liveCell_advance (s : State) (p : PortId) (h : Handle) : liveCell (s.advance p) h = liveCell s h :=
  funext fun c => by simp only [liveCell, (advance_tables s p _).1]

/-- A WITHDRAW that closes the entry. -/
theorem exec_withdraw_closes {s : State} {p : PortId} {h : Handle} {e : Entry} {o : EntryOutcome} (hoffers : s.offers p 2)
    (hdecide : withdrawDecide p (s.port p).request (s.advance p) =
      Answer.only ((s.advance p).closeEntry h o).refreshWaits .ok)
    (he : s.entry? h = some e) (hc : e.state ≠ .closed) (hs : e.submitters ≠ 0) :
    ∃ t, exec (.withdraw p) s = .next t ∧ answeredFrame s t p 2 .ok .none ∧ closes s t h e o := by
  have hcloses := State.closeEntry_spec (s := s.advance p) he hc hs o
  obtain ⟨t, hexec, hframe, hrest, htables⟩ := exec_kept (st := .ok) (b := .none) hoffers hdecide (Kept.closeEntry ..)
  exact ⟨t, hexec, hframe, (hcloses.ports hrest htables).portsBefore (v := s) rfl (advance_tables s p)⟩

/-- What a DRAIN releases does not depend on the taking of its request. -/
theorem State.drainCells_after_advance {s : State} {h : Handle} (e : Entry) (p : PortId) (hone : s.onePass h) :
    afterRelease (s.drained h e) { (s.advance p).drainCells h e with ports := (s.drained h e).ports }
      (fun c => liveCell s h c ∨ undispatchedCell s h c) := by
  obtain ⟨hrest, ⟨l, hl, hreleases⟩, hattempt⟩ := State.drainCells_after (s := s.advance p) e hone
  generalize (s.advance p).drainCells h e = w at hrest hreleases hattempt ⊢
  refine ⟨?_, ⟨l, fun c => ?_, hreleases.congr rfl rfl id rfl id⟩, hattempt⟩
  · rw [← hrest]
    rfl
  · rw [hl, liveCell_advance]
    rfl

/-- Settles O32: a close is `State.closeEntry_spec`; the DRAIN of an ACTIVE entry is `State.drainCells_after` and then
the close of an idle one. -/
theorem lastSubmitterWithdrawsEntry : Obligations.LastSubmitterWithdrawsEntry := by
  intro s p e hoffers r h hle he hstripe hc hin hlast
  have hnamed : (s.advance p).named r = .ok e := State.named_entry (s := s.advance p) hle he hstripe
  have hs := PortSet.ne_zero_of_has hin
  refine ⟨fun hmode => ?_, ?_⟩
  · refine exec_withdraw_closes hoffers ?_ he hc hs
    rcases hmode with hmode | ⟨hmode, hstate⟩
    · rw [withdrawDecide_last hnamed (.inr hmode) hin hc hlast, if_neg (by omega)]
    · have hcloses : (s.advance p).drain h e = (s.advance p).closeEntry h (.failed .cancelled) := by
        rcases hstate with hq | hq | hq <;> simp only [State.drain, hq]
      rw [withdrawDecide_last hnamed (.inl hmode) hin hc hlast, if_pos hmode, hcloses]
  · intro hdrain hactive hone draining drained undispatched
    have hdecide := withdrawDecide_last hnamed (.inl hdrain) hin hc hlast
    rw [if_pos hdrain] at hdecide
    obtain ⟨t, hexec, hframe, hrest, htables⟩ := exec_kept (st := .ok) (b := .none) hoffers hdecide (Kept.drain ..)
    have honea : (s.advance p).onePass h := hone
    have hentry := State.drainCells_entry e honea
    have hport := State.drainCells_port e honea
    have hbusy : ((s.advance p).drainCells h e).busyWith h ↔ s.busyWith h := by
      rw [State.drainCells_busy e honea]
      simp only [State.busyWith, ← (advance_tables s p _).2]
      rfl
    have hfetches : ∀ q, (drained.port q).fetches = (((s.advance p).drainCells h e).port q).fetches
        ∧ (drained.port q).outputs = (((s.advance p).drainCells h e).port q).outputs := fun q => by
      have hdrained : drained.port q = (s.port q).withdrawn h := s.port_drained h e q
      obtain ⟨hf, ho⟩ := advance_tables s p q
      rw [hport, hdrained, Port.withdrawn, Port.withdrawn, hf, ho]
      exact ⟨rfl, rfl⟩
    have hafter := State.drainCells_after_advance e p hone
    rw [State.drain_active hactive] at hrest htables
    generalize (s.advance p).drainCells h e = w at hentry hport hbusy hfetches hafter hrest htables
    refine ⟨t, { w with ports := drained.ports }, hexec, hframe, hafter, fun hidle => ?_, fun hb => ?_⟩
    · rw [State.closeIfDrained_idle hentry rfl (mt hbusy.mp hidle)] at hrest htables
      have hcloses := State.closeEntry_spec hentry (by simp [Entry.draining]) hs (.failed .cancelled)
      exact (hcloses.ports hrest htables).portsBefore rfl hfetches
    · rw [State.closeIfDrained_busy hentry rfl (hbusy.mpr hb)] at hrest htables
      refine ⟨hrest, fun q => ⟨(htables q).1.trans (hfetches q).1.symm, (htables q).2.trans ?_⟩⟩
      rw [hport]
      exact (advance_tables s p q).2.symm

end Sys2Proof.Machine
end

section
/-! PROOFS. The serving of one entry writes no other entry of the Repair Table (O52, O58). -/

namespace Sys2Proof.Machine

open Sys2Proof.Config

/-- From `s` to `t` the table keeps its order and no entry but the one at `h` changes. -/
structure OneEntry (h : Handle) (s t : State) : Prop where
  rising : s.rising → t.rising
  others : onlyEntry s t h

section

variable {h : Handle} {s t u : State}

theorem OneEntry.of_entries (k : t.entries = s.entries) : OneEntry h s t := by
  refine ⟨fun hr => ?_, fun j _ => ?_⟩
  · rwa [State.rising, k]
  · rw [State.entry?, k, State.entry?]

theorem OneEntry.refl (s : State) : OneEntry h s s := .of_entries rfl

theorem OneEntry.trans (k : OneEntry h s t) (l : OneEntry h t u) : OneEntry h s u :=
  ⟨fun hr => l.rising (k.rising hr), fun j hj => (l.others j hj).trans (k.others j hj)⟩

theorem OneEntry.ite {c : Prop} [Decidable c] (k : OneEntry h s t) (l : OneEntry h s u) :
    OneEntry h s (if c then t else u) := by
  split
  · exact k
  · exact l

theorem OneEntry.foldl {α : Type} {f : State → α → State} (hf : ∀ s a, OneEntry h s (f s a)) (l : List α) (s : State) :
    OneEntry h s (l.foldl f s) := by
  induction l generalizing s with
  | nil => exact .refl s
  | cons a l ih => exact (hf s a).trans (ih _)

end

section

variable (s : State) (h : Handle)

/-! ### Writes and releases -/

theorem OneEntry.setEntry (e : Entry) : OneEntry h s (s.setEntry h e) :=
  ⟨fun hr => State.rising_setEntry hr h e, fun _ hj => (State.entry_setEntry ..).trans (if_neg hj)⟩

theorem OneEntry.modEntry (f : Entry → Entry) : OneEntry h s (s.modEntry h f) := by
  unfold State.modEntry
  split
  · exact .setEntry ..
  · exact .refl s

theorem OneEntry.modPlan (f : Plan → Plan) : OneEntry h s (s.modPlan h f) := .modEntry ..

theorem OneEntry.count (i : Fin 18) : OneEntry h s (s.count i) := .of_entries rfl

theorem OneEntry.causeAttempt : OneEntry h s s.causeAttempt := .of_entries rfl

theorem OneEntry.setPark (x : Option Handle) : OneEntry h s { s with park := x } := .of_entries rfl

theorem OneEntry.releaseBank (b : Option BankId) : OneEntry h s (s.releaseBank b) :=
  .of_entries (by rw [← State.rest_releaseBank])

theorem OneEntry.lookup (key : Key) : OneEntry h s (s.lookup key).1 := .of_entries (by rw [← State.lookup_rest])

/-! ### Entering ACTIVE and SETTLING (R53, R84) -/

theorem OneEntry.dropPlan : OneEntry h s (s.dropPlan h) := by
  cases he : s.entry? h with
  | none =>
    rw [State.dropPlan_absent he]
    exact .refl s
  | some e =>
    have hdrop := State.dropPlan_spec he
    refine ⟨fun hr => ?_, fun j hj => (hdrop.entry j).trans (if_neg hj)⟩
    rcases hdrop.entries with hx | ⟨hx, -⟩ <;> rw [State.rising, hx]
    · exact Table.sorted_put _ _ _ hr
    · exact hr

theorem OneEntry.settleIfDone : OneEntry h s (s.settleIfDone h) := by
  unfold State.settleIfDone
  split
  · exact .ite (.trans (.setEntry ..) (.dropPlan ..)) (.refl s)
  · exact .refl s

theorem OneEntry.enterActive : OneEntry h s (s.enterActive h) := .trans (.modEntry ..) (.settleIfDone ..)

theorem OneEntry.activateIfReady : OneEntry h s (s.activateIfReady h) := by
  unfold State.activateIfReady
  split
  · exact .ite (.enterActive ..) (.refl s)
  · exact .refl s

/-! ### Revisions and completions (R84, R85) -/

theorem OneEntry.dropOutside (keeps : Position → Bool) : OneEntry h s (s.dropOutside h keeps) :=
  .of_entries (by rw [← (s.dropOutside_gives h keeps).1])

theorem OneEntry.reviseDests (start : Offset) : OneEntry h s (s.reviseDests h start) := by
  cases he : s.entry? h with
  | none =>
    simp only [State.reviseDests, he]
    exact .refl s
  | some e =>
    rw [State.reviseDests_eq he]
    have hloaded : OneEntry h s { s with nodes := loadedBy s.nodes (s.destChoice e).chosen, selector := (s.destChoice e).selector } :=
      .of_entries rfl
    exact hloaded.trans (.setEntry ..)

theorem OneEntry.reserveFloor (j : Handle) (n : Nat) : OneEntry h s (reserveFloor j n s) := by
  rw [← (reserveFloor_reserves j n s).1]
  exact .of_entries rfl

theorem OneEntry.shrinkFloor (j : Handle) (n : Nat) : OneEntry h s (shrinkFloor j n s) := by
  induction n generalizing s with
  | zero => exact .refl s
  | succ n ih =>
    refine .trans ?_ (ih _)
    unfold State.shrinkOne
    split
    · exact .of_entries (CellsOnly.release ..).entries
    · exact .refl s

theorem OneEntry.resizeFloor (size : Nat) : OneEntry h s (s.resizeFloor h size) := by
  unfold State.resizeFloor
  exact .trans (.modPlan ..) (.ite (.shrinkFloor ..) (.reserveFloor ..))

theorem OneEntry.rebank (old : Option BankId) (key : Key) : OneEntry h s (s.rebank h old key) := by
  unfold State.rebank
  split
  · exact .ite (.refl s) (.trans (.trans (.releaseBank ..) (.lookup ..)) (.modPlan ..))
  · exact .trans (.lookup ..) (.modPlan ..)

theorem OneEntry.revise (e : Entry) (pl : Plan) : OneEntry h s (s.revise h e pl) := by
  unfold State.revise
  dsimp only
  refine .trans (.trans ?_ (.count ..)) (.activateIfReady ..)
  have hsized : ∀ (x : Entry) (keeps : Position → Bool) (d : Offset) (size : Nat),
      OneEntry h s ((((s.setEntry h x).dropOutside h keeps).reviseDests h d).resizeFloor h size) := fun _ _ _ _ =>
    .trans (.trans (.trans (.setEntry ..) (.dropOutside ..)) (.reviseDests ..)) (.resizeFloor ..)
  split
  · exact (hsized ..).trans (.rebank ..)
  · exact (hsized ..).trans (.trans (.releaseBank ..) (.modPlan ..))

theorem OneEntry.completePlan (pl : Plan) : OneEntry h s (s.completePlan h pl) := by
  unfold State.completePlan
  refine .trans ?_ (.activateIfReady ..)
  split
  · exact .trans (.reviseDests ..) (.rebank ..)
  · exact .reviseDests ..

theorem OneEntry.serve : OneEntry h s (s.serve h) := by
  unfold State.serve
  split
  · split
    · exact .ite (.ite (.revise ..) (.completePlan ..)) (.refl s)
    · exact .refl s
  · exact .refl s

end

/-! ### The whole attempt keeps the table's order (R68) -/

section

variable {s : State}

theorem State.rising.completePark (hr : s.rising) (h : Handle) : (s.completePark h).rising := by
  have hparked : OneEntry h s (s.completePark h) :=
    .trans (.trans (.trans (.setPark ..) (.dropPlan ..)) (.modEntry ..)) (.causeAttempt ..)
  exact hparked.rising hr

theorem State.rising.activate (hr : s.rising) (h : Handle) (e : Entry) (t : Trial) : (s.activate h e t).rising := by
  obtain ⟨f, u, pl, -, -, -, hkept, heq⟩ := s.activate_eq h e t
  have hu : u.rising := hkept.rising (State.rising_setEntry hr h f)
  rw [heq]
  exact (OneEntry.trans (.modEntry ..) (.activateIfReady ..)).rising hu

theorem walkStep_rising {w : Walk} (hr : w.state.rising) (h : Handle) : (walkStep w h).state.rising := by
  rcases walkStep_state w h with hw | ⟨r, hw⟩ | ⟨e, t, -, hw⟩ <;> rw [hw]
  · exact hr
  · exact (ShapesKept.setWait ..).rising hr
  · exact hr.activate h e t

theorem walk_rising {w : Walk} (hr : w.state.rising) (l : List Handle) : (l.foldl walkStep w).state.rising := by
  induction l generalizing w with
  | nil => exact hr
  | cons h l ih => exact ih (walkStep_rising hr h)

theorem State.rising.servePlanning (hr : s.rising) : s.servePlanning.rising := by
  unfold State.servePlanning
  generalize s.inOrder _ = l
  induction l generalizing s with
  | nil => exact hr
  | cons h l ih => exact ih ((OneEntry.serve s h).rising hr)

theorem State.rising.markPark (hr : s.rising) (h : Handle) : (s.markPark h).rising := by
  have hkept : ShapesKept s ((({ s with park := some h } : State).withdrawFetches h).count 16) :=
    .trans (.trans (.setPark ..) (.withdrawFetches ..)) (.count ..)
  unfold State.markPark
  dsimp only
  split
  · exact hkept.rising hr
  · exact (hkept.rising hr).completePark h

theorem State.rising.parkIfStarved (hr : s.rising) (starved : Bool) : (s.parkIfStarved starved).rising := by
  unfold State.parkIfStarved
  split
  · split
    · exact hr.markPark _
    · exact hr
  · exact hr

theorem State.rising.plan (hr : s.rising) : s.plan.rising := by
  have hserved : ({ s with attempt := false } : State).servePlanning.rising := State.rising.servePlanning hr
  exact (walk_rising (w := ⟨_, false, none, false⟩) hserved _).parkIfStarved _

end

end Sys2Proof.Machine
end

section
/-! PROOFS. Every step keeps the settings, the stamps, the selector, the indices and the request memory legal: the invariant
carried from state to state, and the operations inside a command (O58). -/

namespace Sys2Proof.Machine

open Sys2Proof.Config

/-! ### The parts of the invariant -/

/-- R30, R107, R118, R145, R154: the device-wide settings lie in their ranges. -/
def State.rangesHold (s : State) : Prop :=
  (1 ≤ s.quorum ∧ s.quorum ≤ 4) ∧ (1 ≤ s.window ∧ s.window ≤ 8) ∧ (10 ≤ s.fetchTimeout ∧ s.fetchTimeout ≤ 5000)
    ∧ (100 ≤ s.landingTimeout ∧ s.landingTimeout ≤ 60000) ∧ (1 ≤ s.epochLength ∧ s.epochLength ≤ 1000)

/-- R155: the three counts of a budget record fit their 16 bits. -/
def Budget.fits (b : Budget) : Prop := b.used ≤ 65535 ∧ b.active ≤ 65535 ∧ b.shadow ≤ 65535

/-- R163: the indices lie in their ranges, and those of the response queue differ by the records waiting. -/
def Port.indicesHold (q : Port) : Prop :=
  q.reqTail < 128 ∧ q.reqHead < 128 ∧ q.respTail < 320 ∧ q.respHead < 320
    ∧ (q.respHead + q.responses.length) % 320 = q.respTail

/-- R110, R140, R155, R163, R164: what the invariant asks of a port. -/
def Port.legal (q : Port) : Prop :=
  (1 ≤ q.credit ∧ q.credit ≤ 32) ∧ (16 ≤ q.quota ∧ q.quota ≤ 512) ∧ q.landing.length ≤ 32 ∧ q.budget.fits ∧ q.indicesHold
    ∧ Memory.wf q.slots

theorem State.settingsHold_iff (s : State) : s.settingsHold ↔
    s.selector ≠ 0 ∧ s.stampsOk ∧ s.rangesHold ∧ s.rising ∧ ∀ p, (s.port p).legal := by
  unfold State.settingsHold State.stampsOk State.rangesHold Port.legal Budget.fits Port.indicesHold
  simp only [and_assoc]

/-- From `s` to `t` each part of the invariant that held goes on to hold. -/
structure Settled (s t : State) : Prop where
  selector : s.selector ≠ 0 → t.selector ≠ 0
  stamps : s.stampsOk → t.stampsOk
  ranges : s.rangesHold → t.rangesHold
  rising : s.rising → t.rising
  port : ∀ p, (s.port p).legal → (t.port p).legal

/-- What the invariant reads of a state. -/
def State.settings (s : State) : U16 × Vector Bank 8 × List Nat × Table Entry × Vector Port 4 :=
  (s.selector, s.banks, [s.quorum, s.window, s.fetchTimeout, s.landingTimeout, s.epochLength], s.entries, s.ports)

section

variable {s t u : State}

theorem Settled.holds (k : Settled s t) (h : s.settingsHold) : t.settingsHold := by
  obtain ⟨hsel, hst, hra, hri, hp⟩ := (State.settingsHold_iff s).mp h
  exact (State.settingsHold_iff t).mpr ⟨k.selector hsel, k.stamps hst, k.ranges hra, k.rising hri, fun p => k.port p (hp p)⟩

theorem Settled.of_settings (h : t.settings = s.settings) : Settled s t := by
  simp only [State.settings, Prod.mk.injEq, List.cons.injEq, and_true] at h
  obtain ⟨hsel, hb, ⟨hq, hw, hf, hl, he⟩, hent, hp⟩ := h
  refine ⟨?_, ?_, ?_, ?_, fun p => ?_⟩
  · rw [hsel]
    exact id
  · have hbank : ∀ b, t.bank b = s.bank b := fun b => congrArg (·[b]) hb
    simp only [State.stampsOk, hbank]
    exact id
  · rw [State.rangesHold, State.rangesHold, hq, hw, hf, hl, he]
    exact id
  · rw [State.rising, State.rising, hent]
    exact id
  · rw [State.port, State.port, hp]
    exact id

theorem Settled.refl (s : State) : Settled s s := .of_settings rfl

theorem Settled.trans (k : Settled s t) (l : Settled t u) : Settled s u :=
  ⟨fun h => l.selector (k.selector h), fun h => l.stamps (k.stamps h), fun h => l.ranges (k.ranges h),
    fun h => l.rising (k.rising h), fun p h => l.port p (k.port p h)⟩

theorem Settled.ite {c : Prop} [Decidable c] (k : c → Settled s t) (l : ¬c → Settled s u) :
    Settled s (if c then t else u) := by
  split
  · next hc => exact k hc
  · next hc => exact l hc

theorem Settled.foldl {α : Type} {f : State → α → State} (hf : ∀ s a, Settled s (f s a)) (l : List α) (s : State) :
    Settled s (l.foldl f s) := by
  induction l generalizing s with
  | nil => exact .refl s
  | cons a l ih => exact (hf s a).trans (ih _)

/-- What the shared operations leave alone holds the whole invariant but for the table's order. -/
theorem Planned.settled (k : Planned s t) (hr : s.rising → t.rising) : Settled s t := by
  refine ⟨k.selector, k.stamps, fun h => ?_, hr, fun p h => ?_⟩
  · rwa [State.rangesHold, k.quorum, k.window, k.fetchTimeout, k.landingTimeout, k.epochLength]
  · rw [k.port p]
    exact h

theorem Settled.of_kept (k : Kept s t) (h : ShapesKept s t) : Settled s t := k.toPlanned.settled h.rising

end

section

variable (s : State) (h : Handle)

/-! ### Ports -/

variable {s} in
theorem Settled.modPort {p : PortId} {f : Port → Port} (hf : (s.port p).legal → (f (s.port p)).legal) :
    Settled s (s.modPort p f) := by
  refine ⟨id, id, id, id, fun j hj => ?_⟩
  rw [port_modPort]
  by_cases hjp : j = p
  · rw [if_pos hjp]
    exact hf (hjp ▸ hj)
  · rwa [if_neg hjp]

/-- R163: a record placed at the tail waits, and the tail advances past it. -/
theorem Port.legal_place {q : Port} (r : Record) (hq : q.legal) : (q.place r).legal := by
  obtain ⟨hcredit, hquota, hlanding, hbudget, ⟨h1, h2, h3, h4, h5⟩, hslots⟩ := hq
  refine ⟨hcredit, hquota, hlanding, hbudget, ⟨h1, h2, ?_, h4, ?_⟩, hslots⟩
  · exact Nat.mod_lt _ (by decide)
  simp only [Port.place, List.length_append, List.length_singleton, responseRange]
  omega

theorem Settled.place (p : PortId) (r : Record) : Settled s (s.place p r) := .modPort (Port.legal_place r)

theorem Settled.respond (p : PortId) (b : Byte) (tag : U16) (st : Status) (body : Body) :
    Settled s (s.respond p b tag st body) := .place ..

theorem Port.legal_tookRequest {q : Port} (hq : q.legal) : q.tookRequest.legal := by
  obtain ⟨hcredit, hquota, hlanding, hbudget, ⟨h1, -, h3, h4, h5⟩, hslots⟩ := hq
  exact ⟨hcredit, hquota, hlanding, hbudget, ⟨h1, Nat.mod_lt _ (by decide), h3, h4, h5⟩, hslots⟩

theorem Settled.advance (p : PortId) : Settled s (s.advance p) := .modPort Port.legal_tookRequest

variable {s} in
/-- A change of the ports alone. -/
theorem Settled.of_ports {t : State} (hr : { s with ports := t.ports } = t) (hp : ∀ p, (s.port p).legal → (t.port p).legal) :
    Settled s t := by
  have hrest : Settled s { t with ports := s.ports } := .of_settings (by rw [← hr])
  exact ⟨hrest.selector, hrest.stamps, hrest.ranges, hrest.rising, hp⟩

theorem Settled.refreshWaits : Settled s s.refreshWaits := by
  refine .of_ports (rest_refreshWaits s) fun p hp => ?_
  obtain ⟨w, hw⟩ : ∃ w, s.refreshWaits.port p = { s.port p with wait := w } := ⟨_, port_refreshWaits s p⟩
  rw [hw]
  exact hp

theorem Settled.countRises (t : State) : Settled t (countRises s t) := by
  refine .of_ports (rest_countRises s t) fun p hp => ?_
  rw [port_countRises, Port.risen]
  split
  · exact hp
  · exact hp

/-! ### Writes to the tables, and cells given up -/

theorem Settled.setEntry (e : Entry) : Settled s (s.setEntry h e) :=
  (Kept.setEntry s h e).toPlanned.settled (OneEntry.setEntry s h e).rising

theorem Settled.modEntry (f : Entry → Entry) : Settled s (s.modEntry h f) :=
  (Kept.modEntry s h f).toPlanned.settled (OneEntry.modEntry s h f).rising

theorem Settled.modMember (pos : Position) (f : Member → Member) : Settled s (s.modMember h pos f) := .modEntry ..

theorem Settled.modTarget (pos : Position) (f : Target → Target) : Settled s (s.modTarget h pos f) := .modMember ..

theorem Settled.count (i : Fin 18) : Settled s (s.count i) := .of_settings rfl

theorem Settled.causeAttempt : Settled s s.causeAttempt := .of_settings rfl

theorem Settled.setPark (x : Option Handle) : Settled s { s with park := x } := .of_settings rfl

theorem Settled.modNode (n : NodeId) (f : Node → Node) : Settled s (s.modNode n f) := .of_settings rfl

theorem Settled.release (c : CellId) : Settled s (s.release c) := .of_kept (.release s c) (.release s c)

theorem Settled.releaseAll (l : List CellId) : Settled s (s.releaseAll l) := .of_kept (.releaseAll s l) (.releaseAll s l)

theorem Settled.withdrawFetches : Settled s (s.withdrawFetches h) := .of_kept (.withdrawFetches s h) (.withdrawFetches s h)

theorem Settled.lowerLoad (n : NodeId) : Settled s (s.lowerLoad n) := .of_kept (.lowerLoad s n) (.lowerLoad s n)

/-! ### An entry's life (R51 to R63, R82) -/

theorem Settled.removeIfDone : Settled s (s.removeIfDone h) := by
  refine (Kept.removeIfDone s h).toPlanned.settled fun hr => ?_
  unfold State.removeIfDone
  split
  · split
    · exact Table.sorted_erase _ _ hr
    · exact hr
  · exact hr

theorem Settled.dropPlan : Settled s (s.dropPlan h) :=
  (Kept.dropPlan s h).toPlanned.settled (OneEntry.dropPlan s h).rising

theorem Settled.enterQueued : Settled s (s.enterQueued h) := .trans (.modEntry ..) (.causeAttempt _)

theorem Settled.dropDestination (owesVoid : Bool) (pos : Position) : Settled s (s.dropDestination owesVoid h pos) :=
  .of_kept (.dropDestination ..) (.dropDestination ..)

theorem Settled.closeEntry (o : EntryOutcome) : Settled s (s.closeEntry h o) := by
  cases he : s.entry? h with
  | none =>
    simp only [State.closeEntry, he]
    exact .refl s
  | some e =>
    by_cases hc : e.state = .closed
    · simp only [State.closeEntry, he, hc, if_true]
      exact .refl s
    · have hbegun : Settled s (s.beginClose h e o) := by
        unfold State.beginClose
        exact .ite (fun _ => .trans (.setEntry ..) (.setPark ..)) fun _ => .setEntry ..
      rw [State.closeEntry_eq he hc]
      have hgone : Settled s (((s.beginClose h e o).dropPlan h).withdrawFetches h) :=
        (hbegun.trans (.dropPlan ..)).trans (.withdrawFetches ..)
      have hfreed := hgone.trans (.of_kept (.freeOutputs _ fun x => decide (x.handle = h)) (.freeOutputs ..))
      have hreleased := hfreed.trans (.of_kept (.releaseTargets _ h) (.releaseTargets ..))
      exact (hreleased.trans (.count ..)).trans (.removeIfDone ..)

theorem Settled.reckon : Settled s (s.reckon h) := by
  unfold State.reckon
  split
  · exact .ite (fun _ => .refl s) fun _ => .ite (fun _ => .closeEntry ..) fun _ =>
      .ite (fun _ => .closeEntry ..) fun _ => .setEntry ..
  · exact .refl s

theorem Settled.trigger : Settled s (s.trigger h) := by
  unfold State.trigger
  split
  · next e _ =>
    have hreplans : Settled s (if s.park = some h then s
        else (s.setEntry h { e with state := .planning, replan := true }).causeAttempt) :=
      .ite (fun _ => .refl s) fun _ => .trans (.setEntry ..) (.causeAttempt _)
    cases e.state with
    | planning | active => exact hreplans
    | settling => exact .enterQueued ..
    | queued | draining | closed => exact .refl s
  · exact .refl s

theorem Settled.afterLoss : Settled s (s.afterLoss h) := .trans (.reckon ..) (.trigger ..)

theorem Settled.strike (pos : Position) (cause : LostCause) : Settled s (s.strike h pos cause) := by
  unfold State.strike
  split
  · exact .ite (fun _ => .modMember ..) fun _ => .trans (.modMember ..) (.afterLoss ..)
  · exact .refl s

theorem Settled.closeIfDrained : Settled s (s.closeIfDrained h) := by
  unfold State.closeIfDrained
  split
  · exact .ite (fun _ => .closeEntry ..) fun _ => .refl s
  · exact .refl s

theorem Settled.loseDestination (owesVoid : Bool) (pos : Position) : Settled s (s.loseDestination owesVoid h pos) :=
  .trans (.trans (.dropDestination ..) (.trigger ..)) (.closeIfDrained ..)

theorem Settled.settleIfDone : Settled s (s.settleIfDone h) :=
  (Kept.settleIfDone s h).toPlanned.settled (OneEntry.settleIfDone s h).rising

theorem Settled.activateIfReady : Settled s (s.activateIfReady h) :=
  (Kept.activateIfReady s h).toPlanned.settled (OneEntry.activateIfReady s h).rising

theorem Settled.completePark : Settled s (s.completePark h) :=
  (Kept.completePark s h).toPlanned.settled fun hr => State.rising.completePark hr h

/-- R68: a whole planning attempt. -/
theorem Settled.plan : Settled s s.plan := (Planned.plan s).settled State.rising.plan

theorem Settled.startInversion : Settled s s.startInversion :=
  (Planned.startInversion s).settled (ShapesKept.startInversion s).rising

end

/-! ### The shape of a command (R163, R167) -/

section

variable {s t result : State}

theorem event_settled {a : Bool} (h : event s a result = .next t) (hr : a = true → Settled s result) : Settled s t := by
  obtain rfl := Host.Outcome.next.inj h
  refine .ite (fun ha => ?_) fun _ => .refl s
  obtain ⟨-, ha⟩ := Bool.and_eq_true_iff.mp ha
  exact (hr ha).trans (.countRises ..)

theorem withRequest_settled {p : PortId} {f : Byte → Bool} {body : Request → State → State}
    (h : withRequest p f s body = .next t) (hb : ∀ r u, Settled u (body r u)) : Settled s t := by
  obtain rfl := Host.Outcome.next.inj h
  exact .ite (fun _ => .trans (.trans (.advance s p) (hb ..)) (.countRises ..)) fun _ => .refl s

theorem withAnswer_settled {p : PortId} {b : Byte} {d : Request → State → Answer}
    (h : withAnswer p b s d = .next t) (hd : ∀ r u, Settled u (d r u).state) : Settled s t :=
  withRequest_settled h fun r u => (hd r u).trans (.respond ..)

end

end Sys2Proof.Machine
end

section
/-! PROOFS. The requests keep the settings, the indices and the request memory legal (O58). -/

namespace Sys2Proof.Machine

open Sys2Proof.Config

theorem Settled.only {s t : State} (k : Settled s t) (st : Status) : Settled s (Answer.only t st).state := k

theorem Settled.answers {s t : State} (k : Settled s t) (st : Status) : Settled s (Answer.only t.refreshWaits st).state :=
  (k.trans (.refreshWaits t)).only st

variable (s : State) (p : PortId) (r : Request)

/-! ### Nodes, profiles and settings (01, 02, 10) -/

theorem defineNodeDecide_settled : Settled s (defineNodeDecide r s).state := by
  unfold defineNodeDecide
  split
  · dsimp only
    split
    · exact .of_settings rfl
    · split
      · exact .refl s
      · split
        · exact .refl s
        · exact .of_settings rfl
  · exact .refl s

theorem oneNode_settled {act : NodeId → State → State} (ha : ∀ n u, Settled u (act n u)) :
    Settled s (oneNode act r s).state := by
  unfold oneNode
  split
  · exact .refl s
  · next n _ =>
    split
    · exact .refl s
    · exact ha n s

theorem Settled.reportNode (n : NodeId) : Settled s (s.reportNode p n) := .of_kept (.reportNode p s n) (.reportNode p s n)

theorem Settled.downIfQuorum (n : NodeId) : Settled s (s.downIfQuorum n) := .of_kept (.downIfQuorum s n) (.downIfQuorum s n)

theorem Settled.retract (n : NodeId) : Settled s (s.retract p n) := .ite (fun _ => .modNode ..) fun _ => .refl s

theorem Settled.revive (n : NodeId) : Settled s (s.revive n) := .ite (fun _ => .of_settings rfl) fun _ => .refl s

theorem Settled.clearSuspect (n : NodeId) : Settled s (s.clearSuspect n) := .ite (fun _ => .of_settings rfl) fun _ => .refl s

theorem reportRackDecide_settled : Settled s (reportRackDecide p r s).state := by
  unfold reportRackDecide
  split
  · exact .refl s
  · exact (Settled.foldl (fun t n => .reportNode t p n) _ s).answers .ok

/-- R102: a bank that is emptied or discarded keeps its stamp. -/
theorem Settled.emptyKeyed (i : ProfileId) (b : BankId) : Settled s (s.emptyKeyed i b) := by
  unfold State.emptyKeyed
  refine .ite (fun _ => ?_) fun _ => .refl s
  have hset : ∀ x : Bank, x.stamp = (s.bank b).stamp → Settled s (s.setBank b x) := fun x hx =>
    .of_kept (.setBank s b x hx) (.of_entries rfl)
  split
  · exact (hset (s.bank b).emptied rfl).trans (.causeAttempt _)
  · refine .ite (fun _ => hset _ rfl) fun _ => ?_
    exact .trans (hset (s.bank b).emptied rfl) (.of_settings rfl)
  · exact .refl s

theorem setProfileDecide_settled : Settled s (setProfileDecide r s).state := by
  have hcode : ∀ i f, Settled s (s.modProfile i f) := fun i f => .of_settings rfl
  unfold setProfileDecide
  split
  · exact .refl s
  · split
    · exact .refl s
    · next i _ =>
      dsimp only
      split
      · exact (hcode ..).only .ok
      · split
        · exact .refl s
        · split
          · exact .refl s
          · exact ((hcode ..).trans (.foldl (fun t b => .emptyKeyed t i b) allBanks _)).only .ok

theorem unlessZero_range {low high x old : Nat} (hx : fieldBad low high x = false) (ho : low ≤ old ∧ old ≤ high) :
    low ≤ unlessZero x old ∧ unlessZero x old ≤ high := by
  simp only [fieldBad, Bool.and_eq_false_iff, decide_eq_false_iff_not, Bool.or_eq_false_iff] at hx
  unfold unlessZero
  split <;> omega

/-- R164: values in their ranges are written, and a field of 0 leaves a value in its range. -/
theorem Settled.writeDevice (h : deviceBad r = false) : Settled s (s.writeDevice r) := by
  simp only [deviceBad, Bool.or_eq_false_iff] at h
  obtain ⟨⟨⟨⟨hquorum, hwindow⟩, hfetch⟩, hlanding⟩, hepoch⟩ := h
  refine ⟨id, id, fun ⟨h1, h2, h3, h4, h5⟩ => ?_, id, fun _ => id⟩
  exact ⟨unlessZero_range hquorum h1, unlessZero_range hwindow h2, unlessZero_range hfetch h3,
    unlessZero_range hlanding h4, unlessZero_range hepoch h5⟩

theorem setDeviceDecide_settled : Settled s (setDeviceDecide r s).state := by
  unfold setDeviceDecide
  split
  · exact .refl s
  · next hbad =>
    have hwritten := Settled.writeDevice s r (Bool.eq_false_iff.mpr hbad)
    dsimp only
    split
    · exact (hwritten.trans (.foldl Settled.downIfQuorum allNodes _)).answers .ok
    · exact hwritten

/-! ### Requests on the port's own settings (R140, R155, R159, R164) -/

theorem clamp_range {low high : Nat} (h : low ≤ high) (x : Nat) : low ≤ clamp low high x ∧ clamp low high x ≤ high := by
  unfold clamp
  split
  · omega
  · split <;> omega

theorem Port.legal_setLimits {q : Port} (hq : q.legal) (credit quota : Nat) :
    ({ q with credit := clamp 1 32 credit, quota := clamp 16 512 quota } : Port).legal := by
  obtain ⟨-, -, hrest⟩ := hq
  exact ⟨clamp_range (by decide) credit, clamp_range (by decide) quota, hrest⟩

theorem setLimitsDecide_settled : Settled s (setLimitsDecide p r s).state := by
  have hlimits : Settled s (s.modPort p fun q =>
      { q with credit := clamp 1 32 r.creditLimit, quota := clamp 16 512 r.cellQuota }) :=
    .modPort fun hq => Port.legal_setLimits hq ..
  exact hlimits

/-- R155: a budget is a field of two bytes. -/
theorem Port.legal_setPacing {q : Port} (hq : q.legal) :
    ({ q with budget := { q.budget with shadow := r.budget, switchPending := true } } : Port).legal := by
  have hfield : r.budget < 256 ^ 2 := r.field_lt 20 2
  obtain ⟨hcredit, hquota, hlanding, ⟨hused, hactive, -⟩, hrest⟩ := hq
  exact ⟨hcredit, hquota, hlanding, ⟨hused, hactive, Nat.le_of_lt_succ hfield⟩, hrest⟩

theorem setPacingDecide_settled : Settled s (setPacingDecide p r s).state := by
  have hbudget : Settled s (s.modPort p fun q =>
      { q with budget := { q.budget with shadow := r.budget, switchPending := true } }) := .modPort (Port.legal_setPacing r)
  exact hbudget

theorem snapshotDecide_settled : Settled s (snapshotDecide p r s).state := by
  have hcopied : Settled s (s.modPort p fun q => { q with baseline := s.counters }) := .modPort id
  exact hcopied

theorem Port.legal_takeMode {q : Port} (hq : q.legal) (m : PressureMode) : (q.takeMode m).legal := by
  unfold Port.takeMode
  split
  · exact hq
  · exact hq

theorem setModeDecide_settled : Settled s (setModeDecide p r s).state := by
  unfold setModeDecide
  split
  · exact .refl s
  · next m _ =>
    have hmode : Settled s (s.modPort p fun q => q.takeMode m) := .modPort fun hq => Port.legal_takeMode hq m
    exact hmode

theorem Port.legal_releaseHold {q : Port} (hq : q.legal) : q.releaseHold.legal := by
  unfold Port.releaseHold
  cases q.mode with
  | latch => exact hq
  | follow | holdEpoch => exact hq

theorem releaseDecide_settled : Settled s (releaseDecide p r s).state := by
  have hhold : Settled s (s.modPort p Port.releaseHold) := .modPort Port.legal_releaseHold
  exact hhold

/-- R140: a buffer joins a landing list with room for it. -/
theorem Port.legal_postLanding {q : Port} (hq : q.legal) (hroom : q.landing.length < 32) (a : U64) :
    ({ q with landing := q.landing ++ [a] } : Port).legal := by
  obtain ⟨hcredit, hquota, -, hrest⟩ := hq
  refine ⟨hcredit, hquota, ?_, hrest⟩
  rw [List.length_append, List.length_singleton]
  exact hroom

theorem postLandingDecide_settled : Settled s (postLandingDecide p r s).state := by
  unfold postLandingDecide
  split
  · exact .refl s
  · next hroom =>
    have hposted : Settled s (s.modPort p fun q => { q with landing := q.landing ++ [r.address] }) :=
      .modPort fun hq => Port.legal_postLanding hq (Nat.lt_of_not_le hroom) r.address
    exact hposted.answers .ok

/-! ### SUBMIT and WITHDRAW (R46 to R60) -/

theorem Settled.merge (h : Handle) (e : Entry) : Settled s (s.merge p r h e) := by
  unfold State.merge
  exact .trans (.ite (fun _ => .trans (.setEntry ..) (.afterLoss ..)) fun _ => .setEntry ..) (.count ..)

theorem submitDecide_settled : Settled s (submitDecide p r s).state := by
  unfold submitDecide
  split
  · exact .refl s
  · next sub _ =>
    split
    · exact .refl s
    · split
      · next h e _ =>
        split
        · exact .refl s
        · split
          · exact (Settled.merge s p r h e).answers .merged
          · exact .refl s
      · dsimp only
        split
        · exact .refl s
        · split
          · exact .refl s
          · split
            · exact .refl s
            · exact (Settled.setEntry s _ (newEntry s p r sub)).trans (.of_settings rfl)

theorem Settled.drain (h : Handle) (e : Entry) : Settled s (s.drain h e) := by
  unfold State.drain
  have hdraining : Settled s (s.setEntry h { e with state := .draining }) := .setEntry ..
  split
  · exact .closeEntry ..
  · exact .closeEntry ..
  · exact .closeEntry ..
  · refine .trans (.trans (.trans (hdraining.trans ?_) (.withdrawFetches _ h)) (.releaseAll ..)) (.closeIfDrained ..)
    exact .ite (fun _ => .setPark ..) fun _ => .refl _
  · exact .refl s
  · exact .refl s

theorem withdrawDecide_settled : Settled s (withdrawDecide p r s).state := by
  unfold withdrawDecide
  split
  · exact .refl s
  · split
    · exact .refl s
    · split
      · exact .refl s
      · split
        · exact .refl s
        · split
          · exact .setEntry ..
          · split
            · exact (Settled.drain ..).answers .ok
            · exact (Settled.closeEntry ..).answers .ok

theorem queryDecide_settled : Settled s (queryDecide r s).state := by
  unfold queryDecide
  split
  · exact .refl s
  · exact .refl s

/-! ### STORED and REFUSE-FRAGMENT (R147, R149) -/

theorem storedDecide_settled : Settled s (storedDecide p r s).state := by
  unfold storedDecide
  split
  · exact .refl s
  · split
    · exact .refl s
    · split
      · unfold State.store
        exact (((Settled.modMember ..).trans (.lowerLoad ..)).trans (.reckon ..)).answers .ok
      · exact .refl s

theorem refuseDecide_settled : Settled s (refuseDecide p r s).state := by
  unfold refuseDecide
  split
  · exact .refl s
  · split
    · exact .refl s
    · exact (Settled.loseDestination ..).answers .ok

/-! ### OFFER and DECLINE (R112, R113, R117) -/

theorem Settled.emptySlotAt (t : FetchTag) (f : Fetch) : Settled s (s.emptySlotAt p t f) :=
  .trans (.modPort id) (.releaseAll ..)

theorem offerDecide_settled : Settled s (offerDecide p r s) := by
  unfold offerDecide
  split
  · exact .respond ..
  · exact .trans (.emptySlotAt ..) (.respond ..)
  · next t f _ _ =>
    have htaken : Settled s (s.modPort p fun q => q.setFetch t none) := .modPort id
    exact htaken.trans (.of_settings rfl)

theorem declineDecide_settled : Settled s (declineDecide p r s).state := by
  unfold declineDecide
  split
  · exact .refl s
  · split
    · exact .refl s
    · exact .emptySlotAt ..
    · unfold State.loseMember
      exact (((Settled.emptySlotAt ..).trans (.modMember ..)).trans (.afterLoss ..)).answers .ok

/-! ### Port resets (R65, R151, R168) -/

/-- R168 step 1: both queues are empty, their indices 0. -/
theorem Settled.resetQueues : Settled s (s.resetQueues p) := by
  have hports : Settled s (s.modPort p fun q =>
      { q with state := .resetting, reqTail := 0, reqHead := 0, respTail := 0, respHead := 0, responses := [] }) := by
    refine .modPort fun ⟨hcredit, hquota, hlanding, hbudget, _, hslots⟩ => ?_
    exact ⟨hcredit, hquota, hlanding, hbudget, by simp [Port.indicesHold], hslots⟩
  exact hports.trans (.of_settings rfl)

theorem Settled.triggerVia (h : Handle) : Settled s (s.triggerVia p h) := by
  unfold State.triggerVia
  split
  · exact .ite (fun _ => .trigger ..) fun _ => .refl s
  · exact .refl s

theorem Settled.unbindVia (h : Handle) : Settled s (s.unbindVia p h) := by
  unfold State.unbindVia
  split
  · refine .ite (fun _ => .refl s) fun _ => .trans (.trans ?_ (.trigger ..)) (.closeIfDrained ..)
    exact .foldl (fun t pos => .dropDestination t h false pos) _ s
  · exact .refl s

theorem Settled.resetFetching : Settled s (s.resetFetching p) := by
  have hemptied : Settled s (s.emptyFetches p fun _ => true) := .of_kept (.emptyFetches ..) (.emptyFetches ..)
  have htriggered := hemptied.trans
    (.foldl (fun t h => .triggerVia t p h) (s.emptyFetches p fun _ => true).handles _)
  have hlanding : ∀ u : State, Settled u (u.modPort p fun q => { q with landing := [], wait := none }) := fun u =>
    .modPort fun ⟨hcredit, hquota, _, hrest⟩ => ⟨hcredit, hquota, Nat.zero_le _, hrest⟩
  exact (htriggered.trans (hlanding _)).trans (.foldl (fun t h => .unbindVia t p h) _ _)

theorem Settled.orphan (h : Handle) : Settled s (s.orphan p h) := by
  unfold State.orphan
  split
  · exact .ite (fun _ => .refl s) fun _ => .ite (fun _ => .trans (.setEntry ..) (.closeEntry ..)) fun _ => .setEntry ..
  · exact .refl s

theorem Settled.forget (h : Handle) : Settled s (s.forget p h) := .trans (.modEntry ..) (.removeIfDone ..)

theorem Settled.resetSubmitters : Settled s (s.resetSubmitters p) :=
  .trans (.foldl (fun t h => .orphan t p h) _ s) (.foldl (fun t h => .forget t p h) _ _)

/-- R161, R168, R175: the defaults lie in their ranges. -/
theorem Port.legal_defaults {q : Port} (hq : q.legal) : q.defaults.legal := by
  obtain ⟨-, -, hlanding, -, hrest⟩ := hq
  refine ⟨?_, ?_, hlanding, ?_, hrest⟩
  · simp [Port.defaults, resetCredit]
  · simp [Port.defaults, resetQuota]
  · simp [Port.defaults, Budget.reset, Budget.fits]

theorem Settled.beginReset : Settled s (s.beginReset p) := by
  have hreset : Settled s ((((s.resetQueues p).resetFetching p).resetSubmitters p).modPort p Port.defaults) :=
    .trans (.trans (.trans (.resetQueues ..) (.resetFetching ..)) (.resetSubmitters ..)) (.modPort Port.legal_defaults)
  unfold State.beginReset
  generalize (((s.resetQueues p).resetFetching p).resetSubmitters p).modPort p Port.defaults = u at hreset ⊢
  have hreports : Settled u ({ u with nodes := mapVec (Node.dropReport p) u.nodes } : State).causeAttempt := .of_settings rfl
  exact (hreset.trans hreports).trans (.refreshWaits _)

end Sys2Proof.Machine
end

section
/-! PROOFS. The events keep the settings, the indices and the request memory legal; every step does (O58). -/

namespace Sys2Proof.Machine

open Sys2Proof.Config

variable (s : State) (p : PortId)

/-! ### The Gather Unit (06) -/

theorem Settled.expire (t : FetchTag) (f : Fetch) : Settled s (s.expire p t f) := by
  unfold State.expire
  exact .ite (fun _ => .trans (.trans (.trans (.emptySlotAt ..) (.strike ..)) (.count ..)) (.refreshWaits _))
    fun _ => .emptySlotAt ..

/-- R157: the count of transfers used stays within its 16 bits. -/
theorem Port.legal_charge {q : Port} (hq : q.legal) : q.charge.legal := by
  obtain ⟨hcredit, hquota, hlanding, ⟨hused, hactive, hshadow⟩, hrest⟩ := hq
  refine ⟨hcredit, hquota, hlanding, ⟨?_, hactive, hshadow⟩, hrest⟩
  simp only [Port.charge, bump]
  split <;> omega

theorem Settled.issue (t : FetchTag) (w : Wanted) (c : CellId) : Settled s (s.issue p t w c) := by
  have hdrawn : Settled s (s.draw c w.handle (.fetch p)) := .of_settings rfl
  unfold State.issue
  exact (hdrawn.trans (.modPort fun hq => Port.legal_charge (q := Port.setFetch _ t (some (s.newFetch w c))) hq)).trans (.place ..)

theorem Settled.chargeFailure (n : NodeId) : Settled s (s.chargeFailure n) := .of_kept (.chargeFailure ..) (.chargeFailure ..)

theorem Settled.badsum (x : Transfer) : Settled s (s.badsum x) := by
  have hreleased : Settled s ((s.respond x.port 4 x.tag .badsum .none).release x.cell) := .trans (.respond ..) (.release ..)
  unfold State.badsum
  dsimp only
  refine .trans (.trans (.trans (hreleased.trans ?_) (.strike ..)) (.count ..)) (.refreshWaits _)
  split
  · exact .chargeFailure ..
  · exact .refl _

theorem Settled.verify (x : Transfer) (data : List Byte) : Settled s (s.verify x data) := by
  have hheld : Settled s (s.modCell x.cell fun y => { y with use := .source x.position x.offset x.port, data := data }) :=
    .of_settings rfl
  unfold State.verify
  exact (hheld.trans (.count ..)).trans (.respond ..)

theorem Settled.endTransfer (x : Transfer) (data : List Byte) : Settled s (s.endTransfer x data) := by
  have hended : Settled s { s with transfers := s.transfers.filter fun (t : Transfer) => decide (t.cell ≠ x.cell) } :=
    .of_settings rfl
  unfold State.endTransfer
  refine hended.trans (.ite (fun _ => ?_) fun _ => .ite (fun _ => ?_) fun _ => .ite (fun _ => .verify ..) fun _ => .badsum ..)
  · exact .trans (.release ..) (.removeIfDone ..)
  · exact .trans (.trans (.release ..) (.respond ..)) (.removeIfDone ..)

/-! ### The Delivery Unit (08) -/

theorem Port.legal_beginDelivery {q : Port} (hq : q.legal) {b : U64} {rest : List U64} (hl : q.landing = b :: rest)
    (l : List Output) : ({ q with outputs := l, landing := rest } : Port).charge.legal := by
  refine Port.legal_charge ?_
  obtain ⟨hcredit, hquota, hlanding, hrest⟩ := hq
  rw [hl, List.length_cons] at hlanding
  exact ⟨hcredit, hquota, Nat.le_of_succ_le hlanding, hrest⟩

theorem Settled.beginDelivery {b : U64} {rest : List U64} (hl : (s.port p).landing = b :: rest) (o : Output) :
    Settled s (s.beginDelivery p o b rest) := by
  have htaken : Settled s (s.modPort p fun q =>
      { q with outputs := q.outputs.filter (fun x => x.cell != o.cell), landing := rest }.charge) :=
    .modPort fun hq => Port.legal_beginDelivery hq hl _
  have hjoined : ∀ (u : State) (l : List Delivery), Settled u { u with deliveries := l } := fun u l => .of_settings rfl
  unfold State.beginDelivery
  exact (htaken.trans (hjoined ..)).trans (.refreshWaits _)

theorem Settled.creditDelivery (d : Delivery) : Settled s (s.creditDelivery d) := by
  have hcovered : Settled s (s.cover d.output) := .trans (.modTarget ..) (.count ..)
  unfold State.creditDelivery
  split
  · refine .ite (fun _ => .removeIfDone ..) fun _ => .ite (fun _ => ?_) fun _ => .closeIfDrained ..
    exact .trans (hcovered.trans (.settleIfDone ..)) (.closeIfDrained ..)
  · exact .refl s

theorem Settled.endDelivery (d : Delivery) : Settled s (s.endDelivery d) := by
  have hended : Settled s { s with deliveries := s.deliveries.filter fun (x : Delivery) => decide (x.output.cell ≠ d.output.cell) } :=
    .of_settings rfl
  unfold State.endDelivery
  exact .trans (.trans (.trans (hended.trans (.modPort id)) (.place ..)) (.release ..)) (.creditDelivery ..)

theorem Settled.expireWait (o : Output) : Settled s (s.expireWait p o) :=
  .trans (.trans (.trans (.loseDestination ..) (.count ..)) (.modPort id)) (.refreshWaits _)

/-! ### The Decode Lanes (07) -/

theorem Settled.drawOutput (h : Handle) (o : Offset) (bank : Bank) (a : State × List PassOutput) (pt : Position × Target) :
    Settled a.1 (drawOutput h o bank a pt).1 := by
  unfold Machine.drawOutput
  split
  · exact .of_settings rfl
  · exact .refl _

theorem Settled.drawOutputs (h : Handle) (o : Offset) (bank : Bank) (l : List (Position × Target)) :
    Settled s (s.drawOutputs h o bank l).1 := by
  suffices ∀ a : State × List PassOutput, Settled a.1 (l.foldl (Machine.drawOutput h o bank) a).1 from this (s, [])
  induction l with
  | nil => exact fun a => .refl a.1
  | cons pt l ih => exact fun a => (Settled.drawOutput h o bank a pt).trans (ih _)

theorem Settled.dispatch (l : LaneId) (h : Handle) (e : Entry) (pl : Plan) : Settled s (s.dispatch l h e pl) := by
  have hlane : ∀ (u : State) x, Settled u (u.setLane l x) := fun u x => .of_settings rfl
  unfold State.dispatch
  exact .trans (.drawOutputs ..) (hlane ..)

theorem Settled.settleOutput (x : Pass) (o : PassOutput) : Settled s (s.settleOutput x o) := by
  unfold State.settleOutput
  split
  · split
    · exact .ite (fun _ => .modPort id) fun _ => .release ..
    · exact .release ..
  · exact .release ..

theorem Settled.keepOutputs (x : Pass) : Settled s (s.keepOutputs x) :=
  .trans (.foldl (fun t o => .settleOutput t x o) _ s) (.releaseAll ..)

theorem Settled.advancePoint (h : Handle) : Settled s (s.advancePoint h) := by
  unfold State.advancePoint
  split
  · exact .modEntry ..
  · exact .refl s

theorem Settled.passStands (x : Pass) (e : Entry) : Settled s (s.passStands x e) := by
  have hadvanced : Settled s ((s.keepOutputs x).advancePoint x.handle) := .trans (.keepOutputs ..) (.advancePoint ..)
  unfold State.passStands
  cases e.state with
  | active =>
    exact .ite (fun _ => .trans (.keepOutputs ..) (.completePark ..)) fun _ => hadvanced.trans (.settleIfDone ..)
  | draining => exact .trans (.keepOutputs ..) (.closeIfDrained ..)
  | planning | queued | settling => exact hadvanced
  | closed => exact .refl s

theorem Settled.decidePass (x : Pass) (agrees : Bool) : Settled s (s.decidePass x agrees) := by
  have hdropped : Settled s (s.passDropped x) := .releaseAll ..
  unfold State.decidePass
  split
  · exact .ite (fun _ => hdropped.trans (.removeIfDone ..)) fun _ =>
      .ite (fun _ => .passStands ..) fun _ => hdropped.trans (.closeEntry ..)
  · exact hdropped

theorem Settled.completePass (l : LaneId) (x : Pass) : Settled s (s.completePass l x) := by
  have hcell : ∀ (u : State) (c : CellId) f, Settled u (u.modCell c f) := fun u c f => .of_settings rfl
  have hwritten : Settled s (s.writeOutputs x) := .foldl (fun _ _ => hcell ..) x.outputs s
  have hlane : ∀ u : State, Settled u ((u.setLane l none).count 15) := fun u => .of_settings rfl
  unfold State.completePass
  exact ((hwritten.trans (hlane _)).trans (.decidePass ..)).trans (.refreshWaits _)

/-! ### Inversions, sweeps and epochs (02, 05, 09) -/

theorem Bank.stamp_finish (inv : Inversion) (x : Bank) : (x.finish inv).stamp = x.stamp := by
  unfold Bank.finish
  split
  · rfl
  · split
    · rfl
    · rfl

theorem Settled.endInversion (inv : Inversion) (b : BankId) (rest : List BankId) : Settled s (s.endInversion inv b rest) := by
  have hidle : Settled s { s with matrix := none, inversionFifo := rest } := .of_settings rfl
  have hfinished : ∀ u : State, Settled u (u.modBank b (Bank.finish inv)) := fun u =>
    .of_kept (.modBank u b _ (Bank.stamp_finish inv _)) (.of_entries rfl)
  unfold State.endInversion
  exact .trans (.trans ((hidle.trans (hfinished _)).trans (.foldl Settled.activateIfReady _ _)) (.causeAttempt _))
    (.startInversion _)

theorem Settled.startSweep : Settled s s.startSweep := by
  unfold State.startSweep
  split
  · exact .of_settings rfl
  · exact .refl s

theorem Settled.sweepEntry (n : NodeId) (h : Handle) (e : Entry) : Settled s (s.sweepEntry n h e) := by
  have hdests : Settled s ((e.boundFor n).foldl (fun t pos => t.dropDestination true h pos) (s.setEntry h (sweepMembers n e))) :=
    .trans (.setEntry ..) (.foldl (fun t pos => .dropDestination t h true pos) _ _)
  have hreckoned := Settled.ite (c := sweepHits n e = true) (fun _ => hdests.trans (.reckon _ h)) fun _ => hdests
  exact .ite (fun _ => (hreckoned.trans (.trigger _ h)).trans (.closeIfDrained _ h)) fun _ => hreckoned

theorem Settled.sweepAt (w : Sweep) (h : Handle) : Settled s (s.sweepAt w h) := by
  have hreached : Settled s { s with sweep := some { w with next := h + 1 } } := .of_settings rfl
  unfold State.sweepAt
  split
  · exact .ite (fun _ => hreached) fun _ => (hreached.trans (.sweepEntry ..)).trans (.refreshWaits _)
  · exact hreached

/-- R156: at an epoch boundary the shadow budget may become the active one. -/
theorem Port.legal_endEpoch {q : Port} (hq : q.legal) : q.endEpoch.legal := by
  obtain ⟨hcredit, hquota, hlanding, ⟨-, hactive, hshadow⟩, hrest⟩ := hq
  refine ⟨hcredit, hquota, hlanding, ?_, hrest⟩
  unfold Port.endEpoch Budget.boundary
  split
  · exact ⟨Nat.zero_le _, hshadow, hshadow⟩
  · exact ⟨Nat.zero_le _, hactive, hshadow⟩

theorem Settled.endWindows : Settled s s.endWindows := by
  unfold State.endWindows
  exact .ite (fun _ => .of_settings rfl) fun _ => .of_settings rfl

theorem Settled.endEpoch : Settled s s.endEpoch := by
  have hports : Settled s { s with ports := mapVec Port.endEpoch s.ports } := .of_ports rfl fun q hq => by
    have hport : ({ s with ports := mapVec Port.endEpoch s.ports } : State).port q = (s.port q).endEpoch := mapVec_get ..
    rw [hport]
    exact Port.legal_endEpoch hq
  have htime : ∀ u : State, Settled u { u with nextBoundary := s.nextBoundary + BitVec.ofNat 48 s.epochLength } := fun u =>
    .of_settings rfl
  exact (hports.trans (htime _)).trans (.endWindows _)

/-! ### The Port Units (10) -/

theorem Settled.enterUp : Settled s (s.enterUp p) := by
  have hup : Settled s (s.modPort p fun q => { q with state := .up }) := .modPort id
  have hmarks : ∀ u : State, Settled u ({ u with nodes := mapVec (Node.markFor p) u.nodes } : State).causeAttempt :=
    fun u => .of_settings rfl
  exact (hup.trans (hmarks _)).trans (.refreshWaits _)

theorem Settled.endReset : Settled s (s.endReset p) := .ite (fun _ => .enterUp ..) fun _ => .modPort id

theorem Settled.raiseLink : Settled s (s.raiseLink p) := by
  have hlink : Settled s (s.modPort p fun q => { q with link := true }) := .modPort id
  exact .ite (fun _ => hlink.trans (.enterUp ..)) fun _ => hlink

theorem Settled.loseLink : Settled s (s.loseLink p) := by
  have hlink : Settled s (s.modPort p fun q => { q with link := false, eventEnable := false }) := .modPort id
  exact .ite (fun _ => hlink.trans (.beginReset ..)) fun _ => hlink

/-- R170: the state a device reset leaves meets the invariant, whatever stood before. -/
theorem Settled.resetDevice : Settled s s.resetDevice := by
  have hport : ∀ q : Port, q.afterReset.legal := fun q => by
    have hreset : Port.reset.legal := by
      unfold Port.legal Budget.fits Port.indicesHold
      decide
    exact hreset
  have hstamp : ∀ b : BankId, (s.resetDevice.bank b).stamp = b.val := fun b => by
    have hreset : ∀ b : BankId, (State.reset.bank b).stamp = b.val := by decide
    exact hreset b
  refine ⟨fun _ => (by decide : State.reset.selector ≠ 0), fun _ => ⟨fun b => ?_, fun b c h => ?_⟩, fun _ => ?_, fun _ => ?_,
    fun j _ => ?_⟩
  · rw [hstamp]
    exact b.isLt
  · rw [hstamp, hstamp] at h
    exact Fin.ext h
  · have hreset : State.reset.rangesHold := by
      unfold State.rangesHold
      decide
    exact hreset
  · exact List.Pairwise.nil
  · have hj : s.resetDevice.port j = ((s.deliveries.foldl State.abandon s).port j).afterReset := mapVec_get ..
    rw [hj]
    exact hport _

/-- R163: a tail that fits lies in its range. -/
theorem Settled.writeTail {v : Nat} (h : (s.port p).tailFits v = true) :
    Settled s (s.modPort p fun q => { q with reqTail := v }) := by
  obtain ⟨hv, -⟩ := Bool.and_eq_true_iff.mp h
  have hport : ∀ q : Port, q.legal → ({ q with reqTail := v } : Port).legal :=
    fun q ⟨hcredit, hquota, hlanding, hbudget, ⟨_, hrest⟩, hslots⟩ =>
      ⟨hcredit, hquota, hlanding, hbudget, ⟨of_decide_eq_true hv, hrest⟩, hslots⟩
  exact .modPort (hport _)

theorem respHead_takes {head v n : Nat} (hh : head < 320) (hv : v < 320) (hn : (v + 320 - head % 320) % 320 ≤ n) :
    (v + (n - (v + 320 - head % 320) % 320)) % 320 = (head + n) % 320 := by
  rw [Nat.mod_eq_of_lt hh] at hn ⊢
  rcases Nat.lt_or_ge v head with hlt | hge
  · rw [Nat.mod_eq_of_lt (show v + 320 - head < 320 by omega)] at hn ⊢
    omega
  · rw [show (v + 320 - head) % 320 = v - head by omega] at hn ⊢
    omega

/-- R163: the records taken are those the head passes over. -/
theorem Port.legal_takeResponses {q : Port} (hq : q.legal) {v : Nat} (h : q.headFits v = true) : (q.takeResponses v).legal := by
  obtain ⟨hcredit, hquota, hlanding, hbudget, ⟨h1, h2, h3, h4, h5⟩, hslots⟩ := hq
  obtain ⟨hfits, hreached⟩ := Bool.and_eq_true_iff.mp h
  have hv : v < 320 := of_decide_eq_true hfits
  have htakes : q.headTakes v ≤ q.responses.length := of_decide_eq_true hreached
  have hindices : v < 320 ∧ (v + (q.responses.drop (q.headTakes v)).length) % 320 = q.respTail := by
    rw [← h5, ← respHead_takes h4 hv htakes, List.length_drop]
    exact ⟨hv, rfl⟩
  have htaken : ({ q with respHead := v, responses := q.responses.drop (q.headTakes v) } : Port).legal :=
    ⟨hcredit, hquota, hlanding, hbudget, ⟨h1, h2, h3, hindices⟩, hslots⟩
  unfold Port.takeResponses
  dsimp only
  split
  · exact htaken
  · exact htaken

theorem Port.legal_storeSlots {q : Port} (hq : q.legal) (a : Nat) (data : List Byte) :
    ({ q with slots := storeSlots q.slots a data } : Port).legal := by
  obtain ⟨hcredit, hquota, hlanding, hbudget, hindices, hslots⟩ := hq
  exact ⟨hcredit, hquota, hlanding, hbudget, hindices, Memory.wf_storeSlots data q.slots a hslots⟩

theorem Settled.sendClosedItem (h : Handle) (e : Entry) : Settled s (s.sendClosedItem p h e) :=
  .trans (.trans (.setEntry ..) (.place ..)) (.removeIfDone ..)

theorem Settled.sendVoidItem (v : VoidItem) : Settled s (s.sendVoidItem p v) :=
  .trans (.trans (.modTarget ..) (.place ..)) (.removeIfDone ..)

theorem Settled.sendNodeItem (n : NodeId) : Settled s (s.sendNodeItem p n) := by
  have hmark : ∀ x, Settled s (s.setNode n x) := fun x => .of_settings rfl
  exact (hmark _).trans (.place ..)

end Sys2Proof.Machine
end

section
/-! PROOFS. Every step keeps the settings, the indices and the request memory legal (O58). -/

namespace Sys2Proof.Machine

open Sys2Proof.Config

section

variable {s t : State}

/-! ### The events that act on a record found -/

theorem fetchExpiry_settled {p : PortId} {tag : FetchTag} (h : execFetchExpiry p tag s = .next t) : Settled s t := by
  unfold execFetchExpiry at h
  split at h
  · exact event_settled h fun _ => .expire ..
  · exact event_settled h fun _ => .refl s

theorem fetchIssue_settled {p : PortId} (h : execFetchIssue p s = .next t) : Settled s t := by
  unfold execFetchIssue at h
  split at h
  · exact event_settled h fun _ => .issue ..
  · exact event_settled h fun _ => .refl s

theorem offerTransferEnd_settled {c : CellId} {data : List Byte} (h : execOfferTransferEnd c data s = .next t) :
    Settled s t := by
  unfold execOfferTransferEnd at h
  split at h
  · exact event_settled h fun _ => .endTransfer ..
  · exact event_settled h fun _ => .refl s

theorem deliveryBegin_settled {p : PortId} (h : execDeliveryBegin p s = .next t) : Settled s t := by
  unfold execDeliveryBegin at h
  split at h
  · next hl => exact event_settled h fun _ => .beginDelivery s p hl _
  · exact event_settled h fun _ => .refl s

theorem deliveryEnd_settled {c : CellId} (h : execDeliveryEnd c s = .next t) : Settled s t := by
  unfold execDeliveryEnd at h
  split at h
  · exact event_settled h fun _ => .trans (.endDelivery ..) (.refreshWaits _)
  · exact event_settled h fun _ => .refl s

theorem landingTimeout_settled {p : PortId} (h : execLandingTimeout p s = .next t) : Settled s t := by
  unfold execLandingTimeout at h
  split at h
  · exact event_settled h fun _ => .expireWait ..
  · exact event_settled h fun _ => .refl s

theorem passDispatch_settled (h : execPassDispatch s = .next t) : Settled s t := by
  unfold execPassDispatch at h
  split at h
  · split at h
    · exact event_settled h fun _ => .dispatch ..
    · exact event_settled h fun _ => .refl s
  · exact event_settled h fun _ => .refl s

theorem passComplete_settled {l : LaneId} (h : execPassComplete l s = .next t) : Settled s t := by
  unfold execPassComplete at h
  split at h
  · exact event_settled h fun _ => .completePass ..
  · exact event_settled h fun _ => .refl s

theorem inversionEnd_settled (h : execInversionEnd s = .next t) : Settled s t := by
  unfold execInversionEnd at h
  split at h
  · exact event_settled h fun _ => .endInversion ..
  · exact event_settled h fun _ => .refl s

theorem sweepVisit_settled {i : Handle} (h : execSweepVisit i s = .next t) : Settled s t := by
  unfold execSweepVisit at h
  split at h
  · exact event_settled h fun _ => .sweepAt ..
  · exact event_settled h fun _ => .refl s

theorem sweepEnd_settled (h : execSweepEnd s = .next t) : Settled s t := by
  have hended : Settled s ({ s with sweep := none } : State).causeAttempt := .of_settings rfl
  unfold execSweepEnd at h
  split at h
  · exact event_settled h fun _ => hended.trans (.startSweep _)
  · exact event_settled h fun _ => .refl s

theorem sendClosed_settled {p : PortId} (h : execSendClosed p s = .next t) : Settled s t := by
  unfold execSendClosed at h
  split at h
  · exact event_settled h fun _ => .sendClosedItem ..
  · exact event_settled h fun _ => .refl s

theorem sendVoid_settled {p : PortId} (h : execSendVoid p s = .next t) : Settled s t := by
  unfold execSendVoid at h
  split at h
  · exact event_settled h fun _ => .sendVoidItem ..
  · exact event_settled h fun _ => .refl s

theorem sendNodeState_settled {p : PortId} (h : execSendNodeState p s = .next t) : Settled s t := by
  unfold execSendNodeState at h
  split at h
  · exact event_settled h fun _ => .sendNodeItem ..
  · exact event_settled h fun _ => .refl s

/-! ### Host accesses, pins and resets -/

theorem requestTailWrite_settled {p : PortId} {v : U32} (h : execRequestTailWrite p v s = .next t) : Settled s t := by
  refine event_settled h fun ha => .writeTail s p ?_
  exact (Bool.and_eq_true_iff.mp ha).2

theorem responseHeadWrite_settled {p : PortId} {v : U32} (h : execResponseHeadWrite p v s = .next t) : Settled s t := by
  refine event_settled h fun ha => .modPort fun hq => Port.legal_takeResponses hq ?_
  exact (Bool.and_eq_true_iff.mp ha).2

theorem otherMemoryWrite_settled {p : PortId} {a : Nat} {data : List Byte}
    (h : execOtherMemoryWrite p a data s = .next t) : Settled s t := by
  unfold execOtherMemoryWrite at h
  split at h
  · cases h
  · split at h
    · cases h
    · exact event_settled h fun _ => .modPort fun hq => Port.legal_storeSlots hq a data

theorem pinChange_settled {p : PortId} {level : Bool} {f : Port → Port} (hf : ∀ q : Port, q.legal → (f q).legal)
    (h : pinChange p level f s = .next t) : Settled s t := by
  obtain rfl := Host.Outcome.next.inj h
  exact .ite (fun _ => .refl s) fun _ => .ite (fun _ => .modPort id) fun _ => .modPort (hf _)

theorem Port.legal_deassertPressure (q : Port) (hq : q.legal) : q.deassertPressure.legal := by
  unfold Port.deassertPressure
  cases q.mode with
  | follow => exact hq
  | holdEpoch | latch => exact hq

theorem deviceResetRelease_settled (h : execDeviceResetRelease s = .next t) : Settled s t := by
  obtain rfl := Host.Outcome.next.inj h
  exact .ite (fun _ => .of_settings rfl) fun _ => .refl s

theorem portReset_settled {p : PortId} (h : execPortReset p s = .next t) : Settled s t := by
  unfold execPortReset at h
  exact withRequest_settled h fun _ u => .beginReset u p

theorem unknownKindRequest_settled {p : PortId} (h : execUnknownKindRequest p s = .next t) : Settled s t := by
  unfold execUnknownKindRequest at h
  exact withRequest_settled h fun r u => .respond u p r.kind r.tag .invalid .none

/-! ### Every command -/

theorem exec_settled (i : Instr) (h : exec i s = .next t) : Settled s t := by
  cases i with
  | submit p => exact withAnswer_settled h fun r u => submitDecide_settled u p r
  | withdraw p => exact withAnswer_settled h fun r u => withdrawDecide_settled u p r
  | query p => exact withAnswer_settled h fun r u => queryDecide_settled u r
  | offer p => exact withRequest_settled h fun r u => offerDecide_settled u p r
  | decline p => exact withAnswer_settled h fun r u => declineDecide_settled u p r
  | postLanding p => exact withAnswer_settled h fun r u => postLandingDecide_settled u p r
  | stored p => exact withAnswer_settled h fun r u => storedDecide_settled u p r
  | refuseFragment p => exact withAnswer_settled h fun r u => refuseDecide_settled u p r
  | defineNode p => exact withAnswer_settled h fun r u => defineNodeDecide_settled u r
  | reportDown p => exact withAnswer_settled h fun r u => oneNode_settled u r fun n v => .trans (.reportNode v p n) (.refreshWaits _)
  | reportRackDown p => exact withAnswer_settled h fun r u => reportRackDecide_settled u p r
  | retractDown p => exact withAnswer_settled h fun r u => oneNode_settled u r fun n v => .retract v p n
  | reviveNode p => exact withAnswer_settled h fun r u => oneNode_settled u r fun n v => .trans (.revive v n) (.refreshWaits _)
  | clearSuspect p => exact withAnswer_settled h fun r u => oneNode_settled u r fun n v => .clearSuspect v n
  | setProfile p => exact withAnswer_settled h fun r u => setProfileDecide_settled u r
  | setDevice p => exact withAnswer_settled h fun r u => setDeviceDecide_settled u r
  | setLimits p => exact withAnswer_settled h fun r u => setLimitsDecide_settled u p r
  | setPacing p => exact withAnswer_settled h fun r u => setPacingDecide_settled u p r
  | setPressureMode p => exact withAnswer_settled h fun r u => setModeDecide_settled u p r
  | releasePressure p => exact withAnswer_settled h fun r u => releaseDecide_settled u p r
  | snapshot p => exact withAnswer_settled h fun r u => snapshotDecide_settled u p r
  | readCounters p => exact withAnswer_settled h fun r u => .refl u
  | portReset p => exact portReset_settled h
  | unknownKindRequest p => exact unknownKindRequest_settled h
  | requestTailWrite p value => exact requestTailWrite_settled h
  | responseHeadWrite p value => exact responseHeadWrite_settled h
  | otherMemoryWrite p offset data => exact otherMemoryWrite_settled h
  | eventEnableChange p on => exact event_settled h fun _ => .modPort id
  | linkUp p => exact event_settled h fun _ => .raiseLink s p
  | linkLost p => exact event_settled h fun _ => .loseLink s p
  | pressureAssertion p => exact pinChange_settled (f := Port.assertPressure) (fun _ hq => hq) h
  | pressureDeassertion p => exact pinChange_settled Port.legal_deassertPressure h
  | deviceReset => exact event_settled h fun _ => .resetDevice s
  | deviceResetRelease => exact deviceResetRelease_settled h
  | timebaseTick => exact event_settled h fun _ => .of_settings rfl
  | epochBoundary => exact event_settled h fun _ => .endEpoch s
  | fetchExpiry p tag => exact fetchExpiry_settled h
  | landingTimeout p => exact landingTimeout_settled h
  | planningAttempt => exact event_settled h fun _ => .plan s
  | fetchIssue p => exact fetchIssue_settled h
  | offerTransferEnd cell data => exact offerTransferEnd_settled h
  | passDispatch => exact passDispatch_settled h
  | passComplete lane => exact passComplete_settled h
  | deliveryBegin p => exact deliveryBegin_settled h
  | deliveryEnd cell => exact deliveryEnd_settled h
  | inversionBegin => exact event_settled h fun _ => .startInversion s
  | inversionEnd => exact inversionEnd_settled h
  | sweepBegin => exact event_settled h fun _ => .startSweep s
  | sweepVisit i => exact sweepVisit_settled h
  | sweepEnd => exact sweepEnd_settled h
  | portResetEnd p => exact event_settled h fun _ => .endReset s p
  | sendClosed p => exact sendClosed_settled h
  | sendVoid p => exact sendVoid_settled h
  | sendNodeState p => exact sendNodeState_settled h

end

/-- Settles O58, by cases on the command: each part of the invariant is carried by itself from state to state (`Settled`),
through every operation a command is made of. -/
theorem everyStepKeepsSettingsInvariant : Obligations.EveryStepKeepsSettingsInvariant := by
  intro s t k h
  unfold step at h
  split at h
  · obtain rfl := Host.Outcome.next.inj h
    exact k
  · next i rest _ =>
    have htaken : Settled s { s with pending := rest } := .of_settings rfl
    exact (htaken.trans (exec_settled i h)).holds k

end Sys2Proof.Machine
end

section
/-! PROOFS. A planning attempt: the PLANNING entries served and the QUEUED entries decided in queue order, and the mark of a
park (O52). -/

namespace Sys2Proof.Machine

open Sys2Proof.Config

/-! ### Lists in queue order (R67) -/

theorem insertByUrgency_perm (x : Handle × Entry) (l : List (Handle × Entry)) : (insertByUrgency x l).Perm (x :: l) := by
  induction l with
  | nil => exact .refl _
  | cons y rest ih =>
    unfold insertByUrgency
    split
    · exact (ih.cons y).trans (.swap ..)
    · exact .refl _

theorem queueOrder_perm (l : List (Handle × Entry)) : (queueOrder l).Perm l := by
  induction l with
  | nil => exact .refl _
  | cons x rest ih => exact (insertByUrgency_perm x _).trans (ih.cons x)

section

variable {s : State} {f : Entry → Bool} {h : Handle}

theorem State.mem_inOrder_iff (hr : s.rising) : h ∈ s.inOrder f ↔ ∃ e, s.entry? h = some e ∧ f e = true := by
  refine ⟨State.entry_of_mem_inOrder hr, fun ⟨e, he, hf⟩ => ?_⟩
  exact List.mem_map.mpr ⟨(h, e), mem_queueOrder.mpr (List.mem_filter.mpr ⟨State.mem_of_entry he, hf⟩), rfl⟩

theorem State.inOrder_nodup (hr : s.rising) : (s.inOrder f).Nodup := by
  have hlisted : (s.inOrder f).Perm ((s.entries.filter fun he => f he.2).map Prod.fst) := (queueOrder_perm _).map _
  refine hlisted.nodup_iff.mpr (List.Pairwise.map _ (fun _ _ => Nat.ne_of_lt) ?_)
  exact List.Pairwise.filter _ hr

/-- R67: the entries that pass a test, listed in the order of a state they stand in as they do in `s`. -/
theorem State.inOrder_inQueueOrder {v : State} {first : U32} (hv : v.rising) (hera : inEra first s.entries)
    {g : Entry → Prop} (hg : ∀ e, f e = true ↔ g e) (hsame : ∀ h e, g e → (v.entry? h = some e ↔ s.entry? h = some e)) :
    s.inQueueOrder g (v.inOrder f) := by
  have hmem : ∀ h, h ∈ v.inOrder f ↔ ∃ e, s.entry? h = some e ∧ g e := fun h => by
    rw [State.mem_inOrder_iff hv]
    refine exists_congr fun e => ⟨fun ⟨he, hf⟩ => ?_, fun ⟨he, hge⟩ => ?_⟩
    · exact ⟨(hsame h e ((hg e).mp hf)).mp he, (hg e).mp hf⟩
    · exact ⟨(hsame h e hge).mpr he, (hg e).mpr hge⟩
  refine ⟨State.inOrder_nodup hv, hmem, List.pairwise_map.mpr ?_⟩
  have hin : ∀ he ∈ v.entries.filter fun he => f he.2, s.entry? he.1 = some he.2 := fun he hm => by
    obtain ⟨hve, hf⟩ := List.mem_filter.mp hm
    exact (hsame he.1 he.2 ((hg _).mp hf)).mp (State.entry_of_mem hv hve)
  have hsorted : (queueOrder (v.entries.filter fun he => f he.2)).Pairwise comesFirst :=
    queueOrder_sorted (first := first) (fun he hm => hera he (State.mem_of_entry (hin he hm))) (List.Pairwise.filter _ hv)
  refine hsorted.imp_of_mem fun {a b} ha hb hab e k he hk => ?_
  obtain rfl := Option.some.inj ((hin a (mem_queueOrder.mp ha)).symm.trans he)
  obtain rfl := Option.some.inj ((hin b (mem_queueOrder.mp hb)).symm.trans hk)
  exact hab

end

/-! ### The serving (R68 step 1) -/

theorem inTurn_foldl {α : Type} {treat : α → Handle → α → Prop} {f : α → Handle → α} (hf : ∀ a h, treat a h (f a h))
    (l : List Handle) (a : α) : inTurn treat a l (l.foldl f a) := by
  induction l generalizing a with
  | nil => rfl
  | cons h l ih => exact ⟨f a h, hf a h, ih _⟩

section

variable {s t u : State} {h : Handle} {e : Entry}

/-- R84 to R86: an entry in PLANNING is there still, and not QUEUED, once it may have been activated. -/
theorem activates.state {x : State} {f : Entry} (k : activates (x.setEntry h f) t h f) (hs : f.state = .planning) :
    ∃ g, t.entry? h = some g ∧ g.state ≠ .queued := by
  obtain ⟨hstays, hactive, hsettling⟩ := k
  by_cases hready : f.state = .planning ∧ f.replan = false ∧ f.planComplete = true
      ∧ ∃ b, f.plan.bind Plan.bank = some b ∧ ((x.setEntry h f).bank b).state = .ready
  · by_cases hdone : f.allCovered = true ∧ ∀ l y, (x.setEntry h f).lane l = some y → y.handle ≠ h
    · obtain ⟨hgives, -⟩ := hsettling hready hdone
      exact ⟨_, hgives.record, by simp⟩
    · rw [hactive hready hdone]
      exact ⟨_, State.entry_put .., by simp⟩
  · rw [hstays hready]
    exact ⟨f, State.entry_put .., by simp [hs]⟩

/-- R84, R85: an entry in PLANNING is there still after its serving, and not QUEUED. -/
theorem State.serve_state (hr : s.rising) (he : s.entry? h = some e) (hs : e.state = .planning) :
    ∃ g, (s.serve h).entry? h = some g ∧ g.state ≠ .queued := by
  have hkept : s.serve h = s → ∃ g, (s.serve h).entry? h = some g ∧ g.state ≠ .queued := fun heq =>
    ⟨e, by rwa [heq], by simp [hs]⟩
  have hserved := State.serve_serves hr (fun f hf => by
    obtain rfl := Option.some.inj (he.symm.trans hf)
    exact hs)
  obtain ⟨hnone, hplan⟩ := hserved e he
  cases hpl : e.plan with
  | none => exact hkept (hnone hpl)
  | some pl =>
    obtain ⟨hrevise, hcomplete, hleave⟩ := hplan pl hpl
    by_cases hlacks : e.replan = true ∨ pl.sources = none
    · obtain ⟨-, -, u, bank, -, -, -, -, -, -, hact⟩ := hrevise hlacks
      exact activates.state (x := { u with counters := u.counters.set 17 (u.counters[17] + 1) }) hact hs
    · obtain ⟨hreplan, hsources⟩ := not_or.mp hlacks
      have hreplan := Bool.eq_false_iff.mpr hreplan
      cases hc : e.planComplete with
      | true => exact hkept (hleave hreplan hc)
      | false =>
        obtain ⟨-, u, bank, -, -, -, -, hact⟩ := hcomplete hreplan hsources hc
        exact activates.state hact hs

/-- What the serving of the entries at some handles leaves: the table's order, the entries elsewhere, and no entry served
that is QUEUED. -/
structure Served (l : List Handle) (s t : State) : Prop where
  rising : t.rising
  others : ∀ k, k ∉ l → t.entry? k = s.entry? k
  state : ∀ k ∈ l, ∀ e, t.entry? k = some e → e.state ≠ .queued

/-- R68 step 1: entries in PLANNING are served one after another. -/
theorem serve_inTurn {l : List Handle} (hr : s.rising) (hn : l.Nodup) (hp : ∀ h ∈ l, ∃ e, s.entry? h = some e ∧ e.state = .planning) :
    inTurn serves s l (l.foldl State.serve s) ∧ Served l s (l.foldl State.serve s) := by
  induction l generalizing s with
  | nil => exact ⟨rfl, hr, fun _ _ => rfl, fun _ hk => absurd hk List.not_mem_nil⟩
  | cons h l ih =>
    obtain ⟨hh, hn⟩ := List.nodup_cons.mp hn
    obtain ⟨e, he, hs⟩ := hp h List.mem_cons_self
    have hone := OneEntry.serve s h
    obtain ⟨hturn, hserved⟩ := ih (hone.rising hr) hn fun k hk => by
      rw [hone.others k fun hkh => hh (hkh ▸ hk)]
      exact hp k (List.mem_cons_of_mem h hk)
    refine ⟨⟨s.serve h, State.serve_serves hr fun f hf => ?_, hturn⟩, hserved.rising, fun k hk => ?_, fun k hk f hf => ?_⟩
    · obtain rfl := Option.some.inj (he.symm.trans hf)
      exact hs
    · obtain ⟨hkh, hkl⟩ := List.ne_and_not_mem_of_not_mem_cons hk
      exact (hserved.others k hkl).trans (hone.others k hkh)
    · rcases List.mem_cons.mp hk with rfl | hk
      · obtain ⟨g, hg, hstate⟩ := State.serve_state hr he hs
        rw [List.foldl_cons, hserved.others k hh, hg] at hf
        obtain rfl := Option.some.inj hf
        exact hstate
      · exact hserved.state k hk f hf

end

/-! ### The park (R81) -/

/-- R41: of two sequences only one is the older by serial comparison, and of two handles only one the lower. -/
theorem serial_asymm {d m n : Nat} (hd : d < 2 ^ 32) (h : if d = 0 ∨ d = 2 ^ 31 then m < n else d < 2 ^ 31) :
    ¬if (2 ^ 32 - d) % 2 ^ 32 = 0 ∨ (2 ^ 32 - d) % 2 ^ 32 = 2 ^ 31 then n < m else (2 ^ 32 - d) % 2 ^ 32 < 2 ^ 31 := by
  intro hk
  split at h <;> split at hk <;> omega

theorem comesFirst.asymm {a b : Handle × Entry} (h : comesFirst a b) : ¬comesFirst b a := by
  unfold comesFirst at h ⊢
  have hd : (a.2.sequence - b.2.sequence).toNat = (2 ^ 32 - (b.2.sequence - a.2.sequence).toNat) % 2 ^ 32 := by
    rw [← BitVec.toNat_neg, neg_sub]
  rw [hd]
  rcases h with h | ⟨heq, h⟩
  · rintro (hk | ⟨heq, -⟩)
    · exact Nat.lt_asymm h hk
    · exact Nat.ne_of_gt h (congrArg Urgency.rank heq)
  · rintro (hk | ⟨-, hk⟩)
    · exact Nat.ne_of_gt hk (congrArg Urgency.rank heq)
    · exact serial_asymm (b.2.sequence - a.2.sequence).isLt h hk

/-- An entry that every other comes before stays last where another is inserted. -/
theorem insertByUrgency_getLast {x y : Handle × Entry} {l : List (Handle × Entry)} (hl : l.getLast? = some y)
    (hx : x = y ∨ comesFirst x y) : (insertByUrgency x l).getLast? = some y := by
  induction l with
  | nil => cases hl
  | cons z rest ih =>
    unfold insertByUrgency
    split
    · next hz =>
      cases rest with
      | nil =>
        obtain rfl : z = y := by simpa using hl
        have hzx : comesFirst z x := (moreUrgent_iff _ _).mp hz
        rcases hx with rfl | hx
        · exact absurd hzx hzx.asymm
        · exact absurd hzx hx.asymm
      | cons w rest =>
        rw [List.getLast?_cons_cons] at hl
        rw [List.getLast?_cons, ih hl]
        rfl
    · rw [List.getLast?_cons_cons]
      exact hl

/-- An entry that comes after all of a list is its end, once it is inserted. -/
theorem insertByUrgency_getLast_self {x : Handle × Entry} {l : List (Handle × Entry)} (hl : ∀ z ∈ l, comesFirst z x) :
    (insertByUrgency x l).getLast? = some x := by
  induction l with
  | nil => rfl
  | cons z rest ih =>
    have hz : moreUrgent z x = true := (moreUrgent_iff _ _).mpr (hl z List.mem_cons_self)
    unfold insertByUrgency
    rw [if_pos hz, List.getLast?_cons, ih fun w hw => hl w (List.mem_cons_of_mem z hw)]
    rfl

/-- R67, R81: the last in queue order is the one that every other comes before. -/
theorem queueOrder_getLast {x : Handle × Entry} {l : List (Handle × Entry)} (hr : l.Pairwise fun a b => a.1 < b.1) (hx : x ∈ l)
    (hl : ∀ z ∈ l, z.1 = x.1 ∨ comesFirst z x) : (queueOrder l).getLast? = some x := by
  induction l with
  | nil => cases hx
  | cons z rest ih =>
    obtain ⟨hz, hr⟩ := List.pairwise_cons.mp hr
    unfold queueOrder
    rcases List.mem_cons.mp hx with rfl | hrest
    · refine insertByUrgency_getLast_self fun w hw => ?_
      have hw := mem_queueOrder.mp hw
      exact (hl w (List.mem_cons_of_mem _ hw)).resolve_left (Nat.ne_of_gt (hz w hw))
    · refine insertByUrgency_getLast (ih hr hrest fun w hw => hl w (List.mem_cons_of_mem z hw)) (.inr ?_)
      exact (hl z List.mem_cons_self).resolve_left (Nat.ne_of_lt (hz x hrest))

section

variable {s : State}

/-- R81: the entries that a park may mark. -/
theorem State.youngestRoutine_none (hr : s.rising)
    (h : ∀ h e, ¬(s.entry? h = some e ∧ e.state = .active ∧ e.urgency = .routine)) : s.youngestRoutine = none := by
  unfold State.youngestRoutine
  rw [List.getLast?_eq_none_iff, List.eq_nil_iff_forall_not_mem]
  intro k hk
  obtain ⟨e, he, hf⟩ := (State.mem_inOrder_iff hr).mp hk
  exact h k e ⟨he, of_decide_eq_true hf⟩

theorem State.youngestRoutine_some {h : Handle} {e : Entry} (hr : s.rising) (he : s.entry? h = some e)
    (hs : e.state = .active ∧ e.urgency = .routine)
    (hall : ∀ j f, s.entry? j = some f ∧ f.state = .active ∧ f.urgency = .routine → j = h ∨ comesFirst (j, f) (h, e)) :
    s.youngestRoutine = some h := by
  have hlast : (queueOrder (s.entries.filter fun he => decide (he.2.state = .active ∧ he.2.urgency = .routine))).getLast?
      = some (h, e) := by
    refine queueOrder_getLast (List.Pairwise.filter _ hr)
      (List.mem_filter.mpr ⟨State.mem_of_entry he, decide_eq_true hs⟩) fun z hz => ?_
    obtain ⟨hm, hf⟩ := List.mem_filter.mp hz
    exact hall z.1 z.2 ⟨State.entry_of_mem hr hm, of_decide_eq_true hf⟩
  unfold State.youngestRoutine State.inOrder
  rw [List.getLast?_map, hlast]
  rfl

end

/-- R81: what the end of a planning attempt does. -/
theorem parkIfStarved_endsAttempt {w : Walk} (hr : w.state.rising) : endsAttempt w (w.state.parkIfStarved w.starved) := by
  refine ⟨fun hno => ?_, fun h e hstarved hpark hcand hall => ?_⟩
  · unfold State.parkIfStarved
    rcases hno with hno | hno | hno
    · rw [if_neg (by simp [hno])]
    · rw [if_neg fun hx => hno hx.2]
    · simp only [State.youngestRoutine_none hr hno, ite_self]
  · obtain ⟨he, hs⟩ := hcand
    unfold State.parkIfStarved
    rw [if_pos ⟨hstarved, hpark⟩, State.youngestRoutine_some hr he hs hall]
    exact State.markPark_marks he

/-! ### The attempt -/

section

variable {s : State}

/-- R68, R167: a planning attempt places no record, so that no event line rises. -/
theorem exec_planningAttempt (hr : s.inReset = false) (ha : s.attempt = true) : exec .planningAttempt s = .next s.plan := by
  have hline : ∀ p, (s.plan.port p).line = (s.port p).line := fun p => by
    rw [(Planned.plan s).port p]
    rfl
  have hexec : exec .planningAttempt s = event s s.attempt s.plan := rfl
  rw [hexec, event_next hr ha]
  generalize s.plan = t at hline
  exact congrArg _ (countRises_eq (fun p => Port.risen_of_line_eq (hline p)) rfl)

/-- R68: with no entry there is nothing to serve, to decide or to park. -/
theorem State.plan_empty (h : s.entries = []) : s.plan = { s with attempt := false } := by
  have hlist : ∀ (t : State) f, t.entries = [] → t.inOrder f = [] := fun t f ht => by
    unfold State.inOrder
    rw [ht]
    rfl
  have hserved : ({ s with attempt := false } : State).servePlanning = { s with attempt := false } := by
    unfold State.servePlanning
    rw [hlist { s with attempt := false } _ h]
    rfl
  unfold State.plan
  rw [hserved]
  unfold State.walkQueue
  rw [hlist { s with attempt := false } _ h]
  rfl

end

/-- Settles O52: the parts of the attempt are those the statement names; the serving of one entry changes no other, so that
the lists made at the beginning of each part stay right to its end. -/
theorem planningAttemptDecidesQueuedEntry : Obligations.PlanningAttemptDecidesQueuedEntry := by
  intro s hreset
  refine ⟨fun ha => ?_, fun ha hempty => ?_, fun ha hr ⟨first, hera⟩ => ?_⟩
  · exact event_idle (.inr ha)
  · rw [exec_planningAttempt hreset ha, State.plan_empty hempty]
  · let begun : State := { s with attempt := false }
    let planning := begun.inOrder fun e => decide (e.state = .planning)
    have hplanning : begun.inQueueOrder (fun e => e.state = .planning) planning :=
      State.inOrder_inQueueOrder (s := begun) hr hera (fun _ => decide_eq_true_iff) fun _ _ _ => Iff.rfl
    have ⟨hnodup, hmem, _⟩ := hplanning
    obtain ⟨hturn, hserved⟩ := serve_inTurn (s := begun) hr hnodup fun h hh => (hmem h).mp hh
    have hqueued : ∀ h e, e.state = .queued → (begun.servePlanning.entry? h = some e ↔ begun.entry? h = some e) :=
      fun h e hq => by
        by_cases hh : h ∈ planning
        · obtain ⟨f, hf, hs⟩ := (hmem h).mp hh
          refine ⟨fun he => absurd hq (hserved.state h hh e he), fun he => ?_⟩
          obtain rfl := Option.some.inj (hf.symm.trans he)
          exact absurd (hs.symm.trans hq) (by simp)
        · exact iff_of_eq (congrArg (· = some e) (hserved.others h hh))
    refine ⟨planning, begun.servePlanning.inOrder fun e => decide (e.state = .queued), begun.servePlanning,
      begun.servePlanning.walkQueue, s.plan, exec_planningAttempt hreset ha, hplanning, ?_, hturn,
      inTurn_foldl walkStep_decides _ _, parkIfStarved_endsAttempt ?_⟩
    · exact State.inOrder_inQueueOrder (s := s) hserved.rising hera (fun _ => decide_eq_true_iff) hqueued
    · exact walk_rising (w := ⟨begun.servePlanning, false, none, false⟩) hserved.rising _

end Sys2Proof.Machine
end

section
/-! PROOFS. The ranking of the usable members, the source set and the check member (O51). -/

namespace Sys2Proof.Machine

open Sys2Proof.Config

section

variable {s : State} {e : Entry} {k : Nat}

/-! ### The usable members (R74) -/

theorem State.routeUp_iff (x : Node) : s.routeUp x = true ↔ ∃ p, x.route = some p ∧ (s.port p).state = .up := by
  unfold State.routeUp
  cases x.route with
  | none => simp
  | some p => simp

theorem State.usable_iff (m : Member) : s.usable m = true ↔ ∃ p, m.state = .held
    ∧ ((s.node m.node).state = .up ∨ (s.node m.node).state = .suspect)
    ∧ (s.node m.node).route = some p ∧ (s.port p).state = .up := by
  simp only [State.usable, Bool.and_eq_true, decide_eq_true_eq, NodeState.serves_iff, State.routeUp_iff, and_assoc,
    exists_and_left]

/-- The member of a position is usable, its node in a given state, the position a data or a parity one. -/
def State.usablyAt (s : State) (e : Entry) (k : Nat) (b : NodeState × Bool) (pos : Position) : Bool :=
  e.members[pos]?.any fun m => s.usable m && decide ((s.node m.node).state = b.1) && (decide (pos < k) == b.2)

theorem State.usablePositions_eq (s : State) (e : Entry) (k : Nat) (b : NodeState × Bool) :
    s.usablePositions e k b.1 b.2 = (List.range e.members.length).filter (s.usablyAt e k b) := by
  unfold State.usablePositions
  rw [zipIdx_filterMap, ← List.filterMap_eq_filter]
  refine List.filterMap_congr fun j _ => ?_
  rw [Option.guard_apply]
  unfold State.usablyAt
  cases e.members[j]? with
  | none => simp
  | some m => simp

/-! ### The ranking (R75) -/

/-- The four parts of the ranking, in its order. -/
def rankingBlocks : List (NodeState × Bool) := [(.up, true), (.up, false), (.suspect, true), (.suspect, false)]

/-- R75: UP before SUSPECT nodes, and data before parity positions among them. -/
def blockWeight (b : NodeState × Bool) : Nat := (if b.2 = true then 0 else 1) + if b.1 = .up then 0 else 2

theorem State.ranking_eq (s : State) (e : Entry) (k : Nat) :
    s.ranking e k = rankingBlocks.flatMap fun b => (List.range e.members.length).filter (s.usablyAt e k b) := by
  simp only [← State.usablePositions_eq]
  simp [State.ranking, rankingBlocks]

theorem State.mem_ranking_iff (pos : Position) : pos ∈ s.ranking e k ↔ ∃ m, e.members[pos]? = some m ∧ s.usable m = true := by
  simp only [State.ranking_eq, List.mem_flatMap, List.mem_filter, State.usablyAt, Option.any_eq_true, Bool.and_eq_true,
    decide_eq_true_eq, beq_iff_eq]
  constructor
  · rintro ⟨b, -, -, m, hm, ⟨husable, -⟩, -⟩
    exact ⟨m, hm, husable⟩
  · rintro ⟨m, hm, husable⟩
    obtain ⟨p, -, hstate, -⟩ := (State.usable_iff m).mp husable
    refine ⟨((s.node m.node).state, decide (pos < k)), ?_, List.mem_range.mpr (List.getElem?_eq_some_iff.mp hm).1,
      m, hm, ⟨husable, rfl⟩, rfl⟩
    rcases hstate with hstate | hstate <;> rw [hstate] <;> cases decide (pos < k) <;> decide

/-- The member of a position lies on an UP node. -/
def State.onUp (s : State) (e : Entry) (pos : Position) : Bool := e.members[pos]?.any fun m => decide ((s.node m.node).state = .up)

/-- R75: what a position is ranked by before its number. -/
def State.rankWeight (s : State) (e : Entry) (k : Nat) (pos : Position) : Nat :=
  (if pos < k then 0 else 1) + if s.onUp e pos = true then 0 else 2

/-- R75: one position stands before another in the ranking. -/
def State.ranksBefore (s : State) (e : Entry) (k : Nat) (a b : Position) : Prop :=
  s.rankWeight e k a < s.rankWeight e k b ∨ s.rankWeight e k a = s.rankWeight e k b ∧ a < b

theorem State.ranksBefore.irrefl {a : Position} : ¬s.ranksBefore e k a a := by
  rintro (h | ⟨-, h⟩)
  · exact Nat.lt_irrefl _ h
  · exact Nat.lt_irrefl _ h

theorem State.rankWeight_of_usablyAt {b : NodeState × Bool} {pos : Position} (h : s.usablyAt e k b pos = true) :
    s.rankWeight e k pos = blockWeight b := by
  obtain ⟨m, hm, h⟩ := Option.any_eq_true _ _ |>.mp h
  simp only [Bool.and_eq_true, decide_eq_true_eq, beq_iff_eq] at h
  obtain ⟨⟨-, hstate⟩, hdata⟩ := h
  unfold State.rankWeight blockWeight State.onUp
  rw [hm, ← hstate, ← hdata]
  simp

theorem State.ranking_sorted (s : State) (e : Entry) (k : Nat) : (s.ranking e k).Pairwise (s.ranksBefore e k) := by
  rw [State.ranking_eq, List.pairwise_flatMap]
  have hweight : ∀ {b pos}, pos ∈ (List.range e.members.length).filter (s.usablyAt e k b) →
      s.rankWeight e k pos = blockWeight b := fun h => State.rankWeight_of_usablyAt (List.mem_filter.mp h).2
  constructor
  · exact fun b _ => (range_filter_sorted _ _).imp_of_mem fun hx hy hlt => .inr ⟨(hweight hx).trans (hweight hy).symm, hlt⟩
  · have hblocks : rankingBlocks.Pairwise fun a b => blockWeight a < blockWeight b := by decide
    refine hblocks.imp fun hlt x hx y hy => .inl ?_
    rwa [hweight hx, hweight hy]

theorem State.ranking_nodup (s : State) (e : Entry) (k : Nat) : (s.ranking e k).Nodup :=
  (s.ranking_sorted e k).imp fun h => by
    rintro rfl
    exact State.ranksBefore.irrefl h

/-- The positions of a list of usable ones, in ascending order. -/
theorem State.filter_perm {l : List Position} (hl : l.Nodup) (hm : ∀ pos ∈ l, pos ∈ s.ranking e k) :
    ((List.range e.members.length).filter l.contains).Perm l := by
  refine (List.perm_ext_iff_of_nodup (List.nodup_range.filter _) hl).mpr fun pos => ?_
  rw [List.mem_filter, List.contains_iff_mem, and_iff_right_iff_imp]
  intro h
  obtain ⟨m, hm, -⟩ := (State.mem_ranking_iff pos).mp (hm pos h)
  exact List.mem_range.mpr (List.getElem?_eq_some_iff.mp hm).1

theorem State.countP_ranking (s : State) (e : Entry) (k : Nat) :
    ((List.range e.members.length).countP fun pos => (s.ranking e k).contains pos) = (s.ranking e k).length := by
  rw [List.countP_eq_length_filter]
  exact (State.filter_perm (k := k) (s.ranking_nodup e k) fun _ h => h).length_eq

/-! ### The choice (R75, R76) -/

theorem State.chooseSources_none_iff : s.chooseSources e k = none ↔ (s.ranking e k).length < k := by
  unfold State.chooseSources
  dsimp only
  split
  · next h => exact iff_of_true rfl h
  · next h => exact iff_of_false (by simp) h

/-- R75, R76: what the Planner chooses where enough members are usable. -/
structure SourcesChosen (s : State) (e : Entry) (k : Nat) (x : SourceChoice) : Prop where
  enough : k ≤ (s.ranking e k).length
  sources : x.sources = (List.range e.members.length).filter ((s.ranking e k).take k).contains
  check : x.check = if e.crossCheck = true then (s.ranking e k)[k]? else none
  skipped : x.skipped = (e.crossCheck && x.check.isNone)
  suspect : x.suspect = (x.sources.any (s.onSuspect e) || x.check.any (s.onSuspect e))

theorem State.chooseSources_some {x : SourceChoice} (h : s.chooseSources e k = some x) : SourcesChosen s e k x := by
  unfold State.chooseSources at h
  dsimp only at h
  split at h
  · cases h
  · next hlt =>
    obtain rfl := Option.some.inj h
    refine ⟨Nat.le_of_not_lt hlt, rfl, rfl, rfl, ?_⟩
    dsimp only
    cases (if e.crossCheck = true then (s.ranking e k)[k]? else none) with
    | none => rfl
    | some c => rfl

/-- R62, R74: a usable member that is not on an UP node is on a SUSPECT one. -/
theorem State.onSuspect_iff {pos : Position} (hu : pos ∈ s.ranking e k) : s.onSuspect e pos = true ↔ ¬s.onUp e pos = true := by
  obtain ⟨m, hm, husable⟩ := (State.mem_ranking_iff pos).mp hu
  obtain ⟨p, -, hstate, -⟩ := (State.usable_iff m).mp husable
  unfold State.onSuspect State.onUp
  rw [hm]
  rcases hstate with hstate | hstate <;> simp [hstate]

section

variable {x : SourceChoice} (h : SourcesChosen s e k x)

include h

theorem SourcesChosen.perm : x.sources.Perm ((s.ranking e k).take k) := by
  rw [h.sources]
  exact State.filter_perm ((s.ranking_nodup e k).sublist (List.take_sublist ..)) fun _ hm => List.mem_of_mem_take hm

theorem SourcesChosen.length : x.sources.length = k := by
  rw [h.perm.length_eq, List.length_take, Nat.min_eq_left h.enough]

theorem SourcesChosen.rising : x.sources.Pairwise (· < ·) := by
  rw [h.sources]
  exact range_filter_sorted ..

theorem SourcesChosen.mem_ranking {pos : Position} (hp : pos ∈ x.sources) : pos ∈ s.ranking e k :=
  List.mem_of_mem_take (h.perm.mem_iff.mp hp)

theorem SourcesChosen.mem_drop {pos : Position} (hu : pos ∈ s.ranking e k) (hp : pos ∉ x.sources) :
    pos ∈ (s.ranking e k).drop k := by
  rw [← List.take_append_drop k (s.ranking e k)] at hu
  exact (List.mem_append.mp hu).resolve_left fun hm => hp (h.perm.mem_iff.mpr hm)

/-- R75: the members left over come after the sources in the ranking. -/
theorem SourcesChosen.before {a b : Position} (hu : a ∈ s.ranking e k) (ha : a ∉ x.sources) (hb : b ∈ x.sources) :
    s.ranksBefore e k b a := by
  have hsorted := s.ranking_sorted e k
  rw [← List.take_append_drop k (s.ranking e k)] at hsorted
  obtain ⟨-, -, hcross⟩ := List.pairwise_append.mp hsorted
  exact hcross b (h.perm.mem_iff.mp hb) a (h.mem_drop hu ha)

theorem SourcesChosen.unchecked (hc : e.crossCheck = false) : x.check = none ∧ x.skipped = false := by
  rw [h.skipped, h.check, hc]
  exact ⟨rfl, rfl⟩

/-- R76: the check member is missing where no usable member is left over. -/
theorem SourcesChosen.check_none_iff (hc : e.crossCheck = true) : x.check = none ↔ (s.ranking e k).length = k := by
  have henough := h.enough
  rw [h.check, if_pos hc, List.getElem?_eq_none_iff]
  omega

theorem SourcesChosen.skipped_iff (hc : e.crossCheck = true) : x.skipped = true ↔ (s.ranking e k).length = k := by
  rw [← h.check_none_iff hc, h.skipped, hc, Bool.true_and, Option.isNone_iff_eq_none]

/-- R76: the check member is the first of the ranking behind the sources. -/
theorem SourcesChosen.drop_check {pos : Position} (hp : x.check = some pos) :
    (s.ranking e k).drop k = pos :: (s.ranking e k).drop (k + 1) := by
  rw [h.check] at hp
  split at hp
  · obtain ⟨hlt, hget⟩ := List.getElem?_eq_some_iff.mp hp
    rw [List.drop_eq_getElem_cons hlt, hget]
  · cases hp

theorem SourcesChosen.check_spec {pos : Position} (hp : x.check = some pos) : pos ∈ s.ranking e k ∧ pos ∉ x.sources
    ∧ ∀ a ∈ s.ranking e k, a ∉ x.sources → a ≠ pos → s.ranksBefore e k pos a := by
  have hdrop := h.drop_check hp
  have hmem : pos ∈ (s.ranking e k).drop k := by
    rw [hdrop]
    exact List.mem_cons_self
  have hsorted := (s.ranking_sorted e k).sublist (List.drop_sublist k _)
  rw [hdrop] at hsorted
  refine ⟨List.mem_of_mem_drop hmem, fun hs => ?_, fun a hu ha hne => ?_⟩
  · have hnodup := s.ranking_nodup e k
    rw [← List.take_append_drop k (s.ranking e k)] at hnodup
    exact List.disjoint_of_nodup_append hnodup (h.perm.mem_iff.mp hs) hmem
  · have hleft := h.mem_drop hu ha
    rw [hdrop] at hleft
    exact (List.pairwise_cons.mp hsorted).1 a ((List.mem_cons.mp hleft).resolve_left hne)

theorem SourcesChosen.suspect_iff :
    x.suspect = true ↔ ∃ pos, (pos ∈ x.sources ∨ x.check = some pos) ∧ ¬s.onUp e pos = true := by
  have husable : ∀ pos, pos ∈ x.sources ∨ x.check = some pos → pos ∈ s.ranking e k := fun pos hp =>
    hp.elim h.mem_ranking fun hc => (h.check_spec hc).1
  rw [h.suspect, Bool.or_eq_true, List.any_eq_true, Option.any_eq_true]
  constructor
  · rintro (⟨pos, hp, hs⟩ | ⟨pos, hp, hs⟩)
    · exact ⟨pos, .inl hp, (State.onSuspect_iff (husable pos (.inl hp))).mp hs⟩
    · exact ⟨pos, .inr hp, (State.onSuspect_iff (husable pos (.inr hp))).mp hs⟩
  · rintro ⟨pos, hp, hs⟩
    have hsuspect := (State.onSuspect_iff (husable pos hp)).mpr hs
    exact hp.imp (fun hp => ⟨pos, hp, hsuspect⟩) fun hp => ⟨pos, hp, hsuspect⟩

end

end

end Sys2Proof.Machine
end

section
/-! PROOFS. The listed nodes and the choosing of destinations (O51). -/

namespace Sys2Proof.Machine

open Sys2Proof.Config

section

variable {s : State} {e : Entry} {pos : Position} {chosen : List NodeId} {n : NodeId}

/-! ### The racks and the candidates (R77) -/

/-- R77, R78: the occupants of a node's rack, the destinations chosen before in the plan among them. -/
def State.others (s : State) (e : Entry) (chosen : List NodeId) (n : NodeId) : Nat := s.rackCount (e.occupants ++ chosen) n

theorem State.others_eq (s : State) (e : Entry) (chosen : List NodeId) (n : NodeId) : s.others e chosen n =
    (e.members.countP fun m => decide (m.state ≠ .lost ∧ (s.node m.node).rack = (s.node n).rack))
    + (e.targets.countP fun pt => pt.2.dest.any fun x => decide ((s.node x).rack = (s.node n).rack))
    + chosen.countP fun x => decide ((s.node x).rack = (s.node n).rack) := by
  unfold State.others State.rackCount Entry.occupants
  rw [List.countP_append, List.countP_append, List.countP_filterMap, List.countP_filterMap]
  congr 2
  · refine List.countP_congr fun m _ => ?_
    by_cases hm : m.state = .lost <;> simp [hm]
  · refine List.countP_congr fun pt _ => ?_
    cases pt.2.dest with
    | none => simp
    | some x => simp

theorem State.others_le_length : s.others e chosen n ≤ (e.occupants ++ chosen).length := List.countP_le_length

/-- R77, R80: a node meets every condition but the one on racks. -/
def State.fits (s : State) (e : Entry) (pos : Position) (chosen : List NodeId) (n : NodeId) : Bool :=
  s.candidate e pos chosen n (s.node n)

theorem Entry.mem_voidNodes : n ∈ e.voidNodes pos ↔ ∃ t, e.target? pos = some t ∧ ∃ v ∈ t.voids, v.1 = n := by
  unfold Entry.voidNodes
  cases e.target? pos with
  | none => simp
  | some t => simp

theorem State.fits_iff : s.fits e pos chosen n = true ↔
    (s.node n).state = .up ∧ (∃ x, (s.node n).route = some x ∧ (s.port x).state = .up)
    ∧ (s.node n).load + chosen.countP (fun x => decide (x = n)) < 8
    ∧ (∀ m ∈ e.members, m.node ≠ n) ∧ (∀ pt ∈ e.targets, pt.2.dest ≠ some n)
    ∧ ∀ t, e.target? pos = some t → ∀ v ∈ t.voids, v.1 ≠ n := by
  have hvoid : n ∉ e.voidNodes pos ↔ ∀ t, e.target? pos = some t → ∀ v ∈ t.voids, v.1 ≠ n := by
    simp only [Entry.mem_voidNodes, not_exists, not_and, ne_eq]
  rw [← hvoid]
  simp [State.fits, State.candidate, State.routeUp_iff, and_assoc]

/-! ### The lowest number of a list -/

theorem minimumOr_le {d a : Nat} {l : List Nat} (h : a ∈ l) : minimumOr d l ≤ a := by
  induction l with
  | nil => cases h
  | cons b rest ih =>
    unfold minimumOr at ih ⊢
    rw [List.foldr_cons]
    rcases List.mem_cons.mp h with rfl | hrest
    · split <;> omega
    · have hle := ih hrest
      split <;> omega

theorem minimumOr_eq_or_mem (d : Nat) (l : List Nat) : minimumOr d l = d ∨ minimumOr d l ∈ l := by
  induction l with
  | nil => exact .inl rfl
  | cons b rest ih =>
    unfold minimumOr at ih ⊢
    rw [List.foldr_cons]
    split
    · exact .inr List.mem_cons_self
    · exact ih.imp_right (List.mem_cons_of_mem b)

/-- A number of the list that is not above the default makes the lowest one a number of the list. -/
theorem minimumOr_mem {d a : Nat} {l : List Nat} (h : a ∈ l) (ha : a ≤ d) : minimumOr d l ∈ l := by
  rcases minimumOr_eq_or_mem d l with hd | hm
  · rwa [Nat.le_antisymm (minimumOr_le h) (ha.trans_eq hd.symm)]
  · exact hm

/-! ### The listed nodes (R77, R78) -/

/-- R77: the nodes that fit, in ascending node id. -/
def State.fitting (s : State) (e : Entry) (pos : Position) (chosen : List NodeId) : List NodeId :=
  (List.finRange 256).filter (s.fits e pos chosen)

@[simp] theorem State.mem_fitting : n ∈ s.fitting e pos chosen ↔ s.fits e pos chosen n = true := by
  simp [State.fitting]

/-- R77, R78: the lowest occupancy among the nodes that fit; 0 where the rack rule holds without relaxation. -/
def State.lowest (s : State) (e : Entry) (pos : Position) (chosen : List NodeId) : Nat :=
  minimumOr (e.occupants ++ chosen).length ((s.fitting e pos chosen).map (s.others e chosen))

theorem State.lowest_le (h : s.fits e pos chosen n = true) : s.lowest e pos chosen ≤ s.others e chosen n :=
  minimumOr_le (List.mem_map_of_mem (State.mem_fitting.mpr h))

theorem State.lowest_attained (h : s.fits e pos chosen n = true) :
    ∃ k, s.fits e pos chosen k = true ∧ s.others e chosen k = s.lowest e pos chosen := by
  obtain ⟨k, hk, heq⟩ := List.mem_map.mp
    (minimumOr_mem (List.mem_map_of_mem (f := s.others e chosen) (State.mem_fitting.mpr h)) State.others_le_length)
  exact ⟨k, State.mem_fitting.mp hk, heq⟩

/-- With and without relaxation, the nodes listed are those that fit in the racks of the lowest occupancy. -/
theorem State.listed_eq (s : State) (e : Entry) (pos : Position) (chosen : List NodeId) :
    s.listed e pos chosen = ((s.fitting e pos chosen).filter fun n => decide (s.others e chosen n = s.lowest e pos chosen),
      ((s.fitting e pos chosen).filter fun n => decide (s.others e chosen n = 0)).isEmpty) := by
  have hunfold : s.listed e pos chosen =
      if ((s.fitting e pos chosen).filter fun n => decide (s.others e chosen n = 0)).isEmpty = true then
        ((s.fitting e pos chosen).filter fun n => decide (s.others e chosen n = s.lowest e pos chosen), true)
      else ((s.fitting e pos chosen).filter fun n => decide (s.others e chosen n = 0), false) := by
    unfold State.listed
    rw [indicesWhere_eq]
    rfl
  rw [hunfold]
  split
  · next hempty => rw [hempty]
  · next hne =>
    rw [Bool.not_eq_true] at hne
    obtain ⟨k, hk⟩ := List.isEmpty_eq_false_iff_exists_mem.mp hne
    obtain ⟨hfits, hzero⟩ := List.mem_filter.mp hk
    have hle := State.lowest_le (State.mem_fitting.mp hfits)
    rw [of_decide_eq_true hzero, Nat.le_zero] at hle
    rw [hne, hle]

/-- R77, R78: the rule a listed node meets, as the statement of O51 words it. -/
theorem State.mem_listed : n ∈ (s.listed e pos chosen).1 ↔ s.fits e pos chosen n = true
    ∧ (s.others e chosen n = 0
      ∨ ∀ k, s.fits e pos chosen k = true → s.others e chosen k ≠ 0 ∧ s.others e chosen n ≤ s.others e chosen k) := by
  rw [State.listed_eq, List.mem_filter, State.mem_fitting, decide_eq_true_eq]
  refine and_congr_right fun hfits => ⟨fun hlow => ?_, fun h => ?_⟩
  · rw [hlow]
    refine (Nat.eq_zero_or_pos _).imp_right fun hpos k hk => ?_
    have hle := State.lowest_le hk
    exact ⟨by omega, hle⟩
  · have hle := State.lowest_le hfits
    rcases h with hzero | hleast
    · omega
    · obtain ⟨k, hk, heq⟩ := State.lowest_attained hfits
      have hleast := (hleast k hk).2
      omega

theorem State.listed_rising : (s.listed e pos chosen).1.Pairwise (· < ·) := by
  rw [State.listed_eq]
  exact ((List.pairwise_lt_finRange 256).filter _).filter _

theorem State.listed_relaxed_iff (h : n ∈ (s.listed e pos chosen).1) :
    (s.listed e pos chosen).2 = true ↔ s.others e chosen n ≠ 0 := by
  rw [State.listed_eq, List.mem_filter, State.mem_fitting, decide_eq_true_eq] at h
  obtain ⟨hfits, hlow⟩ := h
  rw [State.listed_eq, List.isEmpty_iff, List.filter_eq_nil_iff]
  simp only [State.mem_fitting, decide_eq_true_eq]
  constructor
  · exact fun hall => hall n hfits
  · intro hne k hk
    have hle := State.lowest_le hk
    omega

theorem State.not_fits_of_listed_nil (h : (s.listed e pos chosen).1 = []) : ¬s.fits e pos chosen n = true := by
  intro hfits
  obtain ⟨k, hk, heq⟩ := State.lowest_attained hfits
  have hlisted : k ∈ (s.listed e pos chosen).1 := by
    rw [State.listed_eq]
    exact List.mem_filter.mpr ⟨State.mem_fitting.mpr hk, decide_eq_true heq⟩
  rw [h] at hlisted
  cases hlisted

end

/-! ### The choosing (R79, R80) -/

section

variable {s : State} {e : Entry} {chosen : List (Position × NodeId)} {sel : U16} {relaxed : Bool}

/-- The nodes chosen before the one of an index. -/
def chosenBefore (chosen : List (Position × NodeId)) (i : Nat) : List NodeId := (chosen.take i).map Prod.snd

theorem getElem?_modulo_eq_none_iff {α : Type} (l : List α) (i : Nat) : l[i % l.length]? = none ↔ l = [] := by
  rw [List.getElem?_eq_none_iff]
  constructor
  · intro h
    by_contra hne
    exact Nat.not_lt.mpr h (Nat.mod_lt i (List.length_pos_iff.mpr hne))
  · rintro rfl
    exact Nat.zero_le _

theorem getElem?_concat_iff {α : Type} {l : List α} {a x : α} {i : Nat} :
    (l ++ [a])[i]? = some x ↔ l[i]? = some x ∨ i = l.length ∧ a = x := by
  rcases Nat.lt_trichotomy i l.length with hlt | rfl | hgt
  · rw [List.getElem?_append_left hlt]
    simp [Nat.ne_of_lt hlt]
  · simp
  · rw [List.getElem?_eq_none (by simp; omega), List.getElem?_eq_none (by omega)]
    simp [Nat.ne_of_gt hgt]

/-- A choosing from the committed selector so far: each node stands in its list where the stepped selector points. -/
structure Choosing (s : State) (e : Entry) (chosen : List (Position × NodeId)) (sel : U16) (relaxed : Bool) : Prop where
  picked : ∀ (i : Nat) (pos : Position) (n : NodeId), chosen[i]? = some (pos, n) →
    (s.listed e pos (chosenBefore chosen i)).1[(lfsrStep^[i + 1] s.selector).toNat
      % (s.listed e pos (chosenBefore chosen i)).1.length]? = some n
  relaxed : relaxed = true ↔
    ∃ (i : Nat) (pos : Position) (n : NodeId), chosen[i]? = some (pos, n) ∧ (s.listed e pos (chosenBefore chosen i)).2 = true
  selector : sel = lfsrStep^[chosen.length] s.selector

theorem Choosing.nil : Choosing s e [] s.selector false where
  picked := by simp
  relaxed := by simp
  selector := rfl

theorem chosenBefore_length : chosenBefore chosen chosen.length = chosen.map Prod.snd := by
  rw [chosenBefore, List.take_length]

theorem chosenBefore_concat {c : Position × NodeId} {i : Nat} (h : i ≤ chosen.length) :
    chosenBefore (chosen ++ [c]) i = chosenBefore chosen i := by
  rw [chosenBefore, List.take_append_of_le_length h, chosenBefore]

theorem Choosing.concat (h : Choosing s e chosen sel relaxed) {pos : Position} {n : NodeId}
    (hn : (s.listed e pos (chosen.map Prod.snd)).1[(lfsrStep sel).toNat
      % (s.listed e pos (chosen.map Prod.snd)).1.length]? = some n) :
    Choosing s e (chosen ++ [(pos, n)]) (lfsrStep sel) (relaxed || (s.listed e pos (chosen.map Prod.snd)).2) where
  picked i p x hx := by
    rcases getElem?_concat_iff.mp hx with hold | ⟨rfl, hnew⟩
    · rw [chosenBefore_concat (List.getElem?_eq_some_iff.mp hold).1.le]
      exact h.picked i p x hold
    · cases hnew
      rw [chosenBefore_concat le_rfl, chosenBefore_length, Function.iterate_succ_apply', ← h.selector]
      exact hn
  relaxed := by
    rw [Bool.or_eq_true, h.relaxed]
    constructor
    · rintro (⟨i, p, x, hx, hr⟩ | hr)
      · refine ⟨i, p, x, getElem?_concat_iff.mpr (.inl hx), ?_⟩
        rwa [chosenBefore_concat (List.getElem?_eq_some_iff.mp hx).1.le]
      · refine ⟨chosen.length, pos, n, getElem?_concat_iff.mpr (.inr ⟨rfl, rfl⟩), ?_⟩
        rwa [chosenBefore_concat le_rfl, chosenBefore_length]
    · rintro ⟨i, p, x, hx, hr⟩
      rcases getElem?_concat_iff.mp hx with hold | ⟨rfl, hnew⟩
      · rw [chosenBefore_concat (List.getElem?_eq_some_iff.mp hold).1.le] at hr
        exact .inl ⟨i, p, x, hold, hr⟩
      · cases hnew
        rw [chosenBefore_concat le_rfl, chosenBefore_length] at hr
        exact .inr hr
  selector := by
    rw [List.length_append, List.length_singleton, Function.iterate_succ_apply', ← h.selector]

/-- R80: the choosing goes through the positions in order and stops at the first that finds no node. -/
theorem State.chooseDests_spec (l : List Position) (h : Choosing s e chosen sel relaxed) :
    ∃ rest, chosen.map Prod.fst ++ l = (s.chooseDests e l chosen sel relaxed).chosen.map Prod.fst ++ rest
      ∧ Choosing s e (s.chooseDests e l chosen sel relaxed).chosen (s.chooseDests e l chosen sel relaxed).selector
        (s.chooseDests e l chosen sel relaxed).relaxed
      ∧ ((s.chooseDests e l chosen sel relaxed).complete = true ↔ rest = [])
      ∧ ∀ pos ∈ rest.head?, (s.listed e pos ((s.chooseDests e l chosen sel relaxed).chosen.map Prod.snd)).1 = [] := by
  induction l generalizing chosen sel relaxed with
  | nil => exact ⟨[], rfl, h, by simp [State.chooseDests], by simp⟩
  | cons pos tail ih =>
    rw [State.chooseDests]
    dsimp only
    split
    · next n hn =>
      obtain ⟨rest, hpositions, hrest⟩ := ih (h.concat hn)
      refine ⟨rest, ?_, hrest⟩
      rw [← hpositions, List.map_append, List.append_assoc]
      rfl
    · next hnone =>
      refine ⟨pos :: tail, rfl, h, by simp, fun p hp => ?_⟩
      cases hp
      exact (getElem?_modulo_eq_none_iff _ _).mp hnone

theorem State.destChoice_spec (s : State) (e : Entry) : ∃ rest, e.destless = (s.destChoice e).chosen.map Prod.fst ++ rest
    ∧ Choosing s e (s.destChoice e).chosen (s.destChoice e).selector (s.destChoice e).relaxed
    ∧ ((s.destChoice e).complete = true ↔ rest = [])
    ∧ ∀ pos ∈ rest.head?, (s.listed e pos ((s.destChoice e).chosen.map Prod.snd)).1 = [] :=
  s.chooseDests_spec e.destless Choosing.nil

theorem State.destChoice_positions (s : State) (e : Entry) :
    (s.destChoice e).chosen.map Prod.fst = e.destless.take (s.destChoice e).chosen.length := by
  obtain ⟨rest, hpositions, -⟩ := s.destChoice_spec e
  rw [hpositions, List.take_left' (List.length_map _)]

theorem State.destChoice_complete_iff (s : State) (e : Entry) :
    (s.destChoice e).complete = true ↔ (s.destChoice e).chosen.length = e.destless.length := by
  obtain ⟨rest, hpositions, -, hcomplete, -⟩ := s.destChoice_spec e
  rw [hcomplete, hpositions, List.length_append, List.length_map, Nat.left_eq_add, List.length_eq_zero_iff]

/-- R80: an incomplete choosing stands at a position that no node fits. -/
theorem State.destChoice_stopped (h : (s.destChoice e).complete = false) :
    ∃ pos, e.destless[(s.destChoice e).chosen.length]? = some pos
      ∧ ∀ n, ¬s.fits e pos ((s.destChoice e).chosen.map Prod.snd) n = true := by
  obtain ⟨rest, hpositions, -, hcomplete, hstop⟩ := s.destChoice_spec e
  cases rest with
  | nil =>
    rw [hcomplete.mpr rfl] at h
    cases h
  | cons pos tail =>
    refine ⟨pos, ?_, fun n => State.not_fits_of_listed_nil (hstop pos rfl)⟩
    rw [hpositions, List.getElem?_append_right (by simp)]
    simp

end

/-! ### O51 -/

section

variable {s : State} {e : Entry} {k : Nat} {pos : Position}

theorem State.onUp_iff : s.onUp e pos = true ↔ ∃ m, e.members[pos]? = some m ∧ (s.node m.node).state = .up := by
  simp [State.onUp, Option.any_eq_true]

theorem State.rankWeight_eq : s.rankWeight e k pos = (if pos < k then 0 else 1) +
    (match e.members[pos]? with
     | some m => if (s.node m.node).state = .up then 0 else 2
     | none => 2) := by
  unfold State.rankWeight State.onUp
  cases e.members[pos]? with
  | none => simp
  | some m => simp

end

/-- Settles O51: the ranking is sorted by weight, the sources are its first `k` and the check member the next; the
choosing of destinations keeps `Choosing`, whose lists hold exactly the eligible nodes. -/
theorem plannerChoicesMeetTheirRules : Obligations.PlannerChoicesMeetTheirRules := by
  unfold Obligations.PlannerChoicesMeetTheirRules
  intro s e c usable onUp weight before count
  have husable : ∀ pos, pos ∈ s.ranking e c.k ↔ usable pos := fun pos => by
    simp only [State.mem_ranking_iff, State.usable_iff, usable, exists_and_left]
  have hup : ∀ pos, s.onUp e pos = true ↔ onUp pos := fun pos => State.onUp_iff
  have hbefore : ∀ a b, s.ranksBefore e c.k a b → before a b := fun a b => by
    unfold State.ranksBefore
    rw [State.rankWeight_eq, State.rankWeight_eq]
    exact id
  have hcount : count = (s.ranking e c.k).length := State.countP_ranking s e c.k
  refine ⟨husable, ?_, fun x hx => ?_, ?_⟩
  · rw [hcount]
    exact State.chooseSources_none_iff
  · have h := State.chooseSources_some hx
    simp only [← husable, ← hup, hcount]
    exact ⟨h.length, h.rising, fun _ => h.mem_ranking, fun a b hu ha hb => hbefore b a (h.before hu ha hb), h.unchecked,
      fun hc => ⟨h.check_none_iff hc, h.skipped_iff hc⟩,
      fun pos hp =>
        have ⟨hmem, hnot, hrest⟩ := h.check_spec hp
        ⟨hmem, hnot, fun a hu ha hne => hbefore pos a (hrest a hu ha hne)⟩,
      h.suspect_iff⟩
  · intro d rack others fits eligible step chosenUpTo
    have hothers : ∀ n chosen, others n chosen = s.others e chosen n := fun n chosen => (s.others_eq e chosen n).symm
    have hfits : ∀ pos chosen n, fits pos chosen n ↔ s.fits e pos chosen n = true := fun _ _ _ => State.fits_iff.symm
    have heligible : ∀ pos chosen n, n ∈ (s.listed e pos chosen).1 ↔ eligible pos chosen n := fun pos chosen n => by
      simp only [eligible, hfits, hothers, State.mem_listed]
    obtain ⟨-, -, hchoosing, -, -⟩ := s.destChoice_spec e
    refine ⟨s.destChoice_positions e, fun i pos n hn => ?_, s.destChoice_complete_iff e, fun h => ?_, ?_, hchoosing.selector⟩
    · exact ⟨_, State.listed_rising, heligible pos (chosenUpTo i), hchoosing.picked i pos n hn⟩
    · simp only [hfits]
      exact State.destChoice_stopped h
    · rw [hchoosing.relaxed]
      simp only [hothers]
      refine exists_congr fun i => exists_congr fun pos => exists_congr fun n => and_congr_right fun hn => ?_
      exact State.listed_relaxed_iff (List.mem_of_getElem? (hchoosing.picked i pos n hn))

end Sys2Proof.Machine
end

section
/-! PROOFS. The Matrix Unit: the beginning of an inversion, and its end with the entries that wait on the bank (O53). -/

namespace Sys2Proof.Machine

open Sys2Proof.Config

section

variable {s u t : State} {inv : Inversion} {b : BankId} {rest : List BankId} {h : Handle}

/-! ### The commands -/

theorem exec_inversionEnd_idle (h : s.matrix = none ∨ s.inversionFifo = []) : exec .inversionEnd s = .next s := by
  have hexec : exec .inversionEnd s = execInversionEnd s := rfl
  rw [hexec]
  unfold execInversionEnd
  split
  · next hm hf => exact absurd h (by simp [hm, hf])
  · exact event_idle (.inr rfl)

/-- R167: an event that places no record raises no event line, also where it begins by changing a state outside the
ports. -/
theorem event_planned (hr : s.inReset = false) (hp : u.ports = s.ports) (hk : Planned u t) :
    event s true t = .next t := by
  have hline : ∀ p, (t.port p).line = (s.port p).line := fun p => by
    rw [hk.port p, State.port_congr hp]
    rfl
  rw [event_next hr rfl]
  exact congrArg _ (countRises_eq (fun p => Port.risen_of_line_eq (hline p)) rfl)

theorem exec_inversionBegin (hr : s.inReset = false) : exec .inversionBegin s = .next s.startInversion :=
  event_planned hr rfl (.startInversion s)

/-! ### The bank at the end of its inversion (R15, R100) -/

theorem Bank.finish_of_discard {x : Bank} (h : x.discard = true) :
    Bank.finish inv x = ⟨.empty, none, [], x.refs, x.stamp, false⟩ := by
  simp only [Bank.finish, h, if_true]

theorem Bank.finish_of_kept {x : Bank} {k : Key} (h : x.discard = false) (hk : x.key = some k) :
    Bank.finish inv x =
      ⟨.ready, some k, invertedRows inv.code k (invertArray inv.code.k inv.array), x.refs, x.stamp, false⟩ := by
  simp only [Bank.finish, h, hk, Bool.false_eq_true, if_false]

/-- R100: the state with the Matrix Unit idle, the bank `b` out of the FIFO and its contents decided, before any entry
is activated. -/
def State.leaveFifo (s : State) (inv : Inversion) (b : BankId) (rest : List BankId) : State :=
  ({ s with matrix := none, inversionFifo := rest } : State).modBank b (Bank.finish inv)

theorem State.bank_leaveFifo (s : State) (inv : Inversion) (b j : BankId) (rest : List BankId) :
    (s.leaveFifo inv b rest).bank j = if j = b then Bank.finish inv (s.bank b) else s.bank j :=
  bank_modBank ..

theorem State.rest_leaveFifo (s : State) (inv : Inversion) (b : BankId) (rest : List BankId) :
    { s with matrix := none, inversionFifo := rest, banks := (s.leaveFifo inv b rest).banks } = s.leaveFifo inv b rest :=
  rfl

/-! ### The entries that wait on a bank (R100) -/

theorem State.waitingOn_eq (s : State) (b : BankId) :
    s.waitingOn b = (s.entries.filter fun he => decide (he.2.plan.bind Plan.bank = some b)).map Prod.fst := by
  unfold State.waitingOn
  rw [← List.filterMap_eq_map, List.filterMap_filter]
  refine List.filterMap_congr fun he _ => ?_
  cases he.2.plan <;> simp

theorem State.mem_waitingOn (hr : s.rising) :
    h ∈ s.waitingOn b ↔ ∃ e, s.entry? h = some e ∧ e.plan.bind Plan.bank = some b := by
  rw [State.waitingOn_eq, List.mem_map]
  constructor
  · rintro ⟨he, hm, rfl⟩
    obtain ⟨hm, hb⟩ := List.mem_filter.mp hm
    exact ⟨he.2, State.entry_of_mem hr hm, of_decide_eq_true hb⟩
  · rintro ⟨e, he, hb⟩
    exact ⟨(h, e), List.mem_filter.mpr ⟨State.mem_of_entry he, decide_eq_true hb⟩, rfl⟩

theorem State.waitingOn_rising (hr : s.rising) : (s.waitingOn b).Pairwise (· < ·) := by
  rw [State.waitingOn_eq, List.pairwise_map]
  exact List.Pairwise.filter _ hr

/-! ### The end of an inversion (R99, R100) -/

/-- R100: the bank leaves the FIFO, the entries that wait on it are activated, an attempt is caused, and the next
inversion begins. -/
theorem State.endInversion_eq (s : State) (inv : Inversion) (b : BankId) (rest : List BankId) :
    s.endInversion inv b rest = ((((s.leaveFifo inv b rest).waitingOn b).foldl State.activateIfReady
      (s.leaveFifo inv b rest)).causeAttempt).startInversion := rfl

theorem Planned.endInversion (s : State) (inv : Inversion) (b : BankId) (rest : List BankId) :
    Planned { s with matrix := none, inversionFifo := rest } (s.endInversion inv b rest) := by
  have hfinished := Kept.modBank { s with matrix := none, inversionFifo := rest } b _ (Bank.stamp_finish inv _)
  rw [State.endInversion_eq]
  refine .trans (.trans (.trans hfinished.toPlanned ?_) (Kept.causeAttempt _).toPlanned) (.startInversion _)
  exact .foldl (fun x h => (Kept.activateIfReady x h).toPlanned) _ _

theorem exec_inversionEnd (hr : s.inReset = false) (hm : s.matrix = some inv) (hf : s.inversionFifo = b :: rest) :
    exec .inversionEnd s = .next (s.endInversion inv b rest) := by
  have hexec : exec .inversionEnd s = execInversionEnd s := rfl
  rw [hexec]
  unfold execInversionEnd
  rw [hm, hf]
  exact event_planned (u := { s with matrix := none, inversionFifo := rest }) hr rfl (.endInversion s inv b rest)

end

/-- Settles O53: an inversion's end is a bank that leaves the FIFO, a fold of the activation over the entries that wait on
it, which the table lists by rising handle, and the beginning of the next inversion. -/
theorem inversionsRunInFifoOrder : Obligations.InversionsRunInFifoOrder := by
  unfold Obligations.InversionsRunInFifoOrder
  intro s hreset
  refine ⟨⟨s.startInversion, exec_inversionBegin hreset, s.startInversion_begins⟩, exec_inversionEnd_idle,
    fun inv b rest k hm hf hk hr => ?_⟩
  have hbank := (s.bank_leaveFifo inv b b rest).trans (if_pos rfl)
  let u := s.leaveFifo inv b rest
  let v := (u.waitingOn b).foldl State.activateIfReady u
  refine ⟨u, v, s.endInversion inv b rest, u.waitingOn b, exec_inversionEnd hreset hm hf, s.rest_leaveFifo inv b rest,
    fun j hj => ?_, fun hd => ?_, fun hd => ?_, State.waitingOn_rising hr, fun h => State.mem_waitingOn hr, ?_,
    v.causeAttempt.startInversion_begins⟩
  · exact (s.bank_leaveFifo inv b j rest).trans (if_neg hj)
  · exact hbank.trans (Bank.finish_of_discard hd)
  · exact hbank.trans (Bank.finish_of_kept hd hk)
  · exact inTurn_foldl (fun _ _ _ he => State.activateIfReady_activates he) _ _

end Sys2Proof.Machine
end

section
/-! PROOFS. What the Gather Unit wants, and the fetch a port issues next (O38, O39). -/

namespace Sys2Proof.Machine

open Sys2Proof.Config

/-! ### Wanted chunks (R107) -/

/-- Settles O39: `State.mem_wanted` and `State.mem_wantedOf` say of which entry and member a wanted chunk is, `mem_window`
that its offset is one of the first W, `State.missing_iff` that it is missing. -/
theorem wantedChunksAreMissingInWindow : Obligations.WantedChunksAreMissingInWindow := by
  refine ⟨State.needed_iff, fun s hr w => ?_⟩
  rw [State.mem_wanted hr, State.mem_wantedOf]
  simp only [mem_window, Plan.gathers_iff, State.missing_iff]
  constructor
  · rintro ⟨⟨e, pl, m, he, hplan, hpark, -, ⟨⟨hlt, hneeded⟩, hcount⟩, hm, hgathers, ⟨hheld, harriving, hsolicited⟩,
      hstripe, hnode, hlength, hpoint⟩, e', he', hactive⟩
    obtain rfl := Option.some.inj (he.symm.trans he')
    exact ⟨e, pl, m, he, hactive, hpark, hplan, hm, hgathers, hlt, hneeded, hcount, hheld, harriving, hsolicited, hstripe,
      hnode, hpoint, hlength.trans (chunkLength_eq hlt)⟩
  · rintro ⟨e, pl, m, he, hactive, hpark, hplan, hm, hgathers, hlt, hneeded, hcount, hheld, harriving, hsolicited, hstripe,
      hnode, hpoint, hlength⟩
    exact ⟨⟨e, pl, m, he, hplan, hpark, trivial, ⟨⟨hlt, hneeded⟩, hcount⟩, hm, hgathers, ⟨hheld, harriving, hsolicited⟩, hstripe,
      hnode, hlength.trans (chunkLength_eq hlt).symm, hpoint⟩, e, he, hactive⟩

/-! ### The issue of a fetch (R111) -/

section

variable {s : State} {p : PortId} {w : Wanted} {c : CellId} {tag : FetchTag}

theorem Port.emptyTag_eq {q : Port} (hempty : q.fetches[tag] = none) (hlower : ∀ k, k < tag → q.fetches[k] ≠ none) :
    q.emptyTag = some tag := by
  unfold Port.emptyTag
  rw [allBelow_eq, List.find?_eq_some_iff_getElem]
  refine ⟨Option.isNone_iff_eq_none.mpr hempty, tag.val, by simp, by simp, fun k hk => ?_⟩
  have hbelow := hlower ⟨k, hk.trans tag.isLt⟩ hk
  simpa [Port.fetch] using Option.isSome_iff_ne_none.mpr hbelow

/-- R165, R167: a record placed at a port, its interrupt counted. -/
theorem Port.risen_place {a b : Port} (r : Record) (hs : b.state = a.state) (hr : b.responses = a.responses)
    (he : b.eventEnable = a.eventEnable) : Port.risen a (b.place r) = b.received r := by
  unfold Port.risen Port.received Port.place Port.line
  rw [hs, hr, he]
  cases hstate : a.state <;> cases hresponses : a.responses <;> cases henable : a.eventEnable <;> simp [responseRange]

theorem exec_fetchIssue_idle (h : s.nextFetch p = none) : exec (.fetchIssue p) s = .next s := by
  have hexec : exec (.fetchIssue p) s = execFetchIssue p s := rfl
  rw [hexec, execFetchIssue, h]
  exact event_idle (.inr rfl)

/-- R111: the slot, the cell, the charge and the notice. -/
theorem exec_fetchIssue (hreset : s.inReset = false) (h : s.nextFetch p = some (w, c))
    (ht : (s.port p).emptyTag = some tag) : exec (.fetchIssue p) s = .next
      { s.setPort p ((((s.port p).setFetch tag (some (s.newFetch w c))).charge).received
          (.fetch w.stripe w.handle tag w.position w.node w.offset w.length)) with
        cells := s.cells.set c (some ⟨w.handle, s.chargeOf c, .fetch p, []⟩) } := by
  have hexec : exec (.fetchIssue p) s = execFetchIssue p s := rfl
  rw [hexec, execFetchIssue, h, ht]
  refine (event_next hreset rfl).trans (congrArg _ (countRises_eq (fun k => ?_) rfl))
  have hdrawn : ∀ j, (s.draw c w.handle (.fetch p)).port j = s.port j := fun _ => rfl
  change Port.risen (s.port k) ((s.issue p tag w c).port k) = (s.setPort p _).port k
  simp only [State.issue, port_place, port_modPort, State.port_setPort, if_true, hdrawn]
  by_cases hk : k = p
  · rw [if_pos hk, if_pos hk, hk]
    exact Port.risen_place _ rfl rfl rfl
  · rw [if_neg hk, if_neg hk, if_neg hk]
    exact Port.risen_of_line_eq rfl

end

/-- Settles O38: the chunk found is `State.nextFetch_spec`, the cell had for it `State.answerCell_some`, and the issue
`exec_fetchIssue`. -/
theorem fetchIssueTakesSlotCellAndCharge : Obligations.FetchIssueTakesSlotCellAndCharge := by
  intro s p hreset q mayIssue serves fromFloor fromPool issuable
  have hmay : s.mayFetch p = true ↔ mayIssue := s.mayFetch_iff p
  have hserves : ∀ w, s.memberServes p w = true ↔ serves w := s.memberServes_iff p
  have hcell : ∀ w, s.answerCell p w ≠ none ↔ ∃ c, fromFloor w c ∨ fromPool c := fun w => by
    rw [Ne, s.answerCell_none p w, not_forall]
    simp only [not_not]
    rfl
  refine ⟨?_, exec_fetchIssue_idle, fun w c h => ?_⟩
  · rw [State.nextFetch_none, hmay]
    simp only [hserves, hcell]
    rfl
  · obtain ⟨hissue, hwanted, hserve, hanswer, hfirst⟩ := State.nextFetch_spec h
    refine ⟨⟨hwanted, (hserves w).mp hserve, hmay.mp hissue, State.answerCell_some hanswer⟩, fun hr hera v hv hissuable => ?_,
      fun tag hempty hlower => exec_fetchIssue hreset h (Port.emptyTag_eq hempty hlower)⟩
    exact hfirst hr hera v hv ((hserves v).mpr hissuable.1) ((hcell v).mpr hissuable.2)

end Sys2Proof.Machine
end

section
/-! PROOFS. OFFER and DECLINE: their checks, the transfer that an offer begins, the member that a DECLINE loses (O34, O35,
O36). -/

namespace Sys2Proof.Machine

open Sys2Proof.Config

/-! ### Releases, and what follows a loss, seen beside other changes (R52, R55, R124) -/

section

variable {s t u u' v v' : State} {h : Handle} {e lost : Entry} {pos : Position} {pm : Nat}

/-- R124 reads the entries, the cells and the attempt alone, so that cells are released alike beside any other change. -/
theorem afterRelease.rebase {given : CellId → Prop} (k : afterRelease u v given) (he : u'.entries = u.entries)
    (hc : u'.cells = u.cells) (ha : u'.attempt = u.attempt)
    (hv : { u' with cells := v.cells, attempt := v.attempt } = v') : afterRelease u' v' given := by
  obtain ⟨-, ⟨l, hl, hreleases⟩, hattempt⟩ := k
  subst hv
  refine ⟨rfl, ⟨l, hl, hreleases.congr he hc (by rw [ha]; exact id) rfl id⟩, ?_⟩
  rw [hattempt, ha]
  unfold someCellFreed State.cell
  rw [hc]

/-- R52, R55: from the state `u` the entry at `h` has become `lost`, with one member more LOST: with at most `pm` of them it
takes its class and a trigger, with more it closes UNRECOVERABLE. -/
structure lossFollows (u t : State) (h : Handle) (lost : Entry) (pm : Nat) : Prop where
  lives : lost.lostCount ≤ pm → takesTrigger u t h { lost with urgency := classFor pm lost.lostCount }
  closes : pm < lost.lostCount → closes u t h lost (.failed .unrecoverable)

theorem lossFollows.others (k : lossFollows u t h lost pm) : onlyEntry u t h := by
  rcases Nat.lt_or_ge pm lost.lostCount with hm | hm
  · exact (k.closes hm).others
  · exact (k.lives hm).others

theorem lossFollows.count (k : lossFollows u t h lost pm) {i : Fin 18} (hi : i ≠ 3) :
    lossFollows (u.count i) (t.count i) h lost pm :=
  ⟨fun hm => (k.lives hm).count i, fun hm => (k.closes hm).count hi.symm⟩

/-- Changes of the ports that keep the fetch tables and the output queues, before the loss and after it. -/
theorem lossFollows.beside (k : lossFollows u t h lost pm) (hu : { u with ports := u'.ports } = u')
    (hbefore : ∀ q, (u'.port q).fetches = (u.port q).fetches ∧ (u'.port q).outputs = (u.port q).outputs)
    (ht : { t with ports := v.ports } = v)
    (hafter : ∀ q, (v.port q).fetches = (t.port q).fetches ∧ (v.port q).outputs = (t.port q).outputs) :
    lossFollows u' v h lost pm :=
  ⟨fun hm => ((k.lives hm).ports ht hafter).portsBefore hu hbefore,
    fun hm => ((k.closes hm).ports ht hafter).portsBefore hu hbefore⟩

theorem State.afterLoss_follows {m x : Member} (hm : e.members[pos]? = some m) (hx : x.state ≠ .held) (hc : e.state ≠ .closed)
    (hs : e.submitters ≠ 0) : lossFollows u ((u.setEntry h { e with members := e.members.set pos x }).afterLoss h) h
      { e with members := e.members.set pos x } (u.code e.profile).m := by
  have hentry := State.entry_put u h { e with members := e.members.set pos x }
  have hpositive := Entry.lostCount_set_pos hm hx
  exact ⟨fun hle => (State.afterLoss_lives hentry hc hpositive hle).rebase,
    fun hlt => (State.afterLoss_closes hentry hc hs hlt).rebase⟩

theorem State.loseMember_eq {m : Member} (he : u.entry? h = some e) (hm : e.members[pos]? = some m) (hheld : m.state = .held)
    (cause : LostCause) : u.loseMember h pos cause =
      (u.setEntry h { e with members := e.members.set pos (m.lostNow cause) }).afterLoss h := by
  rw [State.loseMember, State.modMember, State.modEntry_eq he, modify_eq_set hm, Member.lose_held hheld]

/-- R112: a member that an entry uses is HELD. -/
theorem usesMemberNow.held {m : Member} (k : usesMemberNow s h pos) (he : s.entry? h = some e)
    (hm : e.members[pos]? = some m) : m.state = .held := by
  obtain ⟨e', m', -, he', hm', -, hheld, -⟩ := k
  obtain rfl := Option.some.inj (he'.symm.trans he)
  obtain rfl := Option.some.inj (hm'.symm.trans hm)
  exact hheld

end

/-! ### The slot that empties (R112, R117, R118) -/

section

variable (s : State) (p : PortId) (tag : FetchTag) (f : Fetch)

/-- The slot empty, its answer cell still held. -/
def State.slotEmptied : State := s.setPort p ((s.port p).setFetch tag none)

theorem State.emptySlotAt_releases :
    afterRelease (s.slotEmptied p tag) (s.emptySlotAt p tag f) (fun c => f.cell = some c) := s.emptySlotAt_after p tag f

theorem State.port_emptySlotAt (q : PortId) : (s.emptySlotAt p tag f).port q = (s.slotEmptied p tag).port q := by
  rw [← (s.emptySlotAt_releases p tag f).rest]
  rfl

theorem State.entry_emptySlotAt (h : Handle) : (s.emptySlotAt p tag f).entry? h = s.entry? h := by
  rw [← (s.emptySlotAt_releases p tag f).rest]
  rfl

theorem State.code_emptySlotAt (i : ProfileId) : (s.emptySlotAt p tag f).code i = s.code i := by
  rw [← (s.emptySlotAt_releases p tag f).rest]
  rfl

theorem Kept.emptySlotAt : Kept s (s.emptySlotAt p tag f) := (Kept.setPort s p _ rfl).trans (Kept.releaseAll ..)

/-- The slot that empties once the request is taken, with the request's taking undone. -/
def State.emptiedSlot : State := { (s.advance p).emptySlotAt p tag f with ports := (s.slotEmptied p tag).ports }

theorem State.emptiedSlot_after : afterRelease (s.slotEmptied p tag) (s.emptiedSlot p tag f) (fun c => f.cell = some c) := by
  refine ((s.advance p).emptySlotAt_releases p tag f).rebase rfl rfl rfl ?_
  rw [State.emptiedSlot, ← ((s.advance p).emptySlotAt_releases p tag f).rest]
  rfl

theorem State.advance_emptiedSlot : (s.emptiedSlot p tag f).advance p = (s.advance p).emptySlotAt p tag f := by
  refine State.ext_ports (fun q => ?_) rfl
  have hport : ∀ k, (s.emptiedSlot p tag f).port k = (s.slotEmptied p tag).port k := fun _ => rfl
  rw [State.port_emptySlotAt, port_advance, hport, hport, State.slotEmptied, State.slotEmptied]
  simp only [State.port_setPort, port_advance, if_true]
  by_cases hq : q = p
  · rw [if_pos hq, if_pos hq]
    rfl
  · rw [if_neg hq, if_neg hq, if_neg hq, if_neg hq]

end

/-! ### The checks (R112) -/

section

variable {s : State} {p : PortId} {r : Request} {tag : FetchTag} {f : Fetch} {c : CellId}

theorem State.checkOffer_invalid (hbig : 31 < r.fetchTag) : s.checkOffer p r = .refused .invalid := by
  simp only [State.checkOffer, asFin_eq_none (show 32 ≤ r.fetchTag from hbig)]

variable (ht : tag.val = r.fetchTag)

include ht

theorem State.checkOffer_late (hf : (s.port p).fetches[tag] = none) : s.checkOffer p r = .refused .late := by
  have hfetch : (s.port p).fetch tag = none := hf
  simp only [State.checkOffer, ← ht, asFin_val, hfetch]

variable (hf : (s.port p).fetches[tag] = some f)

include hf

theorem State.checkOffer_mismatch (hstripe : f.stripe ≠ r.stripe) : s.checkOffer p r = .refused .mismatch := by
  have hfetch : (s.port p).fetch tag = some f := hf
  simp only [State.checkOffer, ← ht, asFin_val, hfetch, if_pos hstripe]

variable (hstripe : f.stripe = r.stripe)

include hstripe

theorem State.checkOffer_misrouted (hroute : (s.node f.node).route ≠ some p) :
    s.checkOffer p r = .refused .misrouted := by
  have hfetch : (s.port p).fetch tag = some f := hf
  simp only [State.checkOffer, ← ht, asFin_val, hfetch, if_neg (not_not.mpr hstripe), if_pos hroute]

variable (hroute : (s.node f.node).route = some p)

include hroute

theorem State.checkOffer_gone (hunused : f.cell = none ∨ ¬usesMemberNow s f.handle f.position) :
    s.checkOffer p r = .gone tag f := by
  have hfetch : (s.port p).fetch tag = some f := hf
  simp only [State.checkOffer, ← ht, asFin_val, hfetch, if_neg (not_not.mpr hstripe), if_neg (not_not.mpr hroute)]
  cases hcell : f.cell with
  | none => rfl
  | some c =>
    have hnot := hunused.resolve_left (by simp [hcell])
    exact if_neg (mt (s.usesMember_iff f.handle f.position).mp hnot)

theorem State.checkOffer_passes (hcell : f.cell = some c) (huses : usesMemberNow s f.handle f.position) :
    s.checkOffer p r = .passes tag f c := by
  have hfetch : (s.port p).fetch tag = some f := hf
  simp only [State.checkOffer, ← ht, asFin_val, hfetch, if_neg (not_not.mpr hstripe), if_neg (not_not.mpr hroute), hcell]
  exact if_pos ((s.usesMember_iff f.handle f.position).mpr huses)

end

/-- The taking of a request changes no fetch. -/
theorem fetches_advance (s : State) (p q : PortId) : ((s.advance p).port q).fetches = (s.port q).fetches :=
  (advance_tables s p q).1.symm

/-! ### Requests that fail a check (R112, R117) -/

section

variable {s u : State} {p : PortId} {k : Byte} {i : Instr} {st : Status} {tag : FetchTag} {f : Fetch}

/-- A request whose decision changes its own port outside its line, and the tables. -/
theorem exec_advanced {d : Request → State → Answer} {b : Body} (h : s.offers p k)
    (hd : d (s.port p).request (s.advance p) = ⟨u.advance p, st, b⟩) (hothers : onlyPort s u p)
    (hstate : (u.port p).state = (s.port p).state) (hresponses : (u.port p).responses = (s.port p).responses)
    (henable : (u.port p).eventEnable = (s.port p).eventEnable) (hrequest : (u.port p).request = (s.port p).request) :
    withAnswer p k s d = .next (u.answered p k st b) := by
  rw [withAnswer_next (State.takes_of_offers h), hd]
  refine congrArg _ (countRises_eq (fun q => ?_) rfl)
  simp only [State.answered, port_respond, State.port_setPort, port_advance, if_true]
  by_cases hq : q = p
  · rw [if_pos hq, if_pos hq, hq, hrequest]
    exact Port.risen_answered k _ st b h.1.2.1 hstate hresponses henable
  · rw [if_neg hq, if_neg hq, if_neg hq, hothers q hq]
    exact Port.risen_of_line_eq rfl

variable (hi : (k, i) ∈ [(4#8, Instr.offer p), (5#8, .decline p)]) (h : s.offers p k)
  (hcause : k = 5 → (s.port p).request.declineCause = 1)

include hi hcause in
/-- R112, R117: an OFFER, and a DECLINE with cause UNREADABLE, are answered alike by a check that fails. -/
theorem exec_checked {a : Answer}
    (ha : (∃ st, (s.advance p).checkOffer p (s.port p).request = .refused st ∧ a = Answer.only (s.advance p) st)
      ∨ ∃ tag f, (s.advance p).checkOffer p (s.port p).request = .gone tag f
          ∧ a = Answer.only ((s.advance p).emptySlotAt p tag f) .gone) :
    exec i s = withAnswer p k s fun _ _ => a := by
  simp only [List.mem_cons, Prod.mk.injEq, List.not_mem_nil, or_false] at hi
  rcases hi with ⟨rfl, rfl⟩ | ⟨rfl, rfl⟩
  · have hdecide : offerDecide p (s.port p).request (s.advance p)
        = a.state.respond p 4 (s.port p).request.tag a.status a.body := by
      unfold offerDecide
      obtain ⟨st, hcheck, rfl⟩ | ⟨tag, f, hcheck, rfl⟩ := ha <;> rw [hcheck] <;> rfl
    have hexec : exec (.offer p) s = withRequest p (fun k => k == 4) s (offerDecide p) := rfl
    rw [hexec, withRequest, hdecide]
    rfl
  · have hdecide : declineDecide p (s.port p).request (s.advance p) = a := by
      rw [declineDecide, if_neg (not_not.mpr (hcause rfl))]
      obtain ⟨st, hcheck, rfl⟩ | ⟨tag, f, hcheck, rfl⟩ := ha <;> rw [hcheck]
    have hexec : exec (.decline p) s = withAnswer p 5 s (declineDecide p) := rfl
    rw [hexec, withAnswer, withRequest, hdecide]
    rfl

include hi h hcause

theorem exec_checkRefused (hcheck : (s.advance p).checkOffer p (s.port p).request = .refused st) :
    exec i s = .next (s.answered p k st .none) :=
  (exec_checked hi hcause (.inl ⟨st, hcheck, rfl⟩)).trans (exec_only h st .none rfl)

theorem exec_checkGone (hcheck : (s.advance p).checkOffer p (s.port p).request = .gone tag f) :
    exec i s = .next ((s.emptiedSlot p tag f).answered p k .gone .none) := by
  have hport : ∀ q, (s.emptiedSlot p tag f).port q = if q = p then (s.port p).setFetch tag none else s.port q :=
    fun q => State.port_setPort ..
  have hself := (hport p).trans (if_pos rfl)
  rw [exec_checked hi hcause (.inr ⟨tag, f, hcheck, rfl⟩), ← State.advance_emptiedSlot]
  exact exec_advanced h rfl (fun q hq => (hport q).trans (if_neg hq)) (by rw [hself]; rfl) (by rw [hself]; rfl)
    (by rw [hself]; rfl) (by rw [hself]; rfl)

end

/-- R117: the only cause of a DECLINE is UNREADABLE. -/
theorem exec_decline_invalid {s : State} {p : PortId} (h : s.offers p 5) (hcause : (s.port p).request.declineCause ≠ 1) :
    exec (.decline p) s = .next (s.answered p 5 .invalid .none) :=
  exec_only h .invalid .none (if_pos hcause)

/-- Settles O34: each check is one lemma of `State.checkOffer`, a refusal `exec_checkRefused`, and an emptied slot
`exec_checkGone`. -/
theorem offerChecksRefuseOrEmptySlot : Obligations.OfferChecksRefuseOrEmptySlot := by
  constructor
  · intro s p k i hi hoffers r answers
    refine ⟨fun hk hother => ?_, fun hcause => ⟨fun hbig => ?_, fun tag ht => ⟨fun hlate => ?_, fun f hf =>
      ⟨fun hstripe => ?_, fun hstripe hroute => ?_⟩⟩⟩⟩
    · subst hk
      obtain rfl : i = .decline p := by simpa using hi
      exact exec_decline_invalid hoffers hother
    · exact exec_checkRefused hi hoffers hcause (State.checkOffer_invalid hbig)
    · exact exec_checkRefused hi hoffers hcause (State.checkOffer_late ht (by rw [fetches_advance]; exact hlate))
    · exact exec_checkRefused hi hoffers hcause
        (State.checkOffer_mismatch ht (by rw [fetches_advance]; exact hf) hstripe)
    · exact exec_checkRefused hi hoffers hcause
        (State.checkOffer_misrouted ht (by rw [fetches_advance]; exact hf) hstripe hroute)
  · intro s p k i hi hoffers q r tag f hcause ht hf hstripe hroute hunused
    have hcheck : (s.advance p).checkOffer p r = .gone tag f :=
      State.checkOffer_gone ht (by rw [fetches_advance]; exact hf) hstripe hroute hunused
    exact ⟨s.emptiedSlot p tag f, exec_checkGone hi hoffers hcause hcheck, s.emptiedSlot_after p tag f⟩

/-- Settles O35, by `State.checkOffer_passes`. -/
theorem offerTakenBeginsTransfer : Obligations.OfferTakenBeginsTransfer := by
  intro s p hoffers q r tag f c x ht hf hstripe hroute hcell hx huses
  have hcheck : (s.advance p).checkOffer p r = .passes tag f c :=
    State.checkOffer_passes ht (by rw [fetches_advance]; exact hf) hstripe hroute hcell huses
  have hdecide : offerDecide p r (s.advance p) = (s.advance p).takeOffer p r tag f c := by
    simp only [offerDecide, hcheck]
  have hexec : exec (.offer p) s = withRequest p (fun k => k == 4) s (offerDecide p) := rfl
  rw [hexec, withRequest_next (State.takes_of_offers hoffers), hdecide]
  refine congrArg _ (countRises_eq (fun k => ?_) ?_)
  · have htaken : ((s.advance p).takeOffer p r tag f c).port k
        = ((s.advance p).modPort p fun q => q.setFetch tag none).port k := rfl
    change _ = (s.setPort p _).port k
    rw [htaken]
    simp only [port_modPort, port_advance, State.port_setPort, if_true]
    by_cases hk : k = p
    · rw [if_pos hk, if_pos hk, hk]
      exact Port.risen_of_line_eq rfl
    · rw [if_neg hk, if_neg hk, if_neg hk]
      exact Port.risen_of_line_eq rfl
  · have hpassed : ((s.advance p).modPort p fun q => q.setFetch tag none).cell c = some x := hx
    simp only [State.takeOffer, State.modCell, hpassed]
    rfl

/-- Settles O36: the loss is `State.afterLoss_follows`, from the state in which the slot has emptied. -/
theorem declineLosesMember : Obligations.DeclineLosesMember := by
  intro s p hoffers q r tag f e m hcause ht hf hstripe hroute hcell huses he hm hc hs lost pm emptied
  obtain ⟨c, hcell⟩ := Option.ne_none_iff_exists'.mp hcell
  have hcheck : (s.advance p).checkOffer p r = .passes tag f c :=
    State.checkOffer_passes ht (by rw [fetches_advance]; exact hf) hstripe hroute hcell huses
  let x := (s.advance p).emptySlotAt p tag f
  have hentry : x.entry? f.handle = some e := ((s.advance p).entry_emptySlotAt p tag f f.handle).trans he
  have hcode : x.code e.profile = s.code e.profile := (s.advance p).code_emptySlotAt p tag f e.profile
  have hlost : x.loseMember f.handle f.position .corrupt = (x.setEntry f.handle lost).afterLoss f.handle :=
    State.loseMember_eq hentry hm (huses.held he hm) .corrupt
  have hdecide : declineDecide p r (s.advance p) = ⟨((x.setEntry f.handle lost).afterLoss f.handle).refreshWaits, .ok, .none⟩ := by
    rw [declineDecide, if_neg (not_not.mpr hcause), hcheck, ← hlost]
    rfl
  have hkept : Kept (s.advance p) ((x.setEntry f.handle lost).afterLoss f.handle) :=
    ((Kept.emptySlotAt ..).trans (Kept.setEntry ..)).trans (Kept.afterLoss ..)
  obtain ⟨t, hexec, hframe, hrest, htables⟩ := exec_kept hoffers hdecide hkept
  have hfollows : lossFollows x ((x.setEntry f.handle lost).afterLoss f.handle) f.handle lost (x.code e.profile).m :=
    State.afterLoss_follows hm (by simp [Member.lostNow]) hc hs
  rw [hcode] at hfollows
  have hbefore : ∀ j, ((s.emptiedSlot p tag f).port j).fetches = (x.port j).fetches
      ∧ ((s.emptiedSlot p tag f).port j).outputs = (x.port j).outputs := fun j => by
    have hadvanced : x = (s.emptiedSlot p tag f).advance p := (s.advance_emptiedSlot p tag f).symm
    rw [hadvanced]
    exact advance_tables (s.emptiedSlot p tag f) p j
  have hloss := hfollows.beside (u' := s.emptiedSlot p tag f) rfl hbefore hrest htables
  have hafter := s.emptiedSlot_after p tag f
  refine ⟨t, s.emptiedSlot p tag f, hexec, hframe, fun j hj => (hloss.others j hj).trans ?_, hafter, hloss.lives,
    hloss.closes⟩
  exact (s.advance p).entry_emptySlotAt p tag f j

end Sys2Proof.Machine
end

section
/-! PROOFS. Strikes, and the fetches that expire (O37). -/

namespace Sys2Proof.Machine

open Sys2Proof.Config

/-! ### Events that place a record and act on the tables (R145, R167) -/

/-- A rise of the event line is counted, and nothing else. -/
theorem Port.risen_eq (a b : Port) : Port.risen a b = { b with interrupts := (Port.risen a b).interrupts } := by
  unfold Port.risen
  split <;> rfl

/-- The line does not read the fetch table, the output queue or the landing wait. -/
theorem Port.risen_worked (a b : Port) (fetches : Vector (Option Fetch) 32) (outputs : List Output) (wait : Option U48) :
    Port.risen a { b with fetches := fetches, outputs := outputs, wait := wait }
      = { Port.risen a b with fetches := fetches, outputs := outputs, wait := wait } := by
  have hline : Port.line { b with fetches := fetches, outputs := outputs, wait := wait } = b.line := rfl
  unfold Port.risen
  rw [hline]
  split <;> rfl

section

variable {s t u v x : State} {h : Handle}

theorem tables_countRises (s t : State) (q : PortId) : ((countRises s t).port q).fetches = (t.port q).fetches
    ∧ ((countRises s t).port q).outputs = (t.port q).outputs := by
  rw [port_countRises, Port.risen_eq]
  exact ⟨rfl, rfl⟩

/-- The interrupts counted at the end of a step stand beside its frame. -/
theorem workFrame.countRises (k : workFrame x t) (s : State) : workFrame (countRises s x) (Machine.countRises s t) := by
  obtain ⟨huntouched, hports⟩ := k
  have hx := rest_countRises s x
  have ht := rest_countRises s t
  have hxport := port_countRises s x
  have htport := port_countRises s t
  generalize Machine.countRises s x = v at hx hxport ⊢
  generalize Machine.countRises s t = u at ht htport ⊢
  constructor
  · obtain ⟨h1, h2, h3, h4, h5, h6, h7, h8, h9, h10, h11, h12, h13, h14, h15⟩ := huntouched
    rw [← hx, ← ht]
    exact ⟨h1, h2, h3, h4, h5, h6, h7, h8, h9, h10, h11, h12, h13, h14, h15⟩
  · intro q
    have hq : t.port q = { x.port q with
        fetches := (t.port q).fetches, outputs := (t.port q).outputs, wait := waitAfter x t q } := hports q
    have hu := (htport q).trans (Port.risen_eq ..)
    have hv := (hxport q).trans (Port.risen_eq ..)
    have hwait : waitAfter x t q = waitAfter v u q := by
      refine waitAfter_congr ?_ ?_ ?_ ?_ ?_ ?_ ?_
      · rw [hv]
      · rw [hu]
      · rw [hu]
      · rw [hu]
      all_goals rw [← ht]
    have hfetches : (u.port q).fetches = (t.port q).fetches := by rw [hu]
    have houtputs : (u.port q).outputs = (t.port q).outputs := by rw [hu]
    rw [Port.worked, hfetches, houtputs, ← hwait, htport, hxport, ← Port.risen_worked, ← hq]

/-- From the state `x`, in which the records are placed, the event goes on to `t`, which keeps what the shared operations
keep: the frame counts from `x` with the interrupts it raises. -/
theorem event_worked (hreset : s.inReset = false) (hk : Kept x t) : ∃ u, event s true t.refreshWaits = .next u
    ∧ workFrame (countRises s x) u ∧ { t with ports := u.ports } = u
    ∧ ∀ q, (u.port q).fetches = (t.port q).fetches ∧ (u.port q).outputs = (t.port q).outputs := by
  have hworked := hk.workFrame
  have hwaits := rest_refreshWaits t
  have htablest : ∀ q, (t.refreshWaits.port q).fetches = (t.port q).fetches
      ∧ (t.refreshWaits.port q).outputs = (t.port q).outputs := fun q => by
    rw [port_refreshWaits]
    exact ⟨rfl, rfl⟩
  rw [event_next hreset rfl]
  generalize t.refreshWaits = y at hworked hwaits htablest ⊢
  refine ⟨countRises s y, rfl, hworked.countRises s, ports_trans hwaits (rest_countRises s y), fun q => ?_⟩
  obtain ⟨hfetches, houtputs⟩ := tables_countRises s y q
  exact ⟨hfetches.trans (htablest q).1, houtputs.trans (htablest q).2⟩

/-- A step that keeps the fetch tables and the output queues changes no port but for its landing wait. -/
theorem workFrame.portsButWaits (k : workFrame u t)
    (htables : ∀ q, (t.port q).fetches = (u.port q).fetches ∧ (t.port q).outputs = (u.port q).outputs) :
    portsButWaits u t := fun q => by
  obtain ⟨hfetches, houtputs⟩ := htables q
  have hq := k.2 q
  rwa [Port.worked, hfetches, houtputs] at hq

/-! What cells released before a step leave of its frame. -/

section

variable {given : CellId → Prop} (k : afterRelease u v given)

include k

theorem afterRelease.port (q : PortId) : v.port q = u.port q := by
  rw [← k.rest]
  rfl

theorem afterRelease.entry (j : Handle) : v.entry? j = u.entry? j := by
  rw [← k.rest]
  rfl

theorem afterRelease.code (i : ProfileId) : v.code i = u.code i := by
  rw [← k.rest]
  rfl

theorem afterRelease.onlyEntry (hothers : onlyEntry v t h) : onlyEntry u t h := fun j hj =>
  (hothers j hj).trans (k.entry j)

theorem afterRelease.workFrame (hframe : workFrame v t) : workFrame u t := by
  obtain ⟨⟨h1, h2, h3, h4, h5, h6, h7, h8, h9, h10, h11, h12, h13, h14, h15⟩, hports⟩ := hframe
  rw [← k.rest] at h1 h2 h3 h4 h5 h6 h7 h8 h9 h10 h11 h12 h13 h14 h15 hports
  exact ⟨⟨h1, h2, h3, h4, h5, h6, h7, h8, h9, h10, h11, h12, h13, h14, h15⟩, hports⟩

theorem afterRelease.portsButWaits (hports : portsButWaits v t) : portsButWaits u t := by
  rw [← k.rest] at hports
  exact hports

end

end

/-! ### Strikes (R119) -/

/-- R119: from the state `v` the member `m` at a position of the entry `e` at `h` is struck: a first or second strike is
counted there and changes nothing else, the third loses the member. -/
structure strikeFollows (v t : State) (h : Handle) (e : Entry) (pos : Position) (m : Member) (cause : LostCause) : Prop where
  frame : workFrame v t
  others : onlyEntry v t h
  counts : m.strikes < 2 →
    t.entry? h = some { e with members := e.members.set pos { m with strikes := m.strikes + 1 } }
      ∧ portsButWaits v t ∧ { v with entries := t.entries, ports := t.ports } = t
  loses : 2 ≤ m.strikes → lossFollows v t h
    { e with members := e.members.set pos (Member.lostNow cause { m with strikes := 3 }) } (v.code e.profile).m

section

variable {s x : State} {h : Handle} {e : Entry} {pos : Position} {m : Member} {cause : LostCause} {i : Fin 18}

theorem State.strike_follows (he : x.entry? h = some e) (hm : e.members[pos]? = some m) (hheld : m.state = .held)
    (hc : e.state ≠ .closed) (hs : e.submitters ≠ 0) (hthird : 2 ≤ m.strikes) : lossFollows x (x.strike h pos cause) h
      { e with members := e.members.set pos (Member.lostNow cause { m with strikes := 3 }) } (x.code e.profile).m := by
  have hlose := Member.lose_held (m := { m with strikes := 3 }) hheld cause
  rw [State.strike_loses he hm (by omega) cause, hlose]
  exact State.afterLoss_follows hm (by simp [Member.lostNow]) hc hs

theorem Kept.countBefore (s : State) (i : Fin 18) : Kept (s.count i) s :=
  ⟨⟨rfl, rfl, rfl, rfl, rfl, rfl, rfl, rfl, rfl, rfl, rfl, rfl, rfl, rfl, fun _ => rfl, fun _ => rfl, id, id⟩, rfl⟩

/-- An event that strikes a member in the state `x` and counts the strike's occasion. -/
theorem event_strikes (hreset : s.inReset = false) (he : x.entry? h = some e) (hm : e.members[pos]? = some m)
    (hheld : m.state = .held) (hc : e.state ≠ .closed) (hs : e.submitters ≠ 0) (hi : i ≠ 3) :
    ∃ t, event s true ((x.strike h pos cause).count i).refreshWaits = .next t
      ∧ strikeFollows (countRises s (x.count i)) t h e pos m cause := by
  have hkept : Kept (x.count i) ((x.strike h pos cause).count i) :=
    ((Kept.countBefore x i).trans (Kept.strike ..)).trans (Kept.count ..)
  obtain ⟨t, hexec, hframe, hrest, htables⟩ := event_worked hreset hkept
  have hv := rest_countRises s (x.count i)
  have htablesv := tables_countRises s (x.count i)
  generalize countRises s (x.count i) = v at hframe hv htablesv ⊢
  have hentry : ∀ j, v.entry? j = x.entry? j := fun j => by
    rw [← hv]
    rfl
  have hcode : v.code e.profile = x.code e.profile := by
    rw [← hv]
    rfl
  refine ⟨t, hexec, ?_⟩
  rcases Nat.lt_or_ge m.strikes 2 with hfew | hthird
  · rw [State.strike_counts he hm (by omega)] at hrest htables
    refine ⟨hframe, fun j hj => ?_, fun _ => ⟨?_, ?_, ?_⟩, fun hthird => absurd hfew (Nat.not_lt.mpr hthird)⟩
    · rw [hentry, ← hrest]
      exact (State.entry_setEntry ..).trans (if_neg hj)
    · rw [← hrest]
      exact State.entry_put ..
    · exact hframe.portsButWaits fun q =>
        ⟨(htables q).1.trans (htablesv q).1.symm, (htables q).2.trans (htablesv q).2.symm⟩
    · rw [← hrest, ← hv]
      rfl
  · have hstrike : lossFollows x (x.strike h pos cause) h _ (x.code e.profile).m :=
      State.strike_follows he hm hheld hc hs hthird
    have hloss := (hstrike.count hi).beside hv htablesv hrest htables
    rw [← hcode] at hloss
    exact ⟨hframe, hloss.others, fun hfew => absurd hthird (Nat.not_le.mpr hfew), fun _ => hloss⟩

end

/-! ### Expiry (R118) -/

section

variable {s : State} {p : PortId} {tag : FetchTag} {f : Fetch}

theorem State.usesFetch_iff (s : State) (f : Fetch) :
    s.usesFetch f = true ↔ f.cell ≠ none ∧ usesMemberNow s f.handle f.position := by
  rw [State.usesFetch, Bool.and_eq_true, State.usesMember_iff, Option.isSome_iff_ne_none]

theorem exec_fetchExpiry (hf : (s.port p).fetches[tag] = some f) (htime : s.timebase = f.expiry) :
    exec (.fetchExpiry p tag) s = event s true (s.expire p tag f) := by
  have hexec : exec (.fetchExpiry p tag) s = execFetchExpiry p tag s := rfl
  have hfetch : (s.port p).fetch tag = some f := hf
  simp only [hexec, execFetchExpiry, hfetch, htime, deadlineReached_self]

/-- A slot that empties raises no event line. -/
theorem countRises_emptySlotAt (s : State) (p : PortId) (tag : FetchTag) (f : Fetch) (i : Fin 18) :
    countRises s ((s.emptySlotAt p tag f).count i) = (s.emptySlotAt p tag f).count i := by
  refine countRises_eq (fun q => Port.risen_of_line_eq ?_) rfl
  have hport := (Kept.emptySlotAt s p tag f).port q
  change ((s.emptySlotAt p tag f).port q).line = (s.port q).line
  rw [hport]
  rfl

end

/-- Settles O37: `State.expire` empties the slot and, where the entry uses the member, strikes it (`event_strikes`). -/
theorem fetchExpiryEmptiesSlot : Obligations.FetchExpiryEmptiesSlot := by
  intro s p tag f hreset hf htime q emptied
  have hreleases := s.emptySlotAt_releases p tag f
  rw [exec_fetchExpiry hf htime]
  refine ⟨fun hunused => ⟨s.emptySlotAt p tag f, ?_, hreleases⟩, fun c e m hcell huses he hm hc hs => ?_⟩
  · have hnot : ¬s.usesFetch f = true := by
      rw [State.usesFetch_iff]
      exact fun ⟨hcell, huses⟩ => hunused.elim hcell fun hn => hn huses
    rw [State.expire, if_neg hnot]
    exact event_planned hreset rfl (Kept.emptySlotAt ..).toPlanned
  · intro counted struck lost pm
    have hused : s.usesFetch f = true := (s.usesFetch_iff f).mpr ⟨by simp [hcell], huses⟩
    rw [State.expire, if_pos hused]
    obtain ⟨t, hexec, hstrike⟩ := event_strikes (s := s) (x := s.emptySlotAt p tag f) (cause := .unresponsive) (i := 10)
      hreset ((s.entry_emptySlotAt p tag f f.handle).trans he) hm (huses.held he hm) hc hs (by decide)
    rw [countRises_emptySlotAt] at hstrike
    have hafter : afterRelease counted ((s.emptySlotAt p tag f).count 10) (fun k => f.cell = some k) := by
      refine hreleases.rebase rfl rfl rfl ?_
      rw [← hreleases.rest]
      rfl
    have hgiven : (fun k => f.cell = some k) = (· = c) := funext fun k => by
      rw [hcell, Option.some.injEq]
      exact propext eq_comm
    have hcode : ((s.emptySlotAt p tag f).count 10).code e.profile = s.code e.profile := hafter.code e.profile
    refine ⟨t, (s.emptySlotAt p tag f).count 10, hexec, hafter.workFrame hstrike.frame, hafter.onlyEntry hstrike.others,
      hgiven ▸ hafter, fun hfew => ?_, fun hthird => ?_, fun hthird => ?_⟩
    · obtain ⟨hentry, hports, hrest⟩ := hstrike.counts hfew
      exact ⟨hentry, hafter.portsButWaits hports, hrest⟩
    · have hloss := hstrike.loses hthird
      rw [hcode] at hloss
      exact hloss.lives
    · have hloss := hstrike.loses hthird
      rw [hcode] at hloss
      exact hloss.closes

end Sys2Proof.Machine
end

section
/-! PROOFS. The ends of the transfers of offers (O40, O41). -/

namespace Sys2Proof.Machine

open Sys2Proof.Config

section

variable {s t z : State} {x : Transfer} {data : List Byte} {h : Handle} {e : Entry}

/-! ### The transfer that ends (R114) -/

/-- The state without the transfer of a cell. -/
def State.withoutTransfer (s : State) (x : Transfer) : State :=
  { s with transfers := s.transfers.filter fun (y : Transfer) => decide (y.cell ≠ x.cell) }

/-- The transfer over and its OFFER answered, its cell still held. -/
def State.transferAnswered (s : State) (x : Transfer) (st : Status) : State :=
  (s.withoutTransfer x).respond x.port 4 x.tag st .none

theorem State.usesChunk_iff (s : State) (x : Transfer) : s.usesChunk x = true ↔
    (∃ e, s.entry? x.handle = some e ∧ (e.state = .active ∨ e.state = .planning)) ∧ s.park ≠ some x.handle
      ∧ usesMemberNow s x.handle x.position := by
  rw [State.usesChunk, Bool.and_eq_true, Bool.and_eq_true, State.usesMember_iff, bne_iff_ne, and_assoc]
  refine and_congr ?_ Iff.rfl
  cases s.entry? x.handle with
  | none => simp
  | some e => simp

theorem exec_offerTransferEnd (hfind : (s.transfers.find? fun y => decide (y.cell = x.cell)) = some x)
    (hlength : data.length = x.length) :
    exec (.offerTransferEnd x.cell data) s = event s true (s.endTransfer x data) := by
  have hexec : exec (.offerTransferEnd x.cell data) s = execOfferTransferEnd x.cell data s := rfl
  rw [hexec, execOfferTransferEnd, hfind]
  exact congrArg (fun a => event s a (s.endTransfer x data)) (decide_eq_true hlength)

theorem State.endTransfer_dropped (ha : x.answers = false) :
    s.endTransfer x data = ((s.withoutTransfer x).release x.cell).removeIfDone x.handle := if_pos ha

section

variable (ha : x.answers = true)

include ha

theorem State.endTransfer_gone (hu : ¬(s.withoutTransfer x).usesChunk x = true) : s.endTransfer x data =
    (((s.withoutTransfer x).release x.cell).respond x.port 4 x.tag .gone .none).removeIfDone x.handle :=
  (if_neg (ne_false_of_eq_true ha)).trans (if_pos (Bool.eq_false_iff.mpr hu))

variable (hu : (s.withoutTransfer x).usesChunk x = true)

include hu

theorem State.endTransfer_verified (hsum : crc32c data = x.checksum) :
    s.endTransfer x data = (s.withoutTransfer x).verify x data :=
  (if_neg (ne_false_of_eq_true ha)).trans ((if_neg (ne_false_of_eq_true hu)).trans (if_pos hsum))

theorem State.endTransfer_badsum (hsum : crc32c data ≠ x.checksum) :
    s.endTransfer x data = (s.withoutTransfer x).badsum x :=
  (if_neg (ne_false_of_eq_true ha)).trans ((if_neg (ne_false_of_eq_true hu)).trans (if_neg hsum))

end

/-- R165, R167: the ports once the response to the OFFER is placed. -/
theorem State.port_answered_risen (s : State) (x : Transfer) (st : Status) (k : PortId) :
    Port.risen (s.port k) ((s.transferAnswered x st).port k)
      = (s.setPort x.port ((s.port x.port).received (.response 4 x.tag st .none))).port k := by
  have hport : ∀ j, (s.withoutTransfer x).port j = s.port j := fun _ => rfl
  rw [State.transferAnswered, port_respond, State.port_setPort, hport, hport]
  by_cases hk : k = x.port
  · rw [if_pos hk, if_pos hk, hk]
    exact Port.risen_place _ rfl rfl rfl
  · rw [if_neg hk, if_neg hk]
    exact Port.risen_of_line_eq rfl

/-! ### The removal of what owes nothing (R63) -/

theorem State.rest_removeIfDone (s : State) (h : Handle) :
    { s with entries := (s.removeIfDone h).entries, profiles := (s.removeIfDone h).profiles } = s.removeIfDone h := by
  unfold State.removeIfDone
  split
  · split <;> rfl
  · rfl

theorem State.removeIfDone_absent (he : s.entry? h = none) : s.removeIfDone h = s := by
  rw [State.removeIfDone, he]

theorem State.removeIfDone_others (hr : s.rising) (h : Handle) : onlyEntry s (s.removeIfDone h) h := by
  cases he : s.entry? h with
  | none =>
    rw [State.removeIfDone_absent he]
    exact fun _ _ => rfl
  | some e =>
    obtain ⟨-, hothers, -⟩ := State.removeIfDone_spec hr he
    exact hothers

/-- R63, R114: the step that ends a transfer by the release of its cell and the removal of what owes nothing, a response
perhaps placed between them. -/
theorem State.removed_after {v : State} {given : CellId → Prop} (hv : afterRelease (s.withoutTransfer x) v given)
    (hz : { v with ports := z.ports } = z) (ht : t = countRises s (z.removeIfDone x.handle)) :
    (∀ k, t.port k = Port.risen (s.port k) (z.port k))
      ∧ { v with ports := t.ports, entries := t.entries, profiles := t.profiles } = t
      ∧ (s.rising → onlyEntry s t x.handle ∧ ∀ e, s.entry? x.handle = some e → staysUnlessDone s t x.handle e) := by
  have hentries : z.entries = s.entries := by
    rw [← hz, ← hv.rest]
    rfl
  have hprofiles : z.profiles = s.profiles := by
    rw [← hz, ← hv.rest]
    rfl
  have hremoved := z.rest_removeIfDone x.handle
  have hrest := rest_countRises s (z.removeIfDone x.handle)
  have hport := port_countRises s (z.removeIfDone x.handle)
  rw [← ht] at hrest hport
  have hentry : ∀ j, t.entry? j = (z.removeIfDone x.handle).entry? j := fun j => by
    rw [← hrest]
    rfl
  refine ⟨fun k => ?_, ?_, fun hr => ?_⟩
  · rw [hport, ← hremoved]
    rfl
  · rw [← hrest, ← hremoved, ← hz]
  · have hrz : z.rising := by rwa [State.rising, hentries]
    have hsame : ∀ j, z.entry? j = s.entry? j := fun j => by rw [State.entry?, State.entry?, hentries]
    refine ⟨fun j hj => ?_, fun e he => ?_⟩
    · rw [hentry, State.removeIfDone_others hrz x.handle j hj, hsame]
    · obtain ⟨hstays, -⟩ := State.removeIfDone_spec hrz ((hsame x.handle).trans he)
      have howes : owesNothing t x.handle e = owesNothing (z.removeIfDone x.handle) x.handle e := by
        rw [← hrest]
        rfl
      have hprofilest : t.profiles = (z.removeIfDone x.handle).profiles := by rw [← hrest]
      unfold staysUnlessDone State.profile at hstays ⊢
      rwa [howes, hprofilest, hentry, ← hprofiles]

end

/-- Settles O40, one lemma of `State.endTransfer` per case of R114, with `State.removed_after` where the cell is released. -/
theorem offerTransferEndsUnusedOrHeld : Obligations.OfferTransferEndsUnusedOrHeld := by
  intro s x data hreset hfind hlength ended uses told
  have huses : (s.withoutTransfer x).usesChunk x = true ↔ uses := (s.withoutTransfer x).usesChunk_iff x
  have hreleases := (s.withoutTransfer x).release_after x.cell
  rw [exec_offerTransferEnd hfind hlength, event_next hreset rfl]
  refine ⟨fun hunused => ?_, fun ha hu hsum => ?_⟩
  · by_cases ha : x.answers = true
    · have hnot : ¬(s.withoutTransfer x).usesChunk x = true := mt huses.mp (hunused.resolve_left (by simp [ha]))
      have hz := rest_respond ((s.withoutTransfer x).release x.cell) x.port 4 x.tag .gone .none
      rw [State.endTransfer_gone ha hnot]
      obtain ⟨hports, hrest, hentries⟩ := State.removed_after hreleases hz rfl
      refine ⟨_, _, rfl, fun k => ?_, hreleases, hrest, hentries⟩
      have hanswered := s.port_answered_risen x .gone k
      rw [State.transferAnswered, port_respond, State.port_setPort] at hanswered
      rw [hports, port_respond, hreleases.port, hreleases.port, hanswered, if_pos ha]
      by_cases hk : k = x.port
      · subst hk
        rw [if_pos rfl]
        exact (if_pos rfl).symm
      · rw [if_neg hk]
        exact (if_neg hk).symm
    · rw [State.endTransfer_dropped (Bool.eq_false_iff.mpr ha)]
      obtain ⟨hports, hrest, hentries⟩ := State.removed_after hreleases (z := (s.withoutTransfer x).release x.cell) rfl rfl
      refine ⟨_, _, rfl, fun k => ?_, hreleases, hrest, hentries⟩
      rw [hports, hreleases.port, if_neg ha]
      exact Port.risen_of_line_eq rfl
  · have htold : told .ok x.port = (s.port x.port).received (.response 4 x.tag .ok .none) := if_pos rfl
    rw [State.endTransfer_verified ha (huses.mpr hu) hsum, htold]
    exact congrArg _ (countRises_eq (s.port_answered_risen x .ok) rfl)

/-! ### The checksums differ (R116, R32) -/

section

variable {s : State} {x : Transfer} {e : Entry} {m : Member} {n : NodeId}

/-- R116: the transfer over, its OFFER answered BADSUM, its cell released and the failure charged to the node. -/
def State.badsumCharged (s : State) (x : Transfer) (n : NodeId) : State :=
  ((s.transferAnswered x .badsum).release x.cell).chargeFailure n

theorem State.badsum_eq (he : s.entry? x.handle = some e) (hm : e.members[x.position]? = some m) :
    (s.withoutTransfer x).badsum x =
      (((s.badsumCharged x m.node).strike x.handle x.position .corrupt).count 9).refreshWaits := by
  have hreleases := (s.transferAnswered x .badsum).release_after x.cell
  have hnode : ((s.transferAnswered x .badsum).release x.cell).memberNode x.handle x.position = some m.node := by
    have hentry := (hreleases.entry x.handle).trans he
    rw [State.memberNode, hentry, Option.bind_some, hm, Option.map_some]
  rw [State.transferAnswered] at hnode
  simp only [State.badsum, hnode]
  rfl

theorem State.nodes_modNode (s : State) (n : NodeId) (f : Node → Node) :
    (s.modNode n f).nodes = Vector.ofFn fun k => if k = n then f (s.node k) else s.node k := by
  refine Vector.ext fun i hi => ?_
  have hread := State.node_setNode s n ⟨i, hi⟩ (f (s.node n))
  rw [Vector.getElem_ofFn]
  refine Eq.trans hread ?_
  by_cases hin : (⟨i, hi⟩ : NodeId) = n
  · rw [if_pos hin, if_pos hin, hin]
  · rw [if_neg hin, if_neg hin]

/-- R32: the failure is charged to a node that is UP or SUSPECT. -/
theorem State.badsumCharged_eq (hn : (s.node n).state = .up ∨ (s.node n).state = .suspect) :
    { s.transferAnswered x .badsum with
      nodes := Vector.ofFn fun k =>
        if k = n then { s.node k with failures := bump 255 (s.node k).failures } else s.node k
      cells := ((s.transferAnswered x .badsum).release x.cell).cells
      attempt := ((s.transferAnswered x .badsum).release x.cell).attempt } = s.badsumCharged x n := by
  have hreleases := (s.transferAnswered x .badsum).release_after x.cell
  have hnode : ∀ k, ((s.transferAnswered x .badsum).release x.cell).node k = s.node k := fun k => by
    rw [← hreleases.rest]
    rfl
  have hserves : (((s.transferAnswered x .badsum).release x.cell).node n).state.serves = true := by
    rw [hnode]
    obtain hn | hn := hn <;> rw [hn] <;> rfl
  have hnodes := ((s.transferAnswered x .badsum).release x.cell).nodes_modNode n
    fun y => { y with failures := bump 255 y.failures }
  simp only [hnode] at hnodes
  rw [State.badsumCharged, State.chargeFailure, if_pos hserves, ← hnodes, ← hreleases.rest]
  rfl

end

/-- Settles O41: the strike is `event_strikes`, from the state in which the cell is released and the failure charged. -/
theorem badChecksumStrikesMember : Obligations.BadChecksumStrikesMember := by
  intro s x data e m hreset hfind hlength ha he hstate hpark huses hm hs hsum charged counted struck lost pm hnode
  have hchunk : (s.withoutTransfer x).usesChunk x = true :=
    ((s.withoutTransfer x).usesChunk_iff x).mpr ⟨⟨e, he, hstate⟩, hpark, huses⟩
  have hc : e.state ≠ .closed := by
    rcases hstate with hstate | hstate <;> rw [hstate] <;> decide
  have hcharged := State.badsumCharged_eq (x := x) hnode
  have hentry : (s.badsumCharged x m.node).entry? x.handle = some e := by
    rw [← hcharged]
    exact he
  obtain ⟨t, hexec, hstrike⟩ := event_strikes (s := s) (x := s.badsumCharged x m.node) (cause := .corrupt) (i := 9)
    hreset hentry hm (huses.held he hm) hc hs (by decide)
  have hv : { counted with
      cells := ((s.transferAnswered x .badsum).release x.cell).cells
      attempt := ((s.transferAnswered x .badsum).release x.cell).attempt }
      = countRises s ((s.badsumCharged x m.node).count 9) := by
    rw [← hcharged]
    refine (countRises_eq (fun k => ?_) ?_).symm
    · have hanswered := s.port_answered_risen x .badsum k
      simp only [State.port, State.count_ports] at hanswered ⊢
      exact hanswered
    · rfl
  have hafter : afterRelease counted (countRises s ((s.badsumCharged x m.node).count 9)) (· = x.cell) :=
    ((s.transferAnswered x .badsum).release_after x.cell).rebase rfl rfl rfl hv
  generalize countRises s ((s.badsumCharged x m.node).count 9) = v at hstrike hafter
  have hcode : v.code e.profile = s.code e.profile := hafter.code e.profile
  rw [exec_offerTransferEnd hfind hlength, State.endTransfer_badsum ha hchunk hsum, State.badsum_eq he hm]
  refine ⟨t, v, hexec, hafter.workFrame hstrike.frame, hafter.onlyEntry hstrike.others, hafter, fun hfew => ?_,
    fun hthird => ?_, fun hthird => ?_⟩
  · obtain ⟨hstruck, hports, hrest⟩ := hstrike.counts hfew
    exact ⟨hstruck, hafter.portsButWaits hports, hrest⟩
  · have hloss := hstrike.loses hthird
    rw [hcode] at hloss
    exact hloss.lives
  · have hloss := hstrike.loses hthird
    rw [hcode] at hloss
    exact hloss.closes

end Sys2Proof.Machine
end

section
/-! PROOFS. The dispatch of a pass (O42). -/

namespace Sys2Proof.Machine

open Sys2Proof.Config

/-! ### The lane, the bank and the chunks (R127, R130, R131) -/

section

variable {s : State} {l : LaneId} {h : Handle} {e : Entry} {pl : Plan} {d : Offset} {k : Key} {b : Bank}

theorem State.idleLane_eq_none (hbusy : ∀ j, s.lane j ≠ none) : s.idleLane = none := by
  simp [State.idleLane, hbusy]

/-- R130: the lane that takes the pass. -/
theorem State.idleLane_eq_some (hidle : s.lane l = none) (hlower : ∀ j < l, s.lane j ≠ none) : s.idleLane = some l := by
  fin_cases l
  · have h0 : s.lane 0 = none := hidle
    simp [State.idleLane, h0]
  · have h0 : s.lane 0 ≠ none := hlower 0 (by decide)
    have h1 : s.lane 1 = none := hidle
    simp [State.idleLane, h0, h1]

theorem Bank.rowOf_eq (hk : b.key = some k) (pos : Position) : b.rowOf pos = b.rows.getD (k.targets.idxOf pos) [] := by
  simp only [Bank.rowOf, hk]

theorem Bank.checkRow_eq (hk : b.key = some k) : b.checkRow = b.rows.getD k.targets.length [] := by
  simp only [Bank.checkRow, hk]

theorem State.planBank_eq {i : BankId} (hi : pl.bank = some i) : s.planBank pl = s.bank i := by
  simp only [State.planBank, hi]

/-- R131: the cell holds the chunk of a position at an offset for an entry. -/
def State.holdsChunk (s : State) (h : Handle) (d : Offset) (pos : Position) (c : CellId) : Prop :=
  ∃ x v, s.cell c = some x ∧ x.owner = h ∧ x.use = .source pos d v

/-- R128: for every position gathered, a ready entry has a cell that holds the chunk at the decode point. -/
theorem State.sourceCell_of_held {pos : Position} (hheld : ∃ c, s.holdsChunk h d pos c) :
    ∃ c, s.sourceCell h pos d = some c ∧ s.holdsChunk h d pos c := by
  cases hc : s.sourceCell h pos d with
  | none =>
    obtain ⟨c, x, v, hx, howner, huse⟩ := hheld
    exact absurd huse ((s.sourceCell_none h pos d).mp hc c x hx howner v)
  | some c => exact ⟨c, rfl, State.sourceCell_some hc⟩

theorem forall₂_filterMap {α β : Type} {R : α → β → Prop} {f : α → Option β} {l : List α}
    (hf : ∀ a ∈ l, ∃ b, f a = some b ∧ R a b) : List.Forall₂ R l (l.filterMap f) := by
  induction l with
  | nil => exact .nil
  | cons a l ih =>
    obtain ⟨b, hb, hR⟩ := hf a List.mem_cons_self
    rw [List.filterMap_cons_some hb]
    exact .cons hR (ih fun x hx => hf x (List.mem_cons_of_mem a hx))

/-- R87: what needs an offset has a destination. -/
theorem State.needing_dest {pt : Position × Target} (hm : pt ∈ s.needing h e d) : pt.2.dest ≠ none := by
  obtain ⟨-, hneeds⟩ := List.mem_filter.mp hm
  exact ((s.targetNeeds_iff h pt.1 pt.2 d).mp hneeds).1

/-! ### The pass record (R127, R131) -/

section

variable (hheld : ∀ pos < e.members.length, ((∃ l, pl.sources = some l ∧ pos ∈ l) ∨ pl.check = some pos) →
  ∃ c, s.holdsChunk h pl.decodePoint pos c)

include hheld

theorem State.passRecord_sources {src : List Position} (outs : List PassOutput) (hsrc : pl.sources = some src)
    (hin : ∀ pos ∈ src, pos < e.members.length) :
    List.Forall₂ (s.holdsChunk h pl.decodePoint) src (s.passRecord h e pl outs).sources := by
  simp only [State.passRecord, hsrc, Option.getD_some]
  exact forall₂_filterMap fun pos hpos => State.sourceCell_of_held (hheld pos (hin pos hpos) (.inl ⟨src, hsrc, hpos⟩))

theorem State.passRecord_check {pos : Position} (outs : List PassOutput) (hcheck : pl.check = some pos)
    (hin : pos < e.members.length) : ∃ c, s.holdsChunk h pl.decodePoint pos c
      ∧ (s.passRecord h e pl outs).check = some (c, (s.planBank pl).checkRow) := by
  obtain ⟨c, hc, hholds⟩ := State.sourceCell_of_held (hheld pos hin (.inr hcheck))
  exact ⟨c, hholds, by simp [State.passRecord, hcheck, hc]⟩

end

theorem State.passRecord_unchecked (outs : List PassOutput) (hcheck : pl.check = none) :
    (s.passRecord h e pl outs).check = none := by
  simp [State.passRecord, hcheck]

/-! ### The command -/

theorem exec_passDispatch (s : State) : exec .passDispatch s = execPassDispatch s := rfl

theorem exec_passDispatch_idle (hnone : s.chosen = none ∨ ∀ j, s.lane j ≠ none) : exec .passDispatch s = .next s := by
  rw [exec_passDispatch, execPassDispatch]
  rcases hnone with hnone | hbusy
  · rw [hnone]
    split
    · next hc => cases hc
    · exact event_idle (.inr rfl)
  · rw [State.idleLane_eq_none hbusy]
    exact event_idle (.inr rfl)

/-- R131: the state after the dispatch is `s` with the cells of the outputs drawn and the pass on its lane. -/
theorem State.dispatch_eq {outs : List PassOutput} {t : State}
    (hdraw : s.drawOutputs h pl.decodePoint (s.planBank pl) (s.needing h e pl.decodePoint) = (t, outs))
    (hrest : { s with cells := t.cells } = t) :
    s.dispatch l h e pl = { s.setLane l (some (s.passRecord h e pl outs)) with cells := t.cells } := by
  simp only [State.dispatch, hdraw]
  rw [← hrest]
  rfl

theorem exec_passDispatch_dispatches {outs : List PassOutput} {t : State} (hreset : s.inReset = false)
    (hlane : s.idleLane = some l) (hchosen : s.chosen = some (h, e)) (hplan : e.plan = some pl)
    (hdraw : s.drawOutputs h pl.decodePoint (s.planBank pl) (s.needing h e pl.decodePoint) = (t, outs))
    (hrest : { s with cells := t.cells } = t) : exec .passDispatch s =
      .next { s.setLane l (some (s.passRecord h e pl outs)) with cells := t.cells } := by
  simp only [exec_passDispatch, execPassDispatch, hlane, hchosen, hplan, State.dispatch_eq hdraw hrest]
  exact event_tables hreset rfl rfl

end

/-- Settles O42: readiness is `State.ready_iff`, the choice `State.chosen_spec`, and the cells of the outputs are those of
`State.drawOutputs_spec`. -/
theorem passDispatchDrawsOutputsAndRows : Obligations.PassDispatchDrawsOutputsAndRows := by
  intro s hreset holds wanting ready
  have hready : ∀ h e, ready h e ↔ (h, e) ∈ s.entries ∧ s.ready (h, e) = true := fun h e =>
    and_congr Iff.rfl (s.ready_iff h e).symm
  refine ⟨?_, exec_passDispatch_idle, fun l h e pl b k hidle hlower hchosen hplan hbank hkey => ?_⟩
  · rw [s.chosen_none]
    refine forall₂_congr fun h e => ?_
    rw [hready, not_and, Bool.not_eq_true]
  intro d
  obtain ⟨hmem, hchosenReady, hfirst⟩ := State.chosen_spec hchosen
  refine ⟨⟨(hready h e).mpr ⟨hmem, hchosenReady⟩, fun hr hera j f hj => ?_⟩, ?_⟩
  · obtain ⟨hjmem, hjready⟩ := (hready j f).mp hj
    exact hfirst hr hera j f hjmem hjready
  obtain ⟨-, -, -, pl', hplan', -, hheld, hroom⟩ := (s.ready_iff h e).mp hchosenReady
  obtain rfl : pl = pl' := Option.some.inj (hplan.symm.trans hplan')
  have hdrawn := State.drawOutputs_spec (o := pl.decodePoint) (bank := s.planBank pl)
    (fun _ hpt => State.needing_dest hpt) hroom
  obtain ⟨t, outs, hdraw⟩ : ∃ t outs,
      s.drawOutputs h pl.decodePoint (s.planBank pl) (s.needing h e pl.decodePoint) = (t, outs) := ⟨_, _, rfl⟩
  rw [hdraw] at hdrawn
  have hexec := exec_passDispatch_dispatches hreset (State.idleLane_eq_some hidle hlower) hchosen hplan hdraw hdrawn.rest
  have hplanBank := State.planBank_eq (s := s) hbank
  refine ⟨_, s.passRecord h e pl outs, hexec, ?_, fun j hj => ?_, rfl, rfl, rfl, rfl, rfl, ?_, ?_, ?_, hdrawn.positions,
    hdrawn.distinct, fun o ho => ?_, hdrawn.floorFirst, hdrawn.others⟩
  · exact (State.lane_setLane s l l _).trans (if_pos rfl)
  · exact (State.lane_setLane s l j _).trans (if_neg hj)
  · exact fun src hsrc hin => State.passRecord_sources hheld outs hsrc hin
  · exact State.passRecord_unchecked outs
  · intro pos hcheck hin
    rw [← Bank.checkRow_eq hkey, ← hplanBank]
    exact State.passRecord_check hheld outs hcheck hin
  · obtain ⟨hrow, htarget, hcell⟩ := hdrawn.output o ho
    rw [← Bank.rowOf_eq hkey, ← hplanBank]
    exact ⟨hrow, htarget, hcell⟩

end Sys2Proof.Machine
end

section
/-! PROOFS. The outputs of a completing pass: written, and then queued or released (R132, R134 to R136). -/

namespace Sys2Proof.Machine

open Sys2Proof.Config

/-! ### The bytes (R16, R132, R134) -/

theorem State.outputChunk_eq (s : State) (x : Pass) (row : List Byte) : s.outputChunk x row = passBytes s x row := by
  simp [State.outputChunk, applyRow, passBytes, State.sourceChunks, gfDot, List.map_map, Function.comp_def]

theorem State.checkAgrees_iff (s : State) (x : Pass) : s.checkAgrees x = true ↔ passAgrees s x := by
  unfold State.checkAgrees passAgrees
  cases x.check with
  | none => simp
  | some k => simp [State.outputChunk_eq, Prod.ext_iff]

/-! ### The outputs written (R132) -/

/-- R135: the state with the lane of a pass IDLE, the pass counted, and the cells given. -/
def State.passOver (s : State) (l : LaneId) (cells : Vector (Option Cell) 512) : State :=
  { s with
    lanes := s.lanes.set l none
    counters := s.counters.set 15 (s.counters[15] + 1)
    cells := cells }

/-- R132: the cells once every output of a pass is written. -/
def State.writtenCells (s : State) (x : Pass) : Vector (Option Cell) 512 :=
  Vector.ofFn fun c => (x.outputs.find? fun o => decide (o.cell = c)).elim (s.cell c) fun o =>
    (s.cell c).map fun y => { y with data := passBytes s x o.row }

theorem rest_foldl_modCell (g : PassOutput → Cell → Cell) (outs : List PassOutput) (t : State) :
    { t with cells := (outs.foldl (fun t o => t.modCell o.cell (g o)) t).cells }
      = outs.foldl (fun t o => t.modCell o.cell (g o)) t := by
  induction outs generalizing t with
  | nil => rfl
  | cons o outs ih =>
    rw [List.foldl_cons, ← ih]
    rfl

/-- A write to each of distinct cells leaves in each what its own output writes. -/
theorem cell_foldl_modCell (g : PassOutput → Cell → Cell) {outs : List PassOutput}
    (hcells : (outs.map PassOutput.cell).Nodup) (t : State) (c : CellId) :
    (outs.foldl (fun t o => t.modCell o.cell (g o)) t).cell c =
      (outs.find? fun o => decide (o.cell = c)).elim (t.cell c) fun o => (t.cell c).map (g o) := by
  induction outs generalizing t with
  | nil => rfl
  | cons o outs ih =>
    obtain ⟨hnew, hcells'⟩ := List.nodup_cons.mp hcells
    have hwrite : (t.modCell o.cell (g o)).cell c = if c = o.cell then (t.cell o.cell).map (g o) else t.cell c :=
      State.cell_setCell ..
    rw [List.foldl_cons, ih hcells', hwrite]
    by_cases hc : o.cell = c
    · have hlater : (outs.find? fun o' => decide (o'.cell = c)) = none := List.find?_eq_none.mpr fun o' ho' hcell =>
        hnew (List.mem_map.mpr ⟨o', ho', (of_decide_eq_true hcell).trans hc.symm⟩)
      rw [hlater, List.find?_cons_of_pos (by simpa using hc), if_pos hc.symm, hc]
      rfl
    · rw [List.find?_cons_of_neg (by simpa using hc), if_neg (Ne.symm hc)]

theorem State.getElem_writtenCells (s : State) (x : Pass) (c : CellId) : (s.writtenCells x)[c] =
    (x.outputs.find? fun o => decide (o.cell = c)).elim (s.cell c) fun o =>
      (s.cell c).map fun y => { y with data := passBytes s x o.row } := Vector.getElem_ofFn c.isLt

section

variable {s : State} {x : Pass} (hcells : (x.outputs.map PassOutput.cell).Nodup)

include hcells

/-- R132, R135: how a completion begins. -/
theorem State.writeOutputs_eq (l : LaneId) :
    ((s.writeOutputs x).setLane l none).count 15 = s.passOver l (s.writtenCells x) := by
  have hrest : { s with cells := (s.writeOutputs x).cells } = s.writeOutputs x := rest_foldl_modCell _ x.outputs s
  have hwritten : (s.writeOutputs x).cells = s.writtenCells x := Vector.ext fun i hi => by
    have hcell := cell_foldl_modCell (fun o y => { y with data := s.outputChunk x o.row }) hcells s ⟨i, hi⟩
    have hto := s.getElem_writtenCells x ⟨i, hi⟩
    simp only [← State.outputChunk_eq] at hto
    exact hcell.trans hto.symm
  rw [← hwritten, ← hrest]
  rfl

variable {o : PassOutput} (ho : o ∈ x.outputs)

include ho

theorem State.getElem_writtenCells_output :
    (s.writtenCells x)[o.cell] = (s.cell o.cell).map fun y => { y with data := passBytes s x o.row } := by
  have hfind : (x.outputs.find? fun o' => decide (o'.cell = o.cell)) = some o := by
    cases hfind : x.outputs.find? fun o' => decide (o'.cell = o.cell) with
    | none => exact absurd (List.find?_eq_none.mp hfind o ho) (by simp)
    | some o' =>
      have hcell : o'.cell = o.cell := by simpa using List.find?_some hfind
      rw [List.inj_on_of_nodup_map hcells (List.mem_of_find?_eq_some hfind) ho hcell]
  rw [s.getElem_writtenCells, hfind, Option.elim_some]

end

/-! ### One output joins a queue or is released (R133, R136) -/

theorem keptOn_eq_some {s : State} {x : Pass} {e : Entry} {q : PortId} {o : PassOutput} {y : Output} :
    keptOn s x e q o = some y ↔ ∃ t n, e.target? o.position = some t ∧ t.dest = some n ∧ (s.node n).route = some q
      ∧ s.targetNeeds x.handle o.position t x.offset = true
      ∧ ⟨x.handle, x.stripe, o.position, x.offset, x.length, crc32c (passBytes s x o.row), o.cell, n⟩ = y := by
  unfold keptOn
  cases e.target? o.position with
  | none => simp
  | some t =>
    cases ht : t.dest with
    | none => simp [ht]
    | some n => simp [ht, and_assoc]

/-- R136, R133: what becomes of an output, in a state that agrees with `s` on all that is looked at. -/
theorem State.settleOutput_cases {s t : State} {x : Pass} {e : Entry} {o : PassOutput} (he : t.entry? x.handle = some e)
    (hnodes : t.nodes = s.nodes) (hbytes : t.bytesOf o.cell = passBytes s x o.row)
    (hneeds : ∀ y, t.targetNeeds x.handle o.position y x.offset = s.targetNeeds x.handle o.position y x.offset) :
    ((∀ q, keptOn s x e q o = none) ∧ t.settleOutput x o = t.release o.cell)
    ∨ ∃ p y, keptOn s x e p o = some y ∧ (∀ q, q ≠ p → keptOn s x e q o = none)
      ∧ t.settleOutput x o = t.modPort p fun q => { q with outputs := q.outputs ++ [y] } := by
  have hnode : ∀ n, t.node n = s.node n := fun n => by rw [State.node, State.node, hnodes]
  unfold keptOn State.settleOutput
  simp only [he, Option.bind_some, hnode, hneeds, hbytes]
  cases e.target? o.position with
  | none => exact .inl ⟨fun _ => rfl, rfl⟩
  | some y =>
    cases hd : y.dest with
    | none => simp [hd]
    | some n =>
      cases hr : (s.node n).route with
      | none => simp [hd, hr]
      | some p =>
        by_cases hn : s.targetNeeds x.handle o.position y x.offset = true
        · refine .inr ⟨p, _, by simp [hd, hr, hn]; rfl, fun q hq => ?_, by simp [hd, hr, hn]⟩
          simp [hd, hr, Ne.symm hq]
        · simp [hd, hr, hn]

/-! ### The outputs of a pass, one after another (R135 step 1) -/

/-- R135 step 1: from the completion of the pass `x` on the lane `l` in the state `s`, which writes `cells`, the outputs
listed have each joined the queue that the entry `e` has for it, or been released. -/
structure OutputsSettled (s : State) (l : LaneId) (cells : Vector (Option Cell) 512) (x : Pass) (e : Entry)
    (outs : List PassOutput) (t : State) : Prop where
  rest : { s.passOver l cells with ports := t.ports, cells := t.cells, attempt := t.attempt } = t
  port : ∀ q, t.port q = { s.port q with outputs := (s.port q).outputs ++ outs.filterMap (keptOn s x e q) }
  released : ∃ ids, (∀ c, c ∈ ids ↔ ∃ o ∈ outs, o.cell = c ∧ ∀ q, keptOn s x e q o = none)
    ∧ releases (s.passOver l cells) ids t
  causes : Causes False (s.passOver l cells) t

section

variable {s t : State} {l : LaneId} {x : Pass} {e : Entry} {outs : List PassOutput} {o : PassOutput}
  {cells : Vector (Option Cell) 512}

theorem OutputsSettled.start (s : State) (l : LaneId) (cells : Vector (Option Cell) 512) (x : Pass) (e : Entry) :
    OutputsSettled s l cells x e [] (s.passOver l cells) where
  rest := rfl
  port q := by
    rw [List.filterMap_nil, List.append_nil]
    rfl
  released := ⟨[], by simp, rfl, id⟩
  causes := Causes.of_cells rfl (by simp)

section

variable (k : OutputsSettled s l cells x e outs t)

include k

theorem OutputsSettled.entries : t.entries = s.entries := by
  rw [← k.rest]
  rfl

/-- R87: the outputs of a pass are for different targets, and none of them serves another's. -/
theorem OutputsSettled.targetNeeds (hnew : o.position ∉ outs.map PassOutput.position) (y : Target) :
    t.targetNeeds x.handle o.position y x.offset = s.targetNeeds x.handle o.position y x.offset := by
  have hdeliveries : t.deliveries = s.deliveries := by
    rw [← k.rest]
    rfl
  have hother : ∀ q, ∀ z ∈ outs.filterMap (keptOn s x e q), z.position ≠ o.position := fun q z hz hpos => by
    obtain ⟨o', ho', hkept⟩ := List.mem_filterMap.mp hz
    obtain ⟨_, _, -, -, -, -, rfl⟩ := keptOn_eq_some.mp hkept
    exact hnew (List.mem_map.mpr ⟨o', ho', hpos⟩)
  rw [Bool.eq_iff_iff, State.targetNeeds_iff, State.targetNeeds_iff, hdeliveries]
  refine and_congr_right' (and_congr_right' (and_congr (forall_congr' fun q => ?_) Iff.rfl))
  rw [k.port]
  refine ⟨fun h z hz => h z (List.mem_append_left _ hz), fun h z hz => ?_⟩
  rcases List.mem_append.mp hz with hz | hz
  · exact h z hz
  · exact fun ⟨_, hpos, _⟩ => hother q z hz hpos

/-- R132: the bytes of an output still to be treated. -/
theorem OutputsSettled.bytesOf (hnew : o.cell ∉ outs.map PassOutput.cell) :
    t.bytesOf o.cell = (s.passOver l cells).bytesOf o.cell := by
  obtain ⟨ids, hids, hreleases⟩ := k.released
  have hkeeps : o.cell ∉ ids := fun hmem => by
    obtain ⟨o', ho', hcell, -⟩ := (hids o.cell).mp hmem
    exact hnew (List.mem_map.mpr ⟨o', ho', hcell⟩)
  rw [State.bytesOf, State.bytesOf, hreleases.other hkeeps]

theorem OutputsSettled.release (hnone : ∀ q, keptOn s x e q o = none) :
    OutputsSettled s l cells x e (outs ++ [o]) (t.release o.cell) := by
  obtain ⟨ids, hids, hreleases⟩ := k.released
  have hcells := CellsOnly.release t o.cell
  have hentries : t.entries = (s.passOver l cells).entries := k.entries
  refine ⟨?_, fun q => ?_, ⟨ids ++ [o.cell], fun c => ?_, hreleases.append (t.releaseAll_spec [o.cell]) hentries⟩,
    (k.causes.trans (t.release_causes o.cell)).congr (by simp)⟩
  · rw [← hcells, ← k.rest]
  · rw [List.filterMap_append, List.filterMap_cons_none (hnone q), List.filterMap_nil, List.append_nil, ← k.port,
      ← hcells]
    rfl
  · rw [List.mem_append, hids, List.mem_singleton]
    constructor
    · rintro (⟨o', ho', hc⟩ | rfl)
      · exact ⟨o', List.mem_append_left _ ho', hc⟩
      · exact ⟨o, by simp, rfl, hnone⟩
    · rintro ⟨o', ho', rfl, hc⟩
      rcases List.mem_append.mp ho' with ho' | ho'
      · exact .inl ⟨o', ho', rfl, hc⟩
      · exact .inr (by rw [List.mem_singleton.mp ho'])

theorem OutputsSettled.join {p : PortId} {y : Output} (hkept : keptOn s x e p o = some y)
    (hother : ∀ q, q ≠ p → keptOn s x e q o = none) :
    OutputsSettled s l cells x e (outs ++ [o]) (t.modPort p fun q => { q with outputs := q.outputs ++ [y] }) := by
  obtain ⟨ids, hids, hreleases⟩ := k.released
  refine ⟨?_, fun q => ?_, ⟨ids, fun c => ?_, hreleases.congr rfl rfl id rfl id⟩, k.causes.rebase rfl rfl rfl rfl⟩
  · rw [← k.rest]
    rfl
  · rw [port_modPort, List.filterMap_append]
    by_cases hq : q = p
    · subst hq
      rw [if_pos rfl, List.filterMap_cons_some hkept, List.filterMap_nil, k.port, List.append_assoc]
    · rw [if_neg hq, List.filterMap_cons_none (hother q hq), List.filterMap_nil, List.append_nil, k.port]
  · rw [hids]
    constructor
    · rintro ⟨o', ho', hc⟩
      exact ⟨o', List.mem_append_left _ ho', hc⟩
    · rintro ⟨o', ho', rfl, hnone⟩
      rcases List.mem_append.mp ho' with ho' | ho'
      · exact ⟨o', ho', rfl, hnone⟩
      · obtain rfl := List.mem_singleton.mp ho'
        exact absurd (hnone p) (by simp [hkept])

/-- R136, R133: the next output is treated as it would be first. -/
theorem OutputsSettled.step (he : s.entry? x.handle = some e) (hposition : o.position ∉ outs.map PassOutput.position)
    (hcell : o.cell ∉ outs.map PassOutput.cell) (hbytes : (s.passOver l cells).bytesOf o.cell = passBytes s x o.row) :
    OutputsSettled s l cells x e (outs ++ [o]) (t.settleOutput x o) := by
  have het : t.entry? x.handle = some e := by rw [State.entry?, k.entries, ← State.entry?, he]
  have hnodes : t.nodes = s.nodes := by
    rw [← k.rest]
    rfl
  rcases State.settleOutput_cases het hnodes ((k.bytesOf hcell).trans hbytes) (k.targetNeeds hposition) with
    ⟨hnone, heq⟩ | ⟨p, y, hkept, hother, heq⟩
  · rw [heq]
    exact k.release hnone
  · rw [heq]
    exact k.join hkept hother

end

theorem State.settleOutputs_spec (he : s.entry? x.handle = some e)
    (hpositions : (x.outputs.map PassOutput.position).Nodup) (hcells : (x.outputs.map PassOutput.cell).Nodup)
    (hbytes : ∀ o ∈ x.outputs, (s.passOver l cells).bytesOf o.cell = passBytes s x o.row) :
    OutputsSettled s l cells x e x.outputs (x.outputs.foldl (State.settleOutput x) (s.passOver l cells)) := by
  have hall : ∀ (rest outs : List PassOutput) (t : State),
      OutputsSettled s l cells x e outs t → outs ++ rest = x.outputs →
      OutputsSettled s l cells x e x.outputs (rest.foldl (State.settleOutput x) t) := by
    intro rest
    induction rest with
    | nil => exact fun outs t k hsplit => by rwa [← hsplit, List.append_nil]
    | cons o rest ih =>
      intro outs t k hsplit
      have ho : o ∈ x.outputs := by simp [← hsplit]
      have hnew : ∀ {β : Type} {f : PassOutput → β}, (x.outputs.map f).Nodup → f o ∉ outs.map f := fun hn hmem => by
        rw [← hsplit, List.map_append] at hn
        obtain ⟨-, -, hdisjoint⟩ := List.nodup_append.mp hn
        exact hdisjoint _ hmem _ (by simp) rfl
      exact ih (outs ++ [o]) _ (k.step he (hnew hpositions) (hnew hcells)
        (hbytes o ho)) (by rw [List.append_assoc]; exact hsplit)
  exact hall x.outputs [] _ (.start s l cells x e) rfl

/-! ### What is kept and what is released (R135 steps 1 and 2) -/

/-- R132, R134: the pass reads the cell. -/
def Pass.reads (x : Pass) (c : CellId) : Prop := c ∈ x.sources ∨ ∃ row, x.check = some (c, row)

theorem Pass.mem_cellsRead (x : Pass) (c : CellId) : c ∈ x.cellsRead ↔ x.reads c := by
  simp [Pass.cellsRead, Pass.reads]

/-- R135, R136, R138: the output joins a queue when its pass completes in the state. -/
def State.keepsOutput (s : State) (x : Pass) (o : PassOutput) : Prop :=
  passAgrees s x ∧ ∃ e q, s.entry? x.handle = some e ∧ e.state ≠ .closed ∧ keptOn s x e q o ≠ none

/-- R135, R138: the cell is released when the pass completes in the state. -/
def State.passReleases (s : State) (x : Pass) (c : CellId) : Prop :=
  x.reads c ∨ ∃ o ∈ x.outputs, o.cell = c ∧ ¬s.keepsOutput x o

/-- The state with the ports of another. -/
def State.withPortsOf (t s : State) : State := { t with ports := s.ports }

/-- R135 steps 1 and 2: from the completion of the pass `x` on the lane `l` in the state `s`, which writes `cells`, the
outputs that the entry `e` keeps have joined their queues, and the other cells of the pass are released. -/
structure OutputsKept (s : State) (l : LaneId) (cells : Vector (Option Cell) 512) (x : Pass) (e : Entry) (w : State) :
    Prop where
  rest : { s.passOver l cells with ports := w.ports, cells := w.cells, attempt := w.attempt } = w
  port : ∀ q, w.port q = { s.port q with outputs := (s.port q).outputs ++ x.outputs.filterMap (keptOn s x e q) }
  after : afterRelease (s.passOver l cells) (w.withPortsOf s) (s.passReleases x)

theorem State.keepsOutput_iff (he : s.entry? x.handle = some e) (hagrees : passAgrees s x) (hc : e.state ≠ .closed) :
    s.keepsOutput x o ↔ ∃ q, keptOn s x e q o ≠ none := by
  constructor
  · rintro ⟨-, e', q, he', -, hkept⟩
    obtain rfl := Option.some.inj (he.symm.trans he')
    exact ⟨q, hkept⟩
  · exact fun ⟨q, hkept⟩ => ⟨hagrees, e, q, he, hc, hkept⟩

theorem OutputsSettled.keep (k : OutputsSettled s l cells x e x.outputs t) (he : s.entry? x.handle = some e)
    (hagrees : passAgrees s x) (hc : e.state ≠ .closed) : OutputsKept s l cells x e (t.releaseAll x.cellsRead) := by
  obtain ⟨ids, hids, hreleases⟩ := k.released
  have hcells := CellsOnly.releaseAll t x.cellsRead
  have hall := hreleases.append (t.releaseAll_spec x.cellsRead) k.entries
  have hcauses := k.causes.trans (t.releaseAll_causes x.cellsRead)
  have hread := Pass.mem_cellsRead x
  generalize t.releaseAll x.cellsRead = w at hcells hall hcauses
  refine ⟨?_, fun q => ?_, ?_, ⟨ids ++ x.cellsRead, fun c => ?_, hall.congr rfl rfl id rfl id⟩, ?_⟩
  · rw [← hcells, ← k.rest]
  · rw [← k.port, ← hcells]
    rfl
  · rw [← hcells, ← k.rest]
    rfl
  · have hkeeps : ∀ o, (¬s.keepsOutput x o) = ∀ q, keptOn s x e q o = none := fun o => by
      rw [State.keepsOutput_iff he hagrees hc, not_exists]
      simp only [not_not]
    rw [List.mem_append, hids, hread, or_comm, State.passReleases]
    simp only [hkeeps]
  · exact (hcauses.rebase (s' := s.passOver l cells) (t' := w.withPortsOf s) rfl rfl rfl rfl).1.trans (by simp)

/-- R138: where nothing of a pass is kept. -/
theorem State.passDropped_after (hdrop : ∀ o, ¬s.keepsOutput x o) (u : State) :
    afterRelease u (u.passDropped x) (s.passReleases x) :=
  u.releaseAll_after _ fun c => by
    rw [List.mem_append, Pass.mem_cellsRead, or_comm, State.passReleases]
    simp [Pass.outputCells, hdrop]

/-- R136: the cells of the outputs kept are left. -/
theorem afterRelease.cell_output {u v : State} (k : afterRelease u v (s.passReleases x))
    (hcells : (x.outputs.map PassOutput.cell).Nodup) (ho : o ∈ x.outputs) (hkeeps : s.keepsOutput x o)
    (hread : ¬x.reads o.cell) : v.cell o.cell = u.cell o.cell := by
  obtain ⟨ids, hids, hreleases⟩ := k.cells
  refine hreleases.other fun hmem => ?_
  rcases (hids o.cell).mp hmem with hr | ⟨o', ho', hcell, hdrop⟩
  · exact hread hr
  · rw [List.inj_on_of_nodup_map hcells ho' ho hcell] at hdrop
    exact hdrop hkeeps

end

end Sys2Proof.Machine
end

section
/-! PROOFS. The completion of a pass: its results decided by its entry as it stands (O43). -/

namespace Sys2Proof.Machine

open Sys2Proof.Config

/-! ### The decode point (R88) -/

/-- R88: out of offsets in rising order, the first one after `d`, or else the first one of all, or else `d` itself. -/
theorem followsPoint_of_sorted {all : List Offset} (hsorted : all.Pairwise (· < ·)) (d : Offset) :
    followsPoint (· ∈ all) d ((all.find? fun o => decide (d < o)).getD (all.headD d)) := by
  cases hfind : all.find? fun o => decide (d < o) with
  | some o =>
    obtain ⟨hlt, before, after, rfl, hbefore⟩ := List.find?_eq_some_iff_append.mp hfind
    refine .inl ⟨by simp, of_decide_eq_true hlt, fun o' ho' hlt' => ?_⟩
    obtain ⟨-, hrest, -⟩ := List.pairwise_append.mp hsorted
    rcases List.mem_append.mp ho' with ho' | ho'
    · exact absurd hlt' (by simpa using hbefore o' ho')
    · rcases List.mem_cons.mp ho' with rfl | ho'
      · exact Nat.le_refl _
      · exact Nat.le_of_lt ((List.pairwise_cons.mp hrest).1 o' ho')
  | none =>
    have hnone : ∀ o ∈ all, o ≤ d := fun o ho => by simpa using List.find?_eq_none.mp hfind o ho
    cases all with
    | nil => exact .inr (.inr ⟨by simp, rfl⟩)
    | cons a rest =>
      refine .inr (.inl ⟨hnone, by simp, fun o ho => ?_⟩)
      rcases List.mem_cons.mp ho with rfl | ho
      · exact Nat.le_refl _
      · exact Nat.le_of_lt ((List.pairwise_cons.mp hsorted).1 o ho)

/-- R88: the decode point advances to the offset needed that follows it. -/
theorem State.nextPoint_follows (s : State) (h : Handle) (e : Entry) (d : Offset) :
    followsPoint (fun o => o < e.chunks ∧ s.needed h e o = true) d (s.nextPoint h e d) := by
  have hmem : (· ∈ (List.range e.chunks).filter (s.needed h e)) = fun o => o < e.chunks ∧ s.needed h e o = true :=
    funext fun o => by rw [List.mem_filter, List.mem_range]
  have hpoint := followsPoint_of_sorted (range_filter_sorted e.chunks (s.needed h e)) d
  rw [hmem] at hpoint
  unfold State.nextPoint
  dsimp only
  generalize (List.range e.chunks).filter (s.needed h e) = all at hpoint ⊢
  cases hfind : all.find? fun o => decide (d < o) with
  | some o => rwa [hfind] at hpoint
  | none => rwa [hfind] at hpoint

/-- R87: which offsets are needed depends on the queues and the deliveries. -/
theorem State.needed_of_queues {s t : State} (houtputs : ∀ q, (t.port q).outputs = (s.port q).outputs)
    (hdeliveries : t.deliveries = s.deliveries) (h : Handle) (e : Entry) : t.needed h e = s.needed h e := by
  funext o
  rw [Bool.eq_iff_iff, State.needed_iff, State.needed_iff]
  simp only [offsetNeeded, houtputs, hdeliveries]

/-- R88: the entry as its decode point advances in a state. -/
def Entry.advanced (s : State) (h : Handle) (e : Entry) : Entry :=
  { e with plan := e.plan.map fun pl => { pl with decodePoint := s.nextPoint h e pl.decodePoint } }

theorem State.advancePoint_eq {s : State} {h : Handle} {e : Entry} (he : s.entry? h = some e) :
    s.advancePoint h = s.setEntry h (e.advanced s h) := by
  simp only [State.advancePoint, he, State.modPlan, State.modEntry_eq he]
  rfl

/-! ### What the decision leaves alone -/

theorem Kept.settleOutput (x : Pass) (s : State) (o : PassOutput) : Kept s (s.settleOutput x o) := by
  unfold State.settleOutput
  split
  · split
    · exact .ite (.setPort s _ _ rfl) (.release ..)
    · exact .release ..
  · exact .release ..

theorem Kept.keepOutputs (s : State) (x : Pass) : Kept s (s.keepOutputs x) :=
  .trans (.foldl (Kept.settleOutput x) _ s) (.releaseAll ..)

theorem Kept.advancePoint (s : State) (h : Handle) : Kept s (s.advancePoint h) := by
  unfold State.advancePoint
  split
  · exact .modPlan ..
  · exact .refl s

theorem Kept.passStands (s : State) (x : Pass) (e : Entry) : Kept s (s.passStands x e) := by
  have hkept := Kept.keepOutputs s x
  have hadvanced := hkept.trans (.advancePoint _ x.handle)
  unfold State.passStands
  split
  · exact .ite (hkept.trans (.completePark ..)) (hadvanced.trans (.settleIfDone ..))
  · exact hkept.trans (.closeIfDrained ..)
  · exact hadvanced
  · exact hadvanced
  · exact hadvanced
  · exact .refl s

theorem Kept.decidePass (s : State) (x : Pass) (agrees : Bool) : Kept s (s.decidePass x agrees) := by
  have hdropped : Kept s (s.passDropped x) := .releaseAll ..
  unfold State.decidePass
  split
  · exact .ite (hdropped.trans (.removeIfDone ..)) (.ite (.passStands ..) (hdropped.trans (.closeEntry ..)))
  · exact hdropped

/-! ### Every other entry stands (R40) -/

theorem OneEntry.releaseAll (h : Handle) (s : State) (l : List CellId) : OneEntry h s (s.releaseAll l) :=
  .of_entries (CellsOnly.releaseAll s l).entries

theorem OneEntry.settleOutput (h : Handle) (x : Pass) (s : State) (o : PassOutput) :
    OneEntry h s (s.settleOutput x o) := by
  have hrelease : OneEntry h s (s.release o.cell) := .of_entries (CellsOnly.release s o.cell).entries
  unfold State.settleOutput
  split
  · split
    · exact .ite (.of_entries rfl) hrelease
    · exact hrelease
  · exact hrelease

theorem OneEntry.keepOutputs (h : Handle) (s : State) (x : Pass) : OneEntry h s (s.keepOutputs x) :=
  .trans (.foldl (OneEntry.settleOutput h x) _ s) (.releaseAll ..)

theorem OneEntry.advancePoint (s : State) (h : Handle) : OneEntry h s (s.advancePoint h) := by
  unfold State.advancePoint
  split
  · exact .modPlan ..
  · exact .refl s

theorem OneEntry.completePark (s : State) (h : Handle) : OneEntry h s (s.completePark h) :=
  .trans (.trans (.trans (.setPark ..) (.dropPlan ..)) (.modEntry ..)) (.causeAttempt ..)

theorem OneEntry.releaseTarget (h : Handle) (s : State) (pos : Position) : OneEntry h s (State.releaseTarget h s pos) := by
  unfold State.releaseTarget
  split
  · split
    · split
      · exact .trans (.modEntry ..) (.of_entries rfl)
      · exact .refl s
    · exact .refl s
  · exact .refl s

theorem OneEntry.releaseTargets (s : State) (h : Handle) : OneEntry h s (s.releaseTargets h) := by
  unfold State.releaseTargets
  split
  · exact .foldl (OneEntry.releaseTarget h) _ s
  · exact .refl s

theorem OneEntry.beginClose (s : State) (h : Handle) (e : Entry) (o : EntryOutcome) : OneEntry h s (s.beginClose h e o) :=
  .ite (.trans (.setEntry ..) (.setPark ..)) (.setEntry ..)

section

variable {s : State} (hr : s.rising)

include hr

/-- R61, R63: a close writes and removes its own entry, with submitters or without. -/
theorem State.closeEntry_others (h : Handle) (o : EntryOutcome) : onlyEntry s (s.closeEntry h o) h := by
  cases he : s.entry? h with
  | none =>
    simp only [State.closeEntry, he]
    exact fun _ _ => rfl
  | some e =>
    by_cases hc : e.state = .closed
    · simp only [State.closeEntry, he, hc, if_true]
      exact fun _ _ => rfl
    rw [State.closeEntry_eq he hc]
    have hbegun := (OneEntry.beginClose s h e o).trans (.dropPlan _ h)
    generalize (s.beginClose h e o).dropPlan h = u at hbegun
    have hfetches : OneEntry h u (u.withdrawFetches h) := .of_entries (by rw [← (u.withdrawFetches_spec h).rest])
    generalize u.withdrawFetches h = v at hfetches
    have hfreed : OneEntry h v (v.freeOutputs fun y => decide (y.handle = h)) :=
      .of_entries (by rw [← (v.freeOutputs_spec fun y => decide (y.handle = h)).rest])
    generalize (v.freeOutputs fun y => decide (y.handle = h)) = w at hfreed
    have hall := (((hbegun.trans hfetches).trans hfreed).trans (.releaseTargets w h)).trans (.count _ h o.counter)
    exact fun j hj => (State.removeIfDone_others (hall.rising hr) h j hj).trans (hall.others j hj)

theorem State.closeIfDrained_others (h : Handle) : onlyEntry s (s.closeIfDrained h) h := by
  unfold State.closeIfDrained
  split
  · split
    · exact State.closeEntry_others hr h _
    · exact fun _ _ => rfl
  · exact fun _ _ => rfl

theorem State.passStands_others (x : Pass) (e : Entry) : onlyEntry s (s.passStands x e) x.handle := by
  have hkept := OneEntry.keepOutputs x.handle s x
  have hadvanced := hkept.trans (.advancePoint _ x.handle)
  unfold State.passStands
  split
  · exact (OneEntry.ite (hkept.trans (.completePark ..)) (hadvanced.trans (.settleIfDone ..))).others
  · exact fun j hj => (State.closeIfDrained_others (hkept.rising hr) x.handle j hj).trans (hkept.others j hj)
  · exact hadvanced.others
  · exact hadvanced.others
  · exact hadvanced.others
  · exact fun _ _ => rfl

/-- R135 to R138: the decision of a pass's results is about its own entry. -/
theorem State.decidePass_others (x : Pass) (agrees : Bool) : onlyEntry s (s.decidePass x agrees) x.handle := by
  have hdropped : OneEntry x.handle s (s.passDropped x) := .releaseAll ..
  unfold State.decidePass
  split
  · split
    · exact fun j hj => (State.removeIfDone_others (hdropped.rising hr) x.handle j hj).trans (hdropped.others j hj)
    · split
      · exact State.passStands_others hr x _
      · exact fun j hj => (State.closeEntry_others (hdropped.rising hr) x.handle _ j hj).trans (hdropped.others j hj)
  · exact hdropped.others

end

/-! ### The command (R135) -/

theorem exec_passComplete {s : State} {l : LaneId} {x : Pass} (hreset : s.inReset = false) (hx : s.lane l = some x)
    (hcells : (x.outputs.map PassOutput.cell).Nodup) : exec (.passComplete l) s =
      .next ((s.passOver l (s.writtenCells x)).decidePass x (s.checkAgrees x)).refreshWaits := by
  have hexec : exec (.passComplete l) s = execPassComplete l s := rfl
  have hkept := Kept.decidePass (s.passOver l (s.writtenCells x)) x (s.checkAgrees x)
  simp only [hexec, execPassComplete, hx, State.completePass, State.writeOutputs_eq hcells]
  generalize s.writtenCells x = cells at hkept ⊢
  exact event_kept_after (u := s.passOver l cells) hreset rfl hreset rfl hkept

theorem Entry.advanced_of_planless {s : State} {h : Handle} {e : Entry} (hplan : e.plan = none) : e.advanced s h = e := by
  have hmap : ∀ f : Plan → Plan, e.plan.map f = e.plan := fun f => by rw [hplan, Option.map_none]
  rw [Entry.advanced, hmap]

theorem Entry.advanced_of_plan {s : State} {h : Handle} {e : Entry} {pl : Plan} (hplan : e.plan = some pl) :
    e.advanced s h = { e with plan := some { pl with decodePoint := s.nextPoint h e pl.decodePoint } } := by
  rw [Entry.advanced, hplan, Option.map_some]

theorem lane_withEntries (s : State) (entries : Table Entry) (j : LaneId) :
    ({ s with entries } : State).lane j = s.lane j := rfl

theorem rest_advancePoint {s : State} {h : Handle} {e : Entry} (he : s.entry? h = some e) :
    { s with entries := (s.advancePoint h).entries } = s.advancePoint h := by
  rw [State.advancePoint_eq he]
  rfl

theorem deliveries_refreshWaits (s : State) : s.refreshWaits.deliveries = s.deliveries := by
  have hrest := rest_refreshWaits s
  generalize s.refreshWaits = t at hrest
  rw [← hrest]

theorem bank_map_decodePoint (plan : Option Plan) (point : Plan → Offset) :
    (plan.map fun pl => { pl with decodePoint := point pl }).bind Plan.bank = plan.bind Plan.bank := by
  cases plan <;> rfl

/-- R88: only the plan of the entry changes, and it keeps its bank. -/
theorem Entry.advanced_plan (s : State) (h : Handle) (e : Entry) : ∃ plan, e.advanced s h = { e with plan }
    ∧ plan.bind Plan.bank = e.plan.bind Plan.bank ∧ (plan ≠ none ↔ e.plan ≠ none) := by
  exact ⟨_, rfl, bank_map_decodePoint e.plan _, by simp⟩

/-! ### What the results come to (R135 to R138) -/

/-- R135: the entry stands as `f` after the step, and besides the entries and the ports nothing has changed. -/
def standsAs (v t : State) (h : Handle) (f : Entry) : Prop :=
  t.entry? h = some f ∧ { v with entries := t.entries, ports := t.ports } = t

/-- R88: the entry stands with its decode point moved on to what `t` still needs. -/
def pointMoves (v t : State) (h : Handle) (e : Entry) (pl : Plan) : Prop :=
  ∃ d, followsPoint (fun o => o < (e.length + 65535) / 65536 ∧ t.needed h e o = true) pl.decodePoint d
    ∧ standsAs v t h { e with plan := some { pl with decodePoint := d } }

/-- R136: the outputs of a pass that its entry keeps have joined their queues. -/
def outputsJoin (s t : State) (x : Pass) (e : Entry) : Prop :=
  ∀ q, (t.port q).fetches = (s.port q).fetches
    ∧ (t.port q).outputs = (s.port q).outputs ++ x.outputs.filterMap (keptOn s x e q)

/-- R53, R82: the plan given up by the step to `t`, whatever else the states hold besides it. -/
theorem givesUpPlan.beside {u u' t t' : State} {h : Handle} {e e' f : Entry} (k : givesUpPlan u t h e' f)
    (hbank : e'.plan.bind Plan.bank = e.plan.bind Plan.bank) (hplan : e'.plan ≠ none ↔ e.plan ≠ none)
    (hput : Table.put u'.entries h f = Table.put u.entries h f) (hothers : onlyEntry u' u h)
    (hu : { u with entries := u'.entries, ports := u'.ports } = u') (ht : { t with ports := t'.ports } = t') :
    givesUpPlan u' t' h e f := by
  obtain ⟨ids, hids, hreleases⟩ := k.cells
  have hcells : u'.cells = u.cells := by rw [← hu]
  have hcellst : t'.cells = t.cells := by rw [← ht]
  have hattempt : u'.attempt = u.attempt := by rw [← hu]
  have hattemptt : t'.attempt = t.attempt := by rw [← ht]
  have hplanCell : planCell u' h = planCell u h := by
    rw [← hu]
    rfl
  refine ⟨?_, fun j hj => ?_, fun b => ?_, ⟨ids, fun c => ?_, hreleases.congr hput hcells ?_ hcellst ?_⟩, fun hn => ?_⟩
  · rw [← k.record, ← ht]
    rfl
  · rw [← hothers j hj, ← k.others j hj, ← ht]
    rfl
  · rw [← hbank]
    have hbankt : t'.bank b = t.bank b := by rw [← ht]; rfl
    have hbanku : u'.bank b = u.bank b := by rw [← hu]; rfl
    rw [hbankt, hbanku]
    exact k.banks b
  · rw [hids, hplan, hplanCell]
  · exact fun ha => hattempt ▸ ha
  · exact fun ha => hattemptt.symm ▸ ha
  · rw [hattemptt]
    exact k.attempt (hplan.mpr hn)

section

variable {s w : State} {l : LaneId} {cells : Vector (Option Cell) 512} {x : Pass} {e : Entry}
  (k : OutputsKept s l cells x e w)

include k

theorem OutputsKept.entries : w.entries = s.entries := by
  rw [← k.rest]
  rfl

theorem OutputsKept.deliveries : w.deliveries = s.deliveries := by
  rw [← k.rest]
  rfl

theorem OutputsKept.park : w.park = s.park := by
  rw [← k.rest]
  rfl

theorem OutputsKept.lane (j : LaneId) : w.lane j = if j = l then none else s.lane j := by
  rw [← k.rest]
  exact State.lane_setLane s l j none

theorem OutputsKept.entry (h : Handle) : w.entry? h = s.entry? h := by
  rw [State.entry?, k.entries, State.entry?]

/-- What comes after the outputs leaves the queues as they are. -/
theorem OutputsKept.joins {t : State} (ht : ∀ q, t.port q = w.port q) : outputsJoin s t.refreshWaits x e := fun q => by
  rw [port_refreshWaits, ht, k.port]
  exact ⟨rfl, rfl⟩

/-- R53: no pass of the entry is in flight any more. -/
theorem OutputsKept.noPass (hlast : ∀ j y, j ≠ l → s.lane j = some y → y.handle ≠ x.handle) :
    ∀ j y, w.lane j = some y → y.handle ≠ x.handle := fun j y hy => by
  rw [k.lane] at hy
  by_cases hj : j = l
  · rw [if_pos hj] at hy
    cases hy
  · rw [if_neg hj] at hy
    exact hlast j y hj hy

/-- R59, log 18: work of the entry is under way after the outputs have joined their queues. -/
theorem OutputsKept.busyWith_iff : w.busyWith x.handle ↔ (s.passOver l cells).busyWith x.handle
    ∨ ∃ q, x.outputs.filterMap (keptOn s x e q) ≠ [] := by
  have hlanes : w.lanes = (s.passOver l cells).lanes := by
    rw [← k.rest]
  have hqueued : (∃ q, ∃ o ∈ (w.port q).outputs, o.handle = x.handle) ↔
      (∃ q, ∃ o ∈ ((s.passOver l cells).port q).outputs, o.handle = x.handle)
        ∨ ∃ q, x.outputs.filterMap (keptOn s x e q) ≠ [] := by
    rw [← exists_or]
    refine exists_congr fun q => ?_
    rw [k.port]
    simp only [List.mem_append, or_and_right, exists_or]
    refine or_congr Iff.rfl ⟨fun ⟨o, ho, _⟩ => List.ne_nil_of_mem ho, fun hn => ?_⟩
    obtain ⟨o, ho⟩ := List.exists_mem_of_ne_nil _ hn
    obtain ⟨o', -, hkept⟩ := List.mem_filterMap.mp ho
    obtain ⟨_, _, -, -, -, -, rfl⟩ := keptOn_eq_some.mp hkept
    exact ⟨_, ho, rfl⟩
  rw [State.busyWith, State.busyWith, hlanes, hqueued, k.deliveries, or_assoc, or_assoc, or_comm (a := ∃ q, _ ≠ _)]
  exact or_congr Iff.rfl (or_assoc.symm)

section

variable (he : s.entry? x.handle = some e)

include he

theorem OutputsKept.advances (f : Entry) (hf : e.advanced w x.handle = f) :
    standsAs (w.withPortsOf s) (w.advancePoint x.handle).refreshWaits x.handle f := by
  rw [State.advancePoint_eq ((k.entry x.handle).trans he), hf]
  refine ⟨(entry_refreshWaits ..).trans (State.entry_put ..), ?_⟩
  have hwaits := rest_refreshWaits (w.setEntry x.handle f)
  generalize (w.setEntry x.handle f).refreshWaits = t at hwaits
  rw [← hwaits]
  rfl

/-- R135 step 3: an entry without a plan stands as it was. -/
theorem OutputsKept.stands (hplan : e.plan = none) :
    standsAs (w.withPortsOf s) (w.advancePoint x.handle).refreshWaits x.handle e :=
  k.advances he e (Entry.advanced_of_planless hplan)

/-- R135 step 3, R88: the decode point of the entry moves on. -/
theorem OutputsKept.moves {pl : Plan} (hplan : e.plan = some pl) :
    pointMoves (w.withPortsOf s) (w.advancePoint x.handle).refreshWaits x.handle e pl := by
  have hrest := rest_advancePoint ((k.entry x.handle).trans he)
  have hneeded : (w.advancePoint x.handle).refreshWaits.needed = w.needed := by
    generalize w.advancePoint x.handle = t at hrest
    refine funext fun h => funext fun f => State.needed_of_queues (fun q => ?_) ?_ h f
    · rw [port_refreshWaits, ← hrest]
      rfl
    · rw [deliveries_refreshWaits, ← hrest]
  refine ⟨w.nextPoint x.handle e pl.decodePoint, ?_, k.advances he _ (Entry.advanced_of_plan hplan)⟩
  rw [hneeded]
  exact w.nextPoint_follows x.handle e pl.decodePoint

/-- R135 step 4, R53: a whole entry with no other pass gives up its plan and enters SETTLING. -/
theorem OutputsKept.settles (hs : e.state = .active) (hcovered : e.allCovered = true)
    (hlast : ∀ j y, j ≠ l → s.lane j = some y → y.handle ≠ x.handle) :
    let v := w.withPortsOf s
    let t := ((w.advancePoint x.handle).settleIfDone x.handle).refreshWaits
    givesUpPlan v t x.handle e { e with state := .settling, plan := none }
      ∧ { v with entries := t.entries, banks := t.banks, cells := t.cells, ports := t.ports, attempt := t.attempt } = t := by
  rw [State.advancePoint_eq ((k.entry x.handle).trans he)]
  obtain ⟨plan, hadvanced, hbank, hplan⟩ := e.advanced_plan w x.handle
  rw [hadvanced]
  have hput := State.entry_put w x.handle { e with plan }
  obtain ⟨hgives, hrest⟩ := State.settleIfDone_settles hput hs hcovered fun j y hy =>
    k.noPass hlast j y ((lane_withEntries w _ j).symm.trans hy)
  have hwaits := rest_refreshWaits ((w.setEntry x.handle { e with plan }).settleIfDone x.handle)
  generalize (w.setEntry x.handle { e with plan }).settleIfDone x.handle = u at *
  generalize u.refreshWaits = t at *
  refine ⟨hgives.beside hbank hplan (Table.put_put ..).symm (fun j hj => ?_) rfl hwaits, ?_⟩
  · exact (State.entry_setEntry ..).trans (if_neg hj)
  · rw [← hwaits, ← hrest]
    rfl

/-- R135 step 4: an entry that is not whole, or has another pass, does not settle. -/
theorem OutputsKept.settles_not
    (hn : e.allCovered = false ∨ ∃ j y, j ≠ l ∧ s.lane j = some y ∧ y.handle = x.handle) :
    (w.advancePoint x.handle).settleIfDone x.handle = w.advancePoint x.handle := by
  rw [State.advancePoint_eq ((k.entry x.handle).trans he)]
  obtain ⟨plan, hadvanced, -⟩ := e.advanced_plan w x.handle
  rw [hadvanced]
  refine State.settleIfDone_stays (State.entry_put ..) fun ⟨_, hcovered, hnone⟩ => ?_
  rcases hn with hn | ⟨j, y, hj, hy, hh⟩
  · exact Bool.false_ne_true (hn.symm.trans hcovered)
  · exact hnone j y ((k.lane j).trans ((if_neg hj).trans hy)) hh

/-- R135 step 4, R82: a park completes. -/
theorem OutputsKept.parks :
    let v := w.withPortsOf s
    let t := (w.completePark x.handle).refreshWaits
    givesUpPlan v t x.handle e { e with state := .queued, wait := some .noSlot, plan := none, replan := false }
      ∧ t.park = none
      ∧ { v with entries := t.entries, banks := t.banks, cells := t.cells, ports := t.ports, attempt := t.attempt,
                 park := none } = t := by
  obtain ⟨hgives, hpark, hrest⟩ := State.completePark_parks ((k.entry x.handle).trans he)
  have hwaits := rest_refreshWaits (w.completePark x.handle)
  generalize w.completePark x.handle = u at *
  generalize u.refreshWaits = t at *
  refine ⟨hgives.beside rfl Iff.rfl rfl (fun _ _ => rfl) rfl hwaits, ?_, ?_⟩
  · rw [← hwaits]
    exact hpark
  · rw [← hwaits, ← hrest]
    rfl

end

end

/-! ### The decision, by the state of the entry (R135 to R138) -/

/-- R135 to R138: what completing the pass `x` on the lane `l` in the state `s` comes to in the state `t` for the entry
`e`, besides the outputs kept and the cells released, which `v` has. -/
structure PassDecided (s : State) (l : LaneId) (cells : Vector (Option Cell) 512) (x : Pass) (e : Entry) (v t : State) :
    Prop where
  closed : e.state = .closed →
    portsButWaits s t ∧ { v with entries := t.entries, profiles := t.profiles, ports := t.ports } = t
      ∧ (s.rising → staysUnlessDone s t x.handle e)
  inconsistent : e.state ≠ .closed → ¬passAgrees s x → e.submitters ≠ 0 → closes v t x.handle e (.failed .inconsistent)
  joined : e.state ≠ .closed → e.state ≠ .draining → passAgrees s x → outputsJoin s t x e
  waits : passAgrees s x → e.state = .planning ∨ e.state = .queued ∨ e.state = .settling →
    (e.plan = none → standsAs v t x.handle e) ∧ ∀ pl, e.plan = some pl → pointMoves v t x.handle e pl
  active : passAgrees s x → e.state = .active → ∀ pl, e.plan = some pl →
    (s.park ≠ some x.handle →
      (e.allCovered = true → (∀ j y, j ≠ l → s.lane j = some y → y.handle ≠ x.handle) →
        givesUpPlan v t x.handle e { e with state := .settling, plan := none }
          ∧ { v with entries := t.entries, banks := t.banks, cells := t.cells, ports := t.ports, attempt := t.attempt } = t)
      ∧ (e.allCovered = false ∨ (∃ j y, j ≠ l ∧ s.lane j = some y ∧ y.handle = x.handle) → pointMoves v t x.handle e pl))
    ∧ (s.park = some x.handle →
        givesUpPlan v t x.handle e { e with state := .queued, wait := some .noSlot, plan := none, replan := false }
          ∧ t.park = none
          ∧ { v with entries := t.entries, banks := t.banks, cells := t.cells, ports := t.ports, attempt := t.attempt,
                     park := none } = t)
  draining : e.state = .draining → passAgrees s x → e.submitters ≠ 0 →
    ((s.passOver l cells).busyWith x.handle ∨ (∃ q, x.outputs.filterMap (keptOn s x e q) ≠ []) →
      outputsJoin s t x e ∧ standsAs v t x.handle e)
    ∧ (¬(s.passOver l cells).busyWith x.handle → (∀ q, x.outputs.filterMap (keptOn s x e q) = []) →
      closes v t x.handle e (.failed .cancelled))

section

variable {u : State} {x : Pass} {e : Entry}

theorem State.passStands_waits (hs : e.state = .planning ∨ e.state = .queued ∨ e.state = .settling) :
    u.passStands x e = (u.keepOutputs x).advancePoint x.handle := by
  rcases hs with hs | hs | hs <;> simp only [State.passStands, hs]

theorem State.passStands_active (hs : e.state = .active) (hp : u.park ≠ some x.handle) :
    u.passStands x e = ((u.keepOutputs x).advancePoint x.handle).settleIfDone x.handle := by
  simp only [State.passStands, hs, if_neg hp]

theorem State.passStands_parks (hs : e.state = .active) (hp : u.park = some x.handle) :
    u.passStands x e = (u.keepOutputs x).completePark x.handle := by
  simp only [State.passStands, hs, if_pos hp]

theorem State.passStands_draining (hs : e.state = .draining) :
    u.passStands x e = (u.keepOutputs x).closeIfDrained x.handle := by
  simp only [State.passStands, hs]

theorem State.decidePass_stands (he : u.entry? x.handle = some e) (hc : e.state ≠ .closed) :
    u.decidePass x true = u.passStands x e := by
  simp only [State.decidePass, he, if_neg hc, if_true]

theorem State.decidePass_inconsistent (he : u.entry? x.handle = some e) (hc : e.state ≠ .closed) :
    u.decidePass x false = (u.passDropped x).closeEntry x.handle (.failed .inconsistent) := by
  simp only [State.decidePass, he, if_neg hc, Bool.false_eq_true, if_false]

theorem State.decidePass_closed (he : u.entry? x.handle = some e) (hc : e.state = .closed) (agrees : Bool) :
    u.decidePass x agrees = (u.passDropped x).removeIfDone x.handle := by
  simp only [State.decidePass, he, if_pos hc]

theorem State.decidePass_absent (he : u.entry? x.handle = none) (agrees : Bool) :
    u.decidePass x agrees = u.passDropped x := by
  simp only [State.decidePass, he]

end

/-! ### The decision leaves the ports alone (R136) -/

theorem State.ports_advancePoint {s : State} {h : Handle} {e : Entry} (he : s.entry? h = some e) :
    (s.advancePoint h).ports = s.ports := by
  rw [State.advancePoint_eq he, State.setEntry_ports]

theorem State.ports_completePark {s : State} {h : Handle} {e : Entry} (he : s.entry? h = some e) :
    (s.completePark h).ports = s.ports := by
  obtain ⟨-, -, hrest⟩ := State.completePark_parks he
  generalize s.completePark h = t at hrest
  rw [← hrest]

theorem State.ports_settleIfDone (s : State) (h : Handle) : (s.settleIfDone h).ports = s.ports := by
  cases he : s.entry? h with
  | none => simp only [State.settleIfDone, he]
  | some e =>
    by_cases hdone : e.state = .active ∧ e.allCovered = true ∧ ∀ l x, s.lane l = some x → x.handle ≠ h
    · obtain ⟨hs, hcovered, hlast⟩ := hdone
      obtain ⟨-, hrest⟩ := State.settleIfDone_settles he hs hcovered hlast
      generalize s.settleIfDone h = t at hrest
      rw [← hrest]
    · rw [State.settleIfDone_stays he hdone]

/-- R136: after the outputs, the decision leaves the queues as they are, unless the entry drains. -/
theorem State.ports_passStands {u : State} {x : Pass} {e : Entry} (he : (u.keepOutputs x).entry? x.handle = some e)
    (hc : e.state ≠ .closed) (hd : e.state ≠ .draining) : (u.passStands x e).ports = (u.keepOutputs x).ports := by
  by_cases hs : e.state = .active
  · by_cases hp : u.park = some x.handle
    · rw [State.passStands_parks hs hp, State.ports_completePark he]
    · rw [State.passStands_active hs hp, State.ports_settleIfDone, State.ports_advancePoint he]
  · have hwaits : e.state = .planning ∨ e.state = .queued ∨ e.state = .settling := by
      cases hstate : e.state <;> simp_all
    rw [State.passStands_waits hwaits, State.ports_advancePoint he]

/-! ### The results of a pass whose entry takes them (R135 to R137) -/

section

variable {s w : State} {l : LaneId} {cells : Vector (Option Cell) 512} {x : Pass} {e : Entry}
  (k : OutputsKept s l cells x e w) (he : s.entry? x.handle = some e)

include k he

/-- R59: a DRAINING entry that has work left stands. -/
theorem OutputsKept.drains_busy (hs : e.state = .draining)
    (hbusy : (s.passOver l cells).busyWith x.handle ∨ ∃ q, x.outputs.filterMap (keptOn s x e q) ≠ []) :
    outputsJoin s (w.closeIfDrained x.handle).refreshWaits x e
      ∧ standsAs (w.withPortsOf s) (w.closeIfDrained x.handle).refreshWaits x.handle e := by
  have hw := (k.entry x.handle).trans he
  rw [State.closeIfDrained_busy hw hs (k.busyWith_iff.mpr hbusy)]
  refine ⟨k.joins fun _ => rfl, (entry_refreshWaits ..).trans hw, ?_⟩
  have hrest := rest_refreshWaits w
  generalize w.refreshWaits = t at hrest
  rw [← hrest]
  rfl

/-- R59, log 18: a DRAINING entry whose last work was this pass closes. -/
theorem OutputsKept.drains_idle (hs : e.state = .draining) (hsubmitters : e.submitters ≠ 0)
    (hidle : ¬(s.passOver l cells).busyWith x.handle) (hnone : ∀ q, x.outputs.filterMap (keptOn s x e q) = []) :
    closes (w.withPortsOf s) (w.closeIfDrained x.handle).refreshWaits x.handle e (.failed .cancelled) := by
  have hw := (k.entry x.handle).trans he
  have hnotBusy : ¬w.busyWith x.handle := fun hbusy =>
    (k.busyWith_iff.mp hbusy).elim hidle fun ⟨q, hq⟩ => hq (hnone q)
  have hports : w.withPortsOf s = w := State.ext_ports (fun p => by
    rw [k.port, hnone, List.append_nil]
    rfl) rfl
  rw [State.closeIfDrained_idle hw hs hnotBusy, hports]
  exact (State.closeEntry_spec hw (by simp [hs]) hsubmitters _).refreshWaits

end

section

variable {s : State} {l : LaneId} {cells : Vector (Option Cell) 512} {x : Pass} {e : Entry}
  (he : s.entry? x.handle = some e)

include he

theorem OutputsKept.decided (k : OutputsKept s l cells x e ((s.passOver l cells).keepOutputs x)) (hc : e.state ≠ .closed)
    (hagrees : passAgrees s x) :
    PassDecided s l cells x e (((s.passOver l cells).keepOutputs x).withPortsOf s)
      ((s.passOver l cells).passStands x e).refreshWaits where
  closed hs := absurd hs hc
  inconsistent _ hn := absurd hagrees hn
  joined _ hd _ := k.joins fun q => congrFun (State.port_congr (State.ports_passStands ((k.entry _).trans he) hc hd)) q
  waits _ hs := by
    rw [State.passStands_waits hs]
    exact ⟨k.stands he, fun _ => k.moves he⟩
  active _ hs pl hplan := by
    refine ⟨fun hp => ?_, fun hp => ?_⟩
    · rw [State.passStands_active (u := s.passOver l cells) hs hp]
      refine ⟨k.settles he hs, fun hn => ?_⟩
      rw [k.settles_not he hn]
      exact k.moves he hplan
    · rw [State.passStands_parks (u := s.passOver l cells) hs hp]
      exact k.parks he
  draining hs _ hsubmitters := by
    rw [State.passStands_draining hs]
    exact ⟨k.drains_busy he hs, k.drains_idle he hs hsubmitters⟩

end

/-! ### The results of a pass that are dropped (R138) -/

/-- R63: an entry stays or goes as it did before the waits were treated. -/
theorem staysUnlessDone.refreshWaits {s v t : State} {h : Handle} {e : Entry} (k : staysUnlessDone v t h e)
    (hprofiles : v.profiles = s.profiles) : staysUnlessDone s t.refreshWaits h e := by
  have hentry := entry_refreshWaits t h
  have hrest := rest_refreshWaits t
  generalize t.refreshWaits = u at hentry hrest ⊢
  have howes : owesNothing u h e = owesNothing t h e := by
    rw [← hrest]
    rfl
  have hprofilest : u.profiles = t.profiles := by rw [← hrest]
  unfold staysUnlessDone State.profile at k ⊢
  rwa [howes, hprofilest, hentry, ← hprofiles]

section

variable (u : State) (x : Pass)

theorem CellsOnly.passDropped : CellsOnly u (u.passDropped x) := CellsOnly.releaseAll u _

theorem State.entry_passDropped (h : Handle) : (u.passDropped x).entry? h = u.entry? h := by
  rw [State.entry?, State.entry?, (CellsOnly.passDropped u x).entries]

end

section

variable {s : State} {x : Pass} (l : LaneId) (cells : Vector (Option Cell) 512) (agrees : Bool)

/-- R138: no entry decides about the pass. -/
theorem State.decidePass_absent_spec (he : s.entry? x.handle = none) :
    let v := (s.passOver l cells).passDropped x
    let t := ((s.passOver l cells).decidePass x agrees).refreshWaits
    portsButWaits s t ∧ { v with ports := t.ports } = t := by
  have heu : (s.passOver l cells).entry? x.handle = none := he
  have hcells := CellsOnly.passDropped (s.passOver l cells) x
  rw [State.decidePass_absent heu]
  generalize (s.passOver l cells).passDropped x = v at hcells
  have hports : v.ports = s.ports := by
    rw [← hcells]
    rfl
  exact ⟨portsButWaits_refreshWaits hports, rest_refreshWaits v⟩

/-- R138, R63: the entry of the pass is CLOSED. -/
theorem State.decidePass_closed_spec {e : Entry} (he : s.entry? x.handle = some e) (hc : e.state = .closed) :
    let v := (s.passOver l cells).passDropped x
    let t := ((s.passOver l cells).decidePass x agrees).refreshWaits
    portsButWaits s t ∧ { v with entries := t.entries, profiles := t.profiles, ports := t.ports } = t
      ∧ (s.rising → staysUnlessDone s t x.handle e) := by
  have heu : (s.passOver l cells).entry? x.handle = some e := he
  have hcells := CellsOnly.passDropped (s.passOver l cells) x
  have hev := ((s.passOver l cells).entry_passDropped x x.handle).trans heu
  rw [State.decidePass_closed heu hc]
  generalize (s.passOver l cells).passDropped x = v at hcells hev
  have hremoved := v.rest_removeIfDone x.handle
  have hrest := rest_refreshWaits (v.removeIfDone x.handle)
  have hprofiles : v.profiles = s.profiles := by
    rw [← hcells]
    rfl
  have hports : (v.removeIfDone x.handle).ports = s.ports := by
    rw [← hremoved, ← hcells]
    rfl
  refine ⟨portsButWaits_refreshWaits hports, ?_, fun hr => ?_⟩
  · generalize v.removeIfDone x.handle = z at hremoved hrest ⊢
    generalize z.refreshWaits = t at hrest ⊢
    rw [← hrest, ← hremoved]
  · have hrv : v.rising := by rwa [State.rising, hcells.entries]
    obtain ⟨hstays, -⟩ := State.removeIfDone_spec hrv hev
    exact hstays.refreshWaits hprofiles

end

/-- R137: the comparison of the pass found a difference. -/
theorem State.decidePass_inconsistent_spec {u : State} {x : Pass} {e : Entry} (he : u.entry? x.handle = some e)
    (hc : e.state ≠ .closed) (hsubmitters : e.submitters ≠ 0) :
    closes (u.passDropped x) (u.decidePass x false).refreshWaits x.handle e (.failed .inconsistent) := by
  rw [State.decidePass_inconsistent he hc]
  exact (State.closeEntry_spec ((u.entry_passDropped x x.handle).trans he) hc hsubmitters _).refreshWaits

/-! ### The completion (R135 to R138) -/

section

variable {s : State} {l : LaneId} {cells : Vector (Option Cell) 512} {x : Pass}

/-- R135 to R138: a step to `t` that completes the pass `x` on the lane `l` of the state `s`, where `v` is the state once
the cells of the pass are treated. -/
structure PassCompleted (s : State) (l : LaneId) (cells : Vector (Option Cell) 512) (x : Pass) (v t : State) : Prop where
  after : afterRelease (s.passOver l cells) v (s.passReleases x)
  absent : s.entry? x.handle = none → portsButWaits s t ∧ { v with ports := t.ports } = t
  decided : ∀ e, s.entry? x.handle = some e → PassDecided s l cells x e v t

/-- R138: the results are dropped where there is no entry, where it is CLOSED, and where the comparison disagrees. -/
theorem PassCompleted.of_dropped (hdropped : ∀ e, s.entry? x.handle = some e → e.state ≠ .closed → ¬passAgrees s x) :
    PassCompleted s l cells x ((s.passOver l cells).passDropped x)
      ((s.passOver l cells).decidePass x (s.checkAgrees x)).refreshWaits where
  after := State.passDropped_after (fun _ ⟨hagrees, e, _, he, hc, _⟩ => hdropped e he hc hagrees) _
  absent := State.decidePass_absent_spec l cells _
  decided e he :=
    { closed := State.decidePass_closed_spec l cells _ he
      inconsistent := fun hc hn hsubmitters => by
        rw [Bool.eq_false_iff.mpr (mt (State.checkAgrees_iff s x).mp hn)]
        exact State.decidePass_inconsistent_spec (u := s.passOver l cells) he hc hsubmitters
      joined := fun hc _ hagrees => absurd hagrees (hdropped e he hc)
      waits := fun hagrees hs => absurd hagrees (hdropped e he (by rcases hs with hs | hs | hs <;> simp [hs]))
      active := fun hagrees hs => absurd hagrees (hdropped e he (by simp [hs]))
      draining := fun hs hagrees => absurd hagrees (hdropped e he (by simp [hs])) }

/-- R135: the entry takes the results. -/
theorem PassCompleted.of_kept {e : Entry} (he : s.entry? x.handle = some e) (hc : e.state ≠ .closed)
    (hagrees : passAgrees s x) (k : OutputsKept s l cells x e ((s.passOver l cells).keepOutputs x)) :
    PassCompleted s l cells x (((s.passOver l cells).keepOutputs x).withPortsOf s)
      ((s.passOver l cells).decidePass x (s.checkAgrees x)).refreshWaits where
  after := k.after
  absent hnone := by
    rw [he] at hnone
    cases hnone
  decided e' he' := by
    obtain rfl := Option.some.inj (he.symm.trans he')
    rw [(State.checkAgrees_iff s x).mpr hagrees, State.decidePass_stands (u := s.passOver l cells) he hc]
    exact k.decided he hc hagrees

/-- R135 to R138: every completion. -/
theorem PassCompleted.exists (hpositions : (x.outputs.map PassOutput.position).Nodup)
    (hcells : (x.outputs.map PassOutput.cell).Nodup)
    (hbytes : ∀ o ∈ x.outputs, (s.passOver l cells).bytesOf o.cell = passBytes s x o.row) :
    ∃ v, PassCompleted s l cells x v ((s.passOver l cells).decidePass x (s.checkAgrees x)).refreshWaits := by
  by_cases htakes : ∃ e, s.entry? x.handle = some e ∧ e.state ≠ .closed ∧ passAgrees s x
  · obtain ⟨e, he, hc, hagrees⟩ := htakes
    exact ⟨_, .of_kept he hc hagrees ((State.settleOutputs_spec he hpositions hcells hbytes).keep he hagrees hc)⟩
  · exact ⟨_, .of_dropped fun e he hc hagrees => htakes ⟨e, he, hc, hagrees⟩⟩

end

theorem State.writtenCells_eq (s : State) (x : Pass) : s.writtenCells x =
    Vector.ofFn fun c => match x.outputs.find? fun o => decide (o.cell = c) with
      | some o => (s.cell c).map fun y => { y with data := passBytes s x o.row }
      | none => s.cell c := by
  unfold State.writtenCells
  refine congrArg Vector.ofFn (funext fun c => ?_)
  cases x.outputs.find? fun o => decide (o.cell = c) <;> rfl

/-- R132: the bytes of an output written. -/
theorem State.bytesOf_passOver_writtenCells {s : State} {x : Pass} {o : PassOutput} (l : LaneId)
    (hcells : (x.outputs.map PassOutput.cell).Nodup) (ho : o ∈ x.outputs) (hcell : s.cell o.cell ≠ none) :
    (s.passOver l (s.writtenCells x)).bytesOf o.cell = passBytes s x o.row := by
  obtain ⟨y, hy⟩ := Option.ne_none_iff_exists'.mp hcell
  have hwritten := State.getElem_writtenCells_output (s := s) hcells ho
  generalize s.writtenCells x = cells at hwritten ⊢
  have hcellOf : (s.passOver l cells).cell o.cell = cells[o.cell] := rfl
  rw [State.bytesOf, hcellOf, hwritten, hy]
  rfl

theorem Kept.passOver (s : State) (l : LaneId) (cells cells' : Vector (Option Cell) 512) :
    Kept (s.passOver l cells) (s.passOver l cells') :=
  ⟨⟨rfl, rfl, rfl, rfl, rfl, rfl, rfl, rfl, rfl, rfl, rfl, rfl, rfl, rfl, fun _ => rfl, fun _ => rfl, id, id⟩, rfl⟩

/-- R135, R40: a completion changes no other entry. -/
theorem State.passCompleted_others {s : State} (hr : s.rising) (l : LaneId) (cells : Vector (Option Cell) 512) (x : Pass)
    (agrees : Bool) : onlyEntry s ((s.passOver l cells).decidePass x agrees).refreshWaits x.handle := fun j hj => by
  rw [entry_refreshWaits]
  exact State.decidePass_others (s := s.passOver l cells) hr x agrees j hj

/-- Settles O43, by the decision of the results in the state with the outputs written (`PassCompleted`): kept by a live
entry, or dropped. -/
theorem passCompletionDecidesResults : Obligations.PassCompletionDecidesResults := by
  intro s l x hreset hx hpositions hcells hdrawn h counted written keeps reads
  have hexec := exec_passComplete hreset hx hcells
  have hbytes := fun o ho => State.bytesOf_passOver_writtenCells l hcells ho (hdrawn o ho)
  have houtput := fun o ho => State.getElem_writtenCells_output (s := s) (x := x) (o := o) hcells ho
  have hwritten : s.passOver l (s.writtenCells x) = written := by
    rw [s.writtenCells_eq x]
    rfl
  generalize s.writtenCells x = cells at *
  obtain ⟨v, hafter, habsent, hdecided⟩ := PassCompleted.exists hpositions hcells hbytes
  have hframe := ((Kept.passOver s l s.cells cells).trans (.decidePass _ x (s.checkAgrees x))).workFrame
  refine ⟨_, v, hexec, hframe, fun hr => State.passCompleted_others hr l cells x _, hwritten ▸ hafter,
    fun o ho hkeeps hread => ?_, habsent, fun e he => ?_⟩
  · exact (hafter.cell_output hcells ho hkeeps hread).trans (houtput o ho)
  · obtain ⟨hclosed, hinconsistent, hjoined, hwaits, hactive, hdraining⟩ := hdecided e he
    exact ⟨hclosed, hinconsistent, hjoined, hwaits, hactive, hdraining⟩

end Sys2Proof.Machine
end

section
/-! PROOFS. POST-LANDING, and the conditions on which STORED and REFUSE-FRAGMENT are refused (O44, O45). -/

namespace Sys2Proof.Machine

open Sys2Proof.Config

/-! ### Landing waits beside other changes of a port (R145) -/

/-- R145: a port with a landing buffer has no wait. -/
theorem waitAfter_of_landing {u t : State} {q : PortId} (h : (t.port q).landing ≠ []) : waitAfter u t q = none :=
  if_neg fun ⟨_, hempty, _⟩ => h hempty

/-- A request whose decision changes its own port outside its line and then treats the waits. -/
theorem exec_own_waits {s : State} {p : PortId} {k : Byte} {d : Request → State → Answer} (h : s.offers p k) (q : Port)
    (st : Status) (b : Body) (h1 : q.state = (s.port p).state) (h2 : q.responses = (s.port p).responses)
    (h3 : q.eventEnable = (s.port p).eventEnable)
    (hd : d (s.port p).request (s.advance p) = ⟨(s.setPort p q.tookRequest).refreshWaits, st, b⟩) :
    ∃ u, withAnswer p k s d = .next u ∧ portsButWaits (s.setPort p (q.answered k (s.port p).request.tag st b)) u
      ∧ { s with ports := u.ports } = u := by
  refine ⟨_, withAnswer_next (State.takes_of_offers h), ?_⟩
  rw [hd]
  dsimp only
  generalize (s.port p).request.tag = tag
  have htaken := port_refreshWaits (s.setPort p q.tookRequest)
  have hwait := wait_refreshWaits (s.setPort p q.tookRequest)
  have hrest := ports_trans (rest_refreshWaits (s.setPort p q.tookRequest)) (rest_respond _ p k tag st b)
  generalize (s.setPort p q.tookRequest).refreshWaits = y at htaken hwait hrest ⊢
  have hports : ∀ j, (countRises s (y.respond p k tag st b)).port j =
      { (s.setPort p (q.answered k tag st b)).port j with wait := (y.port j).wait } := fun j => by
    have hj := htaken j
    rw [port_countRises, port_respond, State.port_setPort]
    rw [State.port_setPort] at hj
    by_cases hjp : j = p
    · subst hjp
      rw [if_pos rfl] at hj ⊢
      rw [if_pos rfl, hj]
      exact Port.risen_answered (b := { q with wait := (y.port j).wait }) k tag st b h.1.2.1 h1 h2 h3
    · rw [if_neg hjp] at hj ⊢
      rw [if_neg hjp, hj]
      exact Port.risen_of_line_eq rfl
  have hresult := ports_trans hrest (rest_countRises s _)
  generalize countRises s (y.respond p k tag st b) = u at hports hresult ⊢
  refine ⟨fun j => ?_, ?_⟩
  · have hafter : waitAfter (s.setPort p q.tookRequest) (s.setPort p q.tookRequest) j
        = waitAfter (s.setPort p (q.answered k tag st b)) u j := by
      refine waitAfter_congr ?_ ?_ ?_ ?_ ?_ ?_ ?_
      case refine_5 | refine_6 | refine_7 => rw [← hresult]
      all_goals
        simp only [hports, State.port_setPort]
        split <;> rfl
    rw [← hafter, ← hwait]
    exact hports j
  · rw [← hresult]
    rfl

/-! ### POST-LANDING (R140) -/

theorem exec_postLanding (p : PortId) (s : State) : exec (.postLanding p) s = withAnswer p 6 s (postLandingDecide p) := rfl

theorem landing_advance (s : State) (p q : PortId) : ((s.advance p).port q).landing = (s.port q).landing := by
  rw [port_advance]
  split
  · next hq => rw [hq]
  · rfl

theorem postLandingDecide_full {s : State} {p : PortId} (h : 32 ≤ (s.port p).landing.length) (r : Request) :
    postLandingDecide p r s = Answer.only s .full := if_pos h

theorem postLandingDecide_joins {s : State} {p : PortId} (h : (s.port p).landing.length < 32) (r : Request) :
    postLandingDecide p r s =
      Answer.only (s.modPort p fun q => { q with landing := q.landing ++ [r.address] }).refreshWaits .ok :=
  if_neg (Nat.not_le.mpr h)

/-- Settles O44: a port that has a landing buffer has no wait (`waitAfter_of_landing`), and every other one the wait that
`exec_own_waits` gives. -/
theorem postLandingJoinsListTail : Obligations.PostLandingJoinsListTail := by
  intro s p hoffers q r
  rw [exec_postLanding]
  refine ⟨fun hfull => ?_, fun hroom => ?_⟩
  · exact exec_only hoffers .full .none (postLandingDecide_full (by rwa [landing_advance]) r)
  · have hdecide : postLandingDecide p r (s.advance p) = Answer.only
        (s.setPort p (Port.tookRequest { q with landing := q.landing ++ [r.address] })).refreshWaits .ok := by
      rw [postLandingDecide_joins (by rwa [landing_advance]), modPort_advance]
      rfl
    obtain ⟨t, hexec, hports, hrest⟩ := exec_own_waits hoffers
      { q with landing := q.landing ++ [r.address] } .ok .none rfl rfl rfl hdecide
    have hown := hports p
    rw [State.port_setPort, if_pos rfl] at hown
    refine ⟨t, hexec, hrest, ?_, fun k hk => ?_⟩
    · rw [hown, waitAfter_of_landing (by rw [hown]; simp [Port.answered])]
      rfl
    · have hother := hports k
      rw [State.port_setPort, if_neg hk] at hother
      rw [hother, waitAfter_congr (v := s) (x := t) ?_ rfl rfl rfl rfl rfl rfl]
      rw [State.port_setPort, if_neg hk]

/-! ### The conditions on STORED and REFUSE-FRAGMENT (R147, R149) -/

section

variable {s : State} {p : PortId} {r : Request} {e : Entry} {m : Member} {t : Target} {n : NodeId} {st : Status}

theorem Target.coversAll_iff (t : Target) (chunks : Nat) : t.coversAll chunks = true ↔ ∀ o < chunks, o ∈ t.coverage := by
  simp [Target.coversAll]

theorem State.boundTarget_beyond (h : e.members.length ≤ r.position) : s.boundTarget p r e = .error .invalid := if_pos h

theorem State.boundTarget_closed (h : r.position < e.members.length) (hc : e.state = .closed) :
    s.boundTarget p r e = .error .gone :=
  (if_neg (Nat.not_le.mpr h)).trans (if_pos hc)

section

variable (hm : e.members[r.position]? = some m) (hc : e.state ≠ .closed)

include hm hc

theorem State.boundTarget_unbound
    (hn : m.state ≠ .rebuilding ∨ m.target = none ∨ ∃ t, m.target = some t ∧ t.dest = none) :
    s.boundTarget p r e = .error .gone := by
  have hin := (List.getElem?_eq_some_iff.mp hm).1
  simp only [State.boundTarget, if_neg (Nat.not_le.mpr hin), if_neg hc, hm]
  rcases hn with hs | ht | ⟨t, ht, hd⟩
  · cases hstate : m.state
    case rebuilding => exact absurd hstate hs
    all_goals rfl
  · cases m.state <;> simp only [ht]
  · cases m.state <;> simp only [ht, hd]

theorem State.boundTarget_bound (hs : m.state = .rebuilding) (ht : m.target = some t) (hd : t.dest = some n) :
    s.boundTarget p r e = if (s.node n).route = some p then .ok (t, n) else .error .misrouted := by
  have hin := (List.getElem?_eq_some_iff.mp hm).1
  simp only [State.boundTarget, if_neg (Nat.not_le.mpr hin), if_neg hc, hm, hs, ht, hd]

end

variable (hnamed : s.named r = .ok e)

include hnamed

theorem storedDecide_unbound (hb : s.boundTarget p r e = .error st) : storedDecide p r s = Answer.only s st := by
  simp only [storedDecide, hnamed, hb]

theorem refuseDecide_unbound (hb : s.boundTarget p r e = .error st) : refuseDecide p r s = Answer.only s st := by
  simp only [refuseDecide, hnamed, hb]

theorem storedDecide_bound (hb : s.boundTarget p r e = .ok (t, n)) : storedDecide p r s =
    if t.coversAll e.chunks = true then Answer.only (s.store r.handle r.position n).refreshWaits .ok
    else Answer.only s .early := by
  simp only [storedDecide, hnamed, hb]

theorem refuseDecide_bound (hb : s.boundTarget p r e = .ok (t, n)) : refuseDecide p r s =
    Answer.only (s.loseDestination true r.handle r.position).refreshWaits .ok := by
  simp only [refuseDecide, hnamed, hb]

end

theorem exec_stored (p : PortId) (s : State) : exec (.stored p) s = withAnswer p 7 s (storedDecide p) := rfl

theorem exec_refuseFragment (p : PortId) (s : State) :
    exec (.refuseFragment p) s = withAnswer p 8 s (refuseDecide p) := rfl

/-- A request that finds no target bound for its port is answered by that alone. -/
theorem exec_unbound {s : State} {p : PortId} {e : Entry} {k : Byte} {i : Instr} {st : Status}
    (hi : (k, i) ∈ [(7#8, Instr.stored p), (8#8, .refuseFragment p)]) (h : s.offers p k)
    (hnamed : (s.advance p).named (s.port p).request = .ok e)
    (hb : (s.advance p).boundTarget p (s.port p).request e = .error st) : exec i s = .next (s.answered p k st .none) := by
  simp only [List.mem_cons, Prod.mk.injEq, List.not_mem_nil, or_false] at hi
  rcases hi with ⟨rfl, rfl⟩ | ⟨rfl, rfl⟩
  · exact exec_only h st .none (storedDecide_unbound hnamed hb)
  · exact exec_only h st .none (refuseDecide_unbound hnamed hb)

/-- Settles O45: one lemma of `State.boundTarget` per condition of R147, and R149's own, which only STORED has. -/
theorem storedAndRefuseCheckTarget : Obligations.StoredAndRefuseCheckTarget := by
  intro s p k i hi hoffers e r answers hle he hstripe
  have hnamed : (s.advance p).named r = .ok e := State.named_entry (s := s.advance p) hle he hstripe
  refine ⟨fun hbeyond => ?_, fun hin hc => ?_, fun m hm hc => ⟨fun hunbound => ?_, fun t n hs ht hd => ⟨fun hroute => ?_, ?_⟩⟩⟩
  · exact exec_unbound hi hoffers hnamed (State.boundTarget_beyond hbeyond)
  · exact exec_unbound hi hoffers hnamed (State.boundTarget_closed hin hc)
  · exact exec_unbound hi hoffers hnamed (State.boundTarget_unbound hm hc hunbound)
  · refine exec_unbound hi hoffers hnamed ((State.boundTarget_bound hm hc hs ht hd).trans (if_neg ?_))
    exact hroute
  · intro hroute hk huncovered
    subst hk
    obtain rfl : i = .stored p := by simpa using hi
    have hbound : (s.advance p).boundTarget p r e = .ok (t, n) :=
      (State.boundTarget_bound hm hc hs ht hd).trans (if_pos hroute)
    refine exec_only hoffers .early .none ((storedDecide_bound hnamed hbound).trans (if_neg ?_))
    obtain ⟨o, ho, hnot⟩ := huncovered
    rw [Target.coversAll_iff]
    exact fun hall => hnot (hall o ho)

end Sys2Proof.Machine
end

section
/-! PROOFS. The STORED and the REFUSE-FRAGMENT that are accepted (O46, O47). -/

namespace Sys2Proof.Machine

open Sys2Proof.Config

/-! ### STORED (R149, R52, R54) -/

section

variable {s u : State} {h : Handle} {e : Entry} {pos : Position} {m : Member}

/-- R149: the member is written, the load lowered, and the lost count reckoned. -/
theorem State.store_eq (he : s.entry? h = some e) (hm : e.members[pos]? = some m) (n : NodeId) : s.store h pos n =
    ((s.lowerLoad n).setEntry h { e with members := e.members.set pos (m.restored n) }).reckon h := by
  rw [State.store, State.modMember, State.modEntry_eq he, modify_eq_set hm]
  rfl

theorem Kept.store (s : State) (h : Handle) (pos : Position) (n : NodeId) : Kept s (s.store h pos n) :=
  ((Kept.modMember ..).trans (.lowerLoad ..)).trans (.reckon ..)

theorem State.reckon_unrecoverable (he : u.entry? h = some e) (hc : e.state ≠ .closed)
    (hm : (u.code e.profile).m < e.lostCount) : u.reckon h = u.closeEntry h (.failed .unrecoverable) := by
  simp only [State.reckon, he, if_neg hc, if_pos hm]

/-- R52: the reckoning of an entry writes no other. -/
theorem State.reckon_others (he : u.entry? h = some e) (hc : e.state ≠ .closed) (hs : e.submitters ≠ 0) :
    onlyEntry u (u.reckon h) h := by
  rcases Nat.lt_or_ge (u.code e.profile).m e.lostCount with hm | hm
  · rw [State.reckon_unrecoverable he hc hm]
    exact (State.closeEntry_spec he hc hs _).others
  rcases Nat.eq_zero_or_pos e.lostCount with h0 | hpos
  · exact (State.reckon_done he hc hs h0).others
  · rw [State.reckon_lives he hc hpos hm]
    exact (OneEntry.setEntry u h _).others

end

/-- Settles O46, by what R52 makes of the lost count that is left: a class (`State.reckon_lives`) or the close
(`State.reckon_done`). -/
theorem storedRestoresMember : Obligations.StoredRestoresMember := by
  intro s p e m t0 n hoffers r h hle he hstripe hc hs hm hrebuilding ht hd hroute hcovered kept stored pm lowered
  have hnamed : (s.advance p).named r = .ok e := State.named_entry (s := s.advance p) hle he hstripe
  have hbound : (s.advance p).boundTarget p r e = .ok (t0, n) :=
    (State.boundTarget_bound hm hc hrebuilding ht hd).trans (if_pos hroute)
  have hrestored : m.restored n = kept := by
    rw [Member.restored, ht]
    rfl
  let u := ((s.advance p).lowerLoad n).setEntry h stored
  have hstore : (s.advance p).store h r.position n = u.reckon h := by
    rw [State.store_eq (s := s.advance p) he hm, hrestored]
  have hdecide : storedDecide p r (s.advance p) = Answer.only (u.reckon h).refreshWaits .ok := by
    rw [storedDecide_bound hnamed hbound, if_pos ((t0.coversAll_iff e.chunks).mpr hcovered), hstore]
  have hu : u.entry? h = some stored := State.entry_put ..
  have hbefore : ∀ j, j ≠ h → u.entry? j = s.entry? j := fun j hj => (State.entry_setEntry ..).trans (if_neg hj)
  obtain ⟨t, hexec, hframe, hrest, htables⟩ := exec_kept hoffers hdecide (hstore ▸ Kept.store ..)
  refine ⟨t, hexec, hframe, fun j hj => ?_, fun hpos hmargin => ?_, fun hnone => ?_⟩
  · rw [← hbefore j hj, ← State.reckon_others hu hc hs j hj, ← hrest]
    rfl
  · have hlives : u.reckon h = u.setEntry h { stored with urgency := classFor pm stored.lostCount } :=
      State.reckon_lives hu hc hpos hmargin
    rw [hlives] at hdecide
    obtain ⟨t', hexec', hports, hrest'⟩ := exec_waits hoffers hdecide fun _ => rfl
    obtain rfl : t' = t := Host.Outcome.next.inj (hexec'.symm.trans hexec)
    refine ⟨?_, hports, ?_⟩
    · rw [← hrest']
      exact State.entry_put ..
    · rw [← hrest']
      rfl
  · have hcloses := (State.reckon_done hu hc hs hnone).rebase
    exact (hcloses.ports hrest htables).portsBefore (v := lowered) rfl (advance_tables s p)

/-! ### What follows a destination loss, seen beside other changes (R55, R59) -/

theorem State.busyWith_congr {s t : State} (hl : t.lanes = s.lanes) (hd : t.deliveries = s.deliveries)
    (ho : ∀ q, (t.port q).outputs = (s.port q).outputs) (h : Handle) : t.busyWith h ↔ s.busyWith h := by
  simp only [State.busyWith, hl, hd, ho]

/-- Changes of the ports that keep the fetch tables and the output queues, before the trigger and after it. -/
theorem passesOn.beside {u u' t t' : State} {h : Handle} {e : Entry} (k : passesOn u t h e)
    (hu : { u with ports := u'.ports } = u')
    (hbefore : ∀ q, (u'.port q).fetches = (u.port q).fetches ∧ (u'.port q).outputs = (u.port q).outputs)
    (ht : { t with ports := t'.ports } = t')
    (hafter : ∀ q, (t'.port q).fetches = (t.port q).fetches ∧ (t'.port q).outputs = (t.port q).outputs) :
    passesOn u' t' h e := by
  have hbusy : u'.busyWith h ↔ u.busyWith h :=
    State.busyWith_congr (by rw [← hu]) (by rw [← hu]) (fun q => (hbefore q).2) h
  refine ⟨fun j hj => ?_, fun hs => ?_, fun hd hidle => ?_⟩
  · rw [← ht, ← hu]
    exact k.others j hj
  · exact ((k.stands (hs.imp_right hbusy.mp)).ports ht hafter).portsBefore hu hbefore
  · exact ((k.drained hd (mt hbusy.mpr hidle)).ports ht hafter).portsBefore hu hbefore

theorem port_lossState (s : State) (h : Handle) (lost : Position → Bool) (n : NodeId) (count : Nat) (q : PortId) :
    (lossState s h lost n count).port q = (s.port q).withoutOutputs h lost := mapVec_get _ s.ports q

/-- R146: the loss takes the same outputs from two ports with the same queue, and no fetch from either. -/
theorem lossState_tables {s s' : State} (h : Handle) (lost : Position → Bool) (n : NodeId) (count : Nat)
    (hq : ∀ q, (s'.port q).fetches = (s.port q).fetches ∧ (s'.port q).outputs = (s.port q).outputs) (q : PortId) :
    ((lossState s' h lost n count).port q).fetches = ((lossState s h lost n count).port q).fetches
      ∧ ((lossState s' h lost n count).port q).outputs = ((lossState s h lost n count).port q).outputs := by
  obtain ⟨hfetches, houtputs⟩ := hq q
  simp only [port_lossState, Port.withoutOutputs, hfetches, houtputs, and_self]

/-- R141: the cells of queued outputs are read from the queues. -/
theorem queuedCell_congr {s s' : State} (hq : ∀ q, (s'.port q).outputs = (s.port q).outputs) (h : Handle)
    (lost : Position → Bool) : queuedCell s' h lost = queuedCell s h lost :=
  funext fun c => by simp only [queuedCell, hq]

/-! ### Destination losses outside a sweep (R146) -/

/-- R146: in the step from `s` to `t` the target of the entry at `h` at a position that `lost` names loses the node `n`, which
makes `e` of the entry, and a replan trigger follows. -/
def destinationLost (s t : State) (h : Handle) (lost : Position → Bool) (n : NodeId) (e : Entry) : Prop :=
  ∃ v, afterRelease (lossState s h lost n 1) v (queuedCell s h lost) ∧ passesOn v t h e

section

variable {s s' t t' : State} {h : Handle} {lost : Position → Bool} {n : NodeId} {e : Entry}

theorem destinationLost.attempt (k : destinationLost s t h lost n e) : t.attempt = true := by
  obtain ⟨v, hreleased, hpasses⟩ := k
  exact hpasses.attempt (hreleased.attempt.mpr (.inl (by simp [lossState])))

/-- Changes of the ports that keep the fetch tables and the output queues, before the loss and after it. -/
theorem destinationLost.beside (k : destinationLost s t h lost n e) (hs : { s with ports := s'.ports } = s')
    (hbefore : ∀ q, (s'.port q).fetches = (s.port q).fetches ∧ (s'.port q).outputs = (s.port q).outputs)
    (ht : { t with ports := t'.ports } = t')
    (hafter : ∀ q, (t'.port q).fetches = (t.port q).fetches ∧ (t'.port q).outputs = (t.port q).outputs) :
    destinationLost s' t' h lost n e := by
  obtain ⟨v, hreleased, hpasses⟩ := k
  have htables := lossState_tables h lost n 1 hbefore
  have hloss : { lossState s h lost n 1 with ports := (lossState s' h lost n 1).ports } = lossState s' h lost n 1 := by
    rw [← hs]
    rfl
  rw [destinationLost, queuedCell_congr fun q => (hbefore q).2]
  generalize lossState s' h lost n 1 = w at htables hloss ⊢
  refine ⟨{ v with ports := w.ports }, ?_, hpasses.beside rfl (fun q => ?_) ht hafter⟩
  · refine hreleased.rebase (by rw [← hloss]) (by rw [← hloss]) (by rw [← hloss]) ?_
    rw [← hreleased.rest, ← hloss]
  · rw [hreleased.port q]
    exact htables q

end

/-- R146, R55, R59: a destination loss. -/
theorem State.loseDestination_loses {s : State} {h : Handle} {e : Entry} {pos : Position} {m : Member} {t0 : Target}
    {n : NodeId} (he : s.entry? h = some e) (hs : e.submitters ≠ 0) (hm : e.members[pos]? = some m)
    (ht : m.target = some t0) (hst : t0.stored = false) (hd : t0.dest = some n) :
    destinationLost s (s.loseDestination true h pos) h (· == pos) n
      { e with members := e.members.set pos { m with target := some (t0.unbound s h pos n) } } :=
  State.loseDestination_spec he hs hm ht hst hd

/-- Settles O47: the refusal is a destination loss (`State.loseDestination_loses`) between the taking of the request and
its answer. -/
theorem refuseFragmentLosesDestination : Obligations.RefuseFragmentLosesDestination := by
  intro s p e m t0 n hoffers r h hle he hstripe hc hs hm hrebuilding ht hst hd hroute lost
  have hnamed : (s.advance p).named r = .ok e := State.named_entry (s := s.advance p) hle he hstripe
  have hbound : (s.advance p).boundTarget p r e = .ok (t0, n) :=
    (State.boundTarget_bound hm hc hrebuilding ht hd).trans (if_pos hroute)
  obtain ⟨t, hexec, hframe, hrest, htables⟩ :=
    exec_kept hoffers (refuseDecide_bound hnamed hbound) (Kept.loseDestination ..)
  have hloses := (State.loseDestination_loses (s := s.advance p) he hs hm ht hst hd).beside (s' := s) rfl
    (advance_tables s p) hrest htables
  obtain ⟨v, hreleased, hpasses⟩ := hloses
  exact ⟨t, v, hexec, hframe, destinationLost.attempt ⟨v, hreleased, hpasses⟩, hreleased, hpasses⟩

end Sys2Proof.Machine
end

section
/-! PROOFS. The beginning of a delivery, and the landing timeout (O48, O50). -/

namespace Sys2Proof.Machine

open Sys2Proof.Config

/-! ### Events that treat the waits (R145, R167) -/

/-- An event that raises no event line and then treats the waits. -/
theorem event_waits {s t : State} (hreset : s.inReset = false) (hline : ∀ q, (t.port q).line = (s.port q).line) :
    event s true t.refreshWaits = .next t.refreshWaits := by
  have hwaits : ∀ q, (t.refreshWaits.port q).line = (s.port q).line := fun q => by
    have hq := port_refreshWaits t q
    generalize t.refreshWaits.port q = y at hq ⊢
    rw [hq, ← hline]
    rfl
  rw [event_next hreset rfl]
  generalize t.refreshWaits = u at hwaits ⊢
  exact congrArg _ (countRises_eq (fun q => Port.risen_of_line_eq (hwaits q)) rfl)

/-- What comes before the treatment of the waits shows in the ports but for their waits, which count from the state in which
they were last treated. -/
theorem port_refreshWaits_after {s t : State} {q : PortId} (hw : (t.port q).wait = (s.port q).wait) :
    t.refreshWaits.port q = { t.port q with wait := waitAfter s t.refreshWaits q } := by
  rw [← wait_after_refreshWaits hw]
  exact port_refreshWaits t q

/-! ### The oldest current output (R141, R145) -/

section

variable {s : State} {p : PortId} {o : Output} {pre post : List Output}

theorem State.oldestCurrent_eq_none (h : ∀ o ∈ (s.port p).outputs, ¬(s.node o.dest).state ≠ .down) :
    s.oldestCurrent p = none :=
  List.find?_eq_none.mpr fun o ho hcurrent => h o ho ((NodeState.current_iff _).mp hcurrent)

theorem State.oldestCurrent_eq_some (houtputs : (s.port p).outputs = pre ++ o :: post)
    (hpre : ∀ x ∈ pre, ¬(s.node x.dest).state ≠ .down) (ho : (s.node o.dest).state ≠ .down) :
    s.oldestCurrent p = some o := by
  rw [State.oldestCurrent, houtputs, List.find?_eq_some_iff_append]
  refine ⟨(NodeState.current_iff _).mpr ho, pre, post, rfl, fun x hx => ?_⟩
  rw [Bool.not_eq_true', ← Bool.not_eq_true, NodeState.current_iff]
  exact hpre x hx

end

/-! ### The beginning of a delivery (R142) -/

section

variable {s : State} {p : PortId} {o : Output} {buffer : U64} {rest : List U64}

theorem Port.allowsTransfer_iff (q : Port) :
    q.allowsTransfer = true ↔ q.held = false ∧ (q.budget.active = 0 ∨ q.budget.used < q.budget.active) := by
  simp [Port.allowsTransfer]

theorem State.mayDeliver_iff (s : State) (p : PortId) : s.mayDeliver p = true ↔
    (s.port p).state = .up
      ∧ (s.port p).responses.countP Record.isLanded + s.deliveries.countP (fun d => decide (d.port = p)) < 32
      ∧ (s.port p).held = false ∧ ((s.port p).budget.active = 0 ∨ (s.port p).budget.used < (s.port p).budget.active) := by
  simp only [State.mayDeliver, Bool.and_eq_true, beq_iff_eq, decide_eq_true_eq, Port.allowsTransfer_iff, and_assoc]
  rfl

theorem exec_deliveryBegin (p : PortId) (s : State) : exec (.deliveryBegin p) s = execDeliveryBegin p s := rfl

theorem exec_deliveryBegin_idle
    (h : ¬s.mayDeliver p = true ∨ (s.port p).landing = [] ∨ s.oldestCurrent p = none) :
    exec (.deliveryBegin p) s = .next s := by
  rw [exec_deliveryBegin, execDeliveryBegin]
  split
  · next o buffer rest ho hl =>
    refine event_idle (.inr (Bool.eq_false_iff.mpr ?_))
    rcases h with hmay | hempty | hnone
    · exact hmay
    · rw [hempty] at hl
      cases hl
    · rw [hnone] at ho
      cases ho
  · exact event_idle (.inr rfl)

/-- The port whose output and buffer a delivery takes, charged with the transfer. -/
def Port.delivering (q : Port) (o : Output) (rest : List U64) : Port :=
  Port.charge { q with outputs := q.outputs.filter fun x => decide (x.cell ≠ o.cell), landing := rest }

/-- R142: the state before the waits are treated. -/
def State.deliveryBegun (s : State) (p : PortId) (o : Output) (buffer : U64) (rest : List U64) : State :=
  { s.setPort p ((s.port p).delivering o rest) with deliveries := s.deliveries ++ [⟨p, o, buffer, true⟩] }

theorem State.port_deliveryBegun (s : State) (p k : PortId) (o : Output) (buffer : U64) (rest : List U64) :
    (s.deliveryBegun p o buffer rest).port k = if k = p then (s.port p).delivering o rest else s.port k :=
  State.port_setPort ..

theorem State.beginDelivery_eq (s : State) (p : PortId) (o : Output) (buffer : U64) (rest : List U64) :
    s.beginDelivery p o buffer rest = (s.deliveryBegun p o buffer rest).refreshWaits := by
  have hfilter : ((s.port p).outputs.filter fun x => x.cell != o.cell) =
      (s.port p).outputs.filter fun x => decide (x.cell ≠ o.cell) :=
    List.filter_congr fun x _ => by rw [Bool.eq_iff_iff]; simp
  rw [State.deliveryBegun, Port.delivering, ← hfilter]
  rfl

theorem exec_deliveryBegin_begins (hreset : s.inReset = false) (hmay : s.mayDeliver p = true)
    (ho : s.oldestCurrent p = some o) (hl : (s.port p).landing = buffer :: rest) :
    exec (.deliveryBegin p) s = .next (s.deliveryBegun p o buffer rest).refreshWaits := by
  rw [exec_deliveryBegin, execDeliveryBegin, ho, hl]
  dsimp only
  rw [hmay, State.beginDelivery_eq]
  refine event_waits hreset fun q => ?_
  rw [State.port_deliveryBegun]
  split
  · next hq =>
    rw [hq]
    rfl
  · rfl

end

/-- Settles O48: the state is `State.deliveryBegun`, and the waits are those of `port_refreshWaits_after`. -/
theorem deliveryBeginTakesOutputAndBuffer : Obligations.DeliveryBeginTakesOutputAndBuffer := by
  intro s p hreset q current may
  refine ⟨fun hidle => ?_, fun pre post o buffer rest hmay houtputs hpre ho hl => ?_⟩
  · refine exec_deliveryBegin_idle (hidle.imp (mt (s.mayDeliver_iff p).mp) (.imp_right fun hnone => ?_))
    exact State.oldestCurrent_eq_none hnone
  intro left
  have hexec := exec_deliveryBegin_begins hreset ((s.mayDeliver_iff p).mpr hmay)
    (State.oldestCurrent_eq_some houtputs hpre ho) hl
  have hport : ∀ k, (s.deliveryBegun p o buffer rest).refreshWaits.port k =
      { (s.deliveryBegun p o buffer rest).port k with
        wait := waitAfter s (s.deliveryBegun p o buffer rest).refreshWaits k } := fun k => by
    refine port_refreshWaits_after ?_
    rw [State.port_deliveryBegun]
    split
    · next hk =>
      rw [hk]
      rfl
    · rfl
  have hrest := rest_refreshWaits (s.deliveryBegun p o buffer rest)
  generalize (s.deliveryBegun p o buffer rest).refreshWaits = t at hexec hport hrest
  have hown := hport p
  rw [State.port_deliveryBegun, if_pos rfl] at hown
  have hup : (t.port p).state = .up := by
    rw [hown]
    exact hmay.1
  have hcurrent : (∃ x ∈ (t.port p).outputs, (t.node x.dest).state ≠ .down) ↔ ∃ x ∈ left, current x := by
    rw [hown, ← hrest]
    rfl
  have hlanding : (t.port p).landing = rest := by rw [hown]; rfl
  have hwait : (t.port p).wait = waitAfter s t p := by rw [hown]
  refine ⟨t, hexec, ?_, fun k hk => ?_, hown, fun hends => ?_, fun hempty hleft hnone => ?_⟩
  · rw [← hrest]
    rfl
  · rw [hport, State.port_deliveryBegun, if_neg hk]
  · rw [hwait, waitAfter, if_neg]
    rintro ⟨-, hl', hx⟩
    obtain ⟨x, hx, hxc⟩ := hcurrent.mp hx
    exact hends.elim (fun hne => hne (hlanding.symm.trans hl')) fun hno => hno x hx hxc
  · rw [hwait, waitAfter, if_pos ⟨hup, hlanding.trans hempty, hcurrent.mpr hleft⟩, ← hrest]
    change some ((s.port p).wait.getD (s.timebase + BitVec.ofNat 48 s.landingTimeout)) = _
    rw [show (s.port p).wait = none from hnone]
    rfl

/-! ### The landing timeout (R145, R146) -/

/-- What an operation keeps it keeps beside the end of a landing wait. -/
theorem Kept.setWait {s t : State} (k : Kept s t) (p : PortId) (w : Option U48) :
    Kept (s.setPort p { s.port p with wait := w }) (t.modPort p fun q => { q with wait := w }) where
  inReset := k.inReset
  quorum := k.quorum
  sweep := k.sweep
  sequenceCounter := k.sequenceCounter
  window := k.window
  fetchTimeout := k.fetchTimeout
  transfers := k.transfers
  lanes := k.lanes
  landingTimeout := k.landingTimeout
  timebase := k.timebase
  nextBoundary := k.nextBoundary
  epochLength := k.epochLength
  fresh := k.fresh
  pending := k.pending
  port q := by
    rw [port_modPort, State.port_setPort]
    by_cases hq : q = p
    · rw [if_pos hq, if_pos hq]
      conv_lhs => rw [k.port p]
    · rw [if_neg hq, if_neg hq]
      exact k.port q
  deliveriesOn := k.deliveriesOn
  selector := k.selector
  stamps := k.stamps
  matrix := k.matrix

theorem destinationLost.count {s t : State} {h : Handle} {lost : Position → Bool} {n : NodeId} {e : Entry}
    (k : destinationLost s t h lost n e) {i : Fin 18} (hi : i ≠ 5) :
    destinationLost (s.count i) (t.count i) h lost n e := by
  obtain ⟨v, hreleased, hothers, hstands, hdrained⟩ := k
  refine ⟨v.count i, hreleased.rebase rfl rfl rfl ?_, hothers, fun hs => (hstands hs).count i,
    fun hd hidle => (hdrained hd hidle).count hi.symm⟩
  rw [← hreleased.rest]
  rfl

/-- R146, R55, R59: a destination loss changes no node but for its load. -/
theorem destinationLost.node_state {s t : State} {h : Handle} {lost : Position → Bool} {n : NodeId} {e : Entry}
    (k : destinationLost s t h lost n e) (i : NodeId) : (t.node i).state = (s.node i).state := by
  obtain ⟨u, hreleased, k⟩ := k
  have hloss : (u.node i).state = (s.node i).state := by
    rw [← hreleased.rest]
    refine (congrArg Node.state (node_lossState s h lost n 1 i)).trans ?_
    split
    · next hi => rw [hi]
    · rfl
  rw [← hloss]
  by_cases hs : e.state ≠ .draining ∨ u.busyWith h
  · rw [← (k.stands hs).rest]
    rfl
  · obtain ⟨hd, hb⟩ := not_or.mp hs
    rw [(k.drained (not_ne_iff.mp hd) hb).loads]

section

variable {s : State} {p : PortId} {o : Output}

theorem exec_landingTimeout (ho : s.oldestCurrent p = some o) (hw : (s.port p).wait = some s.timebase) :
    exec (.landingTimeout p) s = event s true (s.expireWait p o) := by
  have hexec : exec (.landingTimeout p) s = execLandingTimeout p s := rfl
  simp only [hexec, execLandingTimeout, ho, State.waitReached, hw, deadlineReached_self]

/-- The state in which the wait is over and its timeout counted. -/
def State.waitOver (s : State) (p : PortId) : State := (s.count 11).setPort p { s.port p with wait := none }

/-- The expiry before the waits are treated. -/
def State.expired (s : State) (p : PortId) (o : Output) : State :=
  ((s.loseDestination true o.handle o.position).count 11).modPort p fun q => { q with wait := none }

theorem State.expired_kept (s : State) (p : PortId) (o : Output) : Kept (s.waitOver p) (s.expired p o) :=
  (((Kept.countBefore s 11).trans (.loseDestination ..)).trans (.count ..)).setWait p none

theorem port_setWait (s t : State) (p q : PortId) (hq : t.ports = (s.setPort p { s.port p with wait := none }).ports) :
    t.port q = { s.port q with wait := if q = p then none else (s.port q).wait } := by
  rw [congrFun (State.port_congr hq) q, State.port_setPort]
  split
  · next h => rw [h]
  · rfl

theorem exec_landingTimeout_expires (hreset : s.inReset = false) (ho : s.oldestCurrent p = some o)
    (hw : (s.port p).wait = some s.timebase) :
    exec (.landingTimeout p) s = .next (s.expired p o).refreshWaits := by
  rw [exec_landingTimeout ho hw]
  refine event_waits (t := s.expired p o) hreset fun q => ?_
  rw [(s.expired_kept p o).port q, port_setWait s (s.waitOver p) p q rfl]
  rfl

end

/-- Settles O50: the expiry is a destination loss (`State.loseDestination_beside`) with its timeout counted and the wait
ended. -/
theorem landingTimeoutTakesDestination : Obligations.LandingTimeoutTakesDestination := by
  intro s p pre post o e m t0 n hreset hw houtputs hpre ho he hc hs hm ht hst hd counted lost
  have hexec := exec_landingTimeout_expires hreset
    (State.oldestCurrent_eq_some houtputs (fun x hx hne => hne (hpre x hx)) ho) hw
  have hframe : workFrame counted (s.expired p o).refreshWaits := (s.expired_kept p o).workFrame
  have hrest := rest_refreshWaits (s.expired p o)
  have hafter := port_refreshWaits (s.expired p o)
  generalize (s.expired p o).refreshWaits = t at hexec hframe hrest hafter
  have hbefore : ∀ q, (counted.port q).fetches = (s.port q).fetches ∧ (counted.port q).outputs = (s.port q).outputs :=
    fun q => by
      rw [port_setWait s counted p q rfl]
      exact ⟨rfl, rfl⟩
  have hlost : destinationLost counted t o.handle (· == o.position) n lost := by
    refine ((State.loseDestination_loses he hs hm ht hst hd).count (i := 11) (by decide)).beside rfl hbefore hrest ?_
    intro q
    rw [hafter, State.expired, port_modPort]
    split
    · next hq =>
      rw [hq]
      exact ⟨rfl, rfl⟩
    · exact ⟨rfl, rfl⟩
  have hattempt := hlost.attempt
  have hnode := hlost.node_state
  obtain ⟨v, hreleased, hpasses⟩ := hlost
  rw [queuedCell_congr fun q => (hbefore q).2] at hreleased
  refine ⟨t, v, hexec, hframe, hattempt, hreleased, hpasses, ?_⟩
  obtain ⟨huntouched, hports⟩ := hframe
  have hp := hports p
  rw [Port.worked, port_setWait s counted p p rfl] at hp
  have hwait : (t.port p).wait = waitAfter counted t p := by rw [hp]
  have hstate : (t.port p).state = (s.port p).state := by rw [hp]
  have hlanding : (t.port p).landing = (s.port p).landing := by rw [hp]
  have hover : (counted.port p).wait = none := by
    rw [port_setWait s counted p p rfl]
    exact if_pos rfl
  simp only [hwait, waitAfter, hstate, hlanding, hnode, hover, huntouched.timebase, huntouched.landingTimeout,
    Option.getD_none]
  rfl

end Sys2Proof.Machine
end

section
/-! PROOFS. The end of a delivery (O49). -/

namespace Sys2Proof.Machine

open Sys2Proof.Config

/-! ### The bytes in the buffer (R143, log 12) -/

/-- The mover writes every byte of a chunk that fits the address space, byte `i` of it where `i` is the distance from the
buffer's address. -/
theorem find_landBytes_all (bytes : List Byte) (mem : Table Byte) (address a : U64) (k : Nat)
    (hfit : k + bytes.length ≤ 2 ^ 64) : Table.find (landBytes mem address (fun _ => true) k bytes) a.toNat =
      if k ≤ (a - address).toNat ∧ (a - address).toNat < k + bytes.length then bytes[(a - address).toNat - k]?
      else Table.find mem a.toNat := by
  induction bytes generalizing mem k with
  | nil =>
    rw [if_neg (by simp only [List.length_nil]; omega)]
    rfl
  | cons b rest ih =>
    rw [List.length_cons] at hfit ⊢
    have hplace : a.toNat = (address + BitVec.ofNat 64 k).toNat ↔ (a - address).toNat = k := by
      bv_omega
    rw [landBytes, if_pos rfl, ih _ _ (by omega), Table.find_put, if_congr hplace rfl rfl]
    generalize (a - address).toNat = i
    rcases Nat.lt_trichotomy i k with hlt | rfl | hgt
    · rw [if_neg (by omega), if_neg (by omega), if_neg (by omega)]
    · rw [if_neg (by omega), if_pos rfl, if_pos (by omega), Nat.sub_self, List.getElem?_cons_zero]
    · have hsucc : i - k = i - (k + 1) + 1 := by omega
      rw [if_neg (show ¬i = k by omega), hsucc, List.getElem?_cons_succ]
      exact if_congr (by omega) rfl rfl

/-! ### What a close, a settling and a draining leave of the deliveries and of the other entries -/

section

variable (s : State) (h : Handle)

theorem deliveries_removeIfDone : (s.removeIfDone h).deliveries = s.deliveries := by rw [← s.rest_removeIfDone h]

theorem deliveries_dropPlan : (s.dropPlan h).deliveries = s.deliveries := by
  cases he : s.entry? h with
  | none => rw [State.dropPlan_absent he]
  | some e => rw [← (State.dropPlan_spec he).rest]

theorem deliveries_releaseTargets : (s.releaseTargets h).deliveries = s.deliveries := by
  cases he : s.entry? h with
  | none => simp only [State.releaseTargets, he]
  | some e => rw [← (State.releaseTargets_spec he).rest]

theorem deliveries_withdrawFetches : (s.withdrawFetches h).deliveries = s.deliveries := by
  rw [← (s.withdrawFetches_spec h).rest]

theorem deliveries_freeOutputs (f : Output → Bool) : (s.freeOutputs f).deliveries = s.deliveries := by
  rw [← (s.freeOutputs_spec f).rest]

theorem deliveries_closeEntry (o : EntryOutcome) : (s.closeEntry h o).deliveries = s.deliveries := by
  cases he : s.entry? h with
  | none => simp only [State.closeEntry, he]
  | some e =>
    by_cases hc : e.state = .closed
    · simp only [State.closeEntry, he, if_pos hc]
    have hbegun : (s.beginClose h e o).deliveries = s.deliveries := by
      unfold State.beginClose
      split <;> rfl
    rw [State.closeEntry_eq he hc, deliveries_removeIfDone, State.count_deliveries, deliveries_releaseTargets,
      deliveries_freeOutputs, deliveries_withdrawFetches, deliveries_dropPlan, hbegun]

theorem deliveries_closeIfDrained : (s.closeIfDrained h).deliveries = s.deliveries := by
  unfold State.closeIfDrained
  split
  · split
    · exact deliveries_closeEntry ..
    · rfl
  · rfl

theorem deliveries_settleIfDone : (s.settleIfDone h).deliveries = s.deliveries := by
  unfold State.settleIfDone
  split
  · split
    · exact deliveries_dropPlan ..
    · rfl
  · rfl

end

/-! ### The cover of an offset (R143) -/

section

variable (s : State) (o : Output)

theorem State.cover_entries : ∃ u : State, s.cover o = u.count 8 ∧ { s with entries := u.entries } = u
    ∧ OneEntry o.handle s u := by
  refine ⟨_, rfl, ?_, .modEntry ..⟩
  unfold State.modTarget State.modMember State.modEntry
  split <;> rfl

theorem deliveries_cover : (s.cover o).deliveries = s.deliveries := by
  obtain ⟨u, hcover, hrest, -⟩ := s.cover_entries o
  rw [hcover, State.count_deliveries, ← hrest]

theorem Kept.cover : Kept s (s.cover o) := (Kept.modTarget ..).trans (.count ..)

theorem OneEntry.cover : OneEntry o.handle s (s.cover o) := .trans (.modEntry ..) (.count ..)

end

section

variable (s : State) (d : Delivery)

/-! ### What every end of a delivery leaves alone -/

theorem Kept.creditDelivery : Kept s (s.creditDelivery d) := by
  unfold State.creditDelivery
  split
  · exact .ite (.removeIfDone ..) (.ite (((Kept.cover ..).trans (.settleIfDone ..)).trans (.closeIfDrained ..))
      (.closeIfDrained ..))
  · exact .refl s

theorem deliveries_creditDelivery : (s.creditDelivery d).deliveries = s.deliveries := by
  unfold State.creditDelivery
  split
  · split
    · exact deliveries_removeIfDone ..
    · split
      · rw [deliveries_closeIfDrained, deliveries_settleIfDone, deliveries_cover]
      · exact deliveries_closeIfDrained ..
  · rfl

theorem State.creditDelivery_others (hr : s.rising) : onlyEntry s (s.creditDelivery d) d.output.handle := by
  unfold State.creditDelivery
  split
  · split
    · exact State.removeIfDone_others hr _
    · split
      · have hsettled := (OneEntry.cover s d.output).trans (.settleIfDone _ _)
        exact fun j hj => (State.closeIfDrained_others (hsettled.rising hr) _ j hj).trans (hsettled.others j hj)
      · exact State.closeIfDrained_others hr _
  · exact fun _ _ => rfl

/-! ### The chunk in the buffer and its notice (R143, R165, R167) -/

/-- The memory of the host once the chunk stands in its buffer. -/
def State.landedMem : Table Byte :=
  landBytes (s.port d.port).hostMem d.buffer (fun _ => true) 0 ((s.bytesOf d.output.cell).take d.output.length)

/-- The deliveries without that of the chunk's cell. -/
def State.otherDeliveries : List Delivery :=
  s.deliveries.filter fun (y : Delivery) => decide (y.output.cell ≠ d.output.cell)

/-- The delivery over, its bytes in the buffer and its notice placed, its cell still held. -/
def State.chunkLanded : State :=
  (({ s with deliveries := s.otherDeliveries d } : State).modPort d.port fun q =>
    { q with hostMem := s.landedMem d }).place d.port d.notice

/-- The same with the interrupt of the notice counted. -/
def State.chunkNoticed : State :=
  { s.setPort d.port (Port.received { s.port d.port with hostMem := s.landedMem d } d.notice) with
    deliveries := s.otherDeliveries d }

theorem State.endDelivery_eq :
    s.endDelivery d = ((s.chunkLanded d).release d.output.cell).creditDelivery d := rfl

theorem countRises_chunkLanded : countRises s (s.chunkLanded d) = s.chunkNoticed d := by
  refine countRises_eq (fun k => ?_) rfl
  refine Eq.trans ?_ (State.port_setPort s d.port k _).symm
  rw [State.chunkLanded, port_place, port_modPort, port_modPort, if_pos rfl]
  split
  · next hk =>
    rw [hk]
    exact Port.risen_place _ rfl rfl rfl
  · exact Port.risen_of_line_eq rfl

theorem exec_deliveryEnd {s : State} {d : Delivery}
    (hfind : (s.deliveries.find? fun y => decide (y.output.cell = d.output.cell)) = some d) :
    exec (.deliveryEnd d.output.cell) s
      = event s true (((s.chunkLanded d).release d.output.cell).creditDelivery d).refreshWaits := by
  have hexec : exec (.deliveryEnd d.output.cell) s = execDeliveryEnd d.output.cell s := rfl
  simp only [hexec, execDeliveryEnd, hfind, State.endDelivery_eq]

end

/-! ### What the credit decides (R143, R144) -/

/-- The entry with the offset of an output added to the coverage of the output's target. -/
def Entry.covering (e : Entry) (o : Output) (m : Member) (t0 : Target) : Entry :=
  let widened : Member := { m with target := some { t0 with coverage := insertSorted o.offset t0.coverage } }
  { e with members := e.members.set o.position widened }

section

variable {w : State} {d : Delivery} {e : Entry}

theorem State.creditDelivery_absent (he : w.entry? d.output.handle = none) : w.creditDelivery d = w := by
  simp only [State.creditDelivery, he]

variable (he : w.entry? d.output.handle = some e)

include he

theorem State.creditDelivery_closed (hc : e.state = .closed) :
    w.creditDelivery d = w.removeIfDone d.output.handle := by
  simp only [State.creditDelivery, he, if_pos hc]

variable (hc : e.state ≠ .closed)

include hc

theorem State.creditDelivery_disowned (hd : d.owned = false) :
    w.creditDelivery d = w.closeIfDrained d.output.handle := by
  simp only [State.creditDelivery, he, if_neg hc, hd, Bool.false_eq_true, if_false]

theorem State.creditDelivery_owned (hd : d.owned = true) {m : Member} {t0 : Target}
    (hm : e.members[d.output.position]? = some m) (ht : m.target = some t0) : w.creditDelivery d =
      (((w.count 8).setEntry d.output.handle (e.covering d.output m t0)).settleIfDone d.output.handle).closeIfDrained
        d.output.handle := by
  simp only [State.creditDelivery, he, if_neg hc, hd, if_true, State.cover, State.modTarget, State.modMember,
    State.modEntry_eq he, modify_eq_set hm, ht, Option.map_some]
  rfl

end

/-! ### Settling and draining (R53, R59) -/

section

variable {u : State} {h : Handle} {f : Entry} (hf : u.entry? h = some f)

include hf

theorem State.closeIfDrained_stays (hn : f.state ≠ .draining ∨ u.busyWith h) : u.closeIfDrained h = u := by
  by_cases hd : f.state = .draining
  · exact State.closeIfDrained_busy hf hd (hn.resolve_left (not_not.mpr hd))
  · simp only [State.closeIfDrained, hf, hd, false_and, if_false]

theorem State.closeIfDrained_closes (hd : f.state = .draining) (hidle : ¬u.busyWith h) (hs : f.submitters ≠ 0) :
    closes u (u.closeIfDrained h) h f (.failed .cancelled) := by
  rw [State.closeIfDrained_idle hf hd hidle]
  exact State.closeEntry_spec hf (by simp [hd]) hs _

end

/-! ### The end of a delivery, seen beside the interrupt of its notice -/

/-- R63: an entry stays or goes as it does beside any change of the ports. -/
theorem staysUnlessDone.ports {s v t u : State} {h : Handle} {e : Entry} (k : staysUnlessDone v t h e)
    (hprofiles : v.profiles = s.profiles) (hu : { t with ports := u.ports } = u) : staysUnlessDone s u h e := by
  have howes : owesNothing u h e = owesNothing t h e := by
    rw [← hu]
    rfl
  have hentry : u.entry? h = t.entry? h := by
    rw [← hu]
    rfl
  have hprofilesu : u.profiles = t.profiles := by rw [← hu]
  unfold staysUnlessDone State.profile at k ⊢
  rwa [howes, hprofilesu, hentry, ← hprofiles]

/-- The states around the credit of a delivery: the notice placed in `n`, the cell released from it in `v`, and the step's
end `t`; the credit itself takes place in `w`, which has no interrupt counted yet. -/
structure CreditSeen (d : Delivery) (n v w t : State) : Prop where
  released : afterRelease n v (· = d.output.cell)
  before : { w with ports := v.ports } = v
  queues : ∀ q, (v.port q).fetches = (w.port q).fetches ∧ (v.port q).outputs = (w.port q).outputs
  after : { w.creditDelivery d with ports := t.ports } = t
  queuesAfter : ∀ q, (t.port q).fetches = ((w.creditDelivery d).port q).fetches
    ∧ (t.port q).outputs = ((w.creditDelivery d).port q).outputs
  frame : workFrame n t

section

variable {d : Delivery} {n v w t u : State} {e f : Entry} (k : CreditSeen d n v w t)

include k

theorem CreditSeen.portsButWaits (hp : (w.creditDelivery d).ports = w.ports) : portsButWaits n t := by
  refine k.frame.portsButWaits fun q => ?_
  obtain ⟨hfetches, houtputs⟩ := k.queuesAfter q
  obtain ⟨hfetchesv, houtputsv⟩ := k.queues q
  rw [congrFun (State.port_congr hp) q] at hfetches houtputs
  rw [k.released.port q] at hfetchesv houtputsv
  exact ⟨hfetches.trans hfetchesv.symm, houtputs.trans houtputsv.symm⟩

/-- What the notice and the release of the cell leave of the work under way. -/
theorem CreditSeen.busyWith_iff (h : Handle) : w.busyWith h ↔ n.busyWith h := by
  have hbefore := k.before
  have hreleased := k.released.rest
  refine State.busyWith_congr ?_ ?_ (fun q => ?_) h
  · calc w.lanes = v.lanes := by rw [← hbefore]
      _ = n.lanes := by rw [← hreleased]
  · calc w.deliveries = v.deliveries := by rw [← hbefore]
      _ = n.deliveries := by rw [← hreleased]
  · rw [← (k.queues q).2, k.released.port q]

/-- R144: no entry stands at the handle. -/
theorem CreditSeen.of_absent (he : w.entry? d.output.handle = none) :
    Machine.portsButWaits n t ∧ { v with ports := t.ports } = t := by
  have hafter := k.after
  have hcredit := State.creditDelivery_absent he
  refine ⟨k.portsButWaits (by rw [hcredit]), ?_⟩
  rw [hcredit] at hafter
  rw [← hafter, ← k.before]

/-- R144, R63: the entry is CLOSED. -/
theorem CreditSeen.of_closed (he : w.entry? d.output.handle = some e) (hc : e.state = .closed) :
    Machine.portsButWaits n t ∧ { v with entries := t.entries, profiles := t.profiles, ports := t.ports } = t
      ∧ (w.rising → staysUnlessDone w t d.output.handle e) := by
  have hafter := k.after
  have hcredit := State.creditDelivery_closed he hc
  have hremoved := w.rest_removeIfDone d.output.handle
  refine ⟨k.portsButWaits (by rw [hcredit, ← hremoved]), ?_, fun hr => ?_⟩
  · rw [hcredit] at hafter
    rw [← hafter, ← k.before, ← hremoved]
  · rw [hcredit] at hafter
    obtain ⟨hstays, -⟩ := State.removeIfDone_spec hr he
    exact hstays.ports rfl hafter

/-- R59: the credit ends with what a DRAINING entry makes of the state `u`, which holds beside `w` an entry and a count. -/
theorem CreditSeen.drains (hcredit : w.creditDelivery d = u.closeIfDrained d.output.handle)
    (hu : { w with entries := u.entries, counters := u.counters } = u) (hf : u.entry? d.output.handle = some f) :
    (f.state ≠ .draining ∨ n.busyWith d.output.handle → t.entry? d.output.handle = some f ∧ Machine.portsButWaits n t
      ∧ { v with entries := t.entries, counters := u.counters, ports := t.ports } = t)
    ∧ (f.state = .draining → ¬n.busyWith d.output.handle → f.submitters ≠ 0 →
        closes u t d.output.handle f (.failed .cancelled)) := by
  have hbusy : u.busyWith d.output.handle ↔ n.busyWith d.output.handle := by
    rw [← k.busyWith_iff, ← hu]
    rfl
  have hafter := k.after
  refine ⟨fun hn => ?_, fun hd hidle hs => ?_⟩
  · rw [State.closeIfDrained_stays hf (hn.imp_right hbusy.mpr)] at hcredit
    rw [hcredit] at hafter
    refine ⟨?_, k.portsButWaits (by rw [hcredit, ← hu]), ?_⟩
    · rw [← hf, ← hafter]
      rfl
    · rw [← hafter, ← k.before, ← hu]
  · refine (State.closeIfDrained_closes hf hd (mt hbusy.mp hidle) hs).ports ?_ ?_
    · rwa [← hcredit]
    · rw [← hcredit]
      exact k.queuesAfter

/-- R144: the entry is live and the delivery disowned. -/
theorem CreditSeen.of_disowned (he : w.entry? d.output.handle = some e) (hc : e.state ≠ .closed) (hd : d.owned = false) :
    (e.state ≠ .draining ∨ n.busyWith d.output.handle → t.entry? d.output.handle = some e ∧ Machine.portsButWaits n t
      ∧ { v with entries := t.entries, ports := t.ports } = t)
    ∧ (e.state = .draining → ¬n.busyWith d.output.handle → e.submitters ≠ 0 →
        closes v t d.output.handle e (.failed .cancelled)) := by
  obtain ⟨hstays, hcloses⟩ := k.drains (State.creditDelivery_disowned he hc hd) rfl he
  have hcounters : v.counters = w.counters := by rw [← k.before]
  rw [← hcounters] at hstays
  exact ⟨hstays, fun hdraining hidle hs => (hcloses hdraining hidle hs).portsBefore k.before k.queues⟩

section

variable {m : Member} {t0 : Target} (he : w.entry? d.output.handle = some e) (hc : e.state ≠ .closed)
  (hd : d.owned = true) (hm : e.members[d.output.position]? = some m) (ht : m.target = some t0)

include he hc hd hm ht

/-- R143, R53: the offset covered makes the entry whole, with no pass in flight. -/
theorem CreditSeen.of_whole (hs : e.state = .active) (hwhole : (e.covering d.output m t0).allCovered = true)
    (hlast : ∀ l x, w.lane l = some x → x.handle ≠ d.output.handle) :
    givesUpPlan (v.count 8) t d.output.handle (e.covering d.output m t0)
        { e.covering d.output m t0 with state := .settling, plan := none }
      ∧ Machine.portsButWaits n t
      ∧ { v.count 8 with entries := t.entries, banks := t.banks, cells := t.cells, ports := t.ports, attempt := t.attempt }
          = t := by
  have hcredit := State.creditDelivery_owned he hc hd hm ht
  have hput := State.entry_put (w.count 8) d.output.handle (e.covering d.output m t0)
  obtain ⟨hgives, hrest⟩ := State.settleIfDone_settles hput hs hwhole hlast
  have hports := State.ports_settleIfDone ((w.count 8).setEntry d.output.handle (e.covering d.output m t0)) d.output.handle
  rw [State.closeIfDrained_stays hgives.record (.inl (by simp))] at hcredit
  rw [← hcredit] at hgives hrest hports
  have hbefore : { w.count 8 with ports := v.ports } = v.count 8 := by rw [← k.before]; rfl
  refine ⟨hgives.beside rfl Iff.rfl ?_ (fun j hj => ?_) ?_ k.after, k.portsButWaits hports, ?_⟩
  · rw [← hbefore]
    exact (Table.put_put ..).symm
  · rw [← hbefore]
    exact (State.entry_setEntry ..).trans (if_neg hj)
  · rw [← hbefore]
    rfl
  · rw [← k.after, ← hbefore, ← hrest]
    rfl

/-- R143, R59: the offset is covered and the entry does not settle by it. -/
theorem CreditSeen.of_partial (hn : ¬(e.state = .active ∧ (e.covering d.output m t0).allCovered = true
      ∧ ∀ l x, w.lane l = some x → x.handle ≠ d.output.handle)) :
    (e.state ≠ .draining ∨ n.busyWith d.output.handle →
      t.entry? d.output.handle = some (e.covering d.output m t0) ∧ Machine.portsButWaits n t
        ∧ { v.count 8 with entries := t.entries, ports := t.ports } = t)
    ∧ (e.state = .draining → ¬n.busyWith d.output.handle → e.submitters ≠ 0 →
        closes (v.count 8) t d.output.handle (e.covering d.output m t0) (.failed .cancelled)) := by
  have hcredit := State.creditDelivery_owned he hc hd hm ht
  have hput := State.entry_put (w.count 8) d.output.handle (e.covering d.output m t0)
  rw [State.settleIfDone_stays hput hn] at hcredit
  obtain ⟨hstays, hcloses⟩ := k.drains hcredit rfl hput
  have hbefore : { w.count 8 with ports := v.ports } = v.count 8 := by rw [← k.before]; rfl
  have hcounters : ((w.count 8).setEntry d.output.handle (e.covering d.output m t0)).counters = (v.count 8).counters := by
    rw [← hbefore]
    rfl
  rw [hcounters] at hstays
  exact ⟨hstays, fun hdraining hidle hs => (hcloses hdraining hidle hs).rebase.portsBefore hbefore k.queues⟩

end

end

/-! ### The whole step -/

section

variable (s : State) (d : Delivery)

/-- The state in which the delivery is credited. -/
def State.chunkReleased : State := (s.chunkLanded d).release d.output.cell

theorem State.chunkReleased_rest :
    { s.chunkLanded d with cells := (s.chunkReleased d).cells, attempt := (s.chunkReleased d).attempt }
      = s.chunkReleased d := ((s.chunkLanded d).release_after d.output.cell).rest

theorem State.chunkReleased_profiles : (s.chunkReleased d).profiles = s.profiles := by
  rw [← s.chunkReleased_rest d]
  rfl

theorem State.chunkReleased_entries : (s.chunkReleased d).entries = s.entries := by
  rw [← s.chunkReleased_rest d]
  rfl

theorem State.entry_chunkReleased (j : Handle) : (s.chunkReleased d).entry? j = s.entry? j := by
  rw [← s.chunkReleased_rest d]
  rfl

theorem State.lane_chunkReleased (l : LaneId) : (s.chunkReleased d).lane l = s.lane l := by
  rw [← s.chunkReleased_rest d]
  rfl

theorem State.chunkReleased_deliveries : (s.chunkReleased d).deliveries = s.otherDeliveries d := by
  rw [← s.chunkReleased_rest d]
  rfl

/-- The same with the interrupt of the notice counted. -/
def State.chunkCounted : State := { s.chunkReleased d with ports := (s.chunkNoticed d).ports }

theorem State.chunkCounted_after : afterRelease (s.chunkNoticed d) (s.chunkCounted d) (· = d.output.cell) := by
  refine ((s.chunkLanded d).release_after d.output.cell).rebase rfl rfl rfl ?_
  rw [State.chunkCounted, ← s.chunkReleased_rest d]
  rfl

theorem State.chunkCounted_tables (q : PortId) :
    ((s.chunkCounted d).port q).fetches = ((s.chunkReleased d).port q).fetches
      ∧ ((s.chunkCounted d).port q).outputs = ((s.chunkReleased d).port q).outputs := by
  have hreleased : (s.chunkReleased d).port q = (s.chunkLanded d).port q := by
    rw [← s.chunkReleased_rest d]
    rfl
  rw [(s.chunkCounted_after d).port q, ← countRises_chunkLanded, hreleased]
  exact tables_countRises ..

/-- R143: the event ends as the credit does, but for the waits and the interrupts. -/
theorem exec_deliveryEnd_credits {s : State} {d : Delivery} (hreset : s.inReset = false)
    (hfind : (s.deliveries.find? fun y => decide (y.output.cell = d.output.cell)) = some d) :
    ∃ t, exec (.deliveryEnd d.output.cell) s = .next t
      ∧ CreditSeen d (s.chunkNoticed d) (s.chunkCounted d) (s.chunkReleased d) t := by
  have hkept : Kept (s.chunkLanded d) ((s.chunkReleased d).creditDelivery d) :=
    (Kept.release ..).trans (.creditDelivery ..)
  obtain ⟨t, hevent, hframe, hafter, htables⟩ := event_worked hreset hkept
  rw [countRises_chunkLanded] at hframe
  exact ⟨t, (exec_deliveryEnd hfind).trans hevent, s.chunkCounted_after d, rfl, s.chunkCounted_tables d, hafter, htables,
    hframe⟩

theorem State.find_landedMem (hlength : d.output.length ≤ 65536) (a : U64) :
    let bytes := (s.bytesOf d.output.cell).take d.output.length
    Table.find (s.landedMem d) a.toNat =
      if (a - d.buffer).toNat < bytes.length then bytes[(a - d.buffer).toNat]?
      else Table.find (s.port d.port).hostMem a.toNat := by
  intro bytes
  have hshort : bytes.length ≤ d.output.length := List.length_take_le ..
  have hfind := find_landBytes_all bytes (s.port d.port).hostMem d.buffer a 0 (by omega)
  simp only [Nat.zero_le, true_and, Nat.zero_add, Nat.sub_zero] at hfind
  exact hfind

end

/-- Settles O49: what the credit decides, a lemma of `CreditSeen` per case, seen beside the interrupt of the notice and the
treatment of the waits. -/
theorem deliveryEndLandsChunk : Obligations.DeliveryEndLandsChunk := by
  intro s d hreset hfind hlength o h bytes others
  obtain ⟨t, hexec, hseen⟩ := exec_deliveryEnd_credits hreset hfind
  have hafter := hseen.after
  have hentry := s.entry_chunkReleased d
  have hlane := s.lane_chunkReleased d
  have hrising : s.rising → (s.chunkReleased d).rising := fun hr => by
    rwa [State.rising, s.chunkReleased_entries d]
  refine ⟨t, s.landedMem d, hexec, s.find_landedMem d hlength, ?_⟩
  intro landed ended counted
  refine ⟨hseen.frame, ?_, fun hr j hj => ?_, fun he => ?_, fun e he => ⟨fun hc => ?_, fun hc hd => ?_, ?_⟩⟩
  · rw [← hafter]
    exact (deliveries_creditDelivery ..).trans (s.chunkReleased_deliveries d)
  · rw [← hentry, ← State.creditDelivery_others _ d (hrising hr) j hj, ← hafter]
    rfl
  · exact ⟨_, hseen.released, hseen.of_absent ((hentry _).trans he)⟩
  · obtain ⟨hports, hrest, hstays⟩ := hseen.of_closed ((hentry _).trans he) hc
    exact ⟨_, hseen.released, hports, hrest, fun hr => (hstays (hrising hr)).ports (s.chunkReleased_profiles d) rfl⟩
  · exact ⟨_, hseen.released, hseen.of_disowned ((hentry _).trans he) hc hd⟩
  · intro m t0 hc hd hm ht widened covered settles
    have hreleased : afterRelease counted ((s.chunkCounted d).count 8) (· = o.cell) := by
      refine hseen.released.rebase rfl rfl rfl ?_
      rw [← hseen.released.rest]
      rfl
    have hlast : settles → ∀ l x, (s.chunkReleased d).lane l = some x → x.handle ≠ h := fun hs l x hl =>
      hs.2.2 l x ((hlane l).symm.trans hl)
    have he' := (hentry h).trans he
    refine ⟨_, hreleased, fun hs => ?_, fun hn => ?_, fun hdraining => ?_⟩
    · exact hseen.of_whole he' hc hd hm ht hs.1 hs.2.1 (hlast hs)
    · refine (hseen.of_partial he' hc hd hm ht fun ⟨h1, h2, h3⟩ => hn ⟨h1, h2, fun l x hl => ?_⟩).1
      exact h3 l x ((hlane l).trans hl)
    · refine (hseen.of_partial he' hc hd hm ht fun ⟨hactive, _⟩ => ?_).2 hdraining
      rw [hdraining] at hactive
      cases hactive

end Sys2Proof.Machine
end

section
/-! PROOFS. The timebase, the pressure inputs and the pressure requests (O6, O12, O13). -/

namespace Sys2Proof.Machine

theorem exec_timebaseTick (s : State) : exec .timebaseTick s = event s true s.tick := rfl

/-- Settles O13: the timebase has 48 bits, and a tick leaves the ports, and so their event lines, alone. -/
theorem timebaseTickAddsOne : Obligations.TimebaseTickAddsOne := by
  intro s hreset
  exact ⟨s.timebase + 1, (exec_timebaseTick s).trans (event_tables hreset rfl rfl), BitVec.toNat_add ..⟩

/-! ### Pressure inputs (R158, R161) -/

theorem exec_pressureAssertion (p : PortId) (s : State) :
    exec (.pressureAssertion p) s = pinChange p true Port.assertPressure s := rfl

theorem exec_pressureDeassertion (p : PortId) (s : State) :
    exec (.pressureDeassertion p) s = pinChange p false Port.deassertPressure s := rfl

section

variable {s : State} {p : PortId} {level : Bool}

theorem pinChange_same (h : (s.port p).pressure = level) (f : Port → Port) : pinChange p level f s = .next s := by
  rw [pinChange, if_pos h]

/-- In reset the hold and the mark stand as the input does, whatever the change means otherwise (log 11). -/
theorem pinChange_inReset (h : (s.port p).pressure ≠ level) (hreset : s.inReset = true) (f : Port → Port) :
    pinChange p level f s =
      .next (s.setPort p { s.port p with pressure := level, held := level, epochMark := level }) := by
  rw [pinChange, if_neg h, if_pos hreset, State.modPort]

theorem pinChange_running (h : (s.port p).pressure ≠ level) (hreset : s.inReset = false) (f : Port → Port) :
    pinChange p level f s = .next (s.setPort p (f (s.port p))) := by
  rw [pinChange, if_neg h, if_neg (Bool.eq_false_iff.mp hreset), State.modPort]

end

theorem Port.deassertPressure_eq (q : Port) :
    q.deassertPressure = { q with pressure := false, held := if q.mode = .follow then false else q.held } := by
  unfold Port.deassertPressure
  split
  · next hmode => rw [if_pos hmode]
  all_goals
    next hmode => rw [if_neg (by rw [hmode]; decide)]

/-- Settles O12, by the level before and whether the part is held in reset; an assertion comes to the same in reset as
outside it. -/
theorem pressureInputsMoveHold : Obligations.PressureInputsMoveHold := by
  intro s p q
  refine ⟨fun hlow => ?_, fun hhigh hrun => ?_, fun hhigh hreset => ?_, fun hhigh => ?_, fun hlow => ?_⟩
  · have hmoves : (s.port p).pressure ≠ true := Bool.eq_false_iff.mp hlow
    cases hreset : s.inReset with
    | true => exact pinChange_inReset hmoves hreset _
    | false => exact pinChange_running hmoves hreset _
  · rw [exec_pressureDeassertion, pinChange_running (ne_false_of_eq_true hhigh) hrun, Port.deassertPressure_eq]
  · exact pinChange_inReset (ne_false_of_eq_true hhigh) hreset _
  · exact pinChange_same hhigh _
  · exact pinChange_same hlow _

/-! ### SET-PRESSURE-MODE and RELEASE-PRESSURE (R159) -/

theorem exec_setPressureMode (p : PortId) (s : State) :
    exec (.setPressureMode p) s = withAnswer p 19 s (setModeDecide p) := rfl

theorem exec_releasePressure (p : PortId) (s : State) :
    exec (.releasePressure p) s = withAnswer p 20 s (releaseDecide p) := rfl

/-- The present mode keeps the hold, and another one sets it by R159's table. -/
theorem Port.takeMode_eq (q : Port) (m : PressureMode) :
    q.takeMode m = { q with mode := m, held := if q.mode = m then q.held else q.holdUnder m } := by
  unfold Port.takeMode
  split
  · next hmode => rw [← hmode]
  · rfl

theorem Port.releaseHold_eq (q : Port) :
    q.releaseHold = { q with held := if q.mode = .latch ∧ q.pressure = false then false else q.held } := by
  unfold Port.releaseHold
  split
  · next hmode => cases hpressure : q.pressure <;> simp [hmode]
  all_goals
    next hmode => rw [if_neg fun hlatch => by rw [hmode] at hlatch; cases hlatch.1]

section

variable {s : State} {p : PortId}

theorem exec_setPressureMode_refused (h : s.offers p 19) (hnone : pressureModeOf (s.port p).request.pressureMode = none) :
    exec (.setPressureMode p) s = .next (s.answered p 19 .invalid .none) :=
  exec_only h .invalid .none (by rw [setModeDecide, hnone]; rfl)

/-- The hold in the response is the one the request leaves. -/
theorem exec_setPressureMode_takes {m : PressureMode} (h : s.offers p 19)
    (hmode : pressureModeOf (s.port p).request.pressureMode = some m) :
    let held := if (s.port p).mode = m then (s.port p).held else (s.port p).holdUnder m
    exec (.setPressureMode p) s =
      .next (s.setPort p (({ s.port p with mode := m, held := held } : Port).answered 19 (s.port p).request.tag .ok
        (.hold held))) := by
  intro held
  have hdecide : setModeDecide p (s.port p).request (s.advance p) =
      ⟨s.setPort p ({ s.port p with mode := m, held := held } : Port).tookRequest, .ok, .hold held⟩ := by
    rw [setModeDecide, hmode]
    dsimp only
    rw [modPort_advance, advance_eq, State.port_setPort, if_pos rfl, Port.takeMode_eq]
    rfl
  exact exec_own h _ _ _ rfl rfl rfl hdecide

theorem exec_releasePressure_answers (h : s.offers p 20) :
    let held := if (s.port p).mode = .latch ∧ (s.port p).pressure = false then false else (s.port p).held
    exec (.releasePressure p) s =
      .next (s.setPort p (({ s.port p with held := held } : Port).answered 20 (s.port p).request.tag .ok (.hold held))) := by
  intro held
  have hdecide : releaseDecide p (s.port p).request (s.advance p) =
      ⟨s.setPort p ({ s.port p with held := held } : Port).tookRequest, .ok, .hold held⟩ := by
    rw [releaseDecide, modPort_advance, advance_eq, State.port_setPort, if_pos rfl, Port.releaseHold_eq]
    rfl
  exact exec_own h _ _ _ rfl rfl rfl hdecide

end

/-- Settles O6: a value names a mode or none; a mode is taken as `Port.takeMode_eq` says and a hold released as
`Port.releaseHold_eq` does. -/
theorem pressureRequestsMoveHold : Obligations.PressureRequestsMoveHold := by
  refine ⟨fun s p h => ?_, fun s p h => ?_⟩
  · refine ⟨fun ⟨h1, h2, h3⟩ => ?_, fun h1 => ?_, fun h2 => ?_, fun h3 => ?_⟩
    · exact exec_setPressureMode_refused h (by rw [pressureModeOf, if_neg h1, if_neg h2, if_neg h3])
    · exact exec_setPressureMode_takes (m := .follow) h (by rw [h1]; rfl)
    · exact exec_setPressureMode_takes (m := .holdEpoch) h (by rw [h2]; rfl)
    · exact exec_setPressureMode_takes (m := .latch) h (by rw [h3]; rfl)
  · exact exec_releasePressure_answers h

end Sys2Proof.Machine
end

section
/-! PROOFS. The epoch boundary (O26). -/

namespace Sys2Proof.Machine

theorem exec_epochBoundary (s : State) :
    exec .epochBoundary s = event s (deadlineReached s.timebase s.nextBoundary) s.endEpoch := rfl

/-- An event that raises no event line. -/
theorem event_lines {s t : State} {a : Bool} (hreset : s.inReset = false) (ha : a = true)
    (hline : ∀ q, (t.port q).line = (s.port q).line) : event s a t = .next t := by
  rw [event_next hreset ha, countRises_eq (u := t) (fun q => Port.risen_of_line_eq (hline q)) rfl]

/-! ### Ports at a boundary (R154, R156, R158) -/

theorem Budget.boundary_eq (b : Budget) :
    b.boundary = if b.switchPending then ⟨b.shadow, 0, b.shadow, false⟩ else { b with used := 0 } := rfl

theorem Port.holdAtBoundary_eq (q : Port) :
    q.holdAtBoundary = if q.mode = .holdEpoch ∧ q.pressure = false ∧ q.epochMark = false then false else q.held := by
  unfold Port.holdAtBoundary
  split
  · next hmode =>
    cases hasserted : q.pressure <;> cases hmark : q.epochMark <;> simp [hmode]
  all_goals
    next hmode => rw [if_neg fun hepoch => by rw [hmode] at hepoch; cases hepoch.1]

/-! ### Nodes at a boundary (R33, R34) -/

theorem bump_eq_min (ceiling n : Nat) : bump ceiling n = min ceiling (n + 1) := by
  unfold bump
  split <;> omega

/-- R33: the severe streak after the window has been classified. -/
def Node.severeNext (x : Node) : Nat := if x.failures ≤ 3 then 0 else min 2 (x.severe + 1)

/-- R33: the clean streak after the window has been classified. -/
def Node.cleanNext (x : Node) : Nat := if x.failures = 0 then min 16 (x.clean + 1) else 0

/-- R33's three classes of windows, streak by streak. -/
theorem Node.streaks_eq (x : Node) : x.streaks = { x with severe := x.severeNext, clean := x.cleanNext } := by
  unfold Node.streaks Node.severeNext Node.cleanNext
  split
  · next hnone => rw [if_pos (by omega), bump_eq_min]
  · split
    · rfl
    · rw [bump_eq_min]

section

variable {x : Node}

theorem Node.endWindow_outside (hx : x.state = .undefined ∨ x.state = .down) : x.endWindow = x :=
  if_neg (by rcases hx with hx | hx <;> rw [hx] <;> decide)

theorem Node.endWindow_serving (hx : x.state = .up ∨ x.state = .suspect) :
    x.endWindow = { Node.judge { x with severe := x.severeNext, clean := x.cleanNext } with failures := 0 } := by
  rw [Node.endWindow, if_pos ((NodeState.serves_iff _).mpr hx), Node.streaks_eq]

theorem Node.endWindow_up (hx : x.state = .up) : x.endWindow =
    if x.severeNext = 2 then { x with state := .suspect, failures := 0, severe := 0, clean := 0, marks := PortSet.all }
    else { x with failures := 0, severe := x.severeNext, clean := x.cleanNext } := by
  have hother : x.state ≠ .suspect := by rw [hx]; decide
  rw [Node.endWindow_serving (.inl hx), Node.judge]
  by_cases hsevere : x.severeNext = 2
  · rw [if_pos ⟨hx, hsevere⟩, if_pos hsevere]
  · rw [if_neg fun h => hsevere h.2, if_neg fun h => hother h.1, if_neg hsevere]

theorem Node.endWindow_suspect (hx : x.state = .suspect) : x.endWindow =
    if x.cleanNext = 16 then { x with state := .up, failures := 0, severe := 0, clean := 0, marks := PortSet.all }
    else { x with failures := 0, severe := x.severeNext, clean := x.cleanNext } := by
  have hother : x.state ≠ .up := by rw [hx]; decide
  rw [Node.endWindow_serving (.inr hx), Node.judge, if_neg fun h => hother h.1]
  by_cases hclean : x.cleanNext = 16
  · rw [if_pos ⟨hx, hclean⟩, if_pos hclean]
  · rw [if_neg fun h => hclean h.2, if_neg hclean]

end

/-! ### The boundary (R154) -/

section

variable (s : State)

/-- R34: the ending window of a node changes its state. -/
def State.windowsMove : Bool := s.nodes.toList.any fun x => decide (x.endWindow.state ≠ x.state)

theorem State.windowsMove_iff : s.windowsMove = true ↔ ∃ n, (s.node n).endWindow.state ≠ (s.node n).state := by
  simp only [State.windowsMove, List.any_eq_true, decide_eq_true_eq, Vector.mem_toList_iff, Vector.mem_iff_getElem]
  constructor
  · rintro ⟨x, ⟨i, hi, rfl⟩, hx⟩
    exact ⟨⟨i, hi⟩, hx⟩
  · rintro ⟨n, hn⟩
    exact ⟨s.node n, ⟨n, n.isLt, rfl⟩, hn⟩

theorem State.endWindows_eq :
    s.endWindows = { s with nodes := mapVec Node.endWindow s.nodes, attempt := s.windowsMove || s.attempt } := by
  unfold State.endWindows
  split
  · next hmove => rw [State.windowsMove, hmove]; rfl
  · next hstill => rw [State.windowsMove, Bool.eq_false_iff.mpr hstill]; rfl

theorem State.endEpoch_eq : s.endEpoch =
    { s with
      nextBoundary := s.nextBoundary + BitVec.ofNat 48 s.epochLength, ports := mapVec Port.endEpoch s.ports
      nodes := mapVec Node.endWindow s.nodes, attempt := s.windowsMove || s.attempt } :=
  State.endWindows_eq _

theorem State.port_endEpoch (p : PortId) : s.endEpoch.port p = (s.port p).endEpoch := by
  rw [State.endEpoch_eq]
  exact mapVec_get ..

theorem State.node_endEpoch (n : NodeId) : s.endEpoch.node n = (s.node n).endWindow := by
  rw [State.endEpoch_eq]
  exact mapVec_get ..

theorem State.attempt_endEpoch : s.endEpoch.attempt = (s.windowsMove || s.attempt) := by rw [State.endEpoch_eq]

theorem exec_epochBoundary_reached (hreset : s.inReset = false) (hreached : s.timebase = s.nextBoundary) :
    exec .epochBoundary s = .next s.endEpoch := by
  rw [exec_epochBoundary, hreached, deadlineReached_self]
  refine event_lines hreset rfl fun q => ?_
  rw [State.port_endEpoch]
  rfl

end

/-- Settles O26: the ports and the nodes are treated one by one (`State.port_endEpoch`, `State.node_endEpoch`), and the
planning attempt follows `State.windowsMove`. -/
theorem epochBoundaryTreatsPortsAndWindows : Obligations.EpochBoundaryTreatsPortsAndWindows := by
  intro s hreset hreached
  refine ⟨s.endEpoch, exec_epochBoundary_reached s hreset hreached, ?_, fun p => ?_, fun n => ?_, fun hmoved => ?_,
    fun hstill => ?_⟩
  · rw [State.endEpoch_eq]
  · rw [State.port_endEpoch, Port.endEpoch, Budget.boundary_eq, Port.holdAtBoundary_eq]
  · rw [State.node_endEpoch]
    exact ⟨Node.endWindow_outside, Node.endWindow_up, Node.endWindow_suspect⟩
  · simp only [State.node_endEpoch, ← State.windowsMove_iff] at hmoved
    rw [State.attempt_endEpoch, hmoved, Bool.true_or]
  · have hnone : s.windowsMove = false := by
      rw [← Bool.not_eq_true, State.windowsMove_iff]
      rintro ⟨n, hn⟩
      exact hn (s.node_endEpoch n ▸ hstill n)
    rw [State.attempt_endEpoch, hnone, Bool.false_or]

end Sys2Proof.Machine
end

section
/-! PROOFS. No step overflows a share of a response queue: what fills a share at each port, and what lightens it (O59). -/

namespace Sys2Proof.Machine

open Sys2Proof.Config

/-! ### The shares (R165) -/

/-- R165: the four shares of a response queue. -/
inductive Share where
  | response | fetch | landed | coalesced

/-- R165: the records a share may hold. -/
def Share.size : Share → Nat
  | .response => responseShare
  | .fetch => fetchShare
  | .landed => landedShare
  | .coalesced => coalescedShare

/-- R165: the kinds of record that take their slots from a share. -/
def Share.holds : Share → Record → Bool
  | .response => Record.isResponse
  | .fetch => Record.isFetch
  | .landed => Record.isLanded
  | .coalesced => Record.isCoalesced

/-- R165: the share a record takes its slot from. -/
def Record.share : Record → Share
  | .response .. => .response
  | .fetch .. => .fetch
  | .landed .. => .landed
  | .closed .. | .nodeState .. | .void .. => .coalesced

theorem Share.holds_iff (c : Share) (r : Record) : c.holds r = true ↔ c = r.share := by
  cases c <;> cases r <;> simp [Share.holds, Record.share, Record.isResponse, Record.isFetch, Record.isLanded, Record.isCoalesced]

/-- R165: the slots of a share that are reserved at a port: for the answers owed to offers, and for the notices that
deliveries owe. -/
def State.reserved (s : State) (p : PortId) : Share → Nat
  | .response => s.transfers.countP fun t => decide (t.port = p) && t.answers
  | .landed => s.deliveriesOn p
  | .fetch | .coalesced => 0

/-- R165: the slots of a share in use at a port. -/
def State.shareUsed (s : State) (p : PortId) (c : Share) : Nat := (s.port p).responses.countP c.holds + s.reserved p c

/-- Every record takes its slot from one of the shares. -/
theorem length_eq_shares (l : List Record) :
    l.length = l.countP Record.isResponse + l.countP Record.isFetch + l.countP Record.isLanded + l.countP Record.isCoalesced := by
  induction l with
  | nil => rfl
  | cons r rest ih =>
    have hone : ∀ c : Share, (r :: rest).countP c.holds = rest.countP c.holds + if c.holds r = true then 1 else 0 :=
      fun c => List.countP_cons
    have h1 := hone .response
    have h2 := hone .fetch
    have h3 := hone .landed
    have h4 := hone .coalesced
    simp only [Share.holds] at h1 h2 h3 h4
    rw [List.length_cons, h1, h2, h3, h4, ih]
    cases r <;> simp [Record.isResponse, Record.isFetch, Record.isLanded, Record.isCoalesced] <;> omega

/-- R165: the shares are within their sizes; the bound on all records follows. -/
theorem State.sharesHold_iff (s : State) : s.sharesHold ↔ ∀ p c, s.shareUsed p c ≤ c.size := by
  refine forall_congr' fun p => ⟨fun ⟨hresponse, hfetch, hlanded, hcoalesced, _⟩ c => ?_, fun h => ?_⟩
  · cases c with
    | response => exact hresponse
    | fetch => exact hfetch
    | landed => exact hlanded
    | coalesced => exact hcoalesced
  · have hresponse : s.responseShareUsed p ≤ 64 := h .response
    have hfetch : (s.port p).responses.countP Record.isFetch ≤ 32 := h .fetch
    have hlanded : s.landedShareUsed p ≤ 32 := h .landed
    have hcoalesced : (s.port p).responses.countP Record.isCoalesced ≤ 32 := h .coalesced
    refine ⟨hresponse, hfetch, hlanded, hcoalesced, ?_⟩
    have hall := length_eq_shares (s.port p).responses
    unfold State.responseShareUsed at hresponse
    unfold State.landedShareUsed at hlanded
    omega

/-! ### What fills no share -/

/-- No share of any port is fuller in `t` than in `s`. -/
structure Lighter (s t : State) : Prop where
  used : ∀ p c, t.shareUsed p c ≤ s.shareUsed p c

section

variable {s t u : State}

theorem Lighter.holds (k : Lighter s t) (h : s.sharesHold) : t.sharesHold :=
  t.sharesHold_iff.mpr fun p c => (k.used p c).trans (s.sharesHold_iff.mp h p c)

theorem Lighter.refl (s : State) : Lighter s s := ⟨fun _ _ => Nat.le_refl _⟩

theorem Lighter.trans (k : Lighter s t) (l : Lighter t u) : Lighter s u := ⟨fun p c => (l.used p c).trans (k.used p c)⟩

theorem Lighter.ite {c : Prop} [Decidable c] (k : c → Lighter s t) (l : ¬c → Lighter s u) : Lighter s (if c then t else u) := by
  split
  · next h => exact k h
  · next h => exact l h

theorem Lighter.foldl {α : Type} {f : State → α → State} (hf : ∀ s a, Lighter s (f s a)) (l : List α) (s : State) :
    Lighter s (l.foldl f s) := by
  induction l generalizing s with
  | nil => exact .refl s
  | cons a rest ih => exact (hf s a).trans (ih _)

/-- Records, transfers and deliveries that only go away. -/
theorem Lighter.of_sublists (hp : ∀ p, (t.port p).responses.Sublist (s.port p).responses)
    (ht : t.transfers.Sublist s.transfers) (hd : t.deliveries.Sublist s.deliveries) : Lighter s t := by
  refine ⟨fun p c => Nat.add_le_add (hp p).countP_le ?_⟩
  cases c with
  | response => exact ht.countP_le
  | landed => exact hd.countP_le
  | fetch | coalesced => exact Nat.le_refl _

/-- A change to what no share reads. -/
theorem Lighter.of_same (hp : ∀ p, (t.port p).responses = (s.port p).responses) (ht : t.transfers = s.transfers)
    (hd : t.deliveries = s.deliveries) : Lighter s t :=
  .of_sublists (fun p => by rw [hp p]) (by rw [ht]) (by rw [hd])

theorem Lighter.of_planned (k : Planned s t) : Lighter s t := by
  refine ⟨fun p c => ?_⟩
  have hport := k.port p
  unfold State.shareUsed
  rw [hport]
  refine Nat.add_le_add_left ?_ _
  cases c with
  | response => exact Nat.le_of_eq (by rw [State.reserved, State.reserved, k.transfers])
  | landed => exact Nat.le_of_eq (k.deliveriesOn p)
  | fetch | coalesced => exact Nat.le_refl _

theorem Lighter.of_kept (k : Kept s t) : Lighter s t := .of_planned k.toPlanned

theorem Lighter.modPort {p : PortId} {f : Port → Port} (hf : (f (s.port p)).responses.Sublist (s.port p).responses) :
    Lighter s (s.modPort p f) := by
  refine .of_sublists (fun k => ?_) (.refl _) (.refl _)
  rw [port_modPort]
  split
  · next hk =>
    rw [hk]
    exact hf
  · exact .refl _

/-- A change of a port that leaves its records alone. -/
theorem Lighter.ofPort {p : PortId} {f : Port → Port} (hf : ∀ q, (f q).responses = q.responses) :
    Lighter s (s.modPort p f) := .modPort (by rw [hf])

end

theorem Lighter.refreshWaits (s : State) : Lighter s s.refreshWaits := by
  have hrest := rest_refreshWaits s
  refine .of_same (fun p => by rw [port_refreshWaits]) ?_ ?_
  · rw [← hrest]
  · rw [← hrest]

theorem Lighter.countRises (s t : State) : Lighter t (countRises s t) := by
  have hrest := rest_countRises s t
  refine .of_same (fun p => ?_) ?_ ?_
  · rw [port_countRises]
    unfold Port.risen
    split
    · rfl
    · rfl
  · rw [← hrest]
  · rw [← hrest]

theorem Lighter.advance (s : State) (p : PortId) : Lighter s (s.advance p) := by
  unfold State.advance
  exact .ofPort fun _ => rfl

theorem Lighter.only {s t : State} (k : Lighter s t) (st : Status) : Lighter s (Answer.only t st).state := k

theorem Lighter.answers {s t : State} (k : Lighter s t) (st : Status) : Lighter s (Answer.only t.refreshWaits st).state :=
  (k.trans (.refreshWaits t)).only st

/-! ### A record placed (R163, R165) -/

theorem State.shareUsed_place (s : State) (p q : PortId) (r : Record) (c : Share) :
    (s.place p r).shareUsed q c = s.shareUsed q c + if q = p ∧ c.holds r = true then 1 else 0 := by
  have hreserved : (s.place p r).reserved q c = s.reserved q c := by cases c <;> rfl
  unfold State.shareUsed
  rw [port_place, hreserved]
  by_cases hq : q = p
  · rw [if_pos hq, hq]
    simp only [Port.place, List.countP_append, List.countP_singleton, true_and]
    omega
  · rw [if_neg hq, if_neg fun h => hq h.1]
    rfl

/-- R165: a record is placed where its share had room before. -/
theorem State.sharesHold.place {s t : State} (k : s.sharesHold) (l : Lighter s t) {p : PortId} {r : Record}
    (room : s.shareUsed p r.share < r.share.size) : (t.place p r).sharesHold := by
  refine (State.sharesHold_iff _).mpr fun q c => ?_
  have hold := s.sharesHold_iff.mp k q c
  have hlight := l.used q c
  rw [State.shareUsed_place]
  split
  · next h =>
    obtain ⟨rfl, hc⟩ := h
    obtain rfl := (Share.holds_iff c r).mp hc
    omega
  · omega

/-- A record placed in the slot that was reserved for it. -/
theorem Lighter.place {s t : State} (l : Lighter s t) {p : PortId} {r : Record}
    (freed : t.shareUsed p r.share < s.shareUsed p r.share) : Lighter s (t.place p r) := by
  refine ⟨fun q c => ?_⟩
  have hlight := l.used q c
  rw [State.shareUsed_place]
  split
  · next h =>
    obtain ⟨rfl, hc⟩ := h
    obtain rfl := (Share.holds_iff c r).mp hc
    omega
  · omega

/-! ### The shape of a command (R163, R167) -/

section

variable {s t result : State}

theorem event_sharesHold {a : Bool} (h : event s a result = .next t) (k : s.sharesHold) (hr : a = true → result.sharesHold) :
    t.sharesHold := by
  obtain rfl := Host.Outcome.next.inj h
  split
  · next ha => exact (Lighter.countRises s result).holds (hr (Bool.and_eq_true_iff.mp ha).2)
  · exact k

theorem event_lighter {a : Bool} (h : event s a result = .next t) (k : s.sharesHold) (hr : Lighter s result) :
    t.sharesHold := event_sharesHold h k fun _ => hr.holds k

/-- R163: a request is taken only where the response share has a free slot. -/
theorem withRequest_sharesHold {p : PortId} {f : Byte → Bool} {body : Request → State → State}
    (h : withRequest p f s body = .next t) (k : s.sharesHold)
    (hb : ∀ r u, u.sharesHold → u.shareUsed p .response < Share.response.size → (body r u).sharesHold) : t.sharesHold := by
  obtain rfl := Host.Outcome.next.inj h
  split
  · next htakes =>
    obtain ⟨⟨-, -, -, hroom⟩, -⟩ := (State.takes_iff ..).mp htakes
    have hadvanced := Lighter.advance s p
    exact (Lighter.countRises ..).holds (hb _ _ (hadvanced.holds k) ((hadvanced.used p .response).trans_lt hroom))
  · exact k

theorem withAnswer_sharesHold {p : PortId} {b : Byte} {d : Request → State → Answer}
    (h : withAnswer p b s d = .next t) (k : s.sharesHold) (hd : ∀ r u, Lighter u (d r u).state) : t.sharesHold :=
  withRequest_sharesHold h k fun r u hu hroom => hu.place (hd r u) hroom

end

end Sys2Proof.Machine
end

section
/-! PROOFS. The requests and the events that place no record fill no share (O59). -/

namespace Sys2Proof.Machine

open Sys2Proof.Config

variable (s : State) (p : PortId) (r : Request)

/-! ### Nodes, profiles and settings (01, 02, 10) -/

theorem defineNodeDecide_lighter : Lighter s (defineNodeDecide r s).state := by
  unfold defineNodeDecide
  split
  · dsimp only
    split
    · exact .of_same (fun _ => rfl) rfl rfl
    · split
      · exact .refl s
      · split
        · exact .refl s
        · exact .of_same (fun _ => rfl) rfl rfl
  · exact .refl s

theorem oneNode_lighter {act : NodeId → State → State} (ha : ∀ n u, Lighter u (act n u)) :
    Lighter s (oneNode act r s).state := by
  unfold oneNode
  split
  · exact .refl s
  · next n _ =>
    split
    · exact .refl s
    · exact ha n s

theorem Lighter.retract (n : NodeId) : Lighter s (s.retract p n) := .of_kept (.ite (.modNode ..) (.refl s))

theorem Lighter.revive (n : NodeId) : Lighter s (s.revive n) :=
  .of_kept (.ite (.trans (.trans (.setSweepFifo ..) (.modNode ..)) (.causeAttempt _)) (.refl s))

theorem Lighter.clearSuspect (n : NodeId) : Lighter s (s.clearSuspect n) :=
  .of_kept (.ite (.trans (.modNode ..) (.causeAttempt _)) (.refl s))

theorem reportRackDecide_lighter : Lighter s (reportRackDecide p r s).state := by
  unfold reportRackDecide
  split
  · exact .refl s
  · exact (Lighter.of_kept (.foldl (Kept.reportNode p) _ s)).answers .ok

theorem Lighter.emptyKeyed (i : ProfileId) (b : BankId) : Lighter s (s.emptyKeyed i b) := by
  unfold State.emptyKeyed
  refine .ite (fun _ => ?_) fun _ => .refl s
  split
  · exact .of_same (fun _ => rfl) rfl rfl
  · exact .ite (fun _ => .of_same (fun _ => rfl) rfl rfl) fun _ => .of_same (fun _ => rfl) rfl rfl
  · exact .refl s

theorem setProfileDecide_lighter : Lighter s (setProfileDecide r s).state := by
  have hcode : ∀ i f, Lighter s (s.modProfile i f) := fun i f => .of_kept (.modProfile s i f)
  unfold setProfileDecide
  split
  · exact .refl s
  · split
    · exact .refl s
    · next i _ =>
      dsimp only
      split
      · exact (hcode ..).only .ok
      · split
        · exact .refl s
        · split
          · exact .refl s
          · exact ((hcode ..).trans (.foldl (fun t b => .emptyKeyed t i b) allBanks _)).only .ok

theorem setDeviceDecide_lighter : Lighter s (setDeviceDecide r s).state := by
  have hwritten : Lighter s (s.writeDevice r) := .of_same (fun _ => rfl) rfl rfl
  unfold setDeviceDecide
  split
  · exact .refl s
  · dsimp only
    split
    · exact (hwritten.trans (.of_kept (.foldl Kept.downIfQuorum allNodes _))).answers .ok
    · exact hwritten.only .ok

theorem setLimitsDecide_lighter : Lighter s (setLimitsDecide p r s).state := by
  unfold setLimitsDecide
  dsimp only
  refine .ofPort fun q => ?_
  rfl

theorem setPacingDecide_lighter : Lighter s (setPacingDecide p r s).state := by
  unfold setPacingDecide
  dsimp only
  refine .ofPort fun q => ?_
  rfl

theorem snapshotDecide_lighter : Lighter s (snapshotDecide p r s).state := by
  unfold snapshotDecide Answer.only
  dsimp only
  refine .ofPort fun q => ?_
  rfl

theorem setModeDecide_lighter : Lighter s (setModeDecide p r s).state := by
  have hmode : ∀ (q : Port) m, (q.takeMode m).responses = q.responses := fun q m => by
    unfold Port.takeMode
    split <;> rfl
  unfold setModeDecide
  split
  · exact .refl s
  · next m _ => exact .ofPort fun q => hmode q m

theorem releaseDecide_lighter : Lighter s (releaseDecide p r s).state := by
  have hrelease : ∀ q : Port, q.releaseHold.responses = q.responses := fun q => by
    unfold Port.releaseHold
    split <;> rfl
  exact .ofPort hrelease

theorem postLandingDecide_lighter : Lighter s (postLandingDecide p r s).state := by
  have hposted : Lighter s (s.modPort p fun q => { q with landing := q.landing ++ [r.address] }) := .ofPort fun _ => rfl
  unfold postLandingDecide
  split
  · exact .refl s
  · exact hposted.answers .ok

/-! ### SUBMIT, WITHDRAW, STORED and REFUSE-FRAGMENT (03, 08) -/

theorem submitDecide_lighter : Lighter s (submitDecide p r s).state := by
  unfold submitDecide
  split
  · exact .refl s
  · split
    · exact .refl s
    · split
      · next h e _ =>
        split
        · exact .refl s
        · split
          · exact (Lighter.of_kept (.merge s p r h e)).answers .merged
          · exact .refl s
      · dsimp only
        split
        · exact .refl s
        · split
          · exact .refl s
          · split
            · exact .refl s
            · exact .of_same (fun _ => rfl) rfl rfl

theorem withdrawDecide_lighter : Lighter s (withdrawDecide p r s).state := by
  unfold withdrawDecide
  split
  · exact .refl s
  · split
    · exact .refl s
    · split
      · exact .refl s
      · split
        · exact .refl s
        · split
          · exact .of_kept (.setEntry ..)
          · split
            · exact (Lighter.of_kept (.drain ..)).answers .ok
            · exact (Lighter.of_kept (.closeEntry ..)).answers .ok

theorem queryDecide_lighter : Lighter s (queryDecide r s).state := by
  unfold queryDecide
  split
  · exact .refl s
  · exact .refl s

theorem storedDecide_lighter : Lighter s (storedDecide p r s).state := by
  unfold storedDecide
  split
  · exact .refl s
  · split
    · exact .refl s
    · split
      · exact (Lighter.of_kept (.store ..)).answers .ok
      · exact .refl s

theorem refuseDecide_lighter : Lighter s (refuseDecide p r s).state := by
  unfold refuseDecide
  split
  · exact .refl s
  · split
    · exact .refl s
    · exact (Lighter.of_kept (.loseDestination ..)).answers .ok

/-! ### The Gather Unit (06) -/

theorem declineDecide_lighter : Lighter s (declineDecide p r s).state := by
  unfold declineDecide
  split
  · exact .refl s
  · split
    · exact .refl s
    · exact .of_kept (.emptySlotAt ..)
    · unfold State.loseMember
      exact (Lighter.of_kept (.trans (.emptySlotAt ..) (.trans (.modMember ..) (.afterLoss ..)))).answers .ok

theorem Lighter.expire (t : FetchTag) (f : Fetch) : Lighter s (s.expire p t f) := by
  unfold State.expire
  refine .ite (fun _ => ?_) fun _ => .of_kept (.emptySlotAt ..)
  exact .trans (.of_kept (.trans (.emptySlotAt ..) (.trans (.strike ..) (.count ..)))) (.refreshWaits _)

/-! ### The Delivery Unit, the Decode Lanes and the Matrix Unit (05, 07, 08) -/

theorem Lighter.expireWait (o : Output) : Lighter s (s.expireWait p o) := by
  have hover : ∀ u : State, Lighter u (u.modPort p fun q => { q with wait := none }) := fun u => .ofPort fun _ => rfl
  unfold State.expireWait
  exact .trans (.trans (.of_kept (.trans (.loseDestination ..) (.count ..))) (hover _)) (.refreshWaits _)

theorem Kept.drawOutput (h : Handle) (o : Offset) (bank : Bank) (a : State × List PassOutput) (pt : Position × Target) :
    Kept a.1 (drawOutput h o bank a pt).1 := by
  unfold Machine.drawOutput
  split
  · exact .draw ..
  · exact .refl _

theorem Kept.drawOutputs (h : Handle) (o : Offset) (bank : Bank) (l : List (Position × Target)) :
    Kept s (s.drawOutputs h o bank l).1 := by
  suffices ∀ a : State × List PassOutput, Kept a.1 (l.foldl (Machine.drawOutput h o bank) a).1 from this (s, [])
  induction l with
  | nil => exact fun a => .refl a.1
  | cons pt l ih => exact fun a => (Kept.drawOutput h o bank a pt).trans (ih _)

theorem Lighter.dispatch (l : LaneId) (h : Handle) (e : Entry) (pl : Plan) : Lighter s (s.dispatch l h e pl) := by
  have hlane : ∀ (u : State) x, Lighter u (u.setLane l x) := fun u x => .of_same (fun _ => rfl) rfl rfl
  unfold State.dispatch
  exact .trans (.of_kept (.drawOutputs ..)) (hlane ..)

theorem Lighter.completePass (l : LaneId) (x : Pass) : Lighter s (s.completePass l x) := by
  have hwritten : Kept s (s.writeOutputs x) := .foldl (fun _ _ => .modCell ..) x.outputs s
  have hlane : ∀ u : State, Lighter u ((u.setLane l none).count 15) := fun u => .of_same (fun _ => rfl) rfl rfl
  unfold State.completePass
  exact (((Lighter.of_kept hwritten).trans (hlane _)).trans (.of_kept (.decidePass ..))).trans (.refreshWaits _)

theorem Lighter.endInversion (inv : Inversion) (b : BankId) (rest : List BankId) : Lighter s (s.endInversion inv b rest) := by
  have hidle : Lighter s { s with matrix := none, inversionFifo := rest } := .of_same (fun _ => rfl) rfl rfl
  have hfinished : ∀ u : State, Lighter u (u.modBank b (Bank.finish inv)) := fun u => .of_same (fun _ => rfl) rfl rfl
  unfold State.endInversion
  refine .trans (.trans ((hidle.trans (hfinished _)).trans (.of_kept ?_)) (.of_kept (.causeAttempt _)))
    (.of_planned (.startInversion _))
  exact .foldl Kept.activateIfReady _ _

/-! ### Sweeps and epochs (02, 09) -/

theorem Lighter.startSweep : Lighter s s.startSweep := by
  unfold State.startSweep
  split
  · exact .of_same (fun _ => rfl) rfl rfl
  · exact .refl s

theorem Lighter.sweepAt (w : Sweep) (h : Handle) : Lighter s (s.sweepAt w h) := by
  have hreached : Lighter s { s with sweep := some { w with next := h + 1 } } := .of_same (fun _ => rfl) rfl rfl
  unfold State.sweepAt
  split
  · exact .ite (fun _ => hreached) fun _ => (hreached.trans (.of_kept (.sweepEntry ..))).trans (.refreshWaits _)
  · exact hreached

theorem Lighter.endEpoch : Lighter s s.endEpoch := by
  have hports : Lighter s { s with nextBoundary := s.nextBoundary + BitVec.ofNat 48 s.epochLength, ports := mapVec Port.endEpoch s.ports } :=
    .of_same (fun q => congrArg Port.responses (mapVec_get Port.endEpoch s.ports q) |>.trans rfl) rfl rfl
  have hwindows : ∀ u : State, Lighter u u.endWindows := fun u => by
    unfold State.endWindows
    exact .ite (fun _ => .of_same (fun _ => rfl) rfl rfl) fun _ => .of_same (fun _ => rfl) rfl rfl
  unfold State.endEpoch
  exact hports.trans (hwindows _)

/-! ### The Port Units (10) -/

/-- R168 step 1, R122: the records of the port and the answers owed to its offers are dropped. -/
theorem Lighter.resetQueues : Lighter s (s.resetQueues p) := by
  have hqueue : Lighter s (s.modPort p fun q =>
      { q with state := .resetting, reqTail := 0, reqHead := 0, respTail := 0, respHead := 0, responses := [] }) :=
    .modPort (List.nil_sublist _)
  refine hqueue.trans ⟨fun q c => Nat.add_le_add_left ?_ _⟩
  cases c with
  | response =>
    simp only [State.reserved, State.resetQueues, List.countP_map]
    refine List.countP_mono_left fun t _ ht => ?_
    simp only [Function.comp_apply, Bool.and_eq_true, decide_eq_true_eq] at ht ⊢
    split at ht
    · exact absurd ht.2 Bool.false_ne_true
    · exact ht
  | landed | fetch | coalesced => exact Nat.le_refl _

theorem Kept.triggerVia (h : Handle) : Kept s (s.triggerVia p h) := by
  unfold State.triggerVia
  split
  · exact .ite (.trigger ..) (.refl s)
  · exact .refl s

theorem Kept.unbindVia (h : Handle) : Kept s (s.unbindVia p h) := by
  unfold State.unbindVia
  split
  · refine .ite (.refl s) (.trans (.trans ?_ (.trigger ..)) (.closeIfDrained ..))
    exact .foldl (fun t pos => .dropDestination t false h pos) _ s
  · exact .refl s

theorem Kept.orphan (h : Handle) : Kept s (s.orphan p h) := by
  unfold State.orphan
  split
  · exact .ite (.refl s) (.ite (.trans (.setEntry ..) (.closeEntry ..)) (.setEntry ..))
  · exact .refl s

theorem Kept.forget (h : Handle) : Kept s (s.forget p h) := .trans (.modEntry ..) (.removeIfDone ..)

theorem Kept.resetSubmitters : Kept s (s.resetSubmitters p) :=
  .trans (.foldl (fun t h => .orphan t p h) _ s) (.foldl (fun t h => .forget t p h) _ _)

theorem Lighter.resetFetching : Lighter s (s.resetFetching p) := by
  have htriggered := (Kept.emptyFetches s p fun _ => true).trans
    (.foldl (fun t h => .triggerVia t p h) (s.emptyFetches p fun _ => true).handles _)
  have hlanding : ∀ u : State, Lighter u (u.modPort p fun q => { q with landing := [], wait := none }) := fun u =>
    .ofPort fun _ => rfl
  exact ((Lighter.of_kept htriggered).trans (hlanding _)).trans (.of_kept (.foldl (fun t h => .unbindVia t p h) _ _))

theorem Lighter.beginReset : Lighter s (s.beginReset p) := by
  have hreset : Lighter s ((((s.resetQueues p).resetFetching p).resetSubmitters p).modPort p Port.defaults) :=
    .trans (.trans (.trans (.resetQueues ..) (.resetFetching ..)) (.of_kept (.resetSubmitters ..))) (.ofPort fun _ => rfl)
  unfold State.beginReset
  generalize (((s.resetQueues p).resetFetching p).resetSubmitters p).modPort p Port.defaults = u at hreset ⊢
  have hreports : Lighter u ({ u with nodes := mapVec (Node.dropReport p) u.nodes } : State).causeAttempt :=
    .of_same (fun _ => rfl) rfl rfl
  exact (hreset.trans hreports).trans (.refreshWaits _)

theorem Lighter.enterUp : Lighter s (s.enterUp p) := by
  have hup : Lighter s (s.modPort p fun q => { q with state := .up }) := .ofPort fun _ => rfl
  have hmarks : ∀ u : State, Lighter u ({ u with nodes := mapVec (Node.markFor p) u.nodes } : State).causeAttempt :=
    fun u => .of_same (fun _ => rfl) rfl rfl
  exact (hup.trans (hmarks _)).trans (.refreshWaits _)

theorem Lighter.endReset : Lighter s (s.endReset p) := .ite (fun _ => .enterUp ..) fun _ => .ofPort fun _ => rfl

theorem Lighter.raiseLink : Lighter s (s.raiseLink p) := by
  have hlink : Lighter s (s.modPort p fun q => { q with link := true }) := .ofPort fun _ => rfl
  exact .ite (fun _ => hlink.trans (.enterUp ..)) fun _ => hlink

theorem Lighter.loseLink : Lighter s (s.loseLink p) := by
  have hlink : Lighter s (s.modPort p fun q => { q with link := false, eventEnable := false }) := .ofPort fun _ => rfl
  exact .ite (fun _ => hlink.trans (.beginReset ..)) fun _ => hlink

/-- R163: a response head takes records away. -/
theorem Port.responses_takeResponses (q : Port) (v : Nat) :
    (q.takeResponses v).responses = q.responses.drop (q.headTakes v) := by
  unfold Port.takeResponses
  dsimp only
  split <;> rfl

theorem Lighter.takeResponses (v : Nat) : Lighter s (s.modPort p fun q => q.takeResponses v) := by
  refine .modPort ?_
  rw [Port.responses_takeResponses]
  exact List.drop_sublist ..

/-- R170: after a device reset no share is in use. -/
theorem Lighter.resetDevice : Lighter s s.resetDevice := by
  refine .of_sublists (fun q => ?_) (List.nil_sublist _) (List.nil_sublist _)
  have hq : s.resetDevice.port q = ((s.deliveries.foldl State.abandon s).port q).afterReset := mapVec_get ..
  rw [hq]
  exact List.nil_sublist _

end Sys2Proof.Machine
end

section
/-! PROOFS. Each command that places a record, or reserves a slot for one, finds room in its share; so every step keeps the
shares within their sizes (O59). -/

namespace Sys2Proof.Machine

open Sys2Proof.Config

section

variable {s t : State}

/-! ### Requests -/

/-- R113: an OFFER is answered in the slot its taking has found, or keeps it reserved for the answer. -/
theorem offerDecide_sharesHold (p : PortId) (r : Request) (k : s.sharesHold)
    (room : s.shareUsed p .response < Share.response.size) : (offerDecide p r s).sharesHold := by
  unfold offerDecide
  split
  · exact k.place (.refl s) room
  · exact k.place (.of_kept (.emptySlotAt ..)) room
  · next tag f c _ =>
    refine (State.sharesHold_iff _).mpr fun q b => ?_
    have hold := s.sharesHold_iff.mp k q b
    have hports : ((s.takeOffer p r tag f c).port q).responses = (s.port q).responses := by
      have hslot : (s.takeOffer p r tag f c).port q = (s.modPort p fun y => y.setFetch tag none).port q := rfl
      rw [hslot, port_modPort]
      split
      · next hq =>
        rw [hq]
        rfl
      · rfl
    unfold State.shareUsed at hold room ⊢
    rw [hports]
    cases b with
    | response =>
      simp only [State.reserved, State.takeOffer, List.countP_append, List.countP_singleton, Bool.and_true,
        decide_eq_true_eq] at hold room ⊢
      by_cases hq : p = q
      · subst hq
        simp only [if_true]
        exact room
      · simp only [hq, if_false]
        exact hold
    | landed | fetch | coalesced => exact hold

theorem offer_sharesHold {p : PortId} (h : execOffer p s = .next t) (k : s.sharesHold) : t.sharesHold := by
  unfold execOffer at h
  exact withRequest_sharesHold h k fun r u hu hroom => offerDecide_sharesHold p r hu hroom

theorem portReset_sharesHold {p : PortId} (h : execPortReset p s = .next t) (k : s.sharesHold) : t.sharesHold := by
  unfold execPortReset at h
  exact withRequest_sharesHold h k fun _ u hu _ => (Lighter.beginReset u p).holds hu

theorem unknownKindRequest_sharesHold {p : PortId} (h : execUnknownKindRequest p s = .next t) (k : s.sharesHold) :
    t.sharesHold := by
  unfold execUnknownKindRequest at h
  exact withRequest_sharesHold h k fun _ u hu hroom => hu.place (.refl u) hroom

/-! ### The Gather Unit (R108, R111, R114 to R116, R122) -/

theorem fetchExpiry_sharesHold {p : PortId} {tag : FetchTag} (h : execFetchExpiry p tag s = .next t) (k : s.sharesHold) :
    t.sharesHold := by
  unfold execFetchExpiry at h
  split at h
  · exact event_lighter h k (.expire ..)
  · exact event_lighter h k (.refl s)

/-- R108: a fetch is issued only where the FETCH share has room. -/
theorem State.nextFetch_room {p : PortId} {x : Wanted × CellId} (h : s.nextFetch p = some x) :
    s.shareUsed p .fetch < Share.fetch.size := by
  unfold State.nextFetch at h
  split at h
  · next hmay =>
    simp only [State.mayFetch, Bool.and_eq_true, decide_eq_true_eq] at hmay
    obtain ⟨⟨-, hroom⟩, -⟩ := hmay
    exact hroom
  · cases h

theorem fetchIssue_sharesHold {p : PortId} (h : execFetchIssue p s = .next t) (k : s.sharesHold) : t.sharesHold := by
  unfold execFetchIssue at h
  split at h
  · next w c tag hnext _ =>
    refine event_sharesHold h k fun _ => ?_
    have hdrawn : Lighter s (s.draw c w.handle (.fetch p)) := .of_kept (.draw ..)
    have hcharged : ∀ u : State, Lighter u (u.modPort p fun q => (q.setFetch tag (some (s.newFetch w c))).charge) := fun u =>
      .ofPort fun _ => rfl
    unfold State.issue
    exact k.place (hdrawn.trans (hcharged _)) (State.nextFetch_room hnext)
  · exact event_lighter h k (.refl s)

theorem Lighter.withoutTransfer (s : State) (x : Transfer) : Lighter s (s.withoutTransfer x) :=
  .of_sublists (fun _ => .refl _) List.filter_sublist (.refl _)

/-- A filter that passes over a member which satisfies a test leaves fewer that do. -/
theorem countP_filter_lt {α : Type} {l : List α} {f g : α → Bool} {a : α} (ha : a ∈ l) (hf : f a = true) (hg : g a = false) :
    (l.filter g).countP f < l.countP f := by
  rw [List.countP_eq_countP_filter_add l f g]
  refine Nat.lt_add_of_pos_right (List.countP_pos_iff.mpr ⟨a, ?_, hf⟩)
  exact List.mem_filter.mpr ⟨ha, by rw [hg]; rfl⟩

theorem State.shareUsed_withoutTransfer {x : Transfer} (hx : x ∈ s.transfers) (ha : x.answers = true) :
    (s.withoutTransfer x).shareUsed x.port .response < s.shareUsed x.port .response :=
  Nat.add_lt_add_left (countP_filter_lt hx (by simp [ha]) (by simp)) _

/-- R116: the response that a checksum calls for, and what it makes of member and node. -/
theorem Lighter.badsum {u : State} {x : Transfer} (l : Lighter s (u.respond x.port 4 x.tag .badsum .none)) :
    Lighter s (u.badsum x) := by
  unfold State.badsum
  dsimp only
  refine .trans (.trans (l.trans (.of_kept (.release _ x.cell))) (.of_kept ?_))
    (.trans (.of_kept (.trans (.strike ..) (.count ..))) (.refreshWaits _))
  split
  · exact .chargeFailure ..
  · exact .refl _

/-- R114 to R116: the answer to an offer takes the slot reserved for it. -/
theorem Lighter.endTransfer {x : Transfer} (hx : x ∈ s.transfers) (data : List Byte) : Lighter s (s.endTransfer x data) := by
  have hended := Lighter.withoutTransfer s x
  by_cases ha : x.answers = true
  · have hplaced : ∀ u st, Lighter (s.withoutTransfer x) u → Lighter s (u.respond x.port 4 x.tag st .none) := fun u st hu =>
      (hended.trans hu).place ((hu.used x.port .response).trans_lt (State.shareUsed_withoutTransfer hx ha))
    by_cases hu : (s.withoutTransfer x).usesChunk x = true
    · by_cases hsum : crc32c data = x.checksum
      · rw [State.endTransfer_verified ha hu hsum]
        exact hplaced _ _ (.of_kept (.trans (.modCell ..) (.count ..)))
      · rw [State.endTransfer_badsum ha hu hsum]
        exact (hplaced _ _ (.refl _)).badsum
    · rw [State.endTransfer_gone ha hu]
      exact (hplaced _ _ (.of_kept (.release ..))).trans (.of_kept (.removeIfDone ..))
  · rw [State.endTransfer_dropped (Bool.eq_false_iff.mpr ha)]
    exact hended.trans (.of_kept (.trans (.release ..) (.removeIfDone ..)))

theorem offerTransferEnd_sharesHold {c : CellId} {data : List Byte} (h : execOfferTransferEnd c data s = .next t)
    (k : s.sharesHold) : t.sharesHold := by
  unfold execOfferTransferEnd at h
  split at h
  · next x hx => exact event_lighter h k (.endTransfer (List.mem_of_find?_eq_some hx) data)
  · exact event_lighter h k (.refl s)

/-! ### The Delivery Unit (R142 to R145) -/

/-- R142: a delivery begins only where the LANDED share has room, and reserves a slot of it. -/
theorem deliveryBegin_sharesHold {p : PortId} (h : execDeliveryBegin p s = .next t) (k : s.sharesHold) : t.sharesHold := by
  unfold execDeliveryBegin at h
  split at h
  · next o buffer rest _ _ =>
    refine event_sharesHold h k fun hmay => ?_
    simp only [State.mayDeliver, Bool.and_eq_true, decide_eq_true_eq] at hmay
    obtain ⟨⟨-, hroom⟩, -⟩ := hmay
    have htaken : Lighter s (s.modPort p fun q =>
        { q with outputs := q.outputs.filter (fun x => x.cell != o.cell), landing := rest }.charge) := .ofPort fun _ => rfl
    unfold State.beginDelivery
    refine (Lighter.refreshWaits _).holds ?_
    generalize (s.modPort p fun q => { q with outputs := q.outputs.filter (fun x => x.cell != o.cell), landing := rest }.charge)
      = u at htaken ⊢
    refine (State.sharesHold_iff _).mpr fun q c => ?_
    have hlight := htaken.used q c
    have hold := s.sharesHold_iff.mp k q c
    cases c with
    | landed =>
      have hjoined : ({ u with deliveries := u.deliveries ++ [⟨p, o, buffer, true⟩] } : State).shareUsed q .landed =
          u.shareUsed q .landed + if p = q then 1 else 0 := by
        simp only [State.shareUsed, State.reserved, State.deliveriesOn, List.countP_append, List.countP_singleton,
          decide_eq_true_eq]
        exact (Nat.add_assoc ..).symm
      have hlanded : s.shareUsed p .landed < Share.landed.size := hroom
      rw [hjoined]
      split
      · next hq =>
        subst hq
        omega
      · omega
    | response | fetch | coalesced => exact hlight.trans hold
  · exact event_lighter h k (.refl s)

/-- R143: the notice of a delivery takes the slot that its start has reserved. -/
theorem Lighter.endDelivery {d : Delivery} (hd : d ∈ s.deliveries) : Lighter s (s.endDelivery d) := by
  have hended : Lighter s { s with deliveries := s.deliveries.filter fun (x : Delivery) => decide (x.output.cell ≠ d.output.cell) } :=
    .of_sublists (fun _ => .refl _) (.refl _) List.filter_sublist
  have hfreed : ({ s with deliveries := s.deliveries.filter fun (x : Delivery) => decide (x.output.cell ≠ d.output.cell) } :
      State).shareUsed d.port .landed < s.shareUsed d.port .landed :=
    Nat.add_lt_add_left (countP_filter_lt hd (by simp) (by simp)) _
  have hwritten : ∀ (u : State) bytes, Lighter u (u.modPort d.port fun q =>
      { q with hostMem := landBytes q.hostMem d.buffer (fun _ => true) 0 bytes }) := fun u bytes => .ofPort fun _ => rfl
  unfold State.endDelivery
  refine Lighter.trans (.trans (.place (hended.trans (hwritten ..)) ?_) (.of_kept (.release ..))) (.of_kept (.creditDelivery ..))
  exact ((hwritten ..).used d.port .landed).trans_lt hfreed

theorem deliveryEnd_sharesHold {c : CellId} (h : execDeliveryEnd c s = .next t) (k : s.sharesHold) : t.sharesHold := by
  unfold execDeliveryEnd at h
  split at h
  · next d hd => exact event_lighter h k (.trans (.endDelivery (List.mem_of_find?_eq_some hd)) (.refreshWaits _))
  · exact event_lighter h k (.refl s)

theorem landingTimeout_sharesHold {p : PortId} (h : execLandingTimeout p s = .next t) (k : s.sharesHold) : t.sharesHold := by
  unfold execLandingTimeout at h
  split at h
  · exact event_lighter h k (.expireWait ..)
  · exact event_lighter h k (.refl s)

/-! ### The Decode Lanes, the Matrix Unit and sweeps (02, 05, 07) -/

theorem passDispatch_sharesHold (h : execPassDispatch s = .next t) (k : s.sharesHold) : t.sharesHold := by
  unfold execPassDispatch at h
  split at h
  · split at h
    · exact event_lighter h k (.dispatch ..)
    · exact event_lighter h k (.refl s)
  · exact event_lighter h k (.refl s)

theorem passComplete_sharesHold {l : LaneId} (h : execPassComplete l s = .next t) (k : s.sharesHold) : t.sharesHold := by
  unfold execPassComplete at h
  split at h
  · exact event_lighter h k (.completePass ..)
  · exact event_lighter h k (.refl s)

theorem inversionEnd_sharesHold (h : execInversionEnd s = .next t) (k : s.sharesHold) : t.sharesHold := by
  unfold execInversionEnd at h
  split at h
  · exact event_lighter h k (.endInversion ..)
  · exact event_lighter h k (.refl s)

theorem sweepVisit_sharesHold {i : Handle} (h : execSweepVisit i s = .next t) (k : s.sharesHold) : t.sharesHold := by
  unfold execSweepVisit at h
  split at h
  · exact event_lighter h k (.sweepAt ..)
  · exact event_lighter h k (.refl s)

theorem sweepEnd_sharesHold (h : execSweepEnd s = .next t) (k : s.sharesHold) : t.sharesHold := by
  have hended : Lighter s ({ s with sweep := none } : State).causeAttempt := .of_same (fun _ => rfl) rfl rfl
  unfold execSweepEnd at h
  split at h
  · exact event_lighter h k (hended.trans (.startSweep _))
  · exact event_lighter h k (.refl s)

/-! ### Coalesced notices, pins and resets (R165, R166, R170) -/

/-- R166: a notice is sent only where the coalesced share has room. -/
theorem send_sharesHold {u : State} {p : PortId} {r : Record} (hmay : s.maySend p = true)
    (hr : r.share = .coalesced) (k : s.sharesHold) (l : Kept s u) : (u.place p r).sharesHold := by
  simp only [State.maySend, Bool.and_eq_true, decide_eq_true_eq] at hmay
  refine k.place (.of_kept l) ?_
  rw [hr]
  exact hmay.2

theorem sendClosed_sharesHold {p : PortId} (h : execSendClosed p s = .next t) (k : s.sharesHold) : t.sharesHold := by
  unfold execSendClosed at h
  split at h
  · refine event_sharesHold h k fun hmay => ?_
    exact (Lighter.of_kept (.removeIfDone ..)).holds (send_sharesHold hmay rfl k (.setEntry ..))
  · exact event_lighter h k (.refl s)

theorem sendVoid_sharesHold {p : PortId} (h : execSendVoid p s = .next t) (k : s.sharesHold) : t.sharesHold := by
  unfold execSendVoid at h
  split at h
  · refine event_sharesHold h k fun hmay => ?_
    exact (Lighter.of_kept (.removeIfDone ..)).holds (send_sharesHold hmay rfl k (.modTarget ..))
  · exact event_lighter h k (.refl s)

theorem sendNodeState_sharesHold {p : PortId} (h : execSendNodeState p s = .next t) (k : s.sharesHold) : t.sharesHold := by
  unfold execSendNodeState at h
  split at h
  · exact event_sharesHold h k fun hmay => send_sharesHold hmay rfl k (.setNode ..)
  · exact event_lighter h k (.refl s)

theorem otherMemoryWrite_sharesHold {p : PortId} {a : Nat} {data : List Byte}
    (h : execOtherMemoryWrite p a data s = .next t) (k : s.sharesHold) : t.sharesHold := by
  unfold execOtherMemoryWrite at h
  split at h
  · cases h
  · split at h
    · cases h
    · refine event_lighter h k (.ofPort ?_)
      exact fun _ => rfl

theorem pinChange_sharesHold {p : PortId} {level : Bool} {f : Port → Port} (hf : ∀ q : Port, (f q).responses = q.responses)
    (h : pinChange p level f s = .next t) (k : s.sharesHold) : t.sharesHold := by
  obtain rfl := Host.Outcome.next.inj h
  have hheld : Lighter s (s.modPort p fun q => { q with pressure := level, held := level, epochMark := level }) :=
    .ofPort fun _ => rfl
  split
  · exact k
  · split
    · exact hheld.holds k
    · exact (Lighter.ofPort hf).holds k

theorem Port.responses_deassertPressure (q : Port) : q.deassertPressure.responses = q.responses := by
  unfold Port.deassertPressure
  split <;> rfl

theorem deviceResetRelease_sharesHold (h : execDeviceResetRelease s = .next t) (k : s.sharesHold) : t.sharesHold := by
  obtain rfl := Host.Outcome.next.inj h
  split
  · exact (Lighter.of_same (t := { s with inReset := false }) (fun _ => rfl) rfl rfl).holds k
  · exact k

/-! ### Every command -/

theorem exec_sharesHold (i : Instr) (h : exec i s = .next t) (k : s.sharesHold) : t.sharesHold := by
  cases i with
  | submit p => exact withAnswer_sharesHold h k fun r u => submitDecide_lighter u p r
  | withdraw p => exact withAnswer_sharesHold h k fun r u => withdrawDecide_lighter u p r
  | query p => exact withAnswer_sharesHold h k fun r u => queryDecide_lighter u r
  | offer p => exact offer_sharesHold h k
  | decline p => exact withAnswer_sharesHold h k fun r u => declineDecide_lighter u p r
  | postLanding p => exact withAnswer_sharesHold h k fun r u => postLandingDecide_lighter u p r
  | stored p => exact withAnswer_sharesHold h k fun r u => storedDecide_lighter u p r
  | refuseFragment p => exact withAnswer_sharesHold h k fun r u => refuseDecide_lighter u p r
  | defineNode p => exact withAnswer_sharesHold h k fun r u => defineNodeDecide_lighter u r
  | reportDown p =>
    exact withAnswer_sharesHold h k fun r u => oneNode_lighter u r fun n v => .trans (.of_kept (.reportNode p v n)) (.refreshWaits _)
  | reportRackDown p => exact withAnswer_sharesHold h k fun r u => reportRackDecide_lighter u p r
  | retractDown p => exact withAnswer_sharesHold h k fun r u => oneNode_lighter u r fun n v => .retract v p n
  | reviveNode p => exact withAnswer_sharesHold h k fun r u => oneNode_lighter u r fun n v => .trans (.revive v n) (.refreshWaits _)
  | clearSuspect p => exact withAnswer_sharesHold h k fun r u => oneNode_lighter u r fun n v => .clearSuspect v n
  | setProfile p => exact withAnswer_sharesHold h k fun r u => setProfileDecide_lighter u r
  | setDevice p => exact withAnswer_sharesHold h k fun r u => setDeviceDecide_lighter u r
  | setLimits p => exact withAnswer_sharesHold h k fun r u => setLimitsDecide_lighter u p r
  | setPacing p => exact withAnswer_sharesHold h k fun r u => setPacingDecide_lighter u p r
  | setPressureMode p => exact withAnswer_sharesHold h k fun r u => setModeDecide_lighter u p r
  | releasePressure p => exact withAnswer_sharesHold h k fun r u => releaseDecide_lighter u p r
  | snapshot p => exact withAnswer_sharesHold h k fun r u => snapshotDecide_lighter u p r
  | readCounters p => exact withAnswer_sharesHold h k fun r u => .refl u
  | portReset p => exact portReset_sharesHold h k
  | unknownKindRequest p => exact unknownKindRequest_sharesHold h k
  | requestTailWrite p value => exact event_lighter h k (.ofPort fun _ => rfl)
  | responseHeadWrite p value => exact event_lighter h k (.takeResponses s p _)
  | otherMemoryWrite p offset data => exact otherMemoryWrite_sharesHold h k
  | eventEnableChange p on => exact event_lighter h k (.ofPort fun _ => rfl)
  | linkUp p => exact event_lighter h k (.raiseLink s p)
  | linkLost p => exact event_lighter h k (.loseLink s p)
  | pressureAssertion p => exact pinChange_sharesHold (f := Port.assertPressure) (fun _ => rfl) h k
  | pressureDeassertion p => exact pinChange_sharesHold Port.responses_deassertPressure h k
  | deviceReset => exact event_lighter h k (.resetDevice s)
  | deviceResetRelease => exact deviceResetRelease_sharesHold h k
  | timebaseTick => exact event_lighter h k (.of_same (fun _ => rfl) rfl rfl)
  | epochBoundary => exact event_lighter h k (.endEpoch s)
  | fetchExpiry p tag => exact fetchExpiry_sharesHold h k
  | landingTimeout p => exact landingTimeout_sharesHold h k
  | planningAttempt => exact event_lighter h k (.of_planned (Planned.plan s))
  | fetchIssue p => exact fetchIssue_sharesHold h k
  | offerTransferEnd cell data => exact offerTransferEnd_sharesHold h k
  | passDispatch => exact passDispatch_sharesHold h k
  | passComplete lane => exact passComplete_sharesHold h k
  | deliveryBegin p => exact deliveryBegin_sharesHold h k
  | deliveryEnd cell => exact deliveryEnd_sharesHold h k
  | inversionBegin => exact event_lighter h k (.of_planned (Planned.startInversion s))
  | inversionEnd => exact inversionEnd_sharesHold h k
  | sweepBegin => exact event_lighter h k (.startSweep s)
  | sweepVisit i => exact sweepVisit_sharesHold h k
  | sweepEnd => exact sweepEnd_sharesHold h k
  | portResetEnd p => exact event_lighter h k (.endReset s p)
  | sendClosed p => exact sendClosed_sharesHold h k
  | sendVoid p => exact sendVoid_sharesHold h k
  | sendNodeState p => exact sendNodeState_sharesHold h k

end

/-- Settles O59, by cases on the command: what places no record fills no share (`Lighter`), and what places one or reserves
its slot has found room in the share (`State.sharesHold.place`) or uses up the slot reserved for it (`Lighter.place`). -/
theorem responseSharesNeverOverflow : Obligations.ResponseSharesNeverOverflow := by
  intro s t k h
  unfold step at h
  split at h
  · obtain rfl := Host.Outcome.next.inj h
    exact k
  · next i rest _ =>
    have htaken : Lighter s { s with pending := rest } := .of_same (fun _ => rfl) rfl rfl
    exact exec_sharesHold i h (htaken.holds k)

end Sys2Proof.Machine
end

section
/-! PROOFS. Request rows with nothing to take, an unknown kind, SET-LIMITS and SET-PACING (O2, O4, O5). -/

namespace Sys2Proof.Machine

open Sys2Proof.Config

/-! ### Nothing to take (log 1) -/

theorem withRequest_other {p : PortId} {f : Byte → Bool} {s : State} {b : Request → State → State}
    (h : f (s.port p).request.kind = false) : withRequest p f s b = .next s := by
  have hkind : ¬s.takes p f = true := fun htakes => Bool.eq_false_iff.mp h ((State.takes_iff ..).mp htakes).2
  rw [withRequest, if_neg hkind]

/-- A row for one kind leaves a record of another kind alone. -/
theorem withRequest_otherKind {p : PortId} {k : Byte} {s : State} {b : Request → State → State}
    (h : (s.port p).request.kind ≠ k) : withRequest p (fun x => x == k) s b = .next s :=
  withRequest_other (beq_eq_false_iff_ne.mpr h)

theorem unknownKind_iff (k : Byte) : unknownKind k = true ↔ k.toNat = 0 ∨ 23 < k.toNat := by
  rw [unknownKind, Bool.or_eq_true, beq_iff_eq, decide_eq_true_eq]
  exact or_congr_left ⟨fun h => by rw [h]; rfl, fun h => BitVec.eq_of_toNat_eq h⟩

theorem exec_unknownKindRequest (p : PortId) (s : State) : exec (.unknownKindRequest p) s =
    withRequest p unknownKind s fun r t => t.respond p r.kind r.tag .invalid .none := rfl

/-- R164, R171: the 23 kinds and their rows. -/
def requestRows (p : PortId) : List (Byte × Instr) :=
  [(1, .submit p), (2, .withdraw p), (3, .query p), (4, .offer p), (5, .decline p), (6, .postLanding p), (7, .stored p),
    (8, .refuseFragment p), (9, .defineNode p), (10, .reportDown p), (11, .reportRackDown p), (12, .retractDown p),
    (13, .reviveNode p), (14, .clearSuspect p), (15, .setProfile p), (16, .setDevice p), (17, .setLimits p),
    (18, .setPacing p), (19, .setPressureMode p), (20, .releasePressure p), (21, .snapshot p), (22, .readCounters p),
    (23, .portReset p)]

/-- Each row takes the records of its own kind. -/
theorem exec_requestRow (p : PortId) (s : State) :
    ∀ ki ∈ requestRows p, ∃ b, exec ki.2 s = withRequest p (fun x => x == ki.1) s b := by
  simp only [requestRows, List.forall_mem_cons, List.not_mem_nil, false_imp_iff, implies_true, and_true, exec, execSubmit,
    execWithdraw, execQuery, execOffer, execDecline, execPostLanding, execStored, execRefuseFragment, execDefineNode,
    execReportDown, execReportRackDown, execRetractDown, execReviveNode, execClearSuspect, execSetProfile, execSetDevice,
    execSetLimits, execSetPacing, execSetPressureMode, execReleasePressure, execSnapshot, execReadCounters, execPortReset,
    withAnswer]
  and_intros <;> exact ⟨_, rfl⟩

/-- Settles O2: every request row is a `withRequest` on the kinds that are its own. -/
theorem nothingToTakeChangesNothing : Obligations.NothingToTakeChangesNothing := by
  refine ⟨fun s hempty => ?_, fun s p hnone => ?_, fun s p => ⟨fun k i hrow hother => ?_, fun hzero hknown => ?_⟩⟩
  · rw [step, hempty]
  · have hrows : ∀ ki ∈ requestRows p, exec ki.2 s = .next s := fun ki hki => by
      obtain ⟨b, hb⟩ := exec_requestRow p s ki hki
      rw [hb, withRequest_idle hnone]
    have hunknown : exec (.unknownKindRequest p) s = .next s := by rw [exec_unknownKindRequest, withRequest_idle hnone]
    simp only [requestRows, List.forall_mem_cons, List.not_mem_nil, false_imp_iff, implies_true, and_true] at hrows
    simpa only [and_assoc] using And.intro hrows hunknown
  · obtain ⟨b, hb⟩ := exec_requestRow p s (k, i) hrow
    rw [hb, withRequest_otherKind hother]
  · rw [exec_unknownKindRequest]
    refine withRequest_other (Bool.eq_false_iff.mpr fun h => ?_)
    rcases (unknownKind_iff _).mp h with h | h
    · exact hzero h
    · omega

/-! ### An unknown kind (R164) -/

/-- Settles O4: for the kind at the head, the row decides as one for that kind alone would, and refuses. -/
theorem unknownKindIsRefusedInvalid : Obligations.UnknownKindIsRefusedInvalid := by
  intro s p hmay hkind
  have htakes : s.takes p unknownKind = true := (State.takes_iff ..).mpr ⟨hmay, (unknownKind_iff _).mpr hkind⟩
  have hoffers : s.offers p (s.port p).request.kind := ⟨hmay, rfl⟩
  rw [exec_unknownKindRequest, withRequest_next htakes]
  have honly := exec_only (d := fun _ t => Answer.only t .invalid) hoffers .invalid .none rfl
  rwa [withAnswer_next (State.takes_of_offers hoffers)] at honly

/-! ### SET-LIMITS and SET-PACING (R155, R164) -/

theorem clamp_eq {low high : Nat} (h : low ≤ high) (x : Nat) : clamp low high x = max low (min high x) := by
  unfold clamp
  split
  · omega
  · split <;> omega

/-- Settles O5, by `exec_own`: each of the two requests changes its own port outside its line. -/
theorem limitsAndPacingAreStored : Obligations.LimitsAndPacingAreStored := by
  refine ⟨fun s p h => ?_, fun s p h => ?_⟩
  · refine exec_own h _ .ok _ rfl rfl rfl ?_
    rw [← clamp_eq (by decide), ← clamp_eq (by decide), setLimitsDecide, modPort_advance]
    rfl
  · refine exec_own h _ .ok _ rfl rfl rfl ?_
    rw [setPacingDecide, modPort_advance, port_advance, if_pos rfl]
    rfl

end Sys2Proof.Machine
end

section
/-! PROOFS. The indices that a host writes, and the event enable (O8, O9, O11). -/

namespace Sys2Proof.Machine

open Sys2Proof.Config

/-- An event that changes one port, with the interrupt of its line. -/
theorem event_port {s : State} {p : PortId} {f : Port → Port} {a : Bool} (hreset : s.inReset = false) (ha : a = true) :
    event s a (s.modPort p f) = .next (s.setPort p (Port.risen (s.port p) (f (s.port p)))) := by
  rw [event_next hreset ha]
  refine congrArg _ (countRises_eq (fun k => ?_) rfl)
  rw [port_modPort, State.port_setPort]
  split
  · next hk => rw [hk]
  · exact Port.risen_of_line_eq rfl

theorem exec_requestTailWrite (p : PortId) (v : U32) (s : State) : exec (.requestTailWrite p v) s =
    event s (s.indexOpen p && (s.port p).tailFits v.toNat) (s.modPort p fun q => { q with reqTail := v.toNat }) := rfl

theorem exec_responseHeadWrite (p : PortId) (v : U32) (s : State) : exec (.responseHeadWrite p v) s =
    event s (s.indexOpen p && (s.port p).headFits v.toNat) (s.modPort p fun q => q.takeResponses v.toNat) := rfl

theorem exec_eventEnableChange (p : PortId) (on : Bool) (s : State) : exec (.eventEnableChange p on) s =
    event s (s.port p).link (s.modPort p fun q => { q with eventEnable := on }) := rfl

theorem State.indexOpen_iff (s : State) (p : PortId) :
    s.indexOpen p = true ↔ (s.port p).state = .up ∧ (s.port p).link = true := by
  rw [State.indexOpen, Bool.and_eq_true, beq_iff_eq]

theorem Port.line_iff (q : Port) : q.line = true ↔ q.state = .up ∧ q.responses ≠ [] ∧ q.eventEnable = true := by
  simp only [Port.line, Bool.and_eq_true, beq_iff_eq, Bool.not_eq_true', List.isEmpty_eq_false_iff, and_assoc]

/-- Settles O8: the row's test is the statement's, and a tail is no part of the event line. -/
theorem requestTailWriteKeepsQueueDepth : Obligations.RequestTailWriteKeepsQueueDepth := by
  intro s p v hreset q open_
  have hopen : (s.indexOpen p && (s.port p).tailFits v.toNat) = true ↔ open_ := by
    simp only [Bool.and_eq_true, State.indexOpen_iff, Port.tailFits, decide_eq_true_eq, and_assoc]
    exact Iff.rfl
  rw [exec_requestTailWrite]
  refine ⟨fun h => ?_, fun h => event_idle (.inr (Bool.eq_false_iff.mpr fun ha => h (hopen.mp ha)))⟩
  rw [event_port hreset (hopen.mpr h)]
  exact congrArg (fun x => Host.Outcome.next (s.setPort p x)) (Port.risen_of_line_eq rfl)

/-- R163, R167: the port after its host has taken records: no rise of the line is counted besides. -/
theorem Port.risen_takeResponses {q : Port} (hup : q.state = .up) (v : Nat) : Port.risen q (q.takeResponses v) = { q with
    respHead := v
    responses := q.responses.drop (q.headTakes v)
    interrupts := if q.responses.drop (q.headTakes v) ≠ [] ∧ q.eventEnable = true then q.interrupts + 1 else q.interrupts } := by
  have hfall : ∀ n, ({ q with respHead := v, responses := q.responses.drop (q.headTakes v), interrupts := n } : Port).line = true ↔
      q.responses.drop (q.headTakes v) ≠ [] ∧ q.eventEnable = true := fun n =>
    (Port.line_iff _).trans (and_iff_right hup)
  have hleft : q.responses.drop (q.headTakes v) ≠ [] ∧ q.eventEnable = true → q.line = true := fun ⟨hrest, hon⟩ =>
    q.line_iff.mpr ⟨hup, fun hnone => hrest (by rw [hnone, List.drop_nil]), hon⟩
  by_cases hrest : q.responses.drop (q.headTakes v) ≠ [] ∧ q.eventEnable = true
  · rw [Port.takeResponses, if_pos (Bool.and_eq_true_iff.mpr ⟨hleft hrest, (hfall _).mpr hrest⟩), if_pos hrest]
    exact Port.risen_same (.inl (hleft hrest))
  · have hlow := Bool.eq_false_iff.mpr fun h => hrest ((hfall q.interrupts).mp h)
    rw [Port.takeResponses, if_neg fun h => hrest ((hfall _).mp (Bool.and_eq_true_iff.mp h).2), if_neg hrest]
    exact Port.risen_same (.inr hlow)

/-- Settles O9, by `Port.risen_takeResponses`. -/
theorem responseHeadWriteTakesRecords : Obligations.ResponseHeadWriteTakesRecords := by
  intro s p v hreset q n open_
  have hopen : (s.indexOpen p && (s.port p).headFits v.toNat) = true ↔ open_ := by
    simp only [Bool.and_eq_true, State.indexOpen_iff, Port.headFits, decide_eq_true_eq, and_assoc]
    exact Iff.rfl
  rw [exec_responseHeadWrite]
  refine ⟨fun h => ?_, fun h => event_idle (.inr (Bool.eq_false_iff.mpr fun ha => h (hopen.mp ha)))⟩
  rw [event_port hreset (hopen.mpr h), Port.risen_takeResponses h.1]
  rfl

/-- Settles O11: the line rises where it was low for the enable alone. -/
theorem eventEnableChangeMovesLine : Obligations.EventEnableChangeMovesLine := by
  intro s p on hreset hlink q
  rw [exec_eventEnableChange, event_port hreset hlink]
  have hrises : (!q.line && ({ q with eventEnable := on } : Port).line) = true ↔
      q.state = .up ∧ q.responses ≠ [] ∧ q.eventEnable = false ∧ on = true := by
    rw [Bool.and_eq_true, Bool.not_eq_true', ← Bool.not_eq_true, Port.line_iff, Port.line_iff, ← Bool.not_eq_true]
    tauto
  unfold Port.risen
  by_cases h : q.state = .up ∧ q.responses ≠ [] ∧ q.eventEnable = false ∧ on = true
  · rw [if_pos (hrises.mpr h), if_pos h]
  · rw [if_neg fun hup => h (hrises.mp hup), if_neg h]

end Sys2Proof.Machine
end

section
/-! PROOFS. The state after device reset: its values, and the invariants there (O3, O57). -/

namespace Sys2Proof.Machine

open Sys2Proof.Config

theorem port_reset (p : PortId) : State.reset.port p = Port.reset := Vector.getElem_replicate _

theorem node_reset (n : NodeId) : State.reset.node n = Node.reset := Vector.getElem_replicate _

theorem profile_reset (i : ProfileId) : State.reset.profile i = Profile.reset := Vector.getElem_replicate _

theorem cell_reset (c : CellId) : State.reset.cell c = none := Vector.getElem_replicate _

theorem lane_reset (l : LaneId) : State.reset.lane l = none := Vector.getElem_replicate _

theorem bank_reset (b : BankId) : State.reset.bank b = Bank.reset b.val := by
  revert b
  decide

/-- Settles O3, table by table. -/
theorem resetStateHasTheStatedValues : Obligations.ResetStateHasTheStatedValues := by
  refine ⟨node_reset, profile_reset, rfl, rfl, rfl, rfl, rfl, rfl, rfl, rfl, rfl, rfl, rfl, rfl, rfl, rfl, fun b => ?_,
    rfl, rfl, rfl, rfl, cell_reset, lane_reset, fun i => Vector.getElem_replicate _, fun p => ?_, rfl⟩
  · rw [bank_reset]
    exact ⟨rfl, rfl, rfl, rfl, rfl, rfl⟩
  · rw [port_reset]
    exact ⟨rfl, rfl, rfl, rfl, rfl, rfl, fun _ => Vector.getElem_replicate _, rfl, rfl, rfl, rfl, rfl, rfl, rfl, rfl, rfl, rfl,
      fun _ => Vector.getElem_replicate _⟩

theorem settingsHold_reset : State.reset.settingsHold := by
  refine State.reset.settingsHold_iff.mpr ⟨by decide, ⟨fun b => ?_, fun b c h => ?_⟩, ?_, List.Pairwise.nil, fun p => ?_⟩
  · rw [bank_reset]
    exact b.isLt
  · rw [bank_reset, bank_reset] at h
    exact Fin.ext h
  · unfold State.rangesHold
    decide
  · rw [port_reset]
    unfold Port.legal Budget.fits Port.indicesHold
    decide

theorem sharesHold_reset : State.reset.sharesHold := by
  refine State.reset.sharesHold_iff.mpr fun p c => ?_
  have hnone : State.reset.shareUsed p c = 0 := by
    unfold State.shareUsed
    rw [port_reset]
    cases c <;> rfl
  rw [hnone]
  exact Nat.zero_le _

/-- Settles O57. -/
theorem invariantsHoldAtReset : Obligations.InvariantsHoldAtReset :=
  ⟨settingsHold_reset, tableHolds_of_empty rfl, sharesHold_reset⟩

end Sys2Proof.Machine
end

section
/-! PROOFS. SET-DEVICE (O22). -/

namespace Sys2Proof.Machine

open Sys2Proof.Config

/-! ### A lower quorum (R30) -/

/-- R30: the node's reports meet the quorum, and make it DOWN. -/
def State.meetsQuorum (s : State) (n : NodeId) : Bool :=
  (s.node n).state.serves && decide (s.quorum ≤ PortSet.size (s.node n).reports)

theorem State.meetsQuorum_iff (s : State) (n : NodeId) : s.meetsQuorum n = true ↔ (s.node n).falls s.quorum := by
  rw [State.meetsQuorum, Bool.and_eq_true, NodeState.serves_iff, decide_eq_true_eq, Node.falls]

/-- R27, R30: what the quorum makes of the node. -/
def State.underQuorum (s : State) (n : NodeId) : Node := if s.meetsQuorum n = true then (s.node n).fallen else s.node n

theorem State.downIfQuorum_eq (s : State) (n : NodeId) : s.downIfQuorum n =
    { s.setNode n (s.underQuorum n) with
      sweepFifo := s.sweepFifo ++ (if s.meetsQuorum n = true then [n] else [])
      attempt := s.attempt || s.meetsQuorum n } := by
  have hdown : s.downIfQuorum n = if s.meetsQuorum n = true then s.nodeGoesDown n else s := rfl
  rw [hdown, State.underQuorum]
  by_cases hmeets : s.meetsQuorum n = true
  · rw [if_pos hmeets, if_pos hmeets, if_pos hmeets, hmeets, Bool.or_true]
    rfl
  · rw [if_neg hmeets, if_neg hmeets, if_neg hmeets, Bool.eq_false_iff.mpr hmeets, Bool.or_false, List.append_nil, setNode_self]

/-- R30: what the state comes to when the nodes of `l` have been held against the quorum one after another. -/
structure QuorumApplied (s : State) (l : List NodeId) (t : State) : Prop where
  rest : { s with nodes := t.nodes, sweepFifo := t.sweepFifo, attempt := t.attempt } = t
  node : ∀ n, t.node n = if n ∈ l then s.underQuorum n else s.node n
  fifo : t.sweepFifo = s.sweepFifo ++ l.filter s.meetsQuorum
  attempt : t.attempt = (s.attempt || l.any s.meetsQuorum)

section

variable {s t : State} {l : List NodeId}

theorem QuorumApplied.start (s : State) : QuorumApplied s [] s where
  rest := rfl
  node := by simp
  fifo := by simp
  attempt := by simp

theorem QuorumApplied.step (h : QuorumApplied s l t) {n : NodeId} (hn : n ∉ l) :
    QuorumApplied s (l ++ [n]) (t.downIfQuorum n) := by
  have hnode : t.node n = s.node n := by rw [h.node, if_neg hn]
  have hquorum : t.quorum = s.quorum := by rw [← h.rest]
  have hmeets : t.meetsQuorum n = s.meetsQuorum n := by rw [State.meetsQuorum, State.meetsQuorum, hnode, hquorum]
  have hunder : t.underQuorum n = s.underQuorum n := by rw [State.underQuorum, State.underQuorum, hmeets, hnode]
  rw [State.downIfQuorum_eq, hmeets, hunder]
  refine ⟨?_, fun k => ?_, ?_, ?_⟩
  · rw [← h.rest]
    rfl
  · have hset : (t.setNode n (s.underQuorum n)).node k = if k ∈ l ++ [n] then s.underQuorum k else s.node k := by
      rw [State.node_setNode, h.node]
      by_cases hk : k = n
      · simp [hk]
      · simp [hk]
    exact hset
  · show t.sweepFifo ++ _ = _
    rw [h.fifo, List.filter_append, List.append_assoc, List.filter_singleton]
    cases s.meetsQuorum n <;> rfl
  · show (t.attempt || s.meetsQuorum n) = _
    rw [h.attempt, List.any_append, List.any_cons, List.any_nil, Bool.or_false, Bool.or_assoc]

theorem QuorumApplied.foldl (h : QuorumApplied s l t) {l' : List NodeId} (hnodup : (l ++ l').Nodup) :
    QuorumApplied s (l ++ l') (l'.foldl State.downIfQuorum t) := by
  induction l' generalizing l t with
  | nil => rwa [List.append_nil]
  | cons n l' ih =>
    have hn : n ∉ l := fun hmem => (List.nodup_append.mp hnodup).2.2 n hmem n List.mem_cons_self rfl
    rw [List.append_cons] at hnodup ⊢
    exact ih (h.step hn) hnodup

theorem QuorumApplied.port (h : QuorumApplied s l t) (q : PortId) : t.port q = s.port q := by
  rw [← h.rest]
  rfl

end

theorem allNodes_eq : allNodes = List.finRange 256 := allBelow_eq 256

theorem mem_allNodes (n : NodeId) : n ∈ allNodes := allNodes_eq ▸ List.mem_finRange n

theorem allNodes_rising : allNodes.Pairwise (· < ·) := allNodes_eq ▸ List.pairwise_lt_finRange 256

theorem State.allUnderQuorum (s : State) : QuorumApplied s allNodes (allNodes.foldl State.downIfQuorum s) :=
  (QuorumApplied.start s).foldl (allNodes_rising.imp Fin.ne_of_lt)

/-! ### The request (R164) -/

theorem exec_setDevice (p : PortId) (s : State) : exec (.setDevice p) s = withAnswer p 16 s setDeviceDecide := rfl

theorem fieldBad_iff (low high x : Nat) : fieldBad low high x = true ↔ x ≠ 0 ∧ (x < low ∨ high < x) := by
  simp only [fieldBad, Bool.and_eq_true, Bool.or_eq_true, decide_eq_true_eq]

theorem deviceBad_iff (r : Request) : deviceBad r = true ↔
    (r.quorum ≠ 0 ∧ (r.quorum < 1 ∨ 4 < r.quorum)) ∨ (r.window ≠ 0 ∧ (r.window < 1 ∨ 8 < r.window))
      ∨ (r.fetchTimeout ≠ 0 ∧ (r.fetchTimeout < 10 ∨ 5000 < r.fetchTimeout))
      ∨ (r.landingTimeout ≠ 0 ∧ (r.landingTimeout < 100 ∨ 60000 < r.landingTimeout))
      ∨ (r.epochLength ≠ 0 ∧ (r.epochLength < 1 ∨ 1000 < r.epochLength)) := by
  simp only [deviceBad, Bool.or_eq_true, fieldBad_iff, or_assoc]

section

variable {r : Request} {s : State}

theorem setDeviceDecide_bad (h : deviceBad r = true) : setDeviceDecide r s = Answer.only s .invalid := if_pos h

theorem setDeviceDecide_lower (h : ¬deviceBad r = true) (hlower : unlessZero r.quorum s.quorum < s.quorum) :
    setDeviceDecide r s = Answer.only (allNodes.foldl State.downIfQuorum (s.writeDevice r)).refreshWaits .ok :=
  (if_neg h).trans (if_pos hlower)

theorem setDeviceDecide_written (h : ¬deviceBad r = true) (hkept : ¬unlessZero r.quorum s.quorum < s.quorum) :
    setDeviceDecide r s = Answer.only (s.writeDevice r) .ok := (if_neg h).trans (if_neg hkept)

end

/-- Settles O22: with a lower quorum every node is held against it (`State.allUnderQuorum`); else the values are written
and nothing more. -/
theorem setDeviceWritesNonzeroValues : Obligations.SetDeviceWritesNonzeroValues := by
  intro s p h r out bad written quorum falls
  have hbad : deviceBad r = true ↔ bad := deviceBad_iff r
  rw [exec_setDevice]
  refine ⟨fun hinvalid => exec_only h .invalid .none (setDeviceDecide_bad (hbad.mpr hinvalid)), fun hgood => ?_⟩
  have hgood : ¬deviceBad r = true := fun hinvalid => hgood (hbad.mp hinvalid)
  by_cases hlower : quorum < s.quorum
  · have hfalls : ∀ n, ((s.advance p).writeDevice r).meetsQuorum n = true ↔ falls n := fun n =>
      (State.meetsQuorum_iff ..).trans (and_iff_right hlower).symm
    have happlied := ((s.advance p).writeDevice r).allUnderQuorum
    obtain ⟨u, hexec, hports, hu⟩ := exec_waits h (setDeviceDecide_lower (s := s.advance p) hgood hlower) fun q =>
      happlied.port q
    obtain ⟨hrest, hnode, hfifo, hattempt⟩ := happlied
    generalize allNodes.foldl State.downIfQuorum ((s.advance p).writeDevice r) = t at hrest hnode hfifo hattempt hu
    have hmem := mem_allNodes
    have hrising := allNodes_rising
    generalize allNodes = nodes at hnode hfifo hattempt hmem hrising
    have hnode : ∀ n, u.node n = ((s.advance p).writeDevice r).underQuorum n := fun n => by
      rw [← hu]
      exact (hnode n).trans (if_pos (hmem n))
    refine ⟨u, hexec, fun _ => hports, fun hkept => absurd hlower hkept, ?_, fun n => ⟨fun hn => ?_, fun hn => ?_⟩,
      nodes.filter ((s.advance p).writeDevice r).meetsQuorum, ?_, ?_, fun n => ?_, fun hl => ?_, fun hl => ?_⟩
    · rw [← hu, ← hrest]
      rfl
    · rw [hnode, State.underQuorum, if_pos ((hfalls n).mpr hn)]
      rfl
    · rw [hnode, State.underQuorum, if_neg fun hmeets => hn ((hfalls n).mp hmeets)]
      rfl
    · rw [← hu]
      exact hfifo
    · exact hrising.filter _
    · rw [List.mem_filter, hfalls]
      exact and_iff_right (hmem n)
    · obtain ⟨n, hn⟩ := List.exists_mem_of_ne_nil _ hl
      rw [List.any_eq_true.mpr ⟨n, List.mem_filter.mp hn⟩, Bool.or_true] at hattempt
      rw [← hu]
      exact hattempt
    · rw [List.any_eq_false.mpr (List.filter_eq_nil_iff.mp hl), Bool.or_false] at hattempt
      rw [← hu]
      exact hattempt
  · have hnone : ∀ n, ¬falls n := fun n hn => hlower hn.1
    refine ⟨(s.writeDevice r).answered p 16 .ok .none,
      exec_tables h .ok .none rfl (setDeviceDecide_written (s := s.advance p) hgood hlower),
      fun h => absurd h hlower, fun _ => rfl, rfl, fun n => ⟨fun hn => absurd hn (hnone n), fun _ => rfl⟩, [],
      (List.append_nil _).symm, List.Pairwise.nil, fun n => ⟨fun hn => absurd hn List.not_mem_nil, fun hn => absurd hn (hnone n)⟩,
      fun hl => absurd rfl hl, fun _ => rfl⟩

end Sys2Proof.Machine
end

section
/-! PROOFS. Links, and the end of a port reset (O23). -/

namespace Sys2Proof.Machine

open Sys2Proof.Config

theorem exec_linkUp (p : PortId) (s : State) : exec (.linkUp p) s = event s (!(s.port p).link) (s.raiseLink p) := rfl

theorem exec_linkLost (p : PortId) (s : State) : exec (.linkLost p) s = event s (s.port p).link (s.loseLink p) := rfl

theorem exec_portResetEnd (p : PortId) (s : State) :
    exec (.portResetEnd p) s = event s ((s.port p).state == .resetting) (s.endReset p) := rfl

section

variable {s : State} {p : PortId}

/-! ### A port enters UP (R162) -/

/-- R162: port `p` UP, its NODE-STATE marks set and a planning attempt caused, with the waits still to be treated. -/
def State.opened (s : State) (p : PortId) : State :=
  { s.setPort p { s.port p with state := .up, link := true } with nodes := mapVec (Node.markFor p) s.nodes, attempt := true }

theorem State.raiseLink_down (h : (s.port p).state = .down) : s.raiseLink p = (s.opened p).refreshWaits := by
  have hup : (s.modPort p fun q => { q with link := true }).modPort p (fun q => { q with state := .up }) =
      s.setPort p { s.port p with state := .up, link := true } := by
    rw [State.modPort, port_modPort, if_pos rfl, State.modPort, setPort_setPort]
  rw [State.raiseLink, if_pos h, State.enterUp, hup]
  rfl

theorem State.endReset_linked (h : (s.port p).link = true) : s.endReset p = (s.opened p).refreshWaits := by
  have hlinked : ({ s.port p with state := .up } : Port) = { s.port p with state := .up, link := true } := by rw [← h]
  rw [State.endReset, if_pos h, State.enterUp, State.modPort, hlinked]
  rfl

theorem State.port_opened (s : State) (p k : PortId) :
    (s.opened p).port k = if k = p then { s.port p with state := .up, link := true } else s.port k := by
  have hset : (s.opened p).port k = (s.setPort p { s.port p with state := .up, link := true }).port k := rfl
  rw [hset, State.port_setPort]

theorem State.node_opened (s : State) (p : PortId) (n : NodeId) : (s.opened p).node n = (s.node n).markFor p := mapVec_get ..

theorem State.wait_opened (s : State) (p k : PortId) : ((s.opened p).port k).wait = (s.port k).wait := by
  rw [State.port_opened]
  split
  · next hk => rw [hk]
  · rfl

/-- R162, R167: the event line of a port that enters UP rises where records wait and the enable is set. -/
theorem Port.risen_up {q : Port} (h : q.state ≠ .up) (wait : Option U48) :
    Port.risen q { q with state := .up, link := true, wait := wait } = { q with
      state := .up, link := true, wait := wait
      interrupts := if q.responses ≠ [] ∧ q.eventEnable = true then q.interrupts + 1 else q.interrupts } := by
  have hrises : (!q.line && ({ q with state := .up, link := true, wait := wait } : Port).line) = true ↔
      q.responses ≠ [] ∧ q.eventEnable = true := by
    rw [Bool.and_eq_true, Bool.not_eq_true', ← Bool.not_eq_true, Port.line_iff, Port.line_iff]
    exact ⟨fun ⟨_, _, hline⟩ => hline, fun hline => ⟨fun hup => h hup.1, rfl, hline⟩⟩
  unfold Port.risen
  by_cases hline : q.responses ≠ [] ∧ q.eventEnable = true
  · rw [if_pos (hrises.mpr hline), if_pos hline]
  · rw [if_neg fun hup => hline (hrises.mp hup), if_neg hline]

/-- R162, R145, R167: the ports once port `p` has entered UP. -/
theorem State.port_enteredUp (h : (s.port p).state ≠ .up) (k : PortId) :
    (countRises s (s.opened p).refreshWaits).port k =
      if k = p then { s.port p with
        state := .up, link := true, wait := ((s.opened p).refreshWaits.port p).wait
        interrupts := if (s.port p).responses ≠ [] ∧ (s.port p).eventEnable = true then (s.port p).interrupts + 1
          else (s.port p).interrupts }
      else { s.port k with wait := ((s.opened p).refreshWaits.port k).wait } := by
  have hx := port_refreshWaits (s.opened p) k
  rw [State.port_opened] at hx
  rw [port_countRises]
  generalize (s.opened p).refreshWaits = x at hx ⊢
  by_cases hk : k = p
  · subst hk
    rw [if_pos rfl] at hx ⊢
    exact (congrArg (Port.risen (s.port k)) hx).trans (Port.risen_up h _)
  · rw [if_neg hk] at hx ⊢
    exact (Port.risen_of_line_eq (by rw [hx]; rfl)).trans hx

/-- R145: the waits once port `p` has entered UP. -/
theorem State.wait_enteredUp (s : State) (p k : PortId) : ((s.opened p).refreshWaits.port k).wait =
    waitAfter s (countRises s (s.opened p).refreshWaits) k := by
  have hport : ∀ q, (countRises s (s.opened p).refreshWaits).port q = { (s.opened p).port q with
      wait := ((s.opened p).refreshWaits.port q).wait
      interrupts := ((countRises s (s.opened p).refreshWaits).port q).interrupts } := fun q => by
    rw [port_countRises, Port.risen_eq, port_refreshWaits]
  have hrest := ports_trans (rest_refreshWaits (s.opened p)) (rest_countRises s (s.opened p).refreshWaits)
  rw [wait_refreshWaits]
  generalize countRises s (s.opened p).refreshWaits = u at hport hrest ⊢
  refine waitAfter_congr (s.wait_opened p k) ?_ ?_ ?_ ?_ ?_ ?_
  · rw [hport k]
  · rw [hport k]
  · rw [hport k]
  all_goals rw [← hrest]

/-! ### Changes of the link alone (log 32) -/

/-- A port that is not UP after a change of it raises no line. -/
theorem event_quiet {f : Port → Port} {a : Bool} (hreset : s.inReset = false) (ha : a = true)
    (hf : (f (s.port p)).state ≠ .up) : event s a (s.modPort p f) = .next (s.setPort p (f (s.port p))) := by
  have hlow : (f (s.port p)).line = false := Bool.eq_false_iff.mpr fun hline => hf ((Port.line_iff _).mp hline).1
  rw [event_port hreset ha, Port.risen_same (.inr hlow)]

theorem State.raiseLink_other (h : (s.port p).state ≠ .down) :
    s.raiseLink p = s.modPort p fun q => { q with link := true } := if_neg h

theorem State.loseLink_other (h : (s.port p).state ≠ .up) :
    s.loseLink p = s.modPort p fun q => { q with link := false, eventEnable := false } := if_neg h

theorem State.endReset_unlinked (h : (s.port p).link = false) :
    s.endReset p = s.modPort p fun q => { q with state := .down } := if_neg (Bool.eq_false_iff.mp h)

end

/-- Settles O23: both ways into UP lead to `State.opened`, and the other events change one port that is not UP. -/
theorem linkAndResetEndMovePort : Obligations.LinkAndResetEndMovePort := by
  refine ⟨?_, ?_⟩
  · intro s p i hreset q hopens
    have hexec : q.state ≠ .up ∧ exec i s = .next (countRises s (s.opened p).refreshWaits) := by
      rcases hopens with ⟨rfl, hlink, hdown⟩ | ⟨rfl, hlink, hresetting⟩
      · refine ⟨by rw [hdown]; decide, ?_⟩
        rw [exec_linkUp, State.raiseLink_down hdown]
        exact event_next hreset (by rw [hlink]; rfl)
      · refine ⟨by rw [hresetting]; decide, ?_⟩
        rw [exec_portResetEnd, State.endReset_linked hlink]
        exact event_next hreset (beq_iff_eq.mpr hresetting)
    obtain ⟨hclosed, hexec⟩ := hexec
    have hport := State.port_enteredUp hclosed
    have hwait := s.wait_enteredUp p
    have hrest := ports_trans (rest_refreshWaits (s.opened p)) (rest_countRises s (s.opened p).refreshWaits)
    refine ⟨_, hexec, ?_, fun n => ?_, fun k hk => ?_, ?_⟩
    · rw [← hrest]
      rfl
    · have hnode : (countRises s (s.opened p).refreshWaits).node n = (s.opened p).node n := by rw [← hrest]; rfl
      rw [hnode, State.node_opened]
      rfl
    · rw [hport, if_neg hk, hwait]
    · rw [hport, if_pos rfl, hwait]
  · intro s p hreset q
    refine ⟨fun hlink hdown hup => ?_, fun hlink hup => ?_, fun hlink hresetting => ?_⟩
    · rw [exec_linkUp, State.raiseLink_other hdown]
      exact event_quiet hreset (by rw [hlink]; rfl) hup
    · rw [exec_linkLost, State.loseLink_other hup]
      exact event_quiet hreset hlink hup
    · rw [exec_portResetEnd, State.endReset_unlinked hlink]
      exact event_quiet hreset (beq_iff_eq.mpr hresetting) nofun

end Sys2Proof.Machine
end

section
/-! PROOFS. RST_N (O25). -/

namespace Sys2Proof.Machine

open Sys2Proof.Config

theorem exec_deviceReset (s : State) : exec .deviceReset s = event s true s.resetDevice := rfl

theorem exec_deviceResetRelease (s : State) : exec .deviceResetRelease s =
    .next (if s.inReset then { s with inReset := false } else s) := rfl

/-- R170: deliveries that are abandoned change the hosts' memories alone. -/
theorem port_abandon (l : List Delivery) (s : State) (p : PortId) :
    (l.foldl State.abandon s).port p = { s.port p with hostMem := ((l.foldl State.abandon s).port p).hostMem } := by
  induction l generalizing s with
  | nil => rfl
  | cons d rest ih =>
    have hone : (s.abandon d).port p = { s.port p with hostMem := ((s.abandon d).port p).hostMem } := by
      have hset : ∀ m, (s.abandon d).port p = (s.setPort d.port { s.port d.port with hostMem := m }).port p →
          (s.abandon d).port p = { s.port p with hostMem := ((s.abandon d).port p).hostMem } := fun m hm => by
        rw [hm, State.port_setPort]
        split
        · next hp => rw [hp]
        · rfl
      exact hset _ rfl
    rw [List.foldl_cons, ih, hone]

theorem pending_abandon (l : List Delivery) (s : State) : (l.foldl State.abandon s).pending = s.pending := by
  induction l generalizing s with
  | nil => rfl
  | cons d rest ih => rw [List.foldl_cons, ih]; rfl

theorem State.port_resetDevice (s : State) (p : PortId) :
    s.resetDevice.port p = ((s.deliveries.foldl State.abandon s).port p).afterReset := mapVec_get ..

/-- R170: a port that is held in reset keeps what lies outside the part. -/
theorem State.port_resetDevice_eq (s : State) (p : PortId) : s.resetDevice.port p = { Port.reset with
    pressure := (s.port p).pressure, held := (s.port p).pressure, epochMark := (s.port p).pressure
    interrupts := (s.port p).interrupts, hostMem := (s.resetDevice.port p).hostMem } := by
  rw [State.port_resetDevice, port_abandon]
  rfl

theorem exec_deviceReset_next {s : State} (h : s.inReset = false) : exec .deviceReset s = .next s.resetDevice := by
  rw [exec_deviceReset, event_next h rfl]
  refine congrArg _ (countRises_eq (fun p => Port.risen_same (.inr ?_)) rfl)
  rw [State.port_resetDevice_eq]
  rfl

/-! ### While RST_N is asserted (log 11) -/

section

variable {s : State} (h : s.inReset = true)

include h

theorem withRequest_inReset {p : PortId} {f : Byte → Bool} {b : Request → State → State} :
    withRequest p f s b = .next s := withRequest_idle fun hmay => Bool.noConfusion (hmay.1.symm.trans h)

theorem withAnswer_inReset {p : PortId} {k : Byte} {d : Request → State → Answer} :
    withAnswer p k s d = .next s := withRequest_inReset h

theorem event_inReset {t : State} {a : Bool} : event s a t = .next s := event_idle (.inl h)

theorem execPassDispatch_inReset : execPassDispatch s = .next s := by
  unfold execPassDispatch
  split
  · split
    · exact event_inReset h
    · exact event_inReset h
  · exact event_inReset h

/-- R170: of the commands that no pin of reset or pressure sends, only another memory write may stop. -/
theorem exec_inReset (i : Instr) (hrelease : i ≠ .deviceResetRelease)
    (hpressure : ∀ p, i ≠ .pressureAssertion p ∧ i ≠ .pressureDeassertion p)
    (hwrite : ∀ p off data, i ≠ .otherMemoryWrite p off data) : exec i s = .next s := by
  cases i with
  | submit | withdraw | query | decline | postLanding | stored | refuseFragment | defineNode | reportDown | reportRackDown
  | retractDown | reviveNode | clearSuspect | setProfile | setDevice | setLimits | setPacing | setPressureMode
  | releasePressure | snapshot | readCounters => exact withAnswer_inReset h
  | offer | portReset | unknownKindRequest =>
    simp only [exec, execOffer, execPortReset, execUnknownKindRequest]
    exact withRequest_inReset h
  | requestTailWrite | responseHeadWrite | eventEnableChange | linkUp | linkLost | deviceReset | timebaseTick | epochBoundary
  | planningAttempt | inversionBegin | sweepBegin | portResetEnd => exact event_inReset h
  | otherMemoryWrite p off data => exact absurd rfl (hwrite p off data)
  | pressureAssertion p => exact absurd rfl (hpressure p).1
  | pressureDeassertion p => exact absurd rfl (hpressure p).2
  | deviceResetRelease => exact absurd rfl hrelease
  | passDispatch => exact execPassDispatch_inReset h
  | fetchExpiry | landingTimeout | fetchIssue | offerTransferEnd | passComplete | deliveryBegin | deliveryEnd | inversionEnd
  | sweepVisit | sweepEnd | sendClosed | sendVoid | sendNodeState =>
    simp only [exec, execFetchExpiry, execLandingTimeout, execFetchIssue, execOfferTransferEnd, execPassComplete,
      execDeliveryBegin, execDeliveryEnd, execInversionEnd, execSweepVisit, execSweepEnd, execSendClosed, execSendVoid,
      execSendNodeState]
    split
    · exact event_inReset h
    · exact event_inReset h

end

/-- Settles O25: the state in reset is `State.resetDevice`, and `find_abandon` says what the abandoned deliveries may have
written. -/
theorem deviceResetReturnsEveryBlock : Obligations.DeviceResetReturnsEveryBlock := by
  intro s
  refine ⟨fun hreset => ?_, fun hreset => ⟨?_, exec_inReset hreset⟩, fun hreset => ?_⟩
  · refine ⟨s.resetDevice, exec_deviceReset_next hreset, ?_, fun p => ⟨s.port_resetDevice_eq p, fun a => ?_⟩⟩
    · have hpending : s.resetDevice.pending = s.pending := pending_abandon ..
      rw [← hpending]
      rfl
    · have hmemory : (s.resetDevice.port p).hostMem = ((s.deliveries.foldl State.abandon s).port p).hostMem := by
        rw [State.port_resetDevice]
        rfl
      rw [hmemory]
      exact find_abandon s.deliveries s p a
  · rw [exec_deviceResetRelease, if_pos hreset]
  · rw [exec_deviceResetRelease, if_neg (Bool.eq_false_iff.mp hreset)]

end Sys2Proof.Machine
end

section
/-! PROOFS. Coalesced notices (O55). -/

namespace Sys2Proof.Machine

open Sys2Proof.Config

theorem exec_sendClosed (p : PortId) (s : State) : exec (.sendClosed p) s = execSendClosed p s := rfl

theorem exec_sendVoid (p : PortId) (s : State) : exec (.sendVoid p) s = execSendVoid p s := rfl

theorem exec_sendNodeState (p : PortId) (s : State) : exec (.sendNodeState p) s = execSendNodeState p s := rfl

theorem State.maySend_iff (s : State) (p : PortId) :
    s.maySend p = true ↔ (s.port p).state = .up ∧ (s.port p).responses.countP Record.isCoalesced < 32 := by
  rw [State.maySend, Bool.and_eq_true, beq_iff_eq, decide_eq_true_eq]

section

variable {s : State} {p : PortId}

/-! ### The item that each kind sends (R166) -/

theorem State.closedItem_none (s : State) (p : PortId) :
    s.closedItem p = none ↔ ∀ he ∈ s.entries, PortSet.has he.2.closedMarks p = false := by
  simp only [State.closedItem, List.find?_eq_none, Bool.not_eq_true]

theorem State.closedItem_first {pre post : Table Entry} {h : Handle} {e : Entry} (hs : s.entries = pre ++ (h, e) :: post)
    (hpre : ∀ he ∈ pre, PortSet.has he.2.closedMarks p = false) (he : PortSet.has e.closedMarks p = true) :
    s.closedItem p = some (h, e) := by
  rw [State.closedItem, hs, List.find?_append, List.find?_eq_none.mpr fun x hx => Bool.eq_false_iff.mp (hpre x hx),
    List.find?_cons_of_pos (p := fun x : Handle × Entry => PortSet.has x.2.closedMarks p) he]
  rfl

theorem State.nodeItem_none (s : State) (p : PortId) : s.nodeItem p = none ↔ ∀ n, PortSet.has (s.node n).marks p = false :=
  firstWhere_none ..

theorem State.nodeItem_lowest {n : NodeId} (hn : PortSet.has (s.node n).marks p = true)
    (hbelow : ∀ k < n, PortSet.has (s.node k).marks p = false) : s.nodeItem p = some n := by
  rw [State.nodeItem, firstWhere_eq, List.find?_eq_some_iff_getElem]
  refine ⟨hn, n.val, by simp, by simp, fun k hk => ?_⟩
  rw [List.getElem_finRange, Bool.not_eq_true']
  exact hbelow ⟨k, hk.trans n.isLt⟩ hk

/-- R166: in a table in handle order the entries before one are those of lower handles. -/
theorem State.split_at {h : Handle} {e : Entry} (hr : s.rising) (he : s.entry? h = some e) :
    ∃ pre post, s.entries = pre ++ (h, e) :: post ∧ ∀ x ∈ pre, x ∈ s.entries ∧ x.1 < h := by
  obtain ⟨pre, post, hs⟩ := List.append_of_mem ((State.mem_entries_iff hr h e).mpr he)
  refine ⟨pre, post, hs, fun x hx => ⟨hs ▸ List.mem_append_left _ hx, ?_⟩⟩
  have hsorted : s.entries.Pairwise fun a b => a.1 < b.1 := hr
  rw [hs] at hsorted
  exact (List.pairwise_append.mp hsorted).2.2 x hx (h, e) List.mem_cons_self

/-! ### The rows -/

theorem execSendClosed_none (h : s.closedItem p = none) : execSendClosed p s = .next s := by
  rw [execSendClosed, h]
  exact event_idle (.inr rfl)

theorem execSendClosed_some {h : Handle} {e : Entry} (hi : s.closedItem p = some (h, e)) :
    execSendClosed p s = event s (s.maySend p) (s.sendClosedItem p h e) := by
  rw [execSendClosed, hi]

theorem execSendVoid_some {v : VoidItem} (hc : s.closedItem p = none) (hv : s.voidItem p = some v) :
    execSendVoid p s = event s (s.maySend p) (s.sendVoidItem p v) := by
  rw [execSendVoid, hc, hv]

theorem execSendVoid_idle (h : s.maySend p = false ∨ s.closedItem p ≠ none ∨ s.voidItem p = none) :
    execSendVoid p s = .next s := by
  unfold execSendVoid
  split
  · next v hc hv =>
    rcases h with hmay | hclosed | hvoid
    · exact event_idle (.inr hmay)
    · exact absurd hc hclosed
    · rw [hvoid] at hv
      cases hv
  · exact event_idle (.inr rfl)

theorem execSendNodeState_some {n : NodeId} (hc : s.closedItem p = none) (hv : s.voidItem p = none)
    (hn : s.nodeItem p = some n) : execSendNodeState p s = event s (s.maySend p) (s.sendNodeItem p n) := by
  rw [execSendNodeState, hc, hv, hn]

theorem execSendNodeState_idle
    (h : s.maySend p = false ∨ s.closedItem p ≠ none ∨ s.voidItem p ≠ none ∨ s.nodeItem p = none) :
    execSendNodeState p s = .next s := by
  unfold execSendNodeState
  split
  · next n hc hv hn =>
    rcases h with hmay | hclosed | hvoid | hnode
    · exact event_idle (.inr hmay)
    · exact absurd hc hclosed
    · exact absurd hv hvoid
    · rw [hnode] at hn
      cases hn
  · exact event_idle (.inr rfl)

/-! ### What a sending does -/

/-- R62, R63, R165, R166, R167: a notice about an entry is sent, the entry left as `f`, and removed where it then owes
nothing. -/
theorem notice_sent (hr : s.rising) (h : Handle) (f : Entry) (r : Record) :
    let t := countRises s (((s.setEntry h f).place p r).removeIfDone h)
    onlyPort s t p ∧ onlyEntry s t h ∧ t.port p = (s.port p).received r ∧ staysUnlessDone s t h f
      ∧ { s with ports := t.ports, entries := t.entries, profiles := t.profiles } = t := by
  dsimp only
  have hport : ∀ k, ((s.setEntry h f).place p r).port k = if k = p then (s.port p).place r else s.port k := fun k =>
    port_modPort ..
  have hentry : ∀ j, ((s.setEntry h f).place p r).entry? j = if j = h then some f else s.entry? j := fun j =>
    State.entry_setEntry ..
  have hrising : ((s.setEntry h f).place p r).rising := State.rising_setEntry hr h f
  have hprofiles : ((s.setEntry h f).place p r).profiles = s.profiles := rfl
  have hz : { s with ports := ((s.setEntry h f).place p r).ports, entries := ((s.setEntry h f).place p r).entries } =
      (s.setEntry h f).place p r := rfl
  generalize (s.setEntry h f).place p r = z at hport hentry hrising hprofiles hz
  obtain ⟨hstays, hothers, hremoved⟩ := State.removeIfDone_spec hrising ((hentry h).trans (if_pos rfl))
  have hkept : ∀ k, (z.removeIfDone h).port k = z.port k := fun k => by
    rw [← hremoved]
    rfl
  have hrisen := port_countRises s (z.removeIfDone h)
  have hrest := rest_countRises s (z.removeIfDone h)
  generalize countRises s (z.removeIfDone h) = t at hrisen hrest ⊢
  have hentryt : ∀ j, t.entry? j = (z.removeIfDone h).entry? j := fun j => by
    rw [← hrest]
    rfl
  refine ⟨fun k hk => ?_, fun j hj => ?_, ?_, hstays.ports hprofiles hrest, ?_⟩
  · rw [hrisen, hkept, hport, if_neg hk]
    exact Port.risen_of_line_eq rfl
  · rw [hentryt, hothers j hj, hentry, if_neg hj]
  · rw [hrisen, hkept, hport, if_pos rfl]
    exact Port.risen_place r rfl rfl rfl
  · rw [← hrest, ← hremoved, ← hz]

/-- R44: the pairs of a node leave the target of one member. -/
theorem State.modTarget_dropVoid {h : Handle} {e : Entry} {pos : Position} {m : Member} {t : Target}
    (he : s.entry? h = some e) (hm : e.members[pos]? = some m) (ht : m.target = some t) (n : NodeId) :
    s.modTarget h pos (dropVoid n) = s.setEntry h { e with
      members := e.members.set pos { m with target := some { t with voids := t.voids.filter fun v => decide (v.1 ≠ n) } } } := by
  have hdrop : dropVoid n t = { t with voids := t.voids.filter fun v => decide (v.1 ≠ n) } := by
    rw [dropVoid]
    refine congrArg (fun l => ({ t with voids := l } : Target)) (List.filter_congr fun v _ => ?_)
    rw [bne, Bool.beq_eq_decide_eq, decide_not]
  rw [State.modTarget, State.modMember, State.modEntry_eq he, modify_eq_set hm, ht, Option.map_some, hdrop]

end

/-- Settles O55. -/
theorem pendingNoticesAreSentInOrder : Obligations.PendingNoticesAreSentInOrder := by
  intro s p hreset q may sendable noClosed noVoid noMark
  have hmay : s.maySend p = true ↔ may := s.maySend_iff p
  have hidle : ¬may → s.maySend p = false := fun h => Bool.eq_false_iff.mpr fun hm => h (hmay.mp hm)
  have hclosed : s.closedItem p = none ↔ noClosed := s.closedItem_none p
  have hvoid : s.voidItem p = none ↔ noVoid := s.voidItem_none p
  have hmark : s.nodeItem p = none ↔ noMark := s.nodeItem_none p
  rw [exec_sendClosed, exec_sendVoid, exec_sendNodeState]
  refine ⟨fun h => ?_, fun h => execSendVoid_idle ?_, fun h => execSendNodeState_idle ?_, ?_, ?_, ?_⟩
  · cases hi : s.closedItem p with
    | none => exact execSendClosed_none hi
    | some he =>
      have hnone := h.resolve_right fun hnone => Option.some_ne_none he (hi.symm.trans (hclosed.mpr hnone))
      rw [execSendClosed_some hi]
      exact event_idle (.inr (hidle hnone))
  · rwa [Ne, hclosed, hvoid, ← Bool.not_eq_true, hmay]
  · rwa [Ne, Ne, hclosed, hvoid, hmark, ← Bool.not_eq_true, hmay]
  · intro pre post h e hup hr hs hpre he
    rw [execSendClosed_some (State.closedItem_first hs hpre he), event_next hreset (hmay.mpr hup)]
    exact ⟨_, rfl, notice_sent hr h { e with closedMarks := PortSet.remove e.closedMarks p } _⟩
  · intro h pos n e m t0 hup hr hnone he hm ht hsend hbefore hlower hleast sent
    obtain ⟨pre, post, hs, hpre⟩ := State.split_at hr he
    have hitem : s.voidItem p = some ⟨h, e.stripe, pos, n⟩ :=
      State.voidItem_lowest hs hsend (fun x hx => hbefore x (hpre x hx).1 (hpre x hx).2) hlower hleast
    rw [execSendVoid_some (hclosed.mpr hnone) hitem, event_next hreset (hmay.mpr hup), State.sendVoidItem,
      State.modTarget_dropVoid he hm ht]
    exact ⟨_, rfl, notice_sent hr h { e with members := e.members.set pos sent } _⟩
  · intro n hup hnone hnovoid hn hbelow x
    rw [execSendNodeState_some (hclosed.mpr hnone) (hvoid.mpr hnovoid) (State.nodeItem_lowest hn hbelow),
      event_next hreset (hmay.mpr hup)]
    refine congrArg _ (countRises_eq (fun k => ?_) rfl)
    rw [State.port_setPort, State.sendNodeItem, State.place, port_modPort]
    by_cases hk : k = p
    · subst hk
      rw [if_pos rfl, if_pos rfl]
      exact Port.risen_place _ rfl rfl rfl
    · rw [if_neg hk, if_neg hk]
      exact Port.risen_of_line_eq rfl

end Sys2Proof.Machine
end

section
/-! PROOFS. A port's memory space: its request records, and what a host writes and reads (O10). -/

namespace Sys2Proof.Machine

open Sys2Proof.Config

/-! ### The fields of a request record (R171) -/

theorem littleEndian_append (l : List Byte) (b : Byte) :
    littleEndian (l ++ [b]) = littleEndian l + b.toNat * 256 ^ l.length := by
  induction l with
  | nil => simp [littleEndian]
  | cons a l ih =>
    rw [List.cons_append, littleEndian, littleEndian, ih, List.length_cons, Nat.pow_succ]
    ring

theorem littleEndian_map_range (g : Nat → Byte) (n : Nat) :
    littleEndian ((List.range n).map g) = ((List.range n).map fun i => (g i).toNat * 256 ^ i).sum := by
  induction n with
  | zero => rfl
  | succ n ih =>
    rw [List.range_succ, List.map_append, List.map_append, List.sum_append, List.map_singleton, List.map_singleton,
      littleEndian_append, ih, List.length_map, List.length_range, List.sum_singleton]

/-- R171: a field that lies in the record is the number of its bytes in the slot. -/
theorem Port.request_field (q : Port) {off n : Nat} (h : off + n ≤ 128) :
    q.request.field off n = slotNumber q.slots q.reqHead off n := by
  have hbytes : (q.request.bytes.drop off).take n =
      (List.range n).map fun i => Memory.read q.slots (0x1000 + 128 * (q.reqHead % 64) + off + i) := by
    refine List.ext_getElem ?_ fun i hi _ => ?_
    · simp only [Port.request, requestBytes, List.length_take, List.length_drop, List.length_map, List.length_range]
      omega
    · simp [Port.request, Nat.add_assoc]
  rw [Request.field, hbytes, littleEndian_map_range, slotNumber]

/-- A field read into a word of its own width. -/
theorem Port.request_word (q : Port) {off n w : Nat} (h : off + n ≤ 128) (hw : 2 ^ w = 256 ^ n) :
    (BitVec.ofNat w (q.request.field off n)).toNat = slotNumber q.slots q.reqHead off n := by
  rw [BitVec.toNat_ofNat, hw, Nat.mod_eq_of_lt (Request.field_lt ..), q.request_field h]

theorem Port.request_laidOut (q : Port) : requestLaidOut q where
  kind := q.request_word (by decide) (by decide)
  tag := q.request_word (by decide) (by decide)
  stripe := q.request_word (by decide) (by decide)
  submitProfile := q.request_field (by decide)
  memberCount := q.request_field (by decide)
  crossCheck := q.request_field (by decide)
  length := q.request_field (by decide)
  knownLost pos _ := congrArg (Nat.testBit · pos) (q.request_field (by decide))
  memberNode pos hpos := q.request_field (by have hlow := Nat.succ_le_of_lt hpos; omega)
  handle := q.request_field (by decide)
  withdrawMode := q.request_field (by decide)
  fetchTag := q.request_field (by decide)
  declineCause := q.request_field (by decide)
  checksum := q.request_word (by decide) (by decide)
  address := q.request_word (by decide) (by decide)
  position := q.request_field (by decide)
  nodeId := q.request_field (by decide)
  rackId := q.request_field (by decide)
  routePort := q.request_field (by decide)
  profileIndex := q.request_field (by decide)
  profileK := q.request_field (by decide)
  profileM := q.request_field (by decide)
  quorum := q.request_field (by decide)
  window := q.request_field (by decide)
  fetchTimeout := q.request_field (by decide)
  landingTimeout := q.request_field (by decide)
  epochLength := q.request_field (by decide)
  creditLimit := q.request_field (by decide)
  cellQuota := q.request_field (by decide)
  budget := q.request_field (by decide)
  pressureMode := q.request_field (by decide)

/-! ### The layouts of the records placed (R171) -/

theorem length_toBytes (n x : Nat) : (toBytes n x).length = n := by
  induction n generalizing x with
  | zero => rfl
  | succ n ih => rw [toBytes, List.length_cons, ih]

theorem toBytes_getElem? {n i : Nat} (h : i < n) (x : Nat) : (toBytes n x)[i]? = some (BitVec.ofNat 8 (x / 256 ^ i)) := by
  induction n generalizing i x with
  | zero => omega
  | succ n ih =>
    rw [toBytes]
    cases i with
    | zero => simp
    | succ i => rw [List.getElem?_cons_succ, ih (by omega), Nat.div_div_eq_div_mul, Nat.pow_succ']

/-- A field as an offset, a width and a number, placed. -/
def placedField (f : Nat × Nat × Nat) : Placed := num f.1 f.2.1 f.2.2

theorem layoutByte_map (fields : List (Nat × Nat × Nat)) (i : Nat) :
    layoutByte (fields.map placedField) i = bytesAt fields i := by
  have htest : ((fun f : Placed => decide (f.1 ≤ i) && decide (i < f.1 + f.2.length)) ∘ placedField) =
      fun f : Nat × Nat × Nat => decide (f.1 ≤ i ∧ i < f.1 + f.2.1) := by
    funext f
    rw [Function.comp_apply, placedField, num, length_toBytes, Bool.decide_and]
  rw [layoutByte, bytesAt, List.find?_map, htest]
  cases hf : fields.find? fun f => decide (f.1 ≤ i ∧ i < f.1 + f.2.1) with
  | none => rfl
  | some f =>
    have hin : f.1 ≤ i ∧ i < f.1 + f.2.1 := by simpa using List.find?_some hf
    rw [Option.map_some]
    simp only [placedField, num, List.getD_eq_getElem?_getD]
    rw [toBytes_getElem? (by omega), Option.getD_some]

theorem EntryState.code_eq (st : EntryState) : st.code = entryStateCode st := by cases st <;> rfl

theorem waitCode_eq (w : Option WaitReason) : waitCode w =
    [none, some WaitReason.noSources, some .noDestination, some .noSlot, some .noCells, some .noBank].idxOf w := by
  rcases w with _ | w
  · rfl
  · cases w <;> rfl

theorem MemberState.code_eq (st : MemberState) : st.code = [MemberState.held, .lost, .rebuilding].idxOf st := by
  cases st <;> rfl

theorem lostCauseCode_eq (c : Option LostCause) : lostCauseCode c =
    [none, some LostCause.reported, some .nodeDown, some .corrupt, some .unresponsive].idxOf c := by
  rcases c with _ | c
  · rfl
  · cases c <;> rfl

theorem NodeState.code_eq (st : NodeState) : st.code = [NodeState.undefined, .up, .suspect, .down].idxOf st := by
  cases st <;> rfl

theorem Urgency.rank_eq (u : Urgency) : u.rank = [Urgency.critical, .urgent, .routine].idxOf u := by cases u <;> rfl

theorem Status.code_eq (st : Status) : st.code = [Status.ok, .merged, .full, .conflict, .closing, .nothingLost,
    .unrecoverable, .inUse, .invalid, .unknown, .stale, .late, .mismatch, .misrouted, .gone, .badsum, .early,
    .notSubmitter].idxOf st := by cases st <;> rfl

theorem outcomeCodes_eq (o : Option EntryOutcome) : outcomeCodes o = (outcomeCode o, failCode o) := by
  rcases o with _ | _ | c
  · rfl
  · rfl
  · cases c <;> rfl

theorem optFin_eq {n : Nat} (d : Nat) (x : Option (Fin n)) : optFin d x = (x.map Fin.val).getD d := by cases x <;> rfl

theorem MemberReport.fields_eq (base : Nat) (m : MemberReport) : m.fields base = (memberLayout base m).map placedField := by
  simp only [memberLayout, MemberReport.fields, MemberState.code_eq, lostCauseCode_eq, optFin_eq]
  rfl

theorem memberFields_eq (l : List MemberReport) (base k : Nat) : memberFields (base + 16 * k) l =
    (((l.zipIdx k).map fun mi => memberLayout (base + 16 * mi.2) mi.1).flatten).map placedField := by
  induction l generalizing k with
  | nil => rfl
  | cons m l ih =>
    rw [memberFields, List.zipIdx_cons, List.map_cons, List.flatten_cons, List.map_append, m.fields_eq,
      show base + 16 * k + 16 = base + 16 * (k + 1) by omega, ih]

theorem Body.fields_eq (b : Body) : b.fields = (bodyLayout b).map placedField := by
  cases b with
  | none => rfl
  | created h seq => rfl
  | existing h => rfl
  | closing h st =>
    rw [Body.fields, EntryState.code_eq]
    rfl
  | limits c q => rfl
  | budget a => rfl
  | hold b => rfl
  | deltas d => rw [Body.fields, bodyLayout, List.map_map]; rfl
  | report q =>
    have hmembers := memberFields_eq q.members 64 0
    rw [Body.fields, QueryReport.fields, bodyLayout, List.map_append, ← hmembers, EntryState.code_eq, waitCode_eq,
      Urgency.rank_eq, optFin_eq, outcomeCodes_eq]
    refine congrArg (· ++ _) ?_
    cases q.sources <;> cases q.check <;> rfl

theorem Record.fields_eq (r : Record) : r.fields = (recordLayout r).map placedField := by
  cases r with
  | response kind tag st b =>
    rw [Record.fields, recordLayout, List.map_append, b.fields_eq, st.code_eq]
    rfl
  | fetch stripe h tag pos node off len => rfl
  | landed stripe h pos off len crc buf => rfl
  | closed stripe h o f lost =>
    rw [Record.fields, recordLayout, outcomeCodes_eq]
    rfl
  | nodeState n st rack route =>
    rw [Record.fields, recordLayout, st.code_eq, optFin_eq, optFin_eq]
    rfl
  | void stripe pos n => rfl

theorem Record.byte_eq (r : Record) (i : Nat) : r.byte i = bytesAt (recordLayout r) i := by
  rw [Record.byte, r.fields_eq, layoutByte_map]

/-! ### What a host writes (R163, logs 16, 17) -/

theorem any_written (f : Nat → Bool) (off : Nat) (data : List Byte) :
    (written off data).any f = true ↔ ∃ i < data.length, f (off + i) = true := by
  simp [written]

theorem slotOffset_iff (a : Nat) : slotOffset a = true ↔ 0x1000 ≤ a ∧ a < 0x3000 := by
  rw [slotOffset, Bool.and_eq_true, decide_eq_true_eq, decide_eq_true_eq]
  exact Iff.rfl

theorem hostIndexOffset_of_other {a : Nat} (h : otherOffset a = true) : hostIndexOffset a = false := by
  simp only [otherOffset, requestBase, responseBase, Bool.or_eq_true, Bool.and_eq_true, decide_eq_true_eq] at h
  simp only [hostIndexOffset, Bool.or_eq_false_iff, Bool.and_eq_false_iff, decide_eq_false_iff_not]
  omega

section

variable {s : State} {p : PortId} {off : Nat} {data : List Byte}

theorem exec_otherMemoryWrite (p : PortId) (off : Nat) (data : List Byte) (s : State) :
    exec (.otherMemoryWrite p off data) s = execOtherMemoryWrite p off data s := rfl

theorem execOtherMemoryWrite_refused (h : ∃ i < data.length, hostIndexOffset (off + i) = true) :
    execOtherMemoryWrite p off data s = .refused .hostOwnedIndex := if_pos ((any_written ..).mpr h)

theorem execOtherMemoryWrite_fault (h : ∀ i < data.length, hostIndexOffset (off + i) = false)
    (hout : ∃ i < data.length, otherOffset (off + i) = false) :
    execOtherMemoryWrite p off data s = .fault .outsideMemorySpace := by
  have hindex : ¬(written off data).any hostIndexOffset = true := fun hany => by
    obtain ⟨i, hi, hhost⟩ := (any_written ..).mp hany
    exact Bool.eq_false_iff.mp (h i hi) hhost
  have houtside : (written off data).any (fun a => !otherOffset a) = true := by
    obtain ⟨i, hi, hother⟩ := hout
    exact (any_written ..).mpr ⟨i, hi, by rw [hother]; rfl⟩
  rw [execOtherMemoryWrite, if_neg hindex, if_pos houtside]

theorem execOtherMemoryWrite_event (h : ∀ i < data.length, otherOffset (off + i) = true) :
    execOtherMemoryWrite p off data s =
      event s (s.port p).link (s.modPort p fun q => { q with slots := storeSlots q.slots off data }) := by
  have hindex : ¬(written off data).any hostIndexOffset = true := fun hany => by
    obtain ⟨i, hi, hhost⟩ := (any_written ..).mp hany
    exact Bool.eq_false_iff.mp (hostIndexOffset_of_other (h i hi)) hhost
  have hinside : ¬(written off data).any (fun a => !otherOffset a) = true := fun hany => by
    obtain ⟨i, hi, hout⟩ := (any_written ..).mp hany
    rw [h i hi] at hout
    cases hout
  rw [execOtherMemoryWrite, if_neg hindex, if_neg hinside]

/-! ### What a host reads (R171) -/

theorem State.hostRead_index (s : State) (p : PortId) {i j x : Nat} (hi : i < 4)
    (hx : [(s.port p).reqTail, (s.port p).reqHead, (s.port p).respTail, (s.port p).respHead][j]? = some x) :
    s.hostRead p (4 * j + i) = some (BitVec.ofNat 8 (x / 256 ^ i)) := by
  rw [← toBytes_getElem? hi, State.hostRead]
  dsimp only
  obtain ⟨hj, rfl⟩ := List.getElem?_eq_some_iff.mp hx
  have hj : j < 4 := hj
  interval_cases j
  · rw [if_pos (by omega), show 4 * 0 + i = i by omega]
    rfl
  · rw [if_neg (by omega), if_pos (by omega), show 4 * 1 + i - 4 = i by omega]
    rfl
  · rw [if_neg (by omega), if_neg (by omega), if_pos (by omega), show 4 * 2 + i - 8 = i by omega]
    rfl
  · rw [if_neg (by omega), if_neg (by omega), if_neg (by omega), if_pos (by omega), show 4 * 3 + i - 12 = i by omega]
    rfl

/-- The memory space past the indices. -/
theorem State.hostRead_beyond (s : State) (p : PortId) {a : Nat} (h : 16 ≤ a) : s.hostRead p a =
    if 0x1000 ≤ a ∧ a < 0x3000 then some (Memory.read (s.port p).slots a)
    else if 0x4000 ≤ a ∧ a < 0x18000 then
      some (match (s.port p).recordIn ((a - 0x4000) / 512) with
        | some r => r.byte ((a - 0x4000) % 512)
        | none => staleResponseByte p ((a - 0x4000) / 512) ((a - 0x4000) % 512))
    else none := by
  rw [State.hostRead]
  dsimp only
  rw [if_neg (by omega), if_neg (by omega), if_neg (by omega), if_neg (by omega)]
  rfl

theorem Port.recordIn_waiting (q : Port) {j : Nat} (hj : j < 160) : q.recordIn ((q.respHead + j) % 160) = q.responses[j]? := by
  rw [Port.recordIn]
  congr 1
  show ((q.respHead + j) % 160 + 160 - q.respHead % 160) % 160 = j
  omega

theorem State.hostRead_record (s : State) (p : PortId) {i j : Nat} {r : Record} (hi : i < 512) (hj : j < 160)
    (hr : (s.port p).responses[j]? = some r) :
    s.hostRead p (0x4000 + 512 * (((s.port p).respHead + j) % 160) + i) = some (bytesAt (recordLayout r) i) := by
  have hslot : (0x4000 + 512 * (((s.port p).respHead + j) % 160) + i - 0x4000) / 512 = ((s.port p).respHead + j) % 160 := by
    omega
  have hbyte : (0x4000 + 512 * (((s.port p).respHead + j) % 160) + i - 0x4000) % 512 = i := by omega
  rw [s.hostRead_beyond p (by omega), if_neg (by omega), if_pos (by omega), hslot, hbyte, Port.recordIn_waiting _ hj, hr]
  exact congrArg some (r.byte_eq i)

end

/-- Settles O10. -/
theorem otherMemoryWriteStoresOrStops : Obligations.OtherMemoryWriteStoresOrStops := by
  refine ⟨fun s p off data hreset hlink hwf hother => ⟨storeSlots (s.port p).slots off data, ?_, fun a => ?_⟩,
    fun s p off data => ⟨fun h => execOtherMemoryWrite_refused h, fun h hout => execOtherMemoryWrite_fault h hout,
      fun h hoff => ?_⟩,
    Port.request_laidOut, fun s p => ⟨fun i hi j x hx => s.hostRead_index p hi hx, fun a hlow hhigh => ?_,
      fun i hi j r hj hr => s.hostRead_record p hi hj hr, fun a hlow hhigh => ?_, fun a ha => ?_⟩⟩
  · rw [exec_otherMemoryWrite, execOtherMemoryWrite_event hother, event_port hreset hlink]
    exact congrArg (fun x => Host.Outcome.next (s.setPort p x)) (Port.risen_of_line_eq rfl)
  · rw [Memory.read_storeSlots _ _ _ _ hwf]
    exact if_congr ((and_congr_left' (slotOffset_iff a)).trans and_assoc) rfl rfl
  · rw [exec_otherMemoryWrite, execOtherMemoryWrite_event fun i hi => (h i hi).2]
    exact event_idle hoff
  · rw [s.hostRead_beyond p (by omega), if_pos ⟨hlow, hhigh⟩]
  · rw [s.hostRead_beyond p (by omega), if_neg (by omega), if_pos ⟨hlow, hhigh⟩]
    exact Option.some_ne_none _
  · rw [s.hostRead_beyond p (by omega), if_neg (by omega), if_neg (by omega)]

end Sys2Proof.Machine
end

section
/-! PROOFS. What every part of a port reset leaves: entries at most go, and no cell comes to an entry that has gone (O24). -/

namespace Sys2Proof.Machine

open Sys2Proof.Config

/-- R63, R168: from `u` to `v` entries are at most removed, the deliveries keep their outputs, and a cell changes hands only
to an entry of the table; the selector and the queues of the other blocks stay. -/
structure Sheds (u v : State) : Prop extends Kept u v where
  queues : v.selector = u.selector ∧ v.sweepFifo = u.sweepFifo ∧ v.inversionFifo = u.inversionFifo
  rising : u.rising → v.rising
  absent : ∀ h, u.entry? h = none → v.entry? h = none
  deliveries : v.deliveries.map Delivery.output = u.deliveries.map Delivery.output
  owners : ∀ c y, v.cell c = some y → (∃ x, u.cell c = some x ∧ x.owner = y.owner) ∨ u.entry? y.owner ≠ none

theorem Sheds.refl (u : State) : Sheds u u := ⟨.refl u, ⟨rfl, rfl, rfl⟩, id, fun _ => id, rfl, fun _ y hy => .inl ⟨y, hy, rfl⟩⟩

theorem Sheds.trans {u v w : State} (k : Sheds u v) (l : Sheds v w) : Sheds u w where
  toKept := k.toKept.trans l.toKept
  queues := ⟨l.queues.1.trans k.queues.1, l.queues.2.1.trans k.queues.2.1, l.queues.2.2.trans k.queues.2.2⟩
  rising := fun hr => l.rising (k.rising hr)
  absent := fun h hn => l.absent h (k.absent h hn)
  deliveries := l.deliveries.trans k.deliveries
  owners := fun c y hy => by
    rcases l.owners c y hy with ⟨x, hx, hxy⟩ | hpresent
    · rw [← hxy]
      exact k.owners c x hx
    · exact .inr fun hn => hpresent (k.absent _ hn)

theorem Sheds.foldl {α : Type} {f : State → α → State} (hf : ∀ u a, Sheds u (f u a)) (l : List α) (u : State) :
    Sheds u (l.foldl f u) := by
  induction l generalizing u with
  | nil => exact .refl u
  | cons a l ih => exact (hf u a).trans (ih _)

theorem Sheds.ite {u v w : State} {c : Prop} [Decidable c] (k : Sheds u v) (l : Sheds u w) : Sheds u (if c then v else w) := by
  split
  · exact k
  · exact l

/-- A change beside the table, the cells and the queues. -/
theorem Sheds.of_kept {u v : State} (k : Kept u v)
    (hq : v.selector = u.selector ∧ v.sweepFifo = u.sweepFifo ∧ v.inversionFifo = u.inversionFifo)
    (he : v.entries = u.entries) (hd : v.deliveries.map Delivery.output = u.deliveries.map Delivery.output)
    (hc : v.cells = u.cells) : Sheds u v where
  toKept := k
  queues := hq
  rising := fun hr => by rwa [State.rising, he]
  absent := fun h hn => by rwa [State.entry?, he]
  deliveries := hd
  owners := fun c y hy => .inl ⟨y, by rwa [State.cell, hc] at hy, rfl⟩

/-- R63: an entry that is gone and owed nothing owes nothing still. -/
theorem Sheds.owesNothing {u v : State} (k : Sheds u v) {h : Handle} {e : Entry} (hn : u.entry? h = none)
    (ho : owesNothing u h e) : owesNothing v h e := by
  obtain ⟨hstate, hmarks, hvoids, hlanes, htransfers, hdeliveries, hcells⟩ := ho
  refine ⟨hstate, hmarks, hvoids, fun l x hx => hlanes l x ?_, fun x hx => htransfers x ?_, fun d hd => ?_, fun c y hy hown => ?_⟩
  · rwa [State.lane, k.lanes] at hx
  · rwa [k.transfers] at hx
  · have hd' : d.output ∈ u.deliveries.map Delivery.output := k.deliveries ▸ List.mem_map_of_mem hd
    obtain ⟨d0, hd0, hout⟩ := List.mem_map.mp hd'
    rw [← hout]
    exact hdeliveries d0 hd0
  · rcases k.owners c y hy with ⟨x, hx, hxy⟩ | hpresent
    · exact hcells c x hx (hxy.trans hown)
    · rw [hown] at hpresent
      exact hpresent hn

section

variable {u : State}

/-! ### The operations -/

theorem Sheds.causeAttempt (u : State) : Sheds u u.causeAttempt := .of_kept (.causeAttempt u) ⟨rfl, rfl, rfl⟩ rfl rfl rfl

theorem Sheds.count (u : State) (i : Fin 18) : Sheds u (u.count i) := .of_kept (.count u i) ⟨rfl, rfl, rfl⟩ rfl rfl rfl

theorem Sheds.lowerLoad (u : State) (n : NodeId) : Sheds u (u.lowerLoad n) :=
  .of_kept (.lowerLoad u n) ⟨rfl, rfl, rfl⟩ rfl rfl rfl

theorem Sheds.setEntry {h : Handle} {e : Entry} (he : u.entry? h = some e) (f : Entry) : Sheds u (u.setEntry h f) where
  toKept := .setEntry u h f
  queues := ⟨rfl, rfl, rfl⟩
  rising := fun hr => State.rising_setEntry hr h f
  absent := fun j hn => by
    rw [State.entry_setEntry, if_neg]
    · exact hn
    · rintro rfl
      rw [he] at hn
      cases hn
  deliveries := rfl
  owners := fun _ y hy => .inl ⟨y, hy, rfl⟩

theorem Sheds.modEntry (u : State) (h : Handle) (f : Entry → Entry) : Sheds u (u.modEntry h f) := by
  unfold State.modEntry
  split
  · next e he => exact .setEntry he _
  · exact .refl u

theorem Sheds.modTarget (u : State) (h : Handle) (pos : Position) (f : Target → Target) : Sheds u (u.modTarget h pos f) :=
  .modEntry ..

theorem State.entry_of_short {k : Handle × Entry} (h : u.short k) : u.entry? k.1 ≠ none := by
  obtain ⟨hm, -⟩ := h
  have hfind : ∀ t : Table Entry, k ∈ t → Table.find t k.1 ≠ none := by
    intro t hmem
    induction t with
    | nil => cases hmem
    | cons a t ih =>
      rw [Table.find]
      split
      · exact Option.some_ne_none _
      · next hne => exact ih ((List.mem_cons.mp hmem).resolve_left fun heq => hne (by rw [heq]))
  exact hfind _ hm

/-- R124: a released cell stays with its owner, goes to an entry with a plan, or becomes FREE. -/
theorem Sheds.release (u : State) (c : CellId) : Sheds u (u.release c) := by
  have only := CellsOnly.release u c
  obtain ⟨hother, hnone, hsome⟩ := u.release_spec c
  refine ⟨.release u c, ?_, fun hr => ?_, fun h hn => ?_, ?_, fun k y hy => ?_⟩
  · rw [← only]
    exact ⟨rfl, rfl, rfl⟩
  · rwa [State.rising, ← only]
  · rwa [State.entry?, ← only]
  · rw [← only]
  · by_cases hk : k = c
    · subst hk
      cases hx : u.cell k with
      | none =>
        rw [hnone hx] at hy
        cases hy
      | some x =>
        obtain ⟨hhome, -, hshort, hfree⟩ := hsome x hx
        by_cases hh : u.hasHome x
        · obtain rfl := Option.some.inj ((hhome hh).symm.trans hy)
          exact .inl ⟨x, rfl, rfl⟩
        · by_cases hs : ∃ he, u.short he
          · obtain ⟨he, hs, hcell⟩ := hshort hh hs
            obtain rfl := Option.some.inj (hcell.symm.trans hy)
            exact .inr (State.entry_of_short hs)
          · rw [(hfree hh hs).1] at hy
            cases hy
    · rw [hother k hk] at hy
      exact .inl ⟨y, hy, rfl⟩

theorem Sheds.releaseAll (u : State) (l : List CellId) : Sheds u (u.releaseAll l) := .foldl .release l u

/-- Fetches or outputs of ports leave, and cells of theirs are released. -/
theorem Sheds.ports {f : Port → Port} (hf : ∀ q, f q = { q with fetches := (f q).fetches, outputs := (f q).outputs })
    (cs : Port → List CellId) (l : List PortId) (u : State) : Sheds u (l.foldl (portThenCells f cs) u) := by
  refine .foldl (fun w p => .trans ?_ (.releaseAll ..)) l u
  exact .of_kept (.setPort w p _ (hf _)) ⟨rfl, rfl, rfl⟩ rfl rfl rfl

theorem Sheds.withdrawFetches (u : State) (h : Handle) : Sheds u (u.withdrawFetches h) :=
  .ports (f := fun q => { q with fetches := mapVec (withdrawSlot h) q.fetches }) (fun _ => rfl)
    (fun q => q.liveCells fun y => decide (y.handle = h)) allPorts u

theorem Sheds.freeOutputs (u : State) (f : Output → Bool) : Sheds u (u.freeOutputs f) :=
  .ports (f := fun q => { q with outputs := q.outputs.filter fun o => !f o }) (fun _ => rfl)
    (fun q => (q.outputs.filter f).map Output.cell) allPorts u

theorem Sheds.dropPlan (u : State) (h : Handle) : Sheds u (u.dropPlan h) := by
  unfold State.dropPlan
  split
  · next e he =>
    split
    · next pl _ =>
      have hbank : Sheds (u.setEntry h { e with plan := none }) ((u.setEntry h { e with plan := none }).releaseBank pl.bank) := by
        refine .of_kept (.releaseBank ..) ?_ ?_ ?_ ?_ <;> rw [← State.rest_releaseBank]
        exact ⟨rfl, rfl, rfl⟩
      exact (((Sheds.setEntry he _).trans hbank).trans (.causeAttempt _)).trans (.releaseAll ..)
    · exact .refl u
  · exact .refl u

/-! ### Removal, closes, triggers and losses -/

theorem Table.find_erase_none {α : Type} {t : Table α} {j : Nat} (k : Nat) (h : Table.find t j = none) :
    Table.find (Table.erase t k) j = none := by
  induction t with
  | nil => rfl
  | cons a t ih =>
    rw [Table.find] at h
    split at h
    · cases h
    · next hne =>
      rw [Table.erase]
      split
      · exact h
      · rw [Table.find, if_neg hne]
        exact ih h

theorem Sheds.removeIfDone (u : State) (h : Handle) : Sheds u (u.removeIfDone h) := by
  have hrest := u.rest_removeIfDone h
  have hentries : (u.removeIfDone h).entries = Table.erase u.entries h ∨ u.removeIfDone h = u := by
    unfold State.removeIfDone
    split
    · split
      · exact .inl rfl
      · exact .inr rfl
    · exact .inr rfl
  rcases hentries with hentries | hsame
  · refine ⟨.removeIfDone u h, ?_, fun hr => ?_, fun j hn => ?_, ?_, fun c y hy => .inl ⟨y, ?_, rfl⟩⟩
    · rw [← hrest]
      exact ⟨rfl, rfl, rfl⟩
    · rw [State.rising, hentries]
      exact Table.sorted_erase _ _ hr
    · rw [State.entry?, hentries]
      exact Table.find_erase_none _ hn
    · rw [← hrest]
    · rw [← hrest] at hy
      exact hy
  · rw [hsame]
    exact .refl u

theorem Sheds.releaseTargets (u : State) (h : Handle) : Sheds u (u.releaseTargets h) := by
  unfold State.releaseTargets
  split
  · refine .foldl (fun w pos => ?_) _ u
    unfold State.releaseTarget
    split
    · split
      · split
        · exact .trans (.modTarget ..) (.lowerLoad ..)
        · exact .refl w
      · exact .refl w
    · exact .refl w
  · exact .refl u

theorem Sheds.beginClose {h : Handle} {e : Entry} (he : u.entry? h = some e) (o : EntryOutcome) :
    Sheds u (u.beginClose h e o) := by
  unfold State.beginClose
  split
  · exact .trans (.setEntry he (e.closing o)) (.of_kept (.setPark ..) ⟨rfl, rfl, rfl⟩ rfl rfl rfl)
  · exact .setEntry he _

theorem Sheds.closeEntry (u : State) (h : Handle) (o : EntryOutcome) : Sheds u (u.closeEntry h o) := by
  cases he : u.entry? h with
  | none =>
    have hsame : u.closeEntry h o = u := by rw [State.closeEntry, he]
    rw [hsame]
    exact .refl u
  | some e =>
    by_cases hc : e.state = .closed
    · have hsame : u.closeEntry h o = u := by simp only [State.closeEntry, he, hc, if_true]
      rw [hsame]
      exact .refl u
    · rw [State.closeEntry_eq he hc]
      exact (((((Sheds.beginClose he o).trans (.dropPlan ..)).trans (.withdrawFetches ..)).trans (.freeOutputs ..)).trans
        (.releaseTargets ..)).trans (.trans (.count ..) (.removeIfDone ..))

theorem Sheds.trigger (u : State) (h : Handle) : Sheds u (u.trigger h) := by
  unfold State.trigger
  split
  · next e he =>
    have hset : ∀ f : Entry, Sheds u (u.setEntry h f).causeAttempt := fun f => .trans (.setEntry he f) (.causeAttempt _)
    split
    · exact .ite (.refl u) (hset _)
    · exact .ite (.refl u) (hset _)
    · exact .trans (.modEntry ..) (.causeAttempt _)
    all_goals exact .refl u
  · exact .refl u

theorem Sheds.disown (u : State) (f : Delivery → Delivery) (hf : ∀ d, (f d).port = d.port ∧ (f d).output = d.output) :
    Sheds u { u with deliveries := u.deliveries.map f } := by
  refine .of_kept (.disown u f fun d => (hf d).1) ⟨rfl, rfl, rfl⟩ rfl ?_ rfl
  rw [List.map_map]
  exact List.map_congr_left fun d _ => (hf d).2

theorem Sheds.dropDestination (u : State) (owesVoid : Bool) (h : Handle) (pos : Position) :
    Sheds u (u.dropDestination owesVoid h pos) := by
  unfold State.dropDestination
  split
  · split
    · split
      · refine .trans (.freeOutputs u _) (.trans (.disown _ _ fun d => ?_) (.trans (.modTarget ..) (.lowerLoad ..)))
        split <;> exact ⟨rfl, rfl⟩
      · exact .refl u
    · exact .refl u
  · exact .refl u

theorem Sheds.closeIfDrained (u : State) (h : Handle) : Sheds u (u.closeIfDrained h) := by
  unfold State.closeIfDrained
  split
  · exact .ite (.closeEntry ..) (.refl u)
  · exact .refl u

theorem Sheds.triggerVia (p : PortId) (u : State) (h : Handle) : Sheds u (u.triggerVia p h) := by
  unfold State.triggerVia
  split
  · exact .ite (.trigger ..) (.refl u)
  · exact .refl u

theorem Sheds.unbindVia (p : PortId) (u : State) (h : Handle) : Sheds u (u.unbindVia p h) := by
  unfold State.unbindVia
  split
  · refine .ite (.refl u) (.trans (.trans ?_ (.trigger ..)) (.closeIfDrained ..))
    exact .foldl (fun w pos => .dropDestination w false h pos) _ u
  · exact .refl u

theorem Sheds.orphan (p : PortId) (u : State) (h : Handle) : Sheds u (u.orphan p h) := by
  unfold State.orphan
  split
  · next e he => exact .ite (.refl u) (.ite (.trans (.setEntry he _) (.closeEntry ..)) (.setEntry he _))
  · exact .refl u

theorem Sheds.forget (p : PortId) (u : State) (h : Handle) : Sheds u (u.forget p h) := .trans (.modEntry ..) (.removeIfDone ..)

end

end Sys2Proof.Machine
end

section
/-! PROOFS. A close with the removal that may follow it, and the loss of the destinations routed through a port (O24). -/

namespace Sys2Proof.Machine

open Sys2Proof.Config

/-! ### A close, whoever the submitters are (R61, R63) -/

/-- R61, R63: from `u` to `v` the entry `e` at `h` has closed with an outcome, and is removed where it owes nothing. -/
structure Shuts (u v : State) (h : Handle) (e : Entry) (o : EntryOutcome) : Prop where
  others : onlyEntry u v h
  stays : staysUnlessDone u v h (e.closedWith u h o)
  park : v.park = if u.park = some h then none else u.park
  counters : v.counters = u.counters.set o.counter (u.counters[o.counter] + 1)
  fetches : ∀ q (tag : FetchTag), (v.port q).fetches[tag] =
    (u.port q).fetches[tag].map fun f => if f.handle = h then { f with cell := none } else f
  outputs : ∀ q, (v.port q).outputs = (u.port q).outputs.filter fun x => decide (x.handle ≠ h)
  loads : ∀ n, v.node n =
    { u.node n with load := (u.node n).load - e.targets.countP fun pt => decide (pt.2.dest = some n) }
  banks : ∀ b, v.bank b = if e.plan.bind Plan.bank = some b then { u.bank b with refs := (u.bank b).refs - 1 } else u.bank b
  deliveries : v.deliveries = u.deliveries

theorem State.closeEntry_shuts {u : State} {h : Handle} {e : Entry} (hr : u.rising) (he : u.entry? h = some e)
    (hc : e.state ≠ .closed) (o : EntryOutcome) : Shuts u (u.closeEntry h o) h e o := by
  rw [State.closeEntry_eq he hc]
  have hrising := ((((((Sheds.beginClose he o).trans (.dropPlan _ h)).trans (.withdrawFetches _ h)).trans
    (.freeOutputs _ fun x => decide (x.handle = h))).trans (.releaseTargets _ h)).trans (.count _ o.counter)).rising hr
  have hbegun : ({ u with entries := Table.put u.entries h (e.closing o), park := if u.park = some h then none else u.park } : State)
      = u.beginClose h e o := by
    unfold State.beginClose
    split <;> rfl
  have hentry1 : ∀ j, (u.beginClose h e o).entry? j = if j = h then some (e.closing o) else u.entry? j := fun j => by
    rw [← hbegun]
    exact State.entry_setEntry ..
  generalize u.beginClose h e o = u1 at hrising hbegun hentry1
  have hdropped := State.dropPlan_spec ((hentry1 h).trans (if_pos rfl))
  generalize u1.dropPlan h = u2 at hrising hdropped
  have hwithdrawn := State.withdrawFetches_spec u2 h
  generalize u2.withdrawFetches h = u3 at hrising hwithdrawn
  have hfreed := State.freeOutputs_spec u3 fun x => decide (x.handle = h)
  generalize u3.freeOutputs (fun x => decide (x.handle = h)) = u4 at hrising hfreed
  have hports : ({ u2 with ports := u4.ports, cells := u4.cells, attempt := u4.attempt } : State) = u4 := by
    rw [← hfreed.rest, ← hwithdrawn.rest]
  have hrest : ({ u with
      entries := u4.entries, park := u1.park, banks := u4.banks, ports := u4.ports, cells := u4.cells
      attempt := u4.attempt } : State) = u4 := by
    rw [← hports, ← hdropped.rest, ← hbegun]
  have hentry4 : ∀ j, u4.entry? j = if j = h then some (e.outOfPlan o) else u.entry? j := fun j => by
    have hsame : u4.entry? j = u2.entry? j := by
      rw [← hports]
      rfl
    rw [hsame, hdropped.entry, hentry1]
    split <;> rfl
  have hreleased := State.releaseTargets_spec ((hentry4 h).trans (if_pos rfl))
  generalize u4.releaseTargets h = u5 at hrising hreleased
  have hnode4 : ∀ n, u4.node n = u.node n := fun n => by
    rw [← hrest]
    rfl
  have hdeliveries4 : u4.deliveries = u.deliveries := by rw [← hrest]
  have hentry5 : ∀ j, (u5.count o.counter).entry? j = if j = h then some (e.closedWith u h o) else u.entry? j := fun j => by
    have hmembers : ((e.outOfPlan o).members.mapIdx fun j m =>
        if j < (e.outOfPlan o).members.length then Member.closedIn u4 h j m else m) = e.members.mapIdx (Member.closedIn u h) := by
      refine List.ext_getElem (by simp [Entry.outOfPlan]) fun i hi _ => ?_
      have hlt : i < (e.outOfPlan o).members.length := by simpa using hi
      simp only [List.getElem_mapIdx, hlt, if_true]
      exact closedIn_congr hdeliveries4 (fun n => by rw [hnode4]) h i _
    have hsame : (u5.count o.counter).entry? j = u5.entry? j := rfl
    rw [hsame, hreleased.entry, hentry4, hmembers]
    split
    · rfl
    · rfl
  have hprofiles : (u5.count o.counter).profiles = u.profiles := by
    have hsame : (u5.count o.counter).profiles = u5.profiles := rfl
    rw [hsame, ← hreleased.rest, ← hrest]
  obtain ⟨hstays, hothers, hremoved⟩ := State.removeIfDone_spec hrising ((hentry5 h).trans (if_pos rfl))
  generalize (u5.count o.counter).removeIfDone h = v at hstays hothers hremoved
  have hport : ∀ q, v.port q = u4.port q := fun q => by
    rw [← hremoved, ← hreleased.rest]
    rfl
  have hport2 : ∀ q, u2.port q = u.port q := fun q => by
    rw [← hdropped.rest, ← hbegun]
    rfl
  refine ⟨fun j hj => ?_, hstays.ports hprofiles rfl, ?_, ?_, fun q tag => ?_, fun q => ?_, fun n => ?_, fun b => ?_, ?_⟩
  · rw [hothers j hj, hentry5, if_neg hj]
  · rw [← hremoved]
    show u5.park = _
    rw [← hreleased.rest]
    show u4.park = _
    rw [← hrest, ← hbegun]
  · rw [← hremoved]
    show u5.counters.set o.counter (u5.counters[o.counter] + 1) = _
    have hcounters : u5.counters = u.counters := by rw [← hreleased.rest, ← hrest]
    rw [hcounters]
  · rw [hport, hfreed.all, hwithdrawn.all, mapVec_withdrawSlot, hport2]
  · rw [hport, hfreed.all, hwithdrawn.all, hport2]
    simp
  · have hnode5 : v.node n = u5.node n := by
      rw [← hremoved]
      rfl
    rw [hnode5, hreleased.node, hnode4, Entry.countP_targets]
    rfl
  · have hbank : v.bank b = u2.bank b := by
      rw [← hremoved, ← hreleased.rest, ← hports]
      rfl
    have hbank1 : u1.bank b = u.bank b := by
      rw [← hbegun]
      rfl
    rw [hbank, hdropped.bank, hbank1]
    rfl
  · rw [← hremoved]
    show u5.deliveries = _
    rw [← hreleased.rest, ← hdeliveries4]

/-! ### The destinations routed through a port (R151) -/

section

variable {u w : State} {p : PortId} {h : Handle} {e : Entry} {pos : Position}

theorem State.boundVia_eq (u : State) (p : PortId) (e : Entry) : u.boundVia p e =
    (List.range e.members.length).filterMap fun j =>
      ((e.target? j).bind Target.dest).bind fun n => if (u.node n).route = some p then some j else none := by
  rw [State.boundVia, e.targets_eq, List.filterMap_filterMap]
  refine List.filterMap_congr fun j _ => ?_
  cases e.target? j with
  | none => rfl
  | some t => cases hd : t.dest <;> simp [hd]

theorem State.mem_boundVia (u : State) (p : PortId) (e : Entry) (pos : Position) :
    pos ∈ u.boundVia p e ↔ e.boundThrough u p pos := by
  rw [State.boundVia_eq, List.mem_filterMap]
  constructor
  · rintro ⟨j, -, hj⟩
    obtain ⟨n, hn, hroute⟩ := Option.bind_eq_some_iff.mp hj
    obtain ⟨t, ht, hd⟩ := Option.bind_eq_some_iff.mp hn
    split at hroute
    · next hp =>
      obtain rfl := Option.some.inj hroute
      exact ⟨t, n, ht, hd, hp⟩
    · cases hroute
  · rintro ⟨t, n, ht, hd, hp⟩
    obtain ⟨m, hm, -⟩ := Entry.target?_some.mp ht
    refine ⟨pos, List.mem_range.mpr (List.getElem?_eq_some_iff.mp hm).1, ?_⟩
    rw [ht, Option.bind_some, hd, Option.bind_some, if_pos hp]

theorem State.nodup_boundVia (u : State) (p : PortId) (e : Entry) : (u.boundVia p e).Nodup := by
  rw [State.boundVia_eq]
  refine List.nodup_range.filterMap fun i j k hi hj => ?_
  have hself : ∀ i, k ∈ (((e.target? i).bind Target.dest).bind fun n =>
      if (u.node n).route = some p then some i else none) → i = k := fun i hi => by
    obtain ⟨n, -, hroute⟩ := Option.bind_eq_some_iff.mp hi
    split at hroute
    · exact Option.some.inj hroute
    · cases hroute
  rw [hself i hi, hself j hj]

/-- The targets bound for a node, among those that the reset takes a destination from. -/
theorem State.countP_boundVia (u : State) (p : PortId) (e : Entry) (n : NodeId) :
    ((u.boundVia p e).countP fun j => decide ((e.target? j).bind Target.dest = some n)) =
      if (u.node n).route = some p then e.targets.countP fun pt => decide (pt.2.dest = some n) else 0 := by
  rw [State.boundVia_eq, List.countP_filterMap, e.countP_targets]
  split
  · next hp =>
    refine List.countP_congr fun j _ => ?_
    cases hd : (e.target? j).bind Target.dest with
    | none => simp
    | some k =>
      by_cases hk : k = n
      · simp [hk, hp, hd]
      · by_cases hroute : (u.node k).route = some p
        · simp [hk, hroute, hd]
        · simp [hk, hroute]
  · next hp =>
    refine List.countP_eq_zero.mpr fun j _ => ?_
    cases hd : (e.target? j).bind Target.dest with
    | none => simp
    | some k =>
      by_cases hroute : (u.node k).route = some p
      · have hk : k ≠ n := fun hk => hp (hk ▸ hroute)
        simp [hroute, hd, hk]
      · simp [hroute]

/-- The members of an entry, those at the positions of `l` unbound from port `p`. -/
def Entry.unboundAt (u : State) (p : PortId) (l : List Position) (e : Entry) : Entry :=
  { e with members := e.members.mapIdx fun j m => if j ∈ l then m.unboundFrom u p else m }

/-- R151, R146: from `u` to `w` the targets at the positions of `l` have lost their destinations, no VOID recorded. -/
structure Unbinds (u w : State) (p : PortId) (h : Handle) (e : Entry) (l : List Position) : Prop where
  entry : ∀ j, w.entry? j = if j = h then some (e.unboundAt u p l) else u.entry? j
  deliveries : w.deliveries = u.deliveries.map fun (d : Delivery) =>
    if d.output.handle = h ∧ d.output.position ∈ l then { d with owned := false } else d
  outputs : ∀ q, w.port q =
    { u.port q with outputs := (u.port q).outputs.filter fun o => decide ¬(o.handle = h ∧ o.position ∈ l) }
  node : ∀ n, w.node n = { u.node n with
    load := (u.node n).load - l.countP fun j => decide ((e.target? j).bind Target.dest = some n) }
  rest : { u with
    entries := w.entries, deliveries := w.deliveries, ports := w.ports, nodes := w.nodes, cells := w.cells
    attempt := w.attempt } = w
  freeing : ∀ s D, Freeing s u D → Freeing s w fun c => D c ∨ queuedCell u h (fun j => decide (j ∈ l)) c

theorem Unbinds.start (he : u.entry? h = some e) : Unbinds u u p h e [] where
  entry j := by
    have hmembers : (e.members.mapIdx fun i m => if i ∈ ([] : List Position) then m.unboundFrom u p else m) = e.members :=
      List.ext_getElem (by simp) fun i _ _ => by simp
    rw [Entry.unboundAt, hmembers]
    split
    · next hj => rw [hj, he]
    · rfl
  deliveries := by simp
  outputs q := by simp
  node n := by simp
  rest := rfl
  freeing s D k := k.congr fun c => by simp [queuedCell]

/-- R146: the loss of one destination, with no VOID owed. -/
theorem State.dropDestination_silent {t : Target} {n : NodeId} (he : w.entry? h = some e) (ht : e.target? pos = some t)
    (hd : t.dest = some n) : w.dropDestination false h pos =
      (({ (w.freeOutputs fun x => decide (x.handle = h ∧ x.position = pos)) with
          deliveries := w.deliveries.map fun (d : Delivery) =>
            if d.output.handle = h ∧ d.output.position = pos then { d with owned := false } else d } : State).setEntry h
        { e with members := e.members.modify pos fun m =>
            { m with target := m.target.map fun x => { x with dest := none, coverage := [], voids := t.voids } } }).lowerLoad n := by
  have hrest := (State.freeOutputs_spec w fun x => decide (x.handle = h ∧ x.position = pos)).rest
  have heq : w.dropDestination false h pos =
      (({ (w.freeOutputs fun x => decide (x.handle = h ∧ x.position = pos)) with
          deliveries := (w.freeOutputs fun x => decide (x.handle = h ∧ x.position = pos)).deliveries.map fun (d : Delivery) =>
            if d.output.handle = h ∧ d.output.position = pos then { d with owned := false } else d } : State).modTarget h pos
        fun x => { x with dest := none, coverage := [], voids := t.voids }).lowerLoad n := by
    simp only [State.dropDestination, he, ht, hd, Bool.false_and, Bool.false_eq_true, if_false]
    cases (w.node n).route <;> rfl
  rw [heq]
  generalize w.freeOutputs (fun x => decide (x.handle = h ∧ x.position = pos)) = v at hrest ⊢
  have hdeliveries : v.deliveries = w.deliveries := by rw [← hrest]
  have hentry : ({ v with deliveries := w.deliveries.map fun (d : Delivery) =>
      if d.output.handle = h ∧ d.output.position = pos then { d with owned := false } else d } : State).entry? h = some e := by
    rw [← hrest]
    exact he
  rw [hdeliveries, State.modTarget, State.modMember, State.modEntry_eq hentry]

/-- The target that the step unbinds, among those already unbound. -/
theorem Entry.unboundAt_append {l : List Position} {m : Member} {t : Target} {n : NodeId} (hpos : pos ∉ l)
    (hm : e.members[pos]? = some m) (hmt : m.target = some t) (hstored : t.stored = false) (hd : t.dest = some n)
    (hroute : (u.node n).route = some p) :
    { e.unboundAt u p l with members := (e.unboundAt u p l).members.modify pos fun m =>
        { m with target := m.target.map fun x => { x with dest := none, coverage := [], voids := t.voids } } } =
      e.unboundAt u p (l ++ [pos]) := by
  have hlost : m.unboundFrom u p = { m with target := some { t with dest := none, coverage := [] } } := by
    simp only [Member.unboundFrom, hmt, Option.map_some, hd, hstored, hroute, and_self, if_true]
  refine congrArg (fun l => ({ e with members := l } : Entry)) (List.ext_getElem? fun i => ?_)
  rw [List.getElem?_modify]
  simp only [Entry.unboundAt, List.getElem?_mapIdx, List.mem_append, List.mem_singleton]
  by_cases hi : i = pos
  · subst hi
    simp only [hm, hpos, Option.map_some, if_false, if_true, or_true, hlost, hmt, Option.map_eq_map]
  · simp [hi, Ne.symm hi]

theorem Entry.target?_unboundAt {l : List Position} (hpos : pos ∉ l) : (e.unboundAt u p l).target? pos = e.target? pos := by
  refine Entry.target?_congr ?_
  simp only [Entry.unboundAt, List.getElem?_mapIdx, hpos, if_false]
  cases e.members[pos]? <;> rfl

/-- R151: one more of the entry's targets loses its destination. -/
theorem Unbinds.step {l : List Position} (k : Unbinds u w p h e l) (hpos : pos ∉ l) (hbound : e.boundThrough u p pos) :
    Unbinds u (w.dropDestination false h pos) p h e (l ++ [pos]) := by
  obtain ⟨t, n, ht, hd, hroute⟩ := hbound
  obtain ⟨m, hm, hmt, hstored⟩ := Entry.target?_some.mp ht
  have hentry := (k.entry h).trans (if_pos rfl)
  rw [State.dropDestination_silent hentry ((Entry.target?_unboundAt hpos).trans ht) hd,
    Entry.unboundAt_append hpos hm hmt hstored hd hroute]
  have hfreeing : ∀ s D, Freeing s u D → Freeing s (w.freeOutputs fun x => decide (x.handle = h ∧ x.position = pos)) fun c =>
      D c ∨ queuedCell u h (fun j => decide (j ∈ l ++ [pos])) c := fun s D hfree => by
    refine ((k.freeing s D hfree).freeOutputs _).congr fun c => ?_
    rw [mem_outputCells_iff w h (fun j => decide (j = pos)) _ (by simp), or_assoc]
    refine or_congr_right ?_
    simp only [queuedCell, k.outputs, List.mem_filter, decide_eq_true_eq, List.mem_append, List.mem_singleton]
    constructor
    · rintro (⟨q, o, ho, hh, hl, hc⟩ | ⟨q, o, ⟨ho, -⟩, hh, hl, hc⟩)
      · exact ⟨q, o, ho, hh, .inl hl, hc⟩
      · exact ⟨q, o, ho, hh, .inr hl, hc⟩
    · rintro ⟨q, o, ho, hh, hl | hl, hc⟩
      · exact .inl ⟨q, o, ho, hh, hl, hc⟩
      · exact .inr ⟨q, o, ⟨ho, fun hlost => hpos (hl ▸ hlost.2)⟩, hh, hl, hc⟩
  have hfreed := State.freeOutputs_spec w fun x => decide (x.handle = h ∧ x.position = pos)
  generalize w.freeOutputs (fun x => decide (x.handle = h ∧ x.position = pos)) = v at hfreeing hfreed ⊢
  have hventry : ∀ j, v.entry? j = w.entry? j := fun j => by
    rw [← hfreed.rest]
    rfl
  have hvnode : ∀ j, v.node j = w.node j := fun j => by
    rw [← hfreed.rest]
    rfl
  refine ⟨fun j => ?_, ?_, fun q => ?_, fun j => ?_, ?_, fun s D hfree => ?_⟩
  · refine (State.entry_setEntry ..).trans ?_
    split
    · rfl
    · next hj => exact (hventry j).trans ((k.entry j).trans (if_neg hj))
  · show w.deliveries.map _ = _
    rw [k.deliveries, List.map_map]
    refine List.map_congr_left fun d _ => ?_
    simp only [Function.comp_apply, List.mem_append, List.mem_singleton]
    by_cases hh : d.output.handle = h
    · by_cases hl : d.output.position ∈ l
      · simp [hh, hl]
      · simp [hh, hl]
    · simp [hh]
  · refine (hfreed.all q).trans ?_
    rw [k.outputs, List.filter_filter]
    refine congrArg (fun l => ({ u.port q with outputs := l } : Port)) (List.filter_congr fun o _ => ?_)
    simp only [List.mem_append, List.mem_singleton]
    by_cases hh : o.handle = h
    · by_cases hl : o.position ∈ l
      · simp [hh, hl]
      · simp [hh, hl]
    · simp [hh]
  · have hlowered : ∀ x : State, (x.lowerLoad n).node j = if j = n then { x.node n with load := (x.node n).load - 1 } else x.node j :=
      fun x => State.node_setNode ..
    have hkept : ∀ f, (({ v with deliveries := f } : State).setEntry h (e.unboundAt u p (l ++ [pos]))).node j = w.node j := fun _ => hvnode j
    rw [hlowered, List.countP_append, List.countP_singleton, ht, Option.bind_some, hd]
    by_cases hj : j = n
    · subst hj
      rw [if_pos rfl, hkept, k.node]
      simp [Nat.sub_sub]
    · rw [if_neg hj, hkept, k.node]
      simp [Ne.symm hj]
  · rw [← hfreed.rest, ← k.rest]
    rfl
  · have hset := (hfreeing s D hfree).setEntry ((hventry h).trans hentry) (f := e.unboundAt u p (l ++ [pos])) rfl rfl rfl
    exact hset.onward rfl rfl hset.rising fun _ => rfl

theorem Unbinds.foldl {l l' : List Position} (k : Unbinds u w p h e l) (hnodup : (l ++ l').Nodup)
    (hbound : ∀ j ∈ l', e.boundThrough u p j) :
    Unbinds u (l'.foldl (fun x j => x.dropDestination false h j) w) p h e (l ++ l') := by
  induction l' generalizing l w with
  | nil => rwa [List.append_nil]
  | cons j l' ih =>
    have hj : j ∉ l := fun hmem => (List.nodup_append.mp hnodup).2.2 j hmem j List.mem_cons_self rfl
    rw [List.append_cons] at hnodup ⊢
    exact ih (k.step hj (hbound j List.mem_cons_self)) hnodup fun i hi => hbound i (List.mem_cons_of_mem j hi)

/-- R151: an entry loses every destination routed through the port. -/
theorem State.unbinds (he : u.entry? h = some e) (p : PortId) :
    Unbinds u ((u.boundVia p e).foldl (fun x j => x.dropDestination false h j) u) p h e (u.boundVia p e) :=
  (Unbinds.start he).foldl (l := []) (u.nodup_boundVia p e) fun j hj => (u.mem_boundVia p e j).mp hj

/-- The entry that has lost every destination routed through the port. -/
theorem Entry.unboundAt_boundVia (u : State) (p : PortId) (e : Entry) :
    e.unboundAt u p (u.boundVia p e) = { e with members := e.members.map (Member.unboundFrom u p) } := by
  refine congrArg (fun l => ({ e with members := l } : Entry)) (List.ext_getElem (by simp) fun i hi _ => ?_)
  have hlt : i < e.members.length := by simpa using hi
  simp only [List.getElem_mapIdx, List.getElem_map]
  split
  · rfl
  · next hfar =>
    generalize hm : e.members[i] = m
    have hfree : ∀ t, m.target = some t → t.stored = false → ∀ n, t.dest = some n → (u.node n).route ≠ some p :=
      fun t ht hstored n hd hroute => hfar ((u.mem_boundVia p e i).mpr ⟨t, n,
        Entry.target?_some.mpr ⟨m, List.getElem?_eq_some_iff.mpr ⟨hlt, hm⟩, ht, hstored⟩, hd, hroute⟩)
    obtain ⟨node, state, cause, strikes, target⟩ := m
    refine congrArg (Member.mk node state cause strikes) ?_
    cases target with
    | none => rfl
    | some t =>
      cases hd : t.dest with
      | none => simp only [Option.map_some, hd]
      | some n =>
        have hkept : ¬(t.stored = false ∧ (u.node n).route = some p) := fun ⟨hs, hr⟩ => hfree t rfl hs n hd hr
        simp only [Option.map_some, hd, hkept, if_false]

end

end Sys2Proof.Machine
end

section
/-! PROOFS. How far a port reset has come, and what each of its operations adds to it (O24). -/

namespace Sys2Proof.Machine

open Sys2Proof.Config

/-- What a port reset has made of the entries so far: each as it stands or stood last, the positions whose destination it
has lost, the outcome it has closed with, and whether it is done with. -/
structure Fates where
  cur : Handle → Option Entry
  lost : Handle → Position → Prop
  close : Handle → Option EntryOutcome
  forgot : Handle → Prop

/-- An entry is written anew. -/
def Fates.write (F : Fates) (h : Handle) (e : Entry) : Fates := { F with cur := fun j => if j = h then some e else F.cur j }

/-- An entry loses destinations. -/
def Fates.unbind (F : Fates) (h : Handle) (e : Entry) (bound : Position → Prop) : Fates :=
  { F.write h e with lost := fun j pos => F.lost j pos ∨ j = h ∧ bound pos }

/-- An entry closes. -/
def Fates.shut (F : Fates) (h : Handle) (e : Entry) (o : EntryOutcome) : Fates :=
  { F.write h e with close := fun j => if j = h then some o else F.close j }

/-- An entry is done with. -/
def Fates.forget (F : Fates) (h : Handle) : Fates := { F with forgot := fun j => F.forgot j ∨ j = h }

theorem Fates.shut_closed (F : Fates) (h : Handle) (e : Entry) (o : EntryOutcome) : (F.shut h e o).close h ≠ none := by
  simp [Fates.shut]

theorem Fates.closed_shut (F : Fates) {h j : Handle} (e : Entry) (o : EntryOutcome) (hj : F.close j ≠ none) :
    (F.shut h e o).close j ≠ none := by
  unfold Fates.shut
  dsimp only
  split
  · exact Option.some_ne_none o
  · exact hj

theorem Fates.shut_cases (F : Fates) {h j : Handle} {e : Entry} {o : EntryOutcome} (hj : (F.shut h e o).close j ≠ none) :
    j = h ∨ F.close j ≠ none := by
  by_cases hjh : j = h
  · exact .inl hjh
  · have hsame : (F.shut h e o).close j = F.close j := if_neg hjh
    exact .inr (hsame ▸ hj)

/-- R141: the queued outputs freed so far. -/
def Fates.frees (F : Fates) (o : Output) : Prop := F.lost o.handle o.position ∨ F.close o.handle ≠ none

/-- R122, R151, R61: the cells released so far, those of the port's own fetches included. -/
def Fates.given (F : Fates) (s : State) (p : PortId) (c : CellId) : Prop :=
  (∃ tag : FetchTag, ∃ f, (s.port p).fetches[tag] = some f ∧ f.cell = some c)
  ∨ (∃ q, ∃ o ∈ (s.port q).outputs, o.cell = c ∧ F.frees o)
  ∨ ∃ h e, s.entry? h = some e ∧ F.close h ≠ none ∧ (liveCell s h c ∨ e.plan ≠ none ∧ planCell s h c)

open Classical in
/-- R35: how many targets of an entry have left the node so far. -/
noncomputable def Fates.unloads (F : Fates) (n : NodeId) (he : Handle × Entry) : Nat :=
  he.2.targets.countP fun pt => decide (pt.2.dest = some n ∧ (F.lost he.1 pt.1 ∨ F.close he.1 ≠ none))

open Classical in
/-- R168 steps 2 to 4: from `s` to `u` the reset of port `p` has come as far as `F` says. -/
structure Underway (s u : State) (p : PortId) (F : Fates) : Prop where
  rising_start : s.rising
  freeing : Freeing s u (F.given s p)
  absent : ∀ h, s.entry? h = none → F.cur h = none
  entries : ∀ h, u.entry? h = F.cur h
    ∨ u.entry? h = none ∧ ∃ e, F.cur h = some e ∧ (F.close h ≠ none ∨ F.forgot h) ∧ owesNothing u h e
  owing : ∀ h e, F.forgot h → u.entry? h = some e → ¬owesNothing u h e
  deliveries : u.deliveries = s.deliveries.map fun (d : Delivery) =>
    if F.lost d.output.handle d.output.position then { d with owned := false } else d
  outputs : ∀ q, (u.port q).outputs = (s.port q).outputs.filter fun o => decide ¬F.frees o
  fetches : ∀ q, q ≠ p → ∀ tag : FetchTag, (u.port q).fetches[tag] = (s.port q).fetches[tag].map fun f =>
    if F.close f.handle ≠ none then { f with cell := none } else f
  emptied : ∀ tag : FetchTag, (u.port p).fetches[tag] = none
  nodes : ∀ n, u.node n = { s.node n with load := (s.node n).load - (s.entries.map (F.unloads n)).sum }
  profiles : ∀ i, u.profile i = { s.profile i with
    users := (s.profile i).users - s.entries.countP fun he => decide (he.2.profile = i ∧ u.entry? he.1 = none) }
  banks : ∀ b, u.bank b = { s.bank b with
    refs := (s.bank b).refs - s.entries.countP fun he => decide (F.close he.1 ≠ none ∧ he.2.plan.bind Plan.bank = some b) }
  park : u.park = if ∃ h, s.park = some h ∧ F.close h ≠ none then none else s.park
  counters : ∀ i : Fin 18, u.counters[i] = s.counters[i] + BitVec.ofNat 48 (s.entries.countP fun he =>
    decide ((F.close he.1).map EntryOutcome.counter = some i))

/-! ### Sums over the table -/

section

variable {s : State} {h : Handle} {e : Entry}

theorem State.split_entries (hr : s.rising) (he : s.entry? h = some e) :
    ∃ pre post, s.entries = pre ++ (h, e) :: post ∧ ∀ x ∈ pre ++ post, x.1 ≠ h := by
  obtain ⟨pre, post, hs⟩ := List.append_of_mem ((State.mem_entries_iff hr h e).mpr he)
  refine ⟨pre, post, hs, fun x hx => ?_⟩
  have hsorted : s.entries.Pairwise fun a b => a.1 < b.1 := hr
  rw [hs, List.pairwise_append, List.pairwise_cons] at hsorted
  obtain ⟨-, ⟨hpost, -⟩, hpre⟩ := hsorted
  rcases List.mem_append.mp hx with hx | hx
  · exact Nat.ne_of_lt (hpre x hx (h, e) List.mem_cons_self)
  · exact Nat.ne_of_gt (hpost x hx)

/-- A sum over the table in which the term of one entry changes. -/
theorem State.sum_entries (hr : s.rising) (he : s.entry? h = some e) {f g : Handle × Entry → Nat} {d : Nat}
    (hsame : ∀ x, x.1 ≠ h → g x = f x) (hstep : g (h, e) = f (h, e) + d) :
    (s.entries.map g).sum = (s.entries.map f).sum + d := by
  obtain ⟨pre, post, hs, hne⟩ := State.split_entries hr he
  have hpre : pre.map g = pre.map f := List.map_congr_left fun x hx => hsame x (hne x (List.mem_append_left _ hx))
  have hpost : post.map g = post.map f := List.map_congr_left fun x hx => hsame x (hne x (List.mem_append_right _ hx))
  rw [hs]
  simp only [List.map_append, List.map_cons, List.sum_append, List.sum_cons, hpre, hpost, hstep]
  omega

/-- A count over the table that one entry joins, if it does. -/
theorem State.countP_entries (hr : s.rising) (he : s.entry? h = some e) {f g : Handle × Entry → Bool}
    (hsame : ∀ x, x.1 ≠ h → g x = f x) (hout : f (h, e) = false) :
    s.entries.countP g = s.entries.countP f + if g (h, e) = true then 1 else 0 := by
  obtain ⟨pre, post, hs, hne⟩ := State.split_entries hr he
  have hpre : pre.countP g = pre.countP f :=
    List.countP_congr fun x hx => by rw [hsame x (hne x (List.mem_append_left _ hx))]
  have hpost : post.countP g = post.countP f :=
    List.countP_congr fun x hx => by rw [hsame x (hne x (List.mem_append_right _ hx))]
  rw [hs]
  simp only [List.countP_append, List.countP_cons, hpre, hpost, hout, Bool.false_eq_true, if_false]
  omega

end

/-! ### The operations (R55, R61, R63, R151) -/

section

variable {s u v : State} {p : PortId} {F : Fates} {h : Handle} {e e0 f : Entry}

/-- What is known of the entries that are gone stays known. -/
theorem Underway.entries_onward (k : Underway s u p F) (hs : Sheds u v) {j : Handle} (hsame : v.entry? j = u.entry? j) :
    v.entry? j = F.cur j
      ∨ v.entry? j = none ∧ ∃ e, F.cur j = some e ∧ (F.close j ≠ none ∨ F.forgot j) ∧ Machine.owesNothing v j e := by
  rw [hsame]
  exact (k.entries j).imp id fun ⟨hn, e, hcur, hwhy, howes⟩ => ⟨hn, e, hcur, hwhy, hs.owesNothing hn howes⟩

/-- The count of the entries gone changes only with them. -/
theorem countP_gone_congr {s u v : State} (i : ProfileId) (hsame : ∀ j, v.entry? j = none ↔ u.entry? j = none) :
    (s.entries.countP fun he => decide (he.2.profile = i ∧ v.entry? he.1 = none)) =
      s.entries.countP fun he => decide (he.2.profile = i ∧ u.entry? he.1 = none) := by
  simp only [hsame]

/-- R63: the users of a profile, once the entry at `h` may have been removed. -/
theorem Underway.profile_after (k : Underway s u p F) (hs : s.entry? h = some e0) (he : u.entry? h = some e)
    (hprofile : f.profile = e0.profile) (hothers : onlyEntry u v h)
    (hdone : Machine.owesNothing v h f → v.entry? h = none ∧ ∀ i, v.profile i =
      if i = f.profile then { u.profile i with users := (u.profile i).users - 1 } else u.profile i)
    (hstays : ¬Machine.owesNothing v h f → v.entry? h = some f ∧ v.profiles = u.profiles) (i : ProfileId) :
    v.profile i = { s.profile i with
      users := (s.profile i).users - s.entries.countP fun he => decide (he.2.profile = i ∧ v.entry? he.1 = none) } := by
  rw [State.countP_entries (f := fun he => decide (he.2.profile = i ∧ u.entry? he.1 = none)) k.rising_start hs
    (fun x hx => by rw [hothers x.1 hx]) (by simp [he])]
  by_cases ho : Machine.owesNothing v h f
  · obtain ⟨hnone, hprofiles⟩ := hdone ho
    rw [hprofiles, k.profiles, hprofile]
    by_cases hi : i = e0.profile
    · simp [hi, hnone, Nat.sub_sub]
    · simp [hi, Ne.symm hi]
  · obtain ⟨hsome, hprofiles⟩ := hstays ho
    have hsame : v.profile i = u.profile i := by rw [State.profile, hprofiles]; rfl
    rw [hsame, k.profiles]
    simp [hsome]

/-- The entry is written anew: neither its plan nor its place in queue order changes, nor does anything else. -/
theorem Underway.rewrites (k : Underway s u p F) (he : u.entry? h = some e)
    (hkept : f.urgency = e.urgency ∧ f.sequence = e.sequence ∧ f.plan = e.plan) (hopen : ¬F.forgot h)
    (hpresent : s.entry? h ≠ none)
    (hv : { u.setEntry h f with attempt := v.attempt } = v) :
    Underway s v p (F.write h f) := by
  have hsheds : Sheds u v := by
    rw [← hv]
    exact (Sheds.setEntry he f).trans (.of_kept (.setAttempt ..) ⟨rfl, rfl, rfl⟩ rfl rfl rfl)
  have hentry : ∀ j, v.entry? j = if j = h then some f else u.entry? j := fun j => by
    rw [← hv]
    exact State.entry_setEntry ..
  have hgone : ∀ j, v.entry? j = none ↔ u.entry? j = none := fun j => by
    rw [hentry]
    split
    · next hj => simp [hj, he]
    · rfl
  have howes : ∀ j e, Machine.owesNothing v j e ↔ Machine.owesNothing u j e := fun j e => by
    rw [← hv]
    exact Iff.rfl
  have hset := k.freeing.setEntry he hkept.1 hkept.2.1 hkept.2.2
  refine ⟨k.rising_start, ?_, fun j hj => ?_, fun j => ?_, fun j g hforgot hg => ?_, ?_, fun q => ?_, fun q hq tag => ?_, fun tag => ?_,
    fun n => ?_, fun i => ?_, fun b => ?_, ?_, fun i => ?_⟩
  · rw [← hv]
    exact hset.onward rfl rfl hset.rising fun _ => rfl
  · have hne : j ≠ h := fun heq => hpresent (heq ▸ hj)
    exact (if_neg hne).trans (k.absent j hj)
  · dsimp only [Fates.write]
    by_cases hj : j = h
    · exact .inl ((hentry j).trans (by rw [if_pos hj, if_pos hj]))
    · rw [if_neg hj]
      exact k.entries_onward hsheds ((hentry j).trans (if_neg hj))
  · have hne : j ≠ h := fun heq => hopen (heq ▸ hforgot)
    rw [howes]
    exact k.owing j g hforgot (((hentry j).trans (if_neg hne)).symm.trans hg)
  · rw [← hv]
    exact k.deliveries
  · rw [← hv]
    exact k.outputs q
  · rw [← hv]
    exact k.fetches q hq tag
  · rw [← hv]
    exact k.emptied tag
  · rw [← hv]
    exact k.nodes n
  · rw [countP_gone_congr i hgone, ← hv]
    exact k.profiles i
  · rw [← hv]
    exact k.banks b
  · rw [← hv]
    exact k.park
  · rw [← hv]
    exact k.counters i

/-- R63: the entry is done with, and removed where it owes nothing. -/
theorem Underway.removes (k : Underway s u p F) (he : u.entry? h = some e) (hcur : F.cur h = some e) (hopen : ¬F.forgot h)
    (hs : s.entry? h = some e0) (hprofile : e.profile = e0.profile) :
    Underway s (u.removeIfDone h) p (F.forget h) := by
  obtain ⟨⟨hdone, hstays⟩, hothers, hrest⟩ := State.removeIfDone_spec k.freeing.rising he
  have hsheds := Sheds.removeIfDone u h
  have hfreeing := k.freeing.removeIfDone h
  generalize u.removeIfDone h = v at hdone hstays hothers hrest hsheds hfreeing
  have howes : ∀ j e, Machine.owesNothing v j e ↔ Machine.owesNothing u j e := fun j e => by
    rw [← hrest]
    exact Iff.rfl
  refine ⟨k.rising_start, hfreeing, k.absent, fun j => ?_, fun j g hgone hg => ?_, ?_, fun q => ?_, fun q hq tag => ?_, fun tag => ?_,
    fun n => ?_, fun i => ?_, fun b => ?_, ?_, fun i => ?_⟩
  · dsimp only [Fates.forget]
    by_cases hj : j = h
    · subst hj
      by_cases ho : Machine.owesNothing v j e
      · exact .inr ⟨(hdone ho).1, e, hcur, .inr (.inr rfl), ho⟩
      · exact .inl ((hstays ho).1.trans hcur.symm)
    · simp only [hj, or_false]
      exact k.entries_onward hsheds (hothers j hj)
  · by_cases hj : j = h
    · subst hj
      intro ho
      by_cases hv : Machine.owesNothing v j e
      · rw [(hdone hv).1] at hg
        cases hg
      · rw [(hstays hv).1] at hg
        obtain rfl := Option.some.inj hg
        exact hv ho
    · rw [howes]
      exact k.owing j g (hgone.resolve_right hj) ((hothers j hj).symm.trans hg)
  · rw [← hrest]
    exact k.deliveries
  · rw [← hrest]
    exact k.outputs q
  · rw [← hrest]
    exact k.fetches q hq tag
  · rw [← hrest]
    exact k.emptied tag
  · rw [← hrest]
    exact k.nodes n
  · exact k.profile_after hs he hprofile hothers hdone hstays i
  · rw [← hrest]
    exact k.banks b
  · rw [← hrest]
    exact k.park
  · rw [← hrest]
    exact k.counters i

end

end Sys2Proof.Machine
end

section
/-! PROOFS. What a loss of destinations and a close add to a port reset that is under way (O24). -/

namespace Sys2Proof.Machine

open Sys2Proof.Config

section

variable {s u v w : State} {p : PortId} {F : Fates} {h : Handle} {e e0 : Entry} {o : EntryOutcome}

/-! ### The loss of destinations (R151) -/

theorem Entry.boundThrough_congr (hroute : ∀ n, (u.node n).route = (s.node n).route) (hmembers : e.members = e0.members)
    (p : PortId) (pos : Position) : e.boundThrough u p pos ↔ e0.boundThrough s p pos := by
  have htarget : e.target? pos = e0.target? pos := Entry.target?_congr (by rw [hmembers])
  simp only [Entry.boundThrough, htarget, hroute]

theorem Entry.targets_congr (hmembers : e.members = e0.members) : e.targets = e0.targets := by
  rw [Entry.targets, Entry.targets, hmembers]

theorem Underway.route (k : Underway s u p F) (n : NodeId) : (u.node n).route = (s.node n).route := by rw [k.nodes]

open Classical in
/-- R35: the targets bound for a node, among those whose destination is routed through the port. -/
theorem Entry.countP_boundThrough (s : State) (p : PortId) (e : Entry) (n : NodeId) :
    (e.targets.countP fun pt => decide (pt.2.dest = some n ∧ e.boundThrough s p pt.1)) =
      if (s.node n).route = some p then e.targets.countP fun pt => decide (pt.2.dest = some n) else 0 := by
  have hbound : ∀ pt ∈ e.targets, pt.2.dest = some n → (e.boundThrough s p pt.1 ↔ (s.node n).route = some p) :=
    fun pt hpt hd => by
      have ht := (e.mem_targets pt.1 pt.2).mp hpt
      constructor
      · rintro ⟨t, k, ht', hd', hroute⟩
        obtain rfl := Option.some.inj (ht.symm.trans ht')
        obtain rfl := Option.some.inj (hd.symm.trans hd')
        exact hroute
      · exact fun hroute => ⟨pt.2, n, ht, hd, hroute⟩
  split
  · next hp =>
    refine List.countP_congr fun pt hpt => ?_
    simp only [decide_eq_true_eq]
    exact ⟨And.left, fun hd => ⟨hd, (hbound pt hpt hd).mpr hp⟩⟩
  · next hp =>
    refine List.countP_eq_zero.mpr fun pt hpt hd => ?_
    obtain ⟨hd, hthrough⟩ := of_decide_eq_true hd
    exact hp ((hbound pt hpt hd).mp hthrough)

open Classical in
/-- R151: an entry that had lost nothing loses every destination routed through the port. -/
theorem Underway.unbinds (k : Underway s u p F) (hw : Unbinds u w p h e (u.boundVia p e)) (hsheds : Sheds u w)
    (hs : s.entry? h = some e0) (he : u.entry? h = some e) (hmembers : e.members = e0.members)
    (hlost : ∀ pos, ¬F.lost h pos) (hclose : F.close h = none) (hopen : ∀ j, ¬F.forgot j) :
    Underway s w p (F.unbind h (e.unboundAt u p (u.boundVia p e)) (e0.boundThrough s p)) := by
  have hbound : ∀ pos, pos ∈ u.boundVia p e ↔ e0.boundThrough s p pos := fun pos =>
    (u.mem_boundVia p e pos).trans (Entry.boundThrough_congr k.route hmembers p pos)
  have hcount : ∀ n, ((u.boundVia p e).countP fun j => decide ((e.target? j).bind Target.dest = some n)) =
      if (s.node n).route = some p then e0.targets.countP fun pt => decide (pt.2.dest = some n) else 0 := fun n => by
    rw [u.countP_boundVia, k.route, Entry.targets_congr hmembers]
  generalize u.boundVia p e = l at hw hbound hcount ⊢
  have hfrees : ∀ x, (F.unbind h (e.unboundAt u p l) (e0.boundThrough s p)).frees x ↔
      F.frees x ∨ x.handle = h ∧ x.position ∈ l := fun x => by
    rw [hbound]
    exact or_right_comm
  have hkept : ∀ x : Output, x.handle = h → ¬F.frees x := fun x hx hfreed => by
    rcases hfreed with hl | hc
    · exact hlost _ (hx ▸ hl)
    · exact hc (hx ▸ hclose)
  have hgone : ∀ j, w.entry? j = none ↔ u.entry? j = none := fun j => by
    rw [hw.entry]
    split
    · next hj => simp [hj, he]
    · rfl
  refine ⟨k.rising_start, (hw.freeing s _ k.freeing).congr fun c => ?_, fun j hj => ?_, fun j => ?_,
    fun j g hforgot => absurd hforgot (hopen j), ?_, fun q => ?_, fun q hq tag => ?_, fun tag => ?_, fun n => ?_, fun i => ?_,
    fun b => ?_, ?_, fun i => ?_⟩
  · unfold Fates.given
    simp only [hfrees, or_assoc]
    refine or_congr_right ?_
    constructor
    · rintro (⟨q, x, hx, hc, hfreed⟩ | hclosed | ⟨q, x, hx, hh, hl, hc⟩)
      · exact .inl ⟨q, x, hx, hc, .inl hfreed⟩
      · exact .inr hclosed
      · rw [k.outputs, List.mem_filter] at hx
        exact .inl ⟨q, x, hx.1, hc, .inr ⟨hh, of_decide_eq_true hl⟩⟩
    · rintro (⟨q, x, hx, hc, hfreed | ⟨hh, hl⟩⟩ | hclosed)
      · exact .inl ⟨q, x, hx, hc, hfreed⟩
      · refine .inr (.inr ⟨q, x, ?_, hh, decide_eq_true hl, hc⟩)
        rw [k.outputs, List.mem_filter]
        exact ⟨hx, by simpa using hkept x hh⟩
      · exact .inr (.inl hclosed)
  · have hne : j ≠ h := fun heq => by
      rw [heq, hs] at hj
      cases hj
    exact (if_neg hne).trans (k.absent j hj)
  · dsimp only [Fates.unbind, Fates.write]
    by_cases hj : j = h
    · exact .inl ((hw.entry j).trans (by rw [if_pos hj, if_pos hj]))
    · rw [if_neg hj]
      exact k.entries_onward hsheds ((hw.entry j).trans (if_neg hj))
  · rw [hw.deliveries, k.deliveries, List.map_map]
    refine List.map_congr_left fun d _ => ?_
    rw [Function.comp_apply]
    by_cases hold : F.lost d.output.handle d.output.position
    · have hne : d.output.handle ≠ h := fun heq => hlost _ (heq ▸ hold)
      rw [if_pos hold, if_neg fun hnew => hne hnew.1]
      exact (if_pos (.inl hold)).symm
    · rw [if_neg hold]
      by_cases hnew : d.output.handle = h ∧ d.output.position ∈ l
      · rw [if_pos hnew]
        exact (if_pos (.inr ⟨hnew.1, (hbound _).mp hnew.2⟩)).symm
      · rw [if_neg hnew]
        exact (if_neg fun hlate => hlate.elim hold fun hat => hnew ⟨hat.1, (hbound _).mpr hat.2⟩).symm
  · rw [hw.outputs, k.outputs, List.filter_filter]
    refine List.filter_congr fun x _ => ?_
    rw [Bool.eq_iff_iff]
    simp only [Bool.and_eq_true, decide_eq_true_eq, hfrees, not_or]
    exact and_comm
  · rw [hw.outputs]
    exact k.fetches q hq tag
  · rw [hw.outputs]
    exact k.emptied tag
  · have hsum := State.sum_entries (f := F.unloads n) (g := (F.unbind h (e.unboundAt u p l) (e0.boundThrough s p)).unloads n)
      (d := l.countP fun j => decide ((e.target? j).bind Target.dest = some n)) k.rising_start hs (fun x hx => ?_) ?_
    · rw [hw.node, k.nodes, hsum]
      simp [Nat.sub_sub]
    · refine List.countP_congr fun pt _ => ?_
      rw [decide_eq_true_eq, decide_eq_true_eq]
      exact and_congr_right fun _ => or_congr_left (or_iff_left fun hat => hx hat.1)
    · have hnone : F.unloads n (h, e0) = 0 := List.countP_eq_zero.mpr fun pt _ hd =>
        (of_decide_eq_true hd).2.elim (hlost _) fun hclosed => hclosed hclose
      rw [hcount, ← Entry.countP_boundThrough, hnone, Nat.zero_add]
      refine List.countP_congr fun pt _ => ?_
      rw [decide_eq_true_eq, decide_eq_true_eq]
      refine and_congr_right fun _ => ⟨fun hleft => ?_, fun hthrough => .inl (.inr ⟨rfl, hthrough⟩)⟩
      rcases hleft with (hold | hnew) | hclosed
      · exact absurd hold (hlost _)
      · exact hnew.2
      · exact absurd hclose hclosed
  · rw [countP_gone_congr i hgone, ← hw.rest]
    exact k.profiles i
  · rw [← hw.rest]
    exact k.banks b
  · rw [← hw.rest]
    exact k.park
  · rw [← hw.rest]
    exact k.counters i

/-! ### A close (R61) -/

theorem Underway.readByPass (k : Underway s u p F) (c : CellId) : u.readByPass c ↔ s.readByPass c := by
  unfold State.readByPass State.lane
  rw [k.freeing.lanes]

/-- Of the cells not yet released an entry gives up with its plan what it would have given up at first. -/
theorem Underway.planCell (k : Underway s u p F) {c : CellId} (hc : ¬F.given s p c) : planCell u h c ↔ planCell s h c := by
  unfold Machine.planCell
  rw [k.readByPass, k.freeing.kept c hc]

/-- Of the cells not yet released an entry that has not closed has the same LIVE fetches' cells. -/
theorem Underway.liveCell (k : Underway s u p F) (hclose : F.close h = none) {c : CellId} (hc : ¬F.given s p c) :
    liveCell u h c ↔ liveCell s h c := by
  constructor
  · rintro ⟨q, tag, f, hf, hh, hcell⟩
    have hq : q ≠ p := by
      rintro rfl
      rw [k.emptied] at hf
      cases hf
    rw [k.fetches q hq] at hf
    obtain ⟨g, hg, rfl⟩ := Option.map_eq_some_iff.mp hf
    split at hcell
    · cases hcell
    · next hopen =>
      rw [if_neg hopen] at hh
      exact ⟨q, tag, g, hg, hh, hcell⟩
  · rintro ⟨q, tag, f, hf, hh, hcell⟩
    have hq : q ≠ p := by
      rintro rfl
      exact hc (.inl ⟨tag, f, hf, hcell⟩)
    refine ⟨q, tag, f, ?_, hh, hcell⟩
    rw [k.fetches q hq, hf, Option.map_some, if_neg]
    rw [hh]
    exact fun hclosed => hclosed hclose

/-- R61: the cells that a close gives up, with those released before it. -/
theorem Underway.given_shut (k : Underway s u p F) (hs : s.entry? h = some e0) (hplan : e.plan = e0.plan)
    (hclose : F.close h = none) (f : Entry) (o : EntryOutcome) (c : CellId) :
    (F.given s p c ∨ (e.plan ≠ none ∧ Machine.planCell u h c) ∨ Machine.liveCell u h c ∨ queuedCell u h (fun _ => true) c) ↔
      (F.shut h f o).given s p c := by
  by_cases hc : F.given s p c
  · refine iff_of_true (.inl hc) ?_
    rcases hc with hport | ⟨q, x, hx, hcell, hlost | hclosed⟩ | ⟨j, g, hj, hclosed, hcell⟩
    · exact .inl hport
    · exact .inr (.inl ⟨q, x, hx, hcell, .inl hlost⟩)
    · exact .inr (.inl ⟨q, x, hx, hcell, .inr (F.closed_shut f o hclosed)⟩)
    · exact .inr (.inr ⟨j, g, hj, F.closed_shut f o hclosed, hcell⟩)
  · rw [or_iff_right hc, k.planCell hc, k.liveCell hclose hc, hplan]
    constructor
    · rintro (⟨hp, hcell⟩ | hcell | ⟨q, x, hx, hh, -, hcell⟩)
      · exact .inr (.inr ⟨h, e0, hs, F.shut_closed h f o, .inr ⟨hp, hcell⟩⟩)
      · exact .inr (.inr ⟨h, e0, hs, F.shut_closed h f o, .inl hcell⟩)
      · rw [k.outputs, List.mem_filter] at hx
        exact .inr (.inl ⟨q, x, hx.1, hcell, .inr (hh ▸ F.shut_closed x.handle f o)⟩)
    · rintro (hport | ⟨q, x, hx, hcell, hfreed⟩ | ⟨j, g, hj, hclosed, hcell⟩)
      · exact absurd (.inl hport) hc
      · have hopen : ¬F.frees x := fun hfreed => hc (.inr (.inl ⟨q, x, hx, hcell, hfreed⟩))
        have hh : x.handle = h := by
          rcases hfreed with hlost | hclosed
          · exact absurd (.inl hlost) hopen
          · exact (F.shut_cases hclosed).resolve_right fun hold => hopen (.inr hold)
        refine .inr (.inr ⟨q, x, ?_, hh, rfl, hcell⟩)
        rw [k.outputs, List.mem_filter]
        exact ⟨hx, by simpa using hopen⟩
      · have hjh : j = h := (F.shut_cases hclosed).resolve_right fun hold => hc (.inr (.inr ⟨j, g, hj, hold, hcell⟩))
        obtain rfl : e0 = g := Option.some.inj (hs.symm.trans (hjh ▸ hj))
        rw [hjh] at hcell
        exact hcell.elim (fun hlive => .inr (.inl hlive)) .inl

theorem countP_split {α : Type} (l : List α) (f : α → Bool) (P : α → Prop) [DecidablePred P] :
    l.countP f = l.countP (fun a => f a && decide (P a)) + l.countP fun a => f a && decide ¬P a := by
  induction l with
  | nil => rfl
  | cons a l ih =>
    rw [List.countP_cons, List.countP_cons, List.countP_cons, ih]
    by_cases hP : P a
    · simp [hP]
      omega
    · simp [hP]
      omega

open Classical in
/-- R61, R63: the entry closes, and is removed where it owes nothing. -/
theorem Underway.closes (k : Underway s u p F) (hs : s.entry? h = some e0) (he : u.entry? h = some e)
    (hc : e.state ≠ .closed) (hplan : e.plan = e0.plan) (hprofile : e.profile = e0.profile)
    (hleft : ∀ n, (e.targets.countP fun pt => decide (pt.2.dest = some n)) =
      e0.targets.countP fun pt => decide (pt.2.dest = some n) && decide ¬F.lost h pt.1)
    (hclose : F.close h = none) (hopen : ∀ j, ¬F.forgot j) (o : EntryOutcome) :
    Underway s (u.closeEntry h o) p (F.shut h (e.closedWith u h o) o) := by
  have hfreeing := k.freeing.closeEntry he hc o
  have hsheds := Sheds.closeEntry u h o
  obtain ⟨hothers, ⟨hdone, hstays⟩, hpark, hcounters, hfetches, houtputs, hloads, hbanks, hdeliveries⟩ :=
    State.closeEntry_shuts k.freeing.rising he hc o
  generalize u.closeEntry h o = v at hfreeing hsheds hothers hdone hstays hpark hcounters hfetches houtputs hloads hbanks hdeliveries
  generalize hf : e.closedWith u h o = f at hdone hstays ⊢
  have hprofilef : f.profile = e0.profile := by rw [← hf]; exact hprofile
  refine ⟨k.rising_start, hfreeing.congr fun c => k.given_shut hs hplan hclose f o c, fun j hj => ?_, fun j => ?_,
    fun j g hforgot => absurd hforgot (hopen j), ?_, fun q => ?_, fun q hq tag => ?_, fun tag => ?_, fun n => ?_, ?_, fun b => ?_,
    ?_, fun i => ?_⟩
  · have hne : j ≠ h := fun heq => by
      rw [heq, hs] at hj
      cases hj
    exact (if_neg hne).trans (k.absent j hj)
  · by_cases hj : j = h
    · subst hj
      have hcur : (F.shut j f o).cur j = some f := if_pos rfl
      rw [hcur]
      by_cases ho : Machine.owesNothing v j f
      · exact .inr ⟨(hdone ho).1, f, rfl, .inl (F.shut_closed j f o), ho⟩
      · exact .inl (hstays ho).1
    · have hcur : (F.shut h f o).cur j = F.cur j := if_neg hj
      have hclosed : (F.shut h f o).close j = F.close j := if_neg hj
      rw [hcur, hclosed]
      exact k.entries_onward hsheds (hothers j hj)
  · rw [hdeliveries]
    exact k.deliveries
  · rw [houtputs, k.outputs, List.filter_filter]
    refine List.filter_congr fun x _ => ?_
    rw [Bool.eq_iff_iff]
    simp only [Bool.and_eq_true, decide_eq_true_eq]
    constructor
    · rintro ⟨hne, hkept⟩ (hlost | hclosed)
      · exact hkept (.inl hlost)
      · exact (F.shut_cases hclosed).elim hne fun hold => hkept (.inr hold)
    · exact fun hkept => ⟨fun heq => hkept (.inr (heq ▸ F.shut_closed x.handle f o)),
        fun hfreed => hkept (hfreed.imp id fun hold => F.closed_shut f o hold)⟩
  · rw [hfetches, k.fetches q hq, Option.map_map]
    refine congrArg (Option.map · _) (funext fun x => ?_)
    rw [Function.comp_apply]
    by_cases hold : F.close x.handle ≠ none
    · rw [if_pos hold, if_pos (F.closed_shut f o hold)]
      split <;> rfl
    · rw [if_neg hold]
      by_cases hh : x.handle = h
      · rw [if_pos hh, if_pos (hh ▸ F.shut_closed x.handle f o)]
      · rw [if_neg hh, if_neg fun hclosed => (F.shut_cases hclosed).elim hh hold]
  · rw [hfetches, k.emptied]
    rfl
  · have hsum := State.sum_entries (f := F.unloads n) (g := (F.shut h f o).unloads n)
      (d := e.targets.countP fun pt => decide (pt.2.dest = some n)) k.rising_start hs (fun x hx => ?_) ?_
    · rw [hloads, k.nodes, hsum]
      simp [Nat.sub_sub]
    · refine List.countP_congr fun pt _ => ?_
      rw [decide_eq_true_eq, decide_eq_true_eq]
      exact and_congr_right fun _ => or_congr_right
        ⟨fun hclosed => (F.shut_cases hclosed).resolve_left hx, fun hold => F.closed_shut f o hold⟩
    · have hold : F.unloads n (h, e0) =
          e0.targets.countP fun pt => decide (pt.2.dest = some n) && decide (F.lost h pt.1) :=
        List.countP_congr fun pt _ => by
          rw [decide_eq_true_eq, Bool.and_eq_true, decide_eq_true_eq, decide_eq_true_eq]
          exact and_congr_right fun _ => or_iff_left fun hclosed => hclosed hclose
      have hnew : (F.shut h f o).unloads n (h, e0) = e0.targets.countP fun pt => decide (pt.2.dest = some n) :=
        List.countP_congr fun pt _ => by
          rw [decide_eq_true_eq, decide_eq_true_eq]
          exact and_iff_left (.inr (F.shut_closed h f o))
      rw [hold, hnew, hleft, ← countP_split]
  · exact k.profile_after hs he hprofilef hothers hdone hstays
  · rw [State.countP_entries (f := fun he => decide (F.close he.1 ≠ none ∧ he.2.plan.bind Plan.bank = some b)) k.rising_start hs
      (fun x hx => ?_) (by simp [hclose]), hbanks, k.banks, hplan]
    · have hcl := F.shut_closed h f o
      by_cases hb : e0.plan.bind Plan.bank = some b
      · simp [hb, hcl, Nat.sub_sub]
      · simp [hb]
    · rw [decide_eq_decide]
      exact and_congr_left fun _ => ⟨fun hclosed => (F.shut_cases hclosed).resolve_left hx, fun hold => F.closed_shut f o hold⟩
  · have hends : (∃ j, s.park = some j ∧ (F.shut h f o).close j ≠ none) ↔
        s.park = some h ∨ ∃ j, s.park = some j ∧ F.close j ≠ none := by
      constructor
      · rintro ⟨j, hj, hclosed⟩
        rcases F.shut_cases hclosed with rfl | hold
        · exact .inl hj
        · exact .inr ⟨j, hj, hold⟩
      · rintro (hp | ⟨j, hj, hold⟩)
        · exact ⟨h, hp, F.shut_closed h f o⟩
        · exact ⟨j, hj, F.closed_shut f o hold⟩
    rw [hpark, k.park]
    by_cases hold : ∃ j, s.park = some j ∧ F.close j ≠ none
    · rw [if_pos hold, if_pos (hends.mpr (.inr hold))]
      rfl
    · rw [if_neg hold]
      by_cases hp : s.park = some h
      · rw [if_pos hp, if_pos (hends.mpr (.inl hp))]
      · rw [if_neg hp, if_neg fun hend => (hends.mp hend).elim hp hold]
  · rw [State.countP_entries (f := fun he => decide ((F.close he.1).map EntryOutcome.counter = some i)) k.rising_start hs
      (fun x hx => ?_) (by simp [hclose]), hcounters]
    · have hself : (F.shut h f o).close h = some o := if_pos rfl
      have hset : (u.counters.set o.counter (u.counters[o.counter] + 1))[i] =
          if o.counter = i then u.counters[o.counter] + 1 else u.counters[i] := by
        simp only [Fin.getElem_fin, Vector.getElem_set, Fin.ext_iff]
      rw [hset]
      by_cases hi : o.counter = i
      · simp [hself, hi, k.counters, BitVec.ofNat_add, BitVec.add_assoc]
      · simp [hself, hi, k.counters]
    · have hsame : (F.shut h f o).close x.1 = F.close x.1 := if_neg hx
      rw [hsame]

end

end Sys2Proof.Machine
end

section
/-! PROOFS. What a port reset makes of one entry, phase by phase (O24). -/

namespace Sys2Proof.Machine

open Sys2Proof.Config

/-! ### An entry in a port reset (R168 steps 2 to 4) -/

section

variable (s : State) (p : PortId) (h : Handle) (e : Entry)

/-- R151: the entry without the destinations routed through the port. -/
def Entry.clearedBy : Entry := { e with members := e.members.map (Member.unboundFrom s p) }

open Classical in
/-- R168 step 2: the entry after the trigger that it gathers through the port. -/
noncomputable def Entry.heardBy : Entry := if e.gathersThrough s p then e.triggered (s.park == some h) else e

open Classical in
/-- R168 steps 2 and 3: the entry after both triggers. -/
noncomputable def Entry.movedBy : Entry :=
  if e.gathersThrough s p ∨ ∃ pos, e.boundThrough s p pos then (e.clearedBy s p).triggered (s.park == some h)
  else e.clearedBy s p

open Classical in
/-- R168 step 3: the entry after the losses of destinations, CLOSED where its last work has gone. -/
noncomputable def Entry.unboundBy : Entry :=
  if drainedByReset s p h e then (e.clearedBy s p).closedWith s h (.failed .cancelled) else e.movedBy s p h

open Classical in
/-- R65 step 1: the entry after the port has left its submitters. -/
noncomputable def Entry.leftBy : Entry :=
  if e.state = .closed then e.clearedBy s p
  else if drainedByReset s p h e then (e.clearedBy s p).closedWith s h (.failed .cancelled)
  else if e.orphanedBy p then
    { e.clearedBy s p with submitters := PortSet.remove e.submitters p }.closedWith s h (.failed .orphaned)
  else { e.movedBy s p h with submitters := PortSet.remove e.submitters p }

open Classical in
/-- R59: the outcome with which the entry closes in step 3, if it does. -/
noncomputable def Entry.drainClose : Option EntryOutcome :=
  if drainedByReset s p h e then some (.failed .cancelled) else none

open Classical in
/-- R59, R65: the outcome with which the reset closes the entry, if it does. -/
noncomputable def Entry.resetClose : Option EntryOutcome :=
  if drainedByReset s p h e then some (.failed .cancelled)
  else if e.state ≠ .closed ∧ e.orphanedBy p then some (.failed .orphaned)
  else none

theorem Entry.afterReset_eq : e.afterReset s p h = Entry.forgottenBy p (e.leftBy s p h) := rfl

theorem Entry.resetClose_iff : e.resetClose s p h ≠ none ↔ closedByReset s p h e := by
  unfold Entry.resetClose closedByReset
  by_cases hd : drainedByReset s p h e
  · have hc : e.state ≠ .closed := by rw [hd.1]; decide
    simp [hd, hc]
  · by_cases ho : e.state ≠ .closed ∧ e.orphanedBy p
    · simp [hd, ho]
    · simp only [hd, ho, if_false, ne_eq, not_true_eq_false, false_or]

end

section

variable {s u v : State} {p : PortId} {h : Handle} {e f : Entry} {o : EntryOutcome}

/-! ### Triggers twice, triggers before a close -/

theorem Entry.triggered_triggered (b : Bool) (e : Entry) : (e.triggered b).triggered b = e.triggered b := by
  unfold Entry.triggered
  cases b <;> cases hs : e.state <;> simp [hs]

theorem Entry.triggered_members (b : Bool) (e : Entry) (l : List Member) :
    ({ e with members := l } : Entry).triggered b = { e.triggered b with members := l } := by
  unfold Entry.triggered
  cases b <;> cases hs : e.state <;> simp [← hs]

/-- A trigger changes neither what a close keeps nor what the other steps look at. -/
theorem Entry.triggered_keeps (b : Bool) (e : Entry) : e.triggered b =
    { e with state := (e.triggered b).state, wait := (e.triggered b).wait, replan := (e.triggered b).replan } := by
  unfold Entry.triggered
  cases b <;> cases hs : e.state <;> simp [← hs]

theorem Entry.triggered_draining (b : Bool) (e : Entry) : (e.triggered b).state = .draining ↔ e.state = .draining := by
  unfold Entry.triggered
  cases b <;> cases hs : e.state <;> simp [hs]

theorem Entry.triggered_closed (b : Bool) (e : Entry) : (e.triggered b).state = .closed ↔ e.state = .closed := by
  unfold Entry.triggered
  cases b <;> cases hs : e.state <;> simp [hs]

theorem Entry.triggered_of_closed (b : Bool) (hc : e.state = .closed) : e.triggered b = e := by
  unfold Entry.triggered
  rw [hc]

/-- The voids that a close records look at the deliveries' outputs and at the nodes' routes. -/
theorem Entry.closedWith_congr (hd : u.deliveries.map Delivery.output = s.deliveries.map Delivery.output)
    (hroute : ∀ n, (u.node n).route = (s.node n).route) (e : Entry) (o : EntryOutcome) :
    e.closedWith u h o = e.closedWith s h o := by
  have hany : ∀ (x : State) (P : Output → Prop), (∃ d ∈ x.deliveries, P d.output) ↔ ∃ y ∈ x.deliveries.map Delivery.output, P y :=
    fun x P => by simp
  have howed : ∀ pos n t, voidOwed u h pos n t ↔ voidOwed s h pos n t := fun pos n t => by
    refine or_congr_right ?_
    rw [hany u fun y => y.handle = h ∧ y.position = pos ∧ y.dest = n, hany s fun y => y.handle = h ∧ y.position = pos ∧ y.dest = n, hd]
  have hvoids : ∀ pos n t, voidsAfter u h pos n t = voidsAfter s h pos n t := fun pos n t => by
    simp only [voidsAfter, hroute, howed]
  have hmember : ∀ pos m, Member.closedIn u h pos m = Member.closedIn s h pos m := fun pos m => by
    simp only [Member.closedIn, hvoids]
  have hmembers : Member.closedIn u h = Member.closedIn s h := funext fun pos => funext fun m => hmember pos m
  rw [Entry.closedWith, Entry.closedWith, hmembers]

/-! ### The entry's fields through the phases -/

theorem Entry.heardBy_keeps (s : State) (p : PortId) (h : Handle) (e : Entry) : e.heardBy s p h =
    { e with state := (e.heardBy s p h).state, wait := (e.heardBy s p h).wait, replan := (e.heardBy s p h).replan } := by
  unfold Entry.heardBy
  split
  · exact e.triggered_keeps _
  · rfl

theorem Entry.movedBy_keeps (s : State) (p : PortId) (h : Handle) (e : Entry) : e.movedBy s p h =
    { e.clearedBy s p with
      state := (e.movedBy s p h).state, wait := (e.movedBy s p h).wait, replan := (e.movedBy s p h).replan } := by
  unfold Entry.movedBy
  split
  · exact (e.clearedBy s p).triggered_keeps _
  · rfl

theorem Entry.movedBy_draining : (e.movedBy s p h).state = .draining ↔ e.state = .draining := by
  unfold Entry.movedBy
  split
  · exact (e.clearedBy s p).triggered_draining _
  · exact Iff.rfl

/-- A close of the entry leaves nothing of the triggers. -/
theorem Entry.closedWith_movedBy (o : EntryOutcome) :
    (e.movedBy s p h).closedWith s h o = (e.clearedBy s p).closedWith s h o := by
  rw [e.movedBy_keeps]
  rfl

theorem Entry.closedWith_movedBy_left (left : PortSet) (o : EntryOutcome) :
    ({ e.movedBy s p h with submitters := left } : Entry).closedWith s h o =
      ({ e.clearedBy s p with submitters := left } : Entry).closedWith s h o := by
  rw [e.movedBy_keeps]
  rfl

theorem Entry.movedBy_closed : (e.movedBy s p h).state = .closed ↔ e.state = .closed := by
  unfold Entry.movedBy
  split
  · exact (e.clearedBy s p).triggered_closed _
  · exact Iff.rfl

/-- What both triggers and the losses between them come to. -/
theorem Entry.heardBy_then_unbound (hbound : ∃ pos, e.boundThrough s p pos) :
    ({ e.heardBy s p h with members := e.members.map (Member.unboundFrom s p) } : Entry).triggered (s.park == some h) =
      e.movedBy s p h := by
  rw [Entry.movedBy, if_pos (.inr hbound)]
  unfold Entry.heardBy
  split
  · rw [Entry.triggered_members, Entry.triggered_triggered, ← Entry.triggered_members]
    rfl
  · rfl

/-- An entry that is bound through the port nowhere loses nothing. -/
theorem Entry.clearedBy_unbound (hnone : ∀ pos, ¬e.boundThrough s p pos) : e.clearedBy s p = e := by
  have hempty : s.boundVia p e = [] := List.eq_nil_iff_forall_not_mem.mpr fun pos hpos =>
    hnone pos ((s.mem_boundVia p e pos).mp hpos)
  have hmembers : (e.members.mapIdx fun i m => if i ∈ ([] : List Position) then m.unboundFrom s p else m) = e.members :=
    List.ext_getElem (by simp) fun i _ _ => by simp
  rw [Entry.clearedBy, ← Entry.unboundAt_boundVia, hempty, Entry.unboundAt, hmembers]

theorem Entry.movedBy_unbound (hnone : ∀ pos, ¬e.boundThrough s p pos) : e.movedBy s p h = e.heardBy s p h := by
  rw [Entry.movedBy, Entry.heardBy, Entry.clearedBy_unbound hnone]
  by_cases hgathers : e.gathersThrough s p
  · rw [if_pos (.inl hgathers), if_pos hgathers]
  · rw [if_neg fun hor => hor.elim hgathers fun ⟨pos, hpos⟩ => hnone pos hpos, if_neg hgathers]

open Classical in
/-- R35: the targets that the cleared entry has left. -/
theorem Entry.countP_clearedBy (s : State) (p : PortId) (e : Entry) (n : NodeId) :
    ((e.clearedBy s p).targets.countP fun pt => decide (pt.2.dest = some n)) =
      e.targets.countP fun pt => decide (pt.2.dest = some n) && decide ¬e.boundThrough s p pt.1 := by
  have hdest : ∀ j, ((e.clearedBy s p).target? j).bind Target.dest = some n ↔
      (e.target? j).bind Target.dest = some n ∧ ¬e.boundThrough s p j := fun j => by
    have hmember : (e.clearedBy s p).members[j]? = e.members[j]?.map (Member.unboundFrom s p) := List.getElem?_map
    unfold Entry.boundThrough Entry.target?
    rw [hmember]
    cases e.members[j]? with
    | none => simp
    | some m =>
      obtain ⟨node, state, cause, strikes, target⟩ := m
      cases target with
      | none => simp [Member.unboundFrom]
      | some t =>
        by_cases hstored : t.stored = true
        · cases hd : t.dest <;> simp [Member.unboundFrom, hd, hstored]
        · cases hd : t.dest with
          | none => simp [Member.unboundFrom, hd, hstored]
          | some k =>
            by_cases hroute : (s.node k).route = some p
            · simp [Member.unboundFrom, hd, hstored, hroute]
            · simp [Member.unboundFrom, hd, hstored, hroute]
  have hlength : (e.clearedBy s p).members.length = e.members.length := List.length_map ..
  rw [Entry.countP_targets, hlength, e.targets_eq, List.countP_filterMap]
  refine List.countP_congr fun j _ => ?_
  rw [decide_eq_true_eq, hdest]
  cases e.target? j <;> simp

end

end Sys2Proof.Machine
end

section
/-! PROOFS. The phases of a port reset over the table: triggers, losses, submitters, the port's items (O24). -/

namespace Sys2Proof.Machine

open Sys2Proof.Config

/-! ### One entry's fate, and a phase over many entries -/

/-- What a port reset has made of one entry so far. -/
structure Fate where
  cur : Option Entry
  lost : Position → Prop
  close : Option EntryOutcome
  forgot : Prop

def Fates.fate (F : Fates) (h : Handle) : Fate := ⟨F.cur h, F.lost h, F.close h, F.forgot h⟩

section

variable {F : Fates} {h j : Handle} {e : Entry} {o : EntryOutcome} {bound : Position → Prop}

theorem Fates.fate_write : (F.write h e).fate h = ⟨some e, F.lost h, F.close h, F.forgot h⟩ := by
  simp [Fates.fate, Fates.write]

theorem Fates.fate_write_other (hj : j ≠ h) : (F.write h e).fate j = F.fate j := by simp [Fates.fate, Fates.write, hj]

theorem Fates.fate_unbind (hnone : F.lost h = fun _ => False) :
    (F.unbind h e bound).fate h = ⟨some e, bound, F.close h, F.forgot h⟩ := by
  simp [Fates.fate, Fates.unbind, Fates.write, hnone]

theorem Fates.fate_unbind_other (hj : j ≠ h) : (F.unbind h e bound).fate j = F.fate j := by
  simp [Fates.fate, Fates.unbind, Fates.write, hj]

theorem Fates.fate_shut : (F.shut h e o).fate h = ⟨some e, F.lost h, some o, F.forgot h⟩ := by
  simp [Fates.fate, Fates.shut, Fates.write]

theorem Fates.fate_shut_other (hj : j ≠ h) : (F.shut h e o).fate j = F.fate j := by
  simp [Fates.fate, Fates.shut, Fates.write, hj]

theorem Fates.fate_forget : (F.forget h).fate h = ⟨F.cur h, F.lost h, F.close h, True⟩ := by simp [Fates.fate, Fates.forget]

theorem Fates.fate_forget_other (hj : j ≠ h) : (F.forget h).fate j = F.fate j := by simp [Fates.fate, Fates.forget, hj]

theorem Fates.write_self (he : F.cur h = some e) : F.write h e = F := by
  have hcur : (fun j => if j = h then some e else F.cur j) = F.cur := funext fun j => by
    split
    · next hj => rw [hj, he]
    · rfl
  rw [Fates.write, hcur]

end

/-- One entry's turn in a phase: its fate becomes one that `B` allows, and no other entry is touched. -/
def takesTurn (P : State → Fates → Prop) (B : Fate → Prop) (u v : State) (F : Fates) (h : Handle) : Prop :=
  ∃ F', P v F' ∧ B (F'.fate h) ∧ (∀ j, j ≠ h → F'.fate j = F.fate j) ∧ onlyEntry u v h

theorem takesTurn.trans {P : State → Fates → Prop} {B C : Fate → Prop} {u v w : State} {F : Fates} {h : Handle}
    (k : takesTurn P B u v F h) (l : ∀ F', P v F' → B (F'.fate h) → takesTurn P C v w F' h) : takesTurn P C u w F h := by
  obtain ⟨F1, hP, hB, hothers, hentries⟩ := k
  obtain ⟨F2, hP2, hC, hothers2, hentries2⟩ := l F1 hP hB
  exact ⟨F2, hP2, hC, fun j hj => (hothers2 j hj).trans (hothers j hj), fun j hj => (hentries2 j hj).trans (hentries j hj)⟩

theorem foldl_takesTurn {P : State → Fates → Prop} {g : State → Handle → State} {A B : Handle → Fate → Prop}
    (hturn : ∀ u F h, P u F → A h (F.fate h) → u.entry? h ≠ none → takesTurn P (B h) u (g u h) F h) {l : List Handle}
    (hnodup : l.Nodup) {u : State} {F : Fates} (hP : P u F) (hA : ∀ h ∈ l, A h (F.fate h) ∧ u.entry? h ≠ none) :
    ∃ F', P (l.foldl g u) F' ∧ (∀ h ∈ l, B h (F'.fate h))
      ∧ ∀ h, h ∉ l → F'.fate h = F.fate h ∧ (l.foldl g u).entry? h = u.entry? h := by
  induction l generalizing u F with
  | nil => exact ⟨F, hP, fun _ hh => absurd hh List.not_mem_nil, fun _ _ => ⟨rfl, rfl⟩⟩
  | cons a l ih =>
    obtain ⟨hal, hnodup⟩ := List.nodup_cons.mp hnodup
    obtain ⟨hAa, hpresent⟩ := hA a List.mem_cons_self
    obtain ⟨F1, hP1, hB1, hothers, hentries⟩ := hturn u F a hP hAa hpresent
    have hA1 : ∀ h ∈ l, A h (F1.fate h) ∧ (g u a).entry? h ≠ none := fun h hh => by
      have hne : h ≠ a := fun heq => hal (heq ▸ hh)
      rw [hothers h hne, hentries h hne]
      exact hA h (List.mem_cons_of_mem a hh)
    obtain ⟨F2, hP2, hB2, hrest⟩ := ih hnodup hP1 hA1
    refine ⟨F2, hP2, fun h hh => ?_, fun h hh => ?_⟩
    · rcases List.mem_cons.mp hh with rfl | hh
      · rw [(hrest h hal).1]
        exact hB1
      · exact hB2 h hh
    · have hne : h ≠ a := fun heq => hh (heq ▸ List.mem_cons_self)
      have hnot : h ∉ l := fun hmem => hh (List.mem_cons_of_mem a hmem)
      rw [List.foldl_cons, (hrest h hnot).1, (hrest h hnot).2]
      exact ⟨hothers h hne, hentries h hne⟩

theorem State.nodup_handles {u : State} (hr : u.rising) : u.handles.Nodup :=
  List.pairwise_map.mpr (hr.imp fun hlt => Nat.ne_of_lt hlt)

theorem State.mem_handles {u : State} (hr : u.rising) (h : Handle) : h ∈ u.handles ↔ u.entry? h ≠ none := by
  rw [State.handles, List.mem_map, Option.ne_none_iff_exists']
  constructor
  · rintro ⟨x, hx, rfl⟩
    exact ⟨x.2, State.entry_of_mem hr hx⟩
  · rintro ⟨e, he⟩
    exact ⟨(h, e), (State.mem_entries_iff hr h e).mpr he, rfl⟩

/-! ### The fates after each phase -/

section

variable (s : State) (p : PortId) (h : Handle) (x : Fate)

/-- Before the reset. -/
def Fate.untouched : Prop := ∃ e, s.entry? h = some e ∧ x = ⟨some e, fun _ => False, none, False⟩

/-- R168 step 2. -/
def Fate.heard : Prop := ∃ e, s.entry? h = some e ∧ x = ⟨some (e.heardBy s p h), fun _ => False, none, False⟩

/-- R168 step 3. -/
def Fate.unbound : Prop :=
  ∃ e, s.entry? h = some e ∧ x = ⟨some (e.unboundBy s p h), e.boundThrough s p, e.drainClose s p h, False⟩

/-- R65 step 1. -/
def Fate.left : Prop :=
  ∃ e, s.entry? h = some e ∧ x = ⟨some (e.leftBy s p h), e.boundThrough s p, e.resetClose s p h, False⟩

/-- R65 steps 2 to 4. -/
def Fate.done : Prop :=
  ∃ e, s.entry? h = some e ∧ x = ⟨some (e.afterReset s p h), e.boundThrough s p, e.resetClose s p h, True⟩

end

/-- The reset is under way and no entry is done with. -/
def openReset (s : State) (p : PortId) (u : State) (F : Fates) : Prop := Underway s u p F ∧ ∀ j, ¬F.forgot j

section

variable {s u v : State} {p : PortId} {F : Fates} {h : Handle} {e e0 f : Entry}

theorem Underway.present (k : Underway s u p F) (hpresent : u.entry? h ≠ none) : u.entry? h = F.cur h :=
  (k.entries h).resolve_right fun hgone => hpresent hgone.1

theorem Underway.parked (k : Underway s u p F) (hclose : F.close h = none) : (u.park == some h) = (s.park == some h) := by
  rw [k.park]
  split
  · next hended =>
    obtain ⟨j, hj, hclosed⟩ := hended
    have hne : j ≠ h := fun heq => hclosed (heq ▸ hclose)
    simp [hj, hne]
  · rfl

/-! ### The triggers (R55, R168 step 2) -/

theorem State.trigger_eq (he : u.entry? h = some e) : u.trigger h = u ∧ e.triggered (u.park == some h) = e
    ∨ u.trigger h = (u.setEntry h (e.triggered (u.park == some h))).causeAttempt := by
  have hworks : (e.state = .planning ∨ e.state = .active) → u.trigger h = u ∧ e.triggered (u.park == some h) = e
      ∨ u.trigger h = (u.setEntry h (e.triggered (u.park == some h))).causeAttempt := fun hs => by
    by_cases hp : u.park = some h
    · refine .inl ?_
      rcases hs with hs | hs <;> simp [State.trigger, Entry.triggered, he, hs, hp]
    · have hb : (u.park == some h) = false := by simpa using hp
      refine .inr ?_
      rcases hs with hs | hs <;> simp [State.trigger, Entry.triggered, he, hs, hp, hb]
  cases hs : e.state with
  | queued => exact .inl (by simp [State.trigger, Entry.triggered, he, hs])
  | planning => exact hworks (.inl hs)
  | active => exact hworks (.inr hs)
  | draining => exact .inl (by simp [State.trigger, Entry.triggered, he, hs])
  | settling => exact .inr (by simp only [State.trigger, Entry.triggered, he, hs, State.enterQueued, State.modEntry_eq he])
  | closed => exact .inl (by simp [State.trigger, Entry.triggered, he, hs])

theorem Underway.triggers (k : Underway s u p F) (he : u.entry? h = some e) (hcur : F.cur h = some e)
    (hclose : F.close h = none) (hopen : ¬F.forgot h) (hpresent : s.entry? h ≠ none) :
    Underway s (u.trigger h) p (F.write h (e.triggered (s.park == some h))) := by
  rw [← k.parked hclose]
  rcases State.trigger_eq he with ⟨hsame, hentry⟩ | hset
  · rw [hsame, hentry, Fates.write_self hcur]
    exact k
  · rw [hset]
    refine k.rewrites he ?_ hopen hpresent rfl
    rw [e.triggered_keeps]
    exact ⟨rfl, rfl, rfl⟩

theorem State.gathersVia_iff (hroute : ∀ n, (u.node n).route = (s.node n).route) (p : PortId) (e : Entry) :
    u.gathersVia p e = true ↔ e.gathersThrough s p := by
  unfold State.gathersVia Entry.gathersThrough
  cases hp : e.plan with
  | none => simp
  | some pl =>
    simp only [List.any_eq_true, Bool.and_eq_true, Plan.gathers_iff, beq_iff_eq, hroute, Option.some.injEq]
    constructor
    · rintro ⟨⟨m, pos⟩, hmem, hgathers, hm⟩
      exact ⟨pl, pos, m, rfl, List.mem_zipIdx_iff_getElem?.mp hmem, hm, hgathers⟩
    · rintro ⟨q, pos, m, rfl, hmem, hm, hgathers⟩
      exact ⟨(m, pos), List.mem_zipIdx_iff_getElem?.mpr hmem, hgathers, hm⟩

theorem openReset.hears (k : openReset s p u F) (hfate : Fate.untouched s h (F.fate h)) (hpresent : u.entry? h ≠ none) :
    takesTurn (openReset s p) (Fate.heard s p h) u (u.triggerVia p h) F h := by
  obtain ⟨k, hopen⟩ := k
  obtain ⟨e, hs, hx⟩ := hfate
  have hcur : F.cur h = some e := congrArg Fate.cur hx
  have hlost : F.lost h = fun _ => False := congrArg Fate.lost hx
  have hclose : F.close h = none := congrArg Fate.close hx
  have hforgot : F.forgot h = False := congrArg Fate.forgot hx
  have he : u.entry? h = some e := (k.present hpresent).trans hcur
  by_cases hgathers : e.gathersThrough s p
  · have hvia : u.triggerVia p h = u.trigger h := by
      simp only [State.triggerVia, he, (State.gathersVia_iff k.route p e).mpr hgathers, if_true]
    rw [hvia]
    refine ⟨F.write h (e.heardBy s p h), ⟨?_, hopen⟩, ⟨e, hs, ?_⟩, fun j hj => Fates.fate_write_other hj,
      (State.trigger_spec he).others⟩
    · rw [Entry.heardBy, if_pos hgathers]
      exact k.triggers he hcur hclose (hopen h) (by simp [hs])
    · rw [Fates.fate_write, hlost, hclose, hforgot]
  · have hvia : u.triggerVia p h = u := by
      have hno : ¬u.gathersVia p e = true := fun hyes => hgathers ((State.gathersVia_iff k.route p e).mp hyes)
      simp only [State.triggerVia, he, hno, Bool.false_eq_true, if_false]
    rw [hvia]
    refine ⟨F, ⟨k, hopen⟩, ⟨e, hs, ?_⟩, fun _ _ => rfl, fun _ _ => rfl⟩
    rw [hx, Entry.heardBy, if_neg hgathers]

end

end Sys2Proof.Machine
end

section
/-! PROOFS. The losses of destinations, the port's leaving of the submitters and the dropping of its items, entry by entry
(O24). -/

namespace Sys2Proof.Machine

open Sys2Proof.Config

section

variable {s u v : State} {p : PortId} {F : Fates} {h : Handle} {e f : Entry} {o : EntryOutcome}

theorem Underway.delivery_outputs (k : Underway s u p F) :
    u.deliveries.map Delivery.output = s.deliveries.map Delivery.output := by
  rw [k.deliveries, List.map_map]
  refine List.map_congr_left fun d _ => ?_
  rw [Function.comp_apply]
  split <;> rfl

theorem Underway.closedWith (k : Underway s u p F) (e : Entry) (o : EntryOutcome) : e.closedWith u h o = e.closedWith s h o :=
  Entry.closedWith_congr k.delivery_outputs k.route e o

/-! ### The losses (R151, R59, R168 step 3) -/

/-- R59: what is still under way of an entry that has lost the destinations routed through the port. -/
theorem Underway.busyWith (k : Underway s u p F) (hlost : F.lost h = e.boundThrough s p) (hclose : F.close h = none) :
    ¬u.busyWith h ↔ (∀ l x, s.lane l = some x → x.handle ≠ h)
      ∧ (∀ q, ∀ y ∈ (s.port q).outputs, y.handle = h → e.boundThrough s p y.position)
      ∧ ∀ d ∈ s.deliveries, d.output.handle ≠ h := by
  have hlanes : (∃ x, some x ∈ u.lanes.toList ∧ x.handle = h) ↔ ∃ l x, s.lane l = some x ∧ x.handle = h := by
    rw [k.freeing.lanes]
    constructor
    · rintro ⟨x, hx, hh⟩
      obtain ⟨i, hi, hix⟩ := Vector.mem_iff_getElem.mp (Vector.mem_toList_iff.mp hx)
      exact ⟨⟨i, hi⟩, x, hix, hh⟩
    · rintro ⟨l, x, hx, hh⟩
      exact ⟨x, Vector.mem_toList_iff.mpr (Vector.mem_iff_getElem.mpr ⟨l, l.isLt, hx⟩), hh⟩
  have houtputs : (∃ q, ∃ y ∈ (u.port q).outputs, y.handle = h) ↔
      ∃ q, ∃ y ∈ (s.port q).outputs, y.handle = h ∧ ¬e.boundThrough s p y.position := by
    have hfrees : ∀ y : Output, y.handle = h → (F.frees y ↔ e.boundThrough s p y.position) := fun y hy => by
      unfold Fates.frees
      rw [hy, hlost, hclose]
      exact or_iff_left fun hne => hne rfl
    simp only [k.outputs, List.mem_filter, decide_eq_true_eq]
    exact exists_congr fun q => exists_congr fun y =>
      ⟨fun ⟨⟨hy, hkept⟩, hh⟩ => ⟨hy, hh, fun hb => hkept ((hfrees y hh).mpr hb)⟩,
        fun ⟨hy, hh, hb⟩ => ⟨⟨hy, fun hfreed => hb ((hfrees y hh).mp hfreed)⟩, hh⟩⟩
  have hdeliveries : (∃ d ∈ u.deliveries, d.output.handle = h) ↔ ∃ d ∈ s.deliveries, d.output.handle = h := by
    have hany : ∀ x : State, (∃ d ∈ x.deliveries, d.output.handle = h) ↔
        ∃ y ∈ x.deliveries.map Delivery.output, y.handle = h := fun x => by simp
    rw [hany, hany, k.delivery_outputs]
  rw [State.busyWith, hlanes, houtputs, hdeliveries]
  push Not
  exact Iff.rfl

/-- R151, R55: an entry with destinations routed through the port loses them, and takes a trigger. -/
theorem openReset.loses (k : openReset s p u F) (hs : s.entry? h = some e)
    (hx : F.fate h = ⟨some (e.heardBy s p h), fun _ => False, none, False⟩) (hpresent : u.entry? h ≠ none)
    (hbound : ∃ pos, e.boundThrough s p pos) :
    takesTurn (openReset s p) (fun x => x = ⟨some (e.movedBy s p h), e.boundThrough s p, none, False⟩) u
      (((u.boundVia p (e.heardBy s p h)).foldl (fun x j => x.dropDestination false h j) u).trigger h) F h := by
  obtain ⟨k, hopen⟩ := k
  have hcur : F.cur h = some (e.heardBy s p h) := congrArg Fate.cur hx
  have hlost : F.lost h = fun _ => False := congrArg Fate.lost hx
  have hclose : F.close h = none := congrArg Fate.close hx
  have hforgot : F.forgot h = False := congrArg Fate.forgot hx
  have he : u.entry? h = some (e.heardBy s p h) := (k.present hpresent).trans hcur
  have hmembers : (e.heardBy s p h).members = e.members := by rw [e.heardBy_keeps]
  have hw := State.unbinds he p
  have k1 := k.unbinds hw (.foldl (fun x j => .dropDestination x false h j) _ u) hs he hmembers
    (fun pos => by rw [hlost]; exact id) hclose hopen
  have hwentry := hw.entry
  have hunbound : Member.unboundFrom u p = Member.unboundFrom s p := funext fun m => by
    simp only [Member.unboundFrom, k.route]
  rw [Entry.unboundAt_boundVia, hunbound, hmembers] at k1
  simp only [Entry.unboundAt_boundVia, hunbound, hmembers] at hwentry
  generalize (u.boundVia p (e.heardBy s p h)).foldl (fun x j => x.dropDestination false h j) u = w at k1 hwentry ⊢
  have hmoved := Entry.heardBy_then_unbound (h := h) hbound
  generalize ({ e.heardBy s p h with members := e.members.map (Member.unboundFrom s p) } : Entry) = f at k1 hwentry hmoved
  have hf : w.entry? h = some f := (hwentry h).trans (if_pos rfl)
  have k2 := k1.triggers hf (if_pos rfl) hclose (hopen h) (by simp [hs])
  rw [hmoved] at k2
  have hfate := Fates.fate_unbind (e := f) (bound := e.boundThrough s p) hlost
  refine ⟨_, ⟨k2, hopen⟩, ?_, fun j hj => (Fates.fate_write_other hj).trans (Fates.fate_unbind_other hj), fun j hj =>
    ((State.trigger_spec hf).others j hj).trans ((hwentry j).trans (if_neg hj))⟩
  have hlost1 : (F.unbind h f (e.boundThrough s p)).lost h = e.boundThrough s p := congrArg Fate.lost hfate
  have hclose1 : (F.unbind h f (e.boundThrough s p)).close h = none := hclose
  have hforgot1 : (F.unbind h f (e.boundThrough s p)).forgot h = False := hforgot
  rw [Fates.fate_write, hlost1, hclose1, hforgot1]

/-- R59: an entry that has lost its destinations closes where it drains and nothing of it is under way. -/
theorem openReset.drains (k : openReset s p u F) (hs : s.entry? h = some e)
    (hx : F.fate h = ⟨some (e.movedBy s p h), e.boundThrough s p, none, False⟩) (hbound : ∃ pos, e.boundThrough s p pos) :
    takesTurn (openReset s p) (Fate.unbound s p h) u (u.closeIfDrained h) F h := by
  obtain ⟨k, hopen⟩ := k
  have hcur : F.cur h = some (e.movedBy s p h) := congrArg Fate.cur hx
  have hlost : F.lost h = e.boundThrough s p := congrArg Fate.lost hx
  have hclose : F.close h = none := congrArg Fate.close hx
  have hforgot : F.forgot h = False := congrArg Fate.forgot hx
  have he : u.entry? h = some (e.movedBy s p h) := by
    rcases k.entries h with hsame | ⟨-, -, -, hclosed | hdone, -⟩
    · rw [hsame, hcur]
    · exact absurd hclose hclosed
    · exact absurd hdone (hopen h)
  have hdrained : drainedByReset s p h e ↔ (e.movedBy s p h).state = .draining ∧ ¬u.busyWith h := by
    rw [k.busyWith hlost hclose, Entry.movedBy_draining]
    exact ⟨fun ⟨hst, _, hrest⟩ => ⟨hst, hrest⟩, fun ⟨hst, hrest⟩ => ⟨hst, hbound, hrest⟩⟩
  by_cases hd : drainedByReset s p h e
  · obtain ⟨hst, hidle⟩ := hdrained.mp hd
    have hc : (e.movedBy s p h).state ≠ .closed := by rw [hst]; decide
    rw [State.closeIfDrained_idle he hst hidle]
    have k1 := k.closes hs he hc (by rw [e.movedBy_keeps]; rfl) (by rw [e.movedBy_keeps]; rfl)
      (fun n => by
        rw [Entry.targets_congr (e0 := e.clearedBy s p) (by rw [e.movedBy_keeps]), hlost]
        exact e.countP_clearedBy s p n) hclose hopen (.failed .cancelled)
    rw [k.closedWith, Entry.closedWith_movedBy] at k1
    refine ⟨_, ⟨k1, hopen⟩, ⟨e, hs, ?_⟩, fun j hj => Fates.fate_shut_other hj,
      (State.closeEntry_shuts k.freeing.rising he hc _).others⟩
    rw [Fates.fate_shut, hlost, hforgot, Entry.unboundBy, if_pos hd, Entry.drainClose, if_pos hd]
  · have hstays : (e.movedBy s p h).state ≠ .draining ∨ u.busyWith h := by
      by_cases hst : (e.movedBy s p h).state = .draining
      · exact .inr (by_contra fun hidle => hd (hdrained.mpr ⟨hst, hidle⟩))
      · exact .inl hst
    rw [State.closeIfDrained_stays he hstays]
    refine ⟨F, ⟨k, hopen⟩, ⟨e, hs, ?_⟩, fun _ _ => rfl, fun _ _ => rfl⟩
    rw [hx, Entry.unboundBy, if_neg hd, Entry.drainClose, if_neg hd]

theorem openReset.unbinds (k : openReset s p u F) (hfate : Fate.heard s p h (F.fate h)) (hpresent : u.entry? h ≠ none) :
    takesTurn (openReset s p) (Fate.unbound s p h) u (u.unbindVia p h) F h := by
  obtain ⟨e, hs, hx⟩ := hfate
  have he : u.entry? h = some (e.heardBy s p h) := (k.1.present hpresent).trans (congrArg Fate.cur hx)
  have hmem : ∀ pos, pos ∈ u.boundVia p (e.heardBy s p h) ↔ e.boundThrough s p pos := fun pos =>
    (u.mem_boundVia p _ pos).trans (Entry.boundThrough_congr k.1.route (by rw [e.heardBy_keeps]) p pos)
  by_cases hbound : ∃ pos, e.boundThrough s p pos
  · have hsome : (u.boundVia p (e.heardBy s p h)).isEmpty = false := by
      obtain ⟨pos, hpos⟩ := hbound
      exact List.isEmpty_eq_false_iff.mpr (List.ne_nil_of_mem ((hmem pos).mpr hpos))
    simp only [State.unbindVia, he, hsome, Bool.false_eq_true, if_false]
    exact (k.loses hs hx hpresent hbound).trans fun F' k' hx' => k'.drains hs hx' hbound
  · have hnone : ∀ pos, ¬e.boundThrough s p pos := fun pos hpos => hbound ⟨pos, hpos⟩
    have hempty : (u.boundVia p (e.heardBy s p h)).isEmpty = true := by
      rw [List.isEmpty_iff, List.eq_nil_iff_forall_not_mem]
      exact fun pos hpos => hnone pos ((hmem pos).mp hpos)
    have hvia : u.unbindVia p h = u := by simp only [State.unbindVia, he, hempty, if_true]
    have hdrained : ¬drainedByReset s p h e := fun hd => hbound hd.2.1
    rw [hvia]
    refine ⟨F, k, ⟨e, hs, ?_⟩, fun _ _ => rfl, fun _ _ => rfl⟩
    rw [hx, Entry.unboundBy, if_neg hdrained, Entry.movedBy_unbound hnone, Entry.drainClose, if_neg hdrained]
    exact congrArg (Fate.mk _ · none False) (funext fun pos => (propext (iff_false_intro (hnone pos))).symm)

/-! ### The submitters (R65 step 1, R168 step 4) -/

theorem PortSet.remove_of_not_has {a : PortSet} {p : PortId} : PortSet.has a p = false → PortSet.remove a p = a := by
  revert a p
  decide

/-- R65: an entry that is not CLOSED loses the port as a submitter, and closes where it was the last. -/
theorem openReset.submitters (k : openReset s p u F) (hs : s.entry? h = some e) (hc : e.state ≠ .closed)
    (hdrained : ¬drainedByReset s p h e) (hin : PortSet.has e.submitters p = true)
    (hx : F.fate h = ⟨some (e.movedBy s p h), e.boundThrough s p, none, False⟩) (he : u.entry? h = some (e.movedBy s p h)) :
    takesTurn (openReset s p) (Fate.left s p h) u
      (if PortSet.remove e.submitters p = 0 then
        (u.setEntry h { e.movedBy s p h with submitters := PortSet.remove e.submitters p }).closeEntry h (.failed .orphaned)
      else u.setEntry h { e.movedBy s p h with submitters := PortSet.remove e.submitters p }) F h := by
  obtain ⟨k, hopen⟩ := k
  have hlost : F.lost h = e.boundThrough s p := congrArg Fate.lost hx
  have hclose : F.close h = none := congrArg Fate.close hx
  have hforgot : F.forgot h = False := congrArg Fate.forgot hx
  have hothers : onlyEntry u (u.setEntry h { e.movedBy s p h with submitters := PortSet.remove e.submitters p }) h :=
    fun j hj => (State.entry_setEntry ..).trans (if_neg hj)
  have k1 := k.rewrites (f := { e.movedBy s p h with submitters := PortSet.remove e.submitters p }) he ⟨rfl, rfl, rfl⟩ (hopen h)
    (by simp [hs]) (v := u.setEntry h { e.movedBy s p h with submitters := PortSet.remove e.submitters p }) rfl
  have he1 : (u.setEntry h { e.movedBy s p h with submitters := PortSet.remove e.submitters p }).entry? h =
      some { e.movedBy s p h with submitters := PortSet.remove e.submitters p } := (State.entry_setEntry ..).trans (if_pos rfl)
  generalize u.setEntry h { e.movedBy s p h with submitters := PortSet.remove e.submitters p } = v at hothers k1 he1 ⊢
  by_cases hlast : PortSet.remove e.submitters p = 0
  · have horphaned : e.orphanedBy p := ⟨hin, hlast⟩
    have hc1 : ({ e.movedBy s p h with submitters := PortSet.remove e.submitters p } : Entry).state ≠ .closed :=
      mt Entry.movedBy_closed.mp hc
    have k2 := k1.closes hs he1 hc1 (by rw [e.movedBy_keeps]; rfl) (by rw [e.movedBy_keeps]; rfl)
      (fun n => by
        rw [Entry.targets_congr (e0 := e.clearedBy s p) (by rw [e.movedBy_keeps])]
        have hsame : (F.write h { e.movedBy s p h with submitters := PortSet.remove e.submitters p }).lost h =
          e.boundThrough s p := hlost
        rw [hsame]
        exact e.countP_clearedBy s p n) hclose hopen (.failed .orphaned)
    rw [k1.closedWith] at k2
    rw [if_pos hlast]
    refine ⟨_, ⟨k2, hopen⟩, ⟨e, hs, ?_⟩, fun j hj => (Fates.fate_shut_other hj).trans (Fates.fate_write_other hj), fun j hj =>
      ((State.closeEntry_shuts k1.freeing.rising he1 hc1 _).others j hj).trans (hothers j hj)⟩
    rw [Fates.fate_shut, Entry.closedWith_movedBy_left, Entry.leftBy, if_neg hc, if_neg hdrained, if_pos horphaned,
      Entry.resetClose, if_neg hdrained, if_pos ⟨hc, horphaned⟩]
    exact congrArg₂ (Fate.mk _ · _ ·) hlost hforgot
  · have hkept : ¬e.orphanedBy p := fun ho => hlast ho.2
    rw [if_neg hlast]
    refine ⟨_, ⟨k1, hopen⟩, ⟨e, hs, ?_⟩, fun j hj => Fates.fate_write_other hj, hothers⟩
    rw [Fates.fate_write, hlost, hclose, hforgot, Entry.leftBy, if_neg hc, if_neg hdrained, if_neg hkept, Entry.resetClose,
      if_neg hdrained, if_neg fun hand => hkept hand.2]

theorem openReset.leaves (k : openReset s p u F) (hfate : Fate.unbound s p h (F.fate h)) (hpresent : u.entry? h ≠ none) :
    takesTurn (openReset s p) (Fate.left s p h) u (u.orphan p h) F h := by
  obtain ⟨e, hs, hx⟩ := hfate
  have he : u.entry? h = some (e.unboundBy s p h) := (k.1.present hpresent).trans (congrArg Fate.cur hx)
  have hstays : u.orphan p h = u → e.unboundBy s p h = e.leftBy s p h → e.drainClose s p h = e.resetClose s p h →
      takesTurn (openReset s p) (Fate.left s p h) u (u.orphan p h) F h := fun hsame hentry hcloses => by
    rw [hsame]
    exact ⟨F, k, ⟨e, hs, by rw [hx, hentry, hcloses]⟩, fun _ _ => rfl, fun _ _ => rfl⟩
  by_cases hd : drainedByReset s p h e
  · have hunbound : e.unboundBy s p h = (e.clearedBy s p).closedWith s h (.failed .cancelled) := if_pos hd
    have hc : e.state ≠ .closed := by rw [hd.1]; decide
    refine hstays ?_ ?_ ?_
    · have hclosed : (e.unboundBy s p h).state = .closed := by rw [hunbound]; rfl
      simp only [State.orphan, he, hclosed, true_or, if_true]
    · rw [hunbound, Entry.leftBy, if_neg hc, if_pos hd]
    · rw [Entry.drainClose, Entry.resetClose, if_pos hd, if_pos hd]
  · have hunbound : e.unboundBy s p h = e.movedBy s p h := if_neg hd
    have hdrainClose : e.drainClose s p h = none := if_neg hd
    by_cases hc : e.state = .closed
    · refine hstays ?_ ?_ ?_
      · have hclosed : (e.unboundBy s p h).state = .closed := by rw [hunbound, Entry.movedBy_closed, hc]
        simp only [State.orphan, he, hclosed, true_or, if_true]
      · rw [hunbound, Entry.leftBy, if_pos hc, Entry.movedBy]
        split
        · exact Entry.triggered_of_closed _ hc
        · rfl
      · rw [hdrainClose, Entry.resetClose, if_neg hd, if_neg fun hand => hand.1 hc]
    · have hsubmitters : (e.unboundBy s p h).submitters = e.submitters := by
        rw [hunbound, e.movedBy_keeps]
        rfl
      have hopen : ¬(e.unboundBy s p h).state = .closed := by rwa [hunbound, Entry.movedBy_closed]
      by_cases hin : PortSet.has e.submitters p = true
      · rw [hunbound] at he hsubmitters hopen
        rw [hunbound, hdrainClose] at hx
        have horphan : u.orphan p h = if PortSet.remove e.submitters p = 0 then
            (u.setEntry h { e.movedBy s p h with submitters := PortSet.remove e.submitters p }).closeEntry h (.failed .orphaned)
          else u.setEntry h { e.movedBy s p h with submitters := PortSet.remove e.submitters p } := by
          simp only [State.orphan, he, hsubmitters, hopen, hin, Bool.true_eq_false, or_self, if_false]
        rw [horphan]
        exact k.submitters hs hc hd hin hx he
      · have hout : PortSet.has e.submitters p = false := Bool.eq_false_iff.mpr hin
        refine hstays ?_ ?_ ?_
        · simp only [State.orphan, he, hsubmitters, hout, or_true, if_true]
        · rw [hunbound, Entry.leftBy, if_neg hc, if_neg hd, if_neg fun ho => hin ho.1, PortSet.remove_of_not_has hout]
          rw [hunbound, e.movedBy_keeps] at hsubmitters
          rw [e.movedBy_keeps]
          rfl
        · rw [hdrainClose, Entry.resetClose, if_neg hd, if_neg fun hand => hin hand.2.1]

/-! ### The port's items (R65 steps 2 to 4) -/

theorem Entry.dropItems_eq (p : PortId) (e : Entry) : e.dropItems p = e.forgottenBy p := by
  have hmember : ∀ m : Member, m.dropVoids p =
      { m with target := m.target.map fun t => { t with voids := t.voids.filter fun v => decide (v.2 ≠ p) } } := fun m => by
    have hfilter : (fun v : NodeId × PortId => v.2 != p) = fun v => decide (v.2 ≠ p) := funext fun v => by
      rw [bne, Bool.beq_eq_decide_eq, decide_not]
    rw [Member.dropVoids, hfilter]
  rw [Entry.dropItems, Entry.forgottenBy, funext hmember]

theorem Underway.forgets (k : Underway s u p F) (hfate : Fate.left s p h (F.fate h)) (hpresent : u.entry? h ≠ none) :
    takesTurn (Underway s · p) (Fate.done s p h) u (u.forget p h) F h := by
  obtain ⟨e, hs, hx⟩ := hfate
  have hcur : F.cur h = some (e.leftBy s p h) := congrArg Fate.cur hx
  have hlost : F.lost h = e.boundThrough s p := congrArg Fate.lost hx
  have hclose : F.close h = e.resetClose s p h := congrArg Fate.close hx
  have hforgot : ¬F.forgot h := fun hyes => by
    have hno : F.forgot h = False := congrArg Fate.forgot hx
    rwa [hno] at hyes
  have he : u.entry? h = some (e.leftBy s p h) := (k.present hpresent).trans hcur
  have hprofile : (e.afterReset s p h).profile = e.profile := by
    rw [Entry.afterReset_eq]
    have hleft : (e.leftBy s p h).profile = e.profile := by
      unfold Entry.leftBy
      split
      · rfl
      · split
        · rfl
        · split
          · rfl
          · rw [e.movedBy_keeps]
            rfl
    exact hleft
  have hforget : u.forget p h = (u.setEntry h (e.afterReset s p h)).removeIfDone h := by
    rw [State.forget, State.modEntry_eq he, Entry.dropItems_eq, Entry.afterReset_eq]
  rw [hforget]
  have k1 := k.rewrites (f := e.afterReset s p h) he ⟨rfl, rfl, rfl⟩ hforgot (by simp [hs])
    (v := u.setEntry h (e.afterReset s p h)) rfl
  have he1 : (u.setEntry h (e.afterReset s p h)).entry? h = some (e.afterReset s p h) :=
    (State.entry_setEntry ..).trans (if_pos rfl)
  have hothers : onlyEntry u (u.setEntry h (e.afterReset s p h)) h := fun j hj => (State.entry_setEntry ..).trans (if_neg hj)
  refine ⟨_, k1.removes he1 (if_pos rfl) hforgot hs hprofile, ⟨e, hs, ?_⟩, fun j hj =>
    (Fates.fate_forget_other hj).trans (Fates.fate_write_other hj), fun j hj =>
    (State.removeIfDone_others k1.freeing.rising h j hj).trans (hothers j hj)⟩
  rw [Fates.fate_forget]
  have hcur1 : (F.write h (e.afterReset s p h)).cur h = some (e.afterReset s p h) := if_pos rfl
  have hlost1 : (F.write h (e.afterReset s p h)).lost h = e.boundThrough s p := hlost
  have hclose1 : (F.write h (e.afterReset s p h)).close h = e.resetClose s p h := hclose
  rw [hcur1, hlost1, hclose1]

end

end Sys2Proof.Machine
end

section
/-! PROOFS. A port reset from its beginning to the end of its submitters' phase (O24). -/

namespace Sys2Proof.Machine

open Sys2Proof.Config

theorem Port.mem_liveCells_all (q : Port) (c : CellId) :
    (c ∈ q.liveCells fun _ => true) ↔ ∃ tag : FetchTag, ∃ f, q.fetches[tag] = some f ∧ f.cell = some c := by
  rw [Port.liveCells, List.mem_filterMap]
  constructor
  · rintro ⟨x, hx, hc⟩
    obtain ⟨i, hi, rfl⟩ := Vector.mem_iff_getElem.mp (Vector.mem_toList_iff.mp hx)
    cases hf : q.fetches[i] with
    | none =>
      rw [hf] at hc
      cases hc
    | some f =>
      rw [hf] at hc
      exact ⟨⟨i, hi⟩, f, hf, hc⟩
  · rintro ⟨tag, f, hf, hc⟩
    exact ⟨some f, Vector.mem_toList_iff.mpr (Vector.mem_iff_getElem.mpr ⟨tag, tag.isLt, hf⟩), hc⟩

/-- R168 before step 2. -/
def Fates.start (s : State) : Fates := ⟨s.entry?, fun _ _ => False, fun _ => none, fun _ => False⟩

theorem State.port_resetQueues (s0 : State) (p q : PortId) : (s0.resetQueues p).port q =
    if q = p then { s0.port p with
      state := .resetting, reqTail := 0, reqHead := 0, respTail := 0, respHead := 0, responses := [] }
    else s0.port q :=
  port_modPort' s0 p q fun x =>
    { x with state := .resetting, reqTail := 0, reqHead := 0, respTail := 0, respHead := 0, responses := [] }

section

variable {s s0 u v : State} {p : PortId} {F : Fates} {h : Handle}

theorem Fates.frees_start (s : State) (o : Output) : ¬(Fates.start s).frees o := fun hfreed => hfreed.elim id fun hne => hne rfl

open Classical in
/-- R168 step 1 and the first of step 2: the port's records, the answers owed to its offers and its fetches are dropped. -/
theorem Underway.start (hr : s.rising) (hports : { s with ports := s0.ports } = s0)
    (htables : ∀ q, (s0.port q).fetches = (s.port q).fetches ∧ (s0.port q).outputs = (s.port q).outputs) :
    Underway s ((s0.resetQueues p).emptyFetches p fun _ => true) p (Fates.start s) := by
  have hq : ∀ q, ((s0.resetQueues p).port q).fetches = (s.port q).fetches
      ∧ ((s0.resetQueues p).port q).outputs = (s.port q).outputs := fun q => by
    rw [State.port_resetQueues]
    split
    · next heq => rw [heq]; exact htables p
    · exact htables q
  have hrest : ({ s with ports := (s0.resetQueues p).ports, transfers := (s0.resetQueues p).transfers } : State) =
      s0.resetQueues p := by
    rw [← hports]
    rfl
  generalize s0.resetQueues p = x at hq hrest
  have hport : ∀ q, (x.emptyFetches p fun _ => true).port q =
      if q = p then { x.port p with fetches := mapVec (emptySlot fun _ => true) (x.port p).fetches } else x.port q := fun q => by
    have hkept : (x.emptyFetches p fun _ => true).port q =
        (x.modPort p fun q => { q with fetches := mapVec (emptySlot fun _ => true) q.fetches }).port q := by
      rw [State.emptyFetches, ← CellsOnly.releaseAll (x.modPort p _) ((x.port p).liveCells fun _ => true)]
      rfl
    exact hkept.trans (port_modPort' ..)
  have hcells : CellsOnly (x.modPort p fun q => { q with fetches := mapVec (emptySlot fun _ => true) q.fetches })
      (x.emptyFetches p fun _ => true) := CellsOnly.releaseAll ..
  have hfreeing : Freeing s (x.emptyFetches p fun _ => true) ((Fates.start s).given s p) := by
    have hbefore : Freeing s (x.modPort p fun q => { q with fetches := mapVec (emptySlot fun _ => true) q.fetches })
        fun _ => False := (Freeing.start s hr).onward (by rw [← hrest]; rfl) (by rw [← hrest]; rfl) (by rw [← hrest]; exact hr)
      fun _ => by rw [← hrest]; rfl
    refine (hbefore.releaseAll ((x.port p).liveCells fun _ => true)).congr fun c => ?_
    rw [Port.mem_liveCells_all, (hq p).1, false_or]
    refine (or_iff_left ?_).symm
    rintro (⟨q, o, -, -, hfreed⟩ | ⟨j, e, -, hclosed, -⟩)
    · exact Fates.frees_start s o hfreed
    · exact hclosed rfl
  generalize x.emptyFetches p (fun _ => true) = u at hport hcells hfreeing
  have hu : ({ s with ports := u.ports, transfers := u.transfers, cells := u.cells, attempt := u.attempt } : State) = u := by
    rw [← hcells, ← hrest]
    rfl
  have hentry : ∀ j, u.entry? j = s.entry? j := fun j => by
    rw [← hu]
    rfl
  refine ⟨hr, hfreeing, fun _ hj => hj, fun j => .inl (hentry j), fun _ _ hforgot => hforgot.elim, ?_, fun q => ?_,
    fun q hqp tag => ?_, fun tag => ?_, fun n => ?_, fun i => ?_, fun b => ?_, ?_, fun i => ?_⟩
  · rw [← hu]
    exact ((List.map_congr_left fun d _ => if_neg id).trans (List.map_id' _)).symm
  · have hkept : (u.port q).outputs = (s.port q).outputs := by
      rw [hport]
      split
      · next heq => rw [heq]; exact (hq p).2
      · exact (hq q).2
    rw [hkept]
    exact (List.filter_eq_self.mpr fun o _ => decide_eq_true (Fates.frees_start s o)).symm
  · rw [hport, if_neg hqp, (hq q).1]
    have hsame : (fun f : Fetch => if (Fates.start s).close f.handle ≠ none then { f with cell := none } else f) = id :=
      funext fun f => if_neg fun hne => hne rfl
    rw [hsame, Option.map_id, id]
  · rw [hport, if_pos rfl]
    exact (mapVec_emptySlot _ _ tag).1.mpr fun _ _ => rfl
  · have hzero : (s.entries.map ((Fates.start s).unloads n)).sum = 0 := by
      refine List.sum_eq_zero fun k hk => ?_
      obtain ⟨x, -, rfl⟩ := List.mem_map.mp hk
      exact List.countP_eq_zero.mpr fun pt _ hd => (of_decide_eq_true hd).2.elim id fun hne => hne rfl
    rw [hzero, ← hu]
    rfl
  · have hzero : (s.entries.countP fun he => decide (he.2.profile = i ∧ u.entry? he.1 = none)) = 0 :=
      List.countP_eq_zero.mpr fun x hx hgone => by
        rw [hentry, State.entry_of_mem hr hx] at hgone
        simp at hgone
    rw [hzero, ← hu]
    rfl
  · have hzero : (s.entries.countP fun he => decide ((Fates.start s).close he.1 ≠ none ∧ he.2.plan.bind Plan.bank = some b)) = 0 :=
      List.countP_eq_zero.mpr fun x _ hclosed => (of_decide_eq_true hclosed).1 rfl
    rw [hzero, ← hu]
    rfl
  · rw [if_neg fun ⟨_, _, hne⟩ => hne rfl, ← hu]
  · have hzero : (s.entries.countP fun he => decide (((Fates.start s).close he.1).map EntryOutcome.counter = some i)) = 0 :=
      List.countP_eq_zero.mpr fun x _ hcounted => by simp [Fates.start] at hcounted
    rw [hzero, ← hu]
    simp

/-- A change of ports that keeps the fetch tables and the output queues. -/
theorem Underway.modPort (k : Underway s u p F) (q : PortId) {f : Port → Port}
    (hf : ∀ x, (f x).fetches = x.fetches ∧ (f x).outputs = x.outputs) : Underway s (u.modPort q f) p F := by
  have htables : ∀ j, ((u.modPort q f).port j).fetches = (u.port j).fetches
      ∧ ((u.modPort q f).port j).outputs = (u.port j).outputs := fun j => by
    rw [port_modPort']
    split
    · next heq => rw [heq]; exact hf _
    · exact ⟨rfl, rfl⟩
  exact { k with
    freeing := k.freeing.onward rfl rfl k.freeing.rising fun _ => rfl
    outputs := fun j => (htables j).2.trans (k.outputs j)
    fetches := fun j hj tag => by rw [(htables j).1]; exact k.fetches j hj tag
    emptied := fun tag => by rw [(htables p).1]; exact k.emptied tag }

/-- An entry that neither closed nor is done with stands. -/
theorem Underway.stands (k : Underway s u p F) (hclose : F.close h = none) (hopen : ¬F.forgot h) : u.entry? h = F.cur h :=
  (k.entries h).resolve_right fun ⟨_, _, _, hwhy, _⟩ => hwhy.elim (fun hne => hne hclose) hopen

theorem Underway.known (k : Underway s u p F) (hpresent : u.entry? h ≠ none) : s.entry? h ≠ none := fun hn =>
  hpresent ((k.present hpresent).trans (k.absent h hn))

/-- R168 steps 2 to 4 are over: what they came to for every entry. -/
structure ResetOver (s u : State) (p : PortId) (F : Fates) : Prop where
  under : Underway s u p F
  unknown : ∀ h, s.entry? h = none → F.fate h = ⟨none, fun _ => False, none, False⟩
  known : ∀ h, s.entry? h ≠ none → Fate.done s p h (F.fate h) ∨ Fate.left s p h (F.fate h) ∧ u.entry? h = none

/-- A phase over all entries that stand. -/
theorem openReset.phase {g : State → Handle → State} {A B : Handle → Fate → Prop} {P : State → Fates → Prop}
    (hturn : ∀ u F h, P u F → A h (F.fate h) → u.entry? h ≠ none → takesTurn P (B h) u (g u h) F h)
    (hP : P u F) (k : Underway s u p F) (hA : ∀ h, s.entry? h ≠ none → A h (F.fate h)) :
    ∃ F', P (u.handles.foldl g u) F' ∧ (∀ h, s.entry? h = none → F'.fate h = F.fate h)
      ∧ ∀ h, s.entry? h ≠ none → B h (F'.fate h)
        ∨ F'.fate h = F.fate h ∧ u.entry? h = none ∧ (u.handles.foldl g u).entry? h = none := by
  have hr := k.freeing.rising
  obtain ⟨F', hP', hB, hrest⟩ := foldl_takesTurn hturn (State.nodup_handles hr) hP fun h hh =>
    have hpresent := (State.mem_handles hr h).mp hh
    ⟨hA h (k.known hpresent), hpresent⟩
  refine ⟨F', hP', fun h hn => (hrest h fun hmem => ?_).1, fun h _ => ?_⟩
  · exact k.known ((State.mem_handles hr h).mp hmem) hn
  · by_cases hmem : h ∈ u.handles
    · exact .inl (hB h hmem)
    · have hgone : u.entry? h = none := by_contra fun hpresent => hmem ((State.mem_handles hr h).mpr hpresent)
      exact .inr ⟨(hrest h hmem).1, hgone, (hrest h hmem).2.trans hgone⟩

/-- A phase after which every entry of the table at the start has had its turn. -/
theorem openReset.phase_all {g : State → Handle → State} {A B : Handle → Fate → Prop}
    (hturn : ∀ u F h, openReset s p u F → A h (F.fate h) → u.entry? h ≠ none → takesTurn (openReset s p) (B h) u (g u h) F h)
    (k : openReset s p u F) (hA : ∀ h, s.entry? h ≠ none → A h (F.fate h))
    (hstands : ∀ h, s.entry? h ≠ none → u.entry? h ≠ none) :
    ∃ F', openReset s p (u.handles.foldl g u) F' ∧ (∀ h, s.entry? h = none → F'.fate h = F.fate h)
      ∧ ∀ h, s.entry? h ≠ none → B h (F'.fate h) := by
  obtain ⟨F', k', hunknown, hknown⟩ := openReset.phase hturn k k.1 hA
  exact ⟨F', k', hunknown, fun h hh => (hknown h hh).resolve_right fun hgone => hstands h hh hgone.2.1⟩

/-- An entry whose fate leaves it open stands. -/
theorem openReset.stands (k : openReset s p u F) (hcur : (F.fate h).cur ≠ none) (hclose : (F.fate h).close = none) :
    u.entry? h ≠ none :=
  k.1.stands hclose (k.2 h) ▸ hcur

/-- An entry that step 3 has closed has its last fate but for the port's items. -/
theorem Fate.unbound.left {x : Fate} (hx : Fate.unbound s p h x) (hclose : x.close ≠ none) : Fate.left s p h x := by
  obtain ⟨e, hs, rfl⟩ := hx
  have hd : drainedByReset s p h e := by_contra fun hd => hclose (if_neg hd)
  have hc : e.state ≠ .closed := by rw [hd.1]; decide
  refine ⟨e, hs, ?_⟩
  rw [Entry.unboundBy, Entry.drainClose, Entry.leftBy, Entry.resetClose, if_pos hd, if_pos hd, if_neg hc, if_pos hd, if_pos hd]

/-- R168 steps 1 to 4. -/
theorem resetOver (hr : s.rising) (hports : { s with ports := s0.ports } = s0)
    (htables : ∀ q, (s0.port q).fetches = (s.port q).fetches ∧ (s0.port q).outputs = (s.port q).outputs) :
    ∃ F, ResetOver s (((s0.resetQueues p).resetFetching p).resetSubmitters p) p F := by
  have k1 : openReset s p ((s0.resetQueues p).emptyFetches p fun _ => true) (Fates.start s) :=
    ⟨Underway.start (p := p) hr hports htables, fun _ => id⟩
  unfold State.resetFetching State.resetSubmitters
  dsimp only
  generalize (s0.resetQueues p).emptyFetches p (fun _ => true) = u1 at k1 ⊢
  have hstart : ∀ h, (Fates.start s).fate h = ⟨s.entry? h, fun _ => False, none, False⟩ := fun _ => rfl
  obtain ⟨F2, k2, hunknown2, hknown2⟩ := openReset.phase_all (A := fun h => Fate.untouched s h)
    (fun u F h k hx hpresent => k.hears hx hpresent) k1
    (fun h hh => by
      obtain ⟨e, he⟩ := Option.ne_none_iff_exists'.mp hh
      exact ⟨e, he, by rw [hstart, he]⟩)
    fun h hh => by
      obtain ⟨e, he⟩ := Option.ne_none_iff_exists'.mp hh
      exact k1.stands (by rw [hstart, he]; exact Option.some_ne_none e) rfl
  generalize u1.handles.foldl (State.triggerVia p) u1 = u2 at k2 ⊢
  have k3 : openReset s p (u2.modPort p fun q => { q with landing := [], wait := none }) F2 :=
    ⟨k2.1.modPort p fun _ => ⟨rfl, rfl⟩, k2.2⟩
  generalize u2.modPort p (fun q => { q with landing := [], wait := none }) = u3 at k3 ⊢
  obtain ⟨F4, k4, hunknown4, hknown4⟩ := openReset.phase_all (A := Fate.heard s p)
    (fun u F h k hx hpresent => k.unbinds hx hpresent) k3 hknown2 fun h hh => by
      obtain ⟨e, -, hx⟩ := hknown2 h hh
      exact k3.stands (by rw [hx]; exact Option.some_ne_none _) (by rw [hx])
  generalize u3.handles.foldl (State.unbindVia p) u3 = u4 at k4 ⊢
  obtain ⟨F5, k5, hunknown5, hknown5⟩ := openReset.phase (A := Fate.unbound s p)
    (fun u F h k hx hpresent => k.leaves hx hpresent) k4 k4.1 hknown4
  generalize u4.handles.foldl (State.orphan p) u4 = u5 at k5 hknown5 ⊢
  have hleft : ∀ h, s.entry? h ≠ none → Fate.left s p h (F5.fate h) := fun h hh => by
    rcases hknown5 h hh with hdone | ⟨hsame, hgone, -⟩
    · exact hdone
    · rw [hsame]
      exact (hknown4 h hh).left fun hclose => by
        obtain ⟨e, -, hx⟩ := hknown4 h hh
        exact k4.stands (by rw [hx]; exact Option.some_ne_none _) hclose hgone
  obtain ⟨F6, k6, hunknown6, hknown6⟩ := openReset.phase (A := Fate.left s p) (P := fun u F => Underway s u p F)
    (fun u F h k hx hpresent => k.forgets hx hpresent) k5.1 k5.1 hleft
  refine ⟨F6, k6, fun h hn => ?_, fun h hh => (hknown6 h hh).imp id fun ⟨hsame, _, hgone⟩ => ⟨hsame ▸ hleft h hh, hgone⟩⟩
  rw [hunknown6 h hn, hunknown5 h hn, hunknown4 h hn, hunknown2 h hn, hstart, hn]

end

end Sys2Proof.Machine
end

section
/-! PROOFS. What a port reset has come to for the entries, in the words of the statement (O24). -/

namespace Sys2Proof.Machine

open Sys2Proof.Config

section

variable {s u : State} {p : PortId} {F : Fates} {h : Handle} {e : Entry}

theorem ResetOver.fate (k : ResetOver s u p F) (hs : s.entry? h = some e) :
    F.lost h = e.boundThrough s p ∧ F.close h = e.resetClose s p h := by
  have hhas : ∀ {f : Entry} {cur : Option Entry} {d : Prop}, s.entry? h = some f →
      F.fate h = ⟨cur, f.boundThrough s p, f.resetClose s p h, d⟩ →
      F.lost h = e.boundThrough s p ∧ F.close h = e.resetClose s p h := fun hf hx => by
    obtain rfl := Option.some.inj (hs.symm.trans hf)
    exact ⟨congrArg Fate.lost hx, congrArg Fate.close hx⟩
  rcases k.known h (by simp [hs]) with ⟨f, hf, hx⟩ | ⟨⟨f, hf, hx⟩, -⟩
  · exact hhas hf hx
  · exact hhas hf hx

theorem ResetOver.lost_iff (k : ResetOver s u p F) (pos : Position) :
    F.lost h pos ↔ ∃ e, s.entry? h = some e ∧ e.boundThrough s p pos := by
  cases hs : s.entry? h with
  | none =>
    have hlost : F.lost h = fun _ => False := congrArg Fate.lost (k.unknown h hs)
    simp [hlost]
  | some e => simp [(k.fate hs).1]

theorem ResetOver.closed_iff (k : ResetOver s u p F) (hs : s.entry? h = some e) :
    F.close h ≠ none ↔ closedByReset s p h e := by
  rw [(k.fate hs).2]
  exact e.resetClose_iff s p h

theorem ResetOver.close_iff (k : ResetOver s u p F) :
    F.close h ≠ none ↔ ∃ e, s.entry? h = some e ∧ closedByReset s p h e := by
  cases hs : s.entry? h with
  | none =>
    have hclose : F.close h = none := congrArg Fate.close (k.unknown h hs)
    simp [hclose]
  | some e =>
    rw [k.closed_iff hs]
    simp

theorem ResetOver.frees_iff (k : ResetOver s u p F) (o : Output) :
    F.frees o ↔ unboundByReset s p o ∨ ∃ e, s.entry? o.handle = some e ∧ closedByReset s p o.handle e :=
  or_congr (k.lost_iff o.position) k.close_iff

theorem ResetOver.given_iff (k : ResetOver s u p F) (c : CellId) : F.given s p c ↔ givenUpByReset s p c := by
  refine or_congr_right (or_congr ?_ ?_)
  · simp only [k.frees_iff]
  · refine exists_congr fun h => exists_congr fun e => and_congr_right fun hs => ?_
    rw [k.closed_iff hs]

open Classical in
/-- R35: the targets of an entry that the reset takes from a node's load. -/
theorem ResetOver.unloads (k : ResetOver s u p F) (hs : s.entry? h = some e) (n : NodeId) : F.unloads n (h, e) =
    if (s.node n).route = some p ∨ closedByReset s p h e then e.targets.countP fun pt => decide (pt.2.dest = some n)
    else 0 := by
  have hleft : ∀ pos, F.lost h pos ∨ F.close h ≠ none ↔ e.boundThrough s p pos ∨ closedByReset s p h e := fun pos => by
    rw [k.closed_iff hs, (k.fate hs).1]
  by_cases hc : closedByReset s p h e
  · rw [if_pos (.inr hc)]
    refine List.countP_congr fun pt _ => ?_
    rw [decide_eq_true_eq, decide_eq_true_eq]
    exact and_iff_left ((hleft pt.1).mpr (.inr hc))
  · have hbound : F.unloads n (h, e) = e.targets.countP fun pt => decide (pt.2.dest = some n ∧ e.boundThrough s p pt.1) :=
      List.countP_congr fun pt _ => by
        rw [decide_eq_true_eq, decide_eq_true_eq]
        exact and_congr_right fun _ => (hleft pt.1).trans (or_iff_left hc)
    rw [hbound, Entry.countP_boundThrough]
    exact if_congr (or_iff_left hc).symm rfl rfl

/-- R59, R65: the counters of the closes. -/
theorem ResetOver.counted_iff (k : ResetOver s u p F) (hs : s.entry? h = some e) (i : Fin 18) :
    (F.close h).map EntryOutcome.counter = some i ↔ e.state ≠ .closed ∧ (i = 5 ∧ drainedByReset s p h e
      ∨ i = 6 ∧ ¬drainedByReset s p h e ∧ e.orphanedBy p) := by
  rw [(k.fate hs).2, Entry.resetClose]
  by_cases hd : drainedByReset s p h e
  · have hc : e.state ≠ .closed := by rw [hd.1]; decide
    simp only [hd, if_true, Option.map_some, Option.some.injEq, not_true_eq_false, false_and, and_false, or_false, and_true,
      ne_eq, hc, not_false_eq_true, true_and]
    exact eq_comm
  · by_cases ho : e.state ≠ .closed ∧ e.orphanedBy p
    · simp only [hd, ho, if_false, if_true, Option.map_some, Option.some.injEq, and_false, false_or, not_false_eq_true,
        and_self, and_true, ne_eq, true_and]
      exact eq_comm
    · simp only [hd, ho, if_false, Option.map_none, and_false, false_or, not_false_eq_true, true_and, reduceCtorEq, false_iff]
      exact fun ⟨hc, _, horphaned⟩ => ho ⟨hc, horphaned⟩

theorem ResetOver.absent (k : ResetOver s u p F) (hs : s.entry? h = none) : u.entry? h = none :=
  by_contra fun hpresent => k.under.known hpresent hs

/-- R65: what an entry without the port's items owes is less. -/
theorem owesNothing.forgottenBy (ho : owesNothing u h e) (p : PortId) : owesNothing u h (e.forgottenBy p) := by
  obtain ⟨hstate, hmarks, hvoids, hrest⟩ := ho
  refine ⟨hstate, ?_, fun m hm t ht => ?_, hrest⟩
  · have hnone : PortSet.remove (0 : PortSet) p = 0 := by
      revert p
      decide
    rw [Entry.forgottenBy, hmarks, hnone]
  · obtain ⟨m0, hm0, rfl⟩ := List.mem_map.mp hm
    obtain ⟨t0, ht0, rfl⟩ := Option.map_eq_some_iff.mp ht
    rw [hvoids m0 hm0 t0 ht0]
    rfl

/-- R63: an entry is removed where it owes nothing at the end, and else stands as the reset leaves it. -/
theorem ResetOver.entries (k : ResetOver s u p F) (hs : s.entry? h = some e) :
    (owesNothing u h (e.afterReset s p h) → u.entry? h = none)
      ∧ (¬owesNothing u h (e.afterReset s p h) → u.entry? h = some (e.afterReset s p h)) := by
  have hends := k.under.entries h
  rcases k.known h (by simp [hs]) with ⟨f, hf, hx⟩ | ⟨⟨f, hf, hx⟩, hgone⟩
  · obtain rfl := Option.some.inj (hs.symm.trans hf)
    have hcur : F.cur h = some (e.afterReset s p h) := congrArg Fate.cur hx
    have hforgot : F.forgot h := (congrArg Fate.forgot hx).mpr trivial
    rw [hcur] at hends
    rcases hends with hstands | ⟨hgone, g, hg, -, howes⟩
    · exact ⟨fun ho => absurd ho (k.under.owing h _ hforgot hstands), fun _ => hstands⟩
    · obtain rfl := Option.some.inj hg
      exact ⟨fun _ => hgone, fun ho => absurd howes ho⟩
  · obtain rfl := Option.some.inj (hs.symm.trans hf)
    have hcur : F.cur h = some (e.leftBy s p h) := congrArg Fate.cur hx
    rw [hcur, hgone] at hends
    obtain ⟨-, g, hg, -, howes⟩ := hends.resolve_left (Option.some_ne_none _).symm
    obtain rfl := Option.some.inj hg
    exact ⟨fun _ => hgone, fun ho => absurd (howes.forgottenBy p) (e.afterReset_eq s p h ▸ ho)⟩

end

end Sys2Proof.Machine
end

section
/-! PROOFS. A port reset, from a PORT-RESET and from the loss of a link (O24). -/

namespace Sys2Proof.Machine

open Sys2Proof.Config

/-! ### Ports and settings -/

section

variable {s s0 u v : State} {p : PortId}

theorem Sheds.emptyFetches (x : State) (p : PortId) (f : Fetch → Bool) : Sheds x (x.emptyFetches p f) :=
  .trans (.of_kept (.setPort x p _ rfl) ⟨rfl, rfl, rfl⟩ rfl rfl rfl) (.releaseAll ..)

theorem Sheds.resetSubmitters (x : State) (p : PortId) : Sheds x (x.resetSubmitters p) :=
  .trans (.foldl (fun w h => .orphan p w h) _ _) (.foldl (fun w h => .forget p w h) _ _)

/-- The port as steps 1 to 4 leave it, but for its fetches and outputs. -/
def Port.emptied (q : Port) : Port :=
  { q with
    state := .resetting, reqTail := 0, reqHead := 0, respTail := 0, respHead := 0, responses := []
    landing := [], wait := none }

/-- What a port reset leaves of the settings, the queues and the other ports. -/
structure ResetPorts (s0 u : State) (p : PortId) : Prop where
  port : ∀ q, u.port q = { (if q = p then (s0.port p).emptied else s0.port q) with
    fetches := (u.port q).fetches, outputs := (u.port q).outputs }
  transfers : u.transfers = s0.transfers.map fun x => if x.port = p then { x with answers := false } else x
  rest : u.inReset = s0.inReset ∧ u.quorum = s0.quorum ∧ u.sweep = s0.sweep ∧ u.sweepFifo = s0.sweepFifo
    ∧ u.sequenceCounter = s0.sequenceCounter ∧ u.inversionFifo = s0.inversionFifo ∧ u.matrix = s0.matrix
    ∧ u.window = s0.window ∧ u.fetchTimeout = s0.fetchTimeout ∧ u.lanes = s0.lanes ∧ u.landingTimeout = s0.landingTimeout
    ∧ u.timebase = s0.timebase ∧ u.nextBoundary = s0.nextBoundary ∧ u.epochLength = s0.epochLength ∧ u.fresh = s0.fresh
    ∧ u.pending = s0.pending ∧ u.selector = s0.selector

theorem resetPorts (s0 : State) (p : PortId) : ResetPorts s0 (((s0.resetQueues p).resetFetching p).resetSubmitters p) p := by
  unfold State.resetFetching
  dsimp only
  have k2 : Sheds (s0.resetQueues p) (((s0.resetQueues p).emptyFetches p fun _ => true).handles.foldl (State.triggerVia p)
      ((s0.resetQueues p).emptyFetches p fun _ => true)) :=
    .trans (.emptyFetches ..) (.foldl (fun w h => .triggerVia p w h) _ _)
  generalize ((s0.resetQueues p).emptyFetches p fun _ => true).handles.foldl (State.triggerVia p)
    ((s0.resetQueues p).emptyFetches p fun _ => true) = y at k2 ⊢
  have k4 : ∀ z : State, Sheds z ((z.handles.foldl (State.unbindVia p) z).resetSubmitters p) := fun z =>
    .trans (.foldl (fun w h => .unbindVia p w h) _ _) (.resetSubmitters ..)
  replace k4 := k4 (y.modPort p fun q => { q with landing := [], wait := none })
  generalize State.resetSubmitters _ p = u at k4 ⊢
  refine ⟨fun q => (k4.port q).trans ?_, k4.transfers.trans k2.transfers, k4.inReset.trans k2.inReset,
    k4.quorum.trans k2.quorum, k4.sweep.trans k2.sweep, k4.queues.2.1.trans k2.queues.2.1,
    k4.sequenceCounter.trans k2.sequenceCounter, k4.queues.2.2.trans k2.queues.2.2, k4.matrix.trans k2.matrix,
    k4.window.trans k2.window, k4.fetchTimeout.trans k2.fetchTimeout, k4.lanes.trans k2.lanes,
    k4.landingTimeout.trans k2.landingTimeout, k4.timebase.trans k2.timebase, k4.nextBoundary.trans k2.nextBoundary,
    k4.epochLength.trans k2.epochLength, k4.fresh.trans k2.fresh, k4.pending.trans k2.pending,
    k4.queues.1.trans k2.queues.1⟩
  rw [port_modPort']
  by_cases hq : q = p
  · rw [if_pos hq, if_pos hq, k2.port p, State.port_resetQueues, if_pos rfl]
    rfl
  · rw [if_neg hq, if_neg hq, k2.port q, State.port_resetQueues, if_neg hq]

/-- R168 steps 5 and 6: the port's reports go, its limits return to their defaults, and the landing waits are treated. -/
def State.finishReset (u : State) (p : PortId) : State :=
  (({ u.modPort p Port.defaults with nodes := mapVec (Node.dropReport p) u.nodes } : State).causeAttempt).refreshWaits

theorem State.beginReset_eq (s0 : State) (p : PortId) :
    s0.beginReset p = (((s0.resetQueues p).resetFetching p).resetSubmitters p).finishReset p := by
  unfold State.beginReset
  generalize ((s0.resetQueues p).resetFetching p).resetSubmitters p = u
  rfl

/-- What the end of a port reset changes. -/
structure FinishesReset (u v : State) (p : PortId) : Prop where
  rest : { u with ports := v.ports, nodes := v.nodes, attempt := v.attempt } = v
  attempt : v.attempt = true
  node : ∀ n, v.node n = (u.node n).dropReport p
  port : ∀ q, v.port q = { (if q = p then (u.port p).defaults else u.port q) with wait := waitAfter u v q }

theorem State.finishReset_spec (u : State) (p : PortId) : FinishesReset u (u.finishReset p) p := by
  unfold State.finishReset
  have hport : ∀ q, (({ u.modPort p Port.defaults with nodes := mapVec (Node.dropReport p) u.nodes } : State).causeAttempt).port q =
      if q = p then (u.port p).defaults else u.port q := port_modPort' u p (f := Port.defaults)
  have hw : { u with
      ports := (({ u.modPort p Port.defaults with nodes := mapVec (Node.dropReport p) u.nodes } : State).causeAttempt).ports
      nodes := mapVec (Node.dropReport p) u.nodes, attempt := true } =
    ({ u.modPort p Port.defaults with nodes := mapVec (Node.dropReport p) u.nodes } : State).causeAttempt := rfl
  generalize ({ u.modPort p Port.defaults with nodes := mapVec (Node.dropReport p) u.nodes } : State).causeAttempt = w at hport hw ⊢
  have hrest := rest_refreshWaits w
  have hwait : ∀ q, (w.refreshWaits.port q).wait = waitAfter u w.refreshWaits q := fun q =>
    wait_after_refreshWaits (by rw [hport]; split <;> simp_all [Port.defaults])
  have hports := port_refreshWaits w
  generalize w.refreshWaits = v at hrest hwait hports ⊢
  refine ⟨?_, ?_, fun n => ?_, fun q => ?_⟩
  · rw [← hrest, ← hw]
  · rw [← hrest, ← hw]
  · rw [← hrest, ← hw]
    exact mapVec_get ..
  · rw [← hwait, ← hport]
    exact hports q

end

/-! ### The frame -/

section

variable {s s0 u v : State} {p : PortId} {F : Fates} {link enable : Bool}

/-- The port of the reset at its end. -/
theorem portReset_own (k : Underway s u p F) (l : ResetPorts s0 u p) (w : FinishesReset u v p) {head : Nat}
    (hown : s0.port p = { s.port p with reqHead := head, link := link, eventEnable := enable }) :
    v.port p = { s.port p with
      state := .resetting, link := link, reqTail := 0, reqHead := 0, respTail := 0, respHead := 0, responses := []
      fetches := Vector.replicate 32 none, credit := 16, quota := 128, landing := [], wait := none
      outputs := (v.port p).outputs, budget := ⟨0, 0, 0, false⟩, mode := .follow, held := (s.port p).pressure
      eventEnable := enable, baseline := Vector.replicate 18 0 } := by
  have hempty : (u.port p).fetches = Vector.replicate 32 none :=
    Vector.ext fun i hi => by rw [Vector.getElem_replicate]; exact k.emptied ⟨i, hi⟩
  have hu := l.port p
  rw [if_pos rfl, hown, hempty] at hu
  have hv := w.port p
  rw [if_pos rfl] at hv
  have hwait : waitAfter u v p = none := if_neg fun hup => by
    have hstate : (v.port p).state = .resetting := by rw [hv, hu]; rfl
    rw [hstate] at hup
    exact absurd hup.1 (by decide)
  rw [hwait] at hv
  have houtputs : (v.port p).outputs = (u.port p).outputs := by rw [hv]; rfl
  rw [houtputs]
  refine hv.trans ?_
  rw [hu]
  rfl

theorem portReset_other (l : ResetPorts s0 u p) (w : FinishesReset u v p) {q : PortId} (hq : q ≠ p)
    (hother : s0.port q = s.port q) : Port.worked (s.port q) (v.port q) (waitAfter s v q) := by
  have hu := l.port q
  rw [if_neg hq, hother] at hu
  have hv := w.port q
  rw [if_neg hq] at hv
  have hwait : waitAfter u v q = waitAfter s v q := waitAfter_congr (by rw [hu]) rfl rfl rfl rfl rfl rfl
  have hfetches : (v.port q).fetches = (u.port q).fetches := by rw [hv]
  have houtputs : (v.port q).outputs = (u.port q).outputs := by rw [hv]
  rw [Port.worked, hfetches, houtputs, ← hwait]
  refine hv.trans ?_
  rw [hu]

theorem tables_finish (w : FinishesReset u v p) (q : PortId) :
    (v.port q).fetches = (u.port q).fetches ∧ (v.port q).outputs = (u.port q).outputs := by
  rw [w.port]
  split
  · next hq => rw [hq]; exact ⟨rfl, rfl⟩
  · exact ⟨rfl, rfl⟩

/-- R167: no event line rises. -/
theorem countRises_finish (k : Underway s u p F) (l : ResetPorts s0 u p) (w : FinishesReset u v p) {head : Nat}
    (hown : s0.port p = { s.port p with reqHead := head, link := link, eventEnable := enable })
    (hothers : ∀ q, q ≠ p → s0.port q = s.port q) : countRises s v = v := by
  refine countRises_eq (fun q => ?_) rfl
  by_cases hq : q = p
  · subst hq
    refine Port.risen_same (.inr ?_)
    rw [portReset_own k l w hown]
    rfl
  · refine Port.risen_of_line_eq ?_
    have hworked := portReset_other l w hq (hothers q hq)
    rw [Port.worked] at hworked
    rw [hworked]
    rfl

theorem Node.dropReport_eq (p : PortId) (x : Node) : x.dropReport p = { x with
    reports := if x.state = .up ∨ x.state = .suspect then PortSet.remove x.reports p else x.reports } := by
  have hserves : x.state.serves = true ↔ x.state = .up ∨ x.state = .suspect := by
    cases x.state <;> simp [NodeState.serves]
  unfold Node.dropReport
  by_cases hup : x.state = .up ∨ x.state = .suspect
  · rw [if_pos hup, if_pos (hserves.mpr hup)]
  · rw [if_neg hup, if_neg (mt hserves.mp hup)]

open Classical in
theorem portResetFrame_of (k : ResetOver s u p F) (l : ResetPorts s0 u p) (w : FinishesReset u v p) {head : Nat}
    (hports : { s with ports := s0.ports } = s0)
    (hown : s0.port p = { s.port p with reqHead := head, link := link, eventEnable := enable })
    (hothers : ∀ q, q ≠ p → s0.port q = s.port q) : portResetFrame s v p link enable := by
  have hentry : ∀ h, v.entry? h = u.entry? h := fun h => by rw [← w.rest]; rfl
  have howes : ∀ h e, owesNothing v h e ↔ owesNothing u h e := fun h e => by rw [← w.rest]; exact Iff.rfl
  have houtputs : ∀ q, (v.port q).outputs = (s.port q).outputs.filter fun o =>
      decide (¬(unboundByReset s p o ∨ ∃ e, s.entry? o.handle = some e ∧ closedByReset s p o.handle e)) := fun q => by
    rw [(tables_finish w q).2, k.under.outputs]
    refine List.filter_congr fun o _ => ?_
    rw [decide_eq_decide, k.frees_iff]
  have hfreeing : Freeing s v (F.given s p) := by
    rw [← w.rest]
    exact k.under.freeing.onward rfl rfl k.under.freeing.rising fun _ => rfl
  refine ⟨portReset_own k.under l w hown, fun q hq => portReset_other l w hq (hothers q hq), fun q hq tag => ?_, houtputs, fun hall => ?_,
    (hfreeing.congr k.given_iff).cellsReleased, ?_, ?_, fun n => ?_, fun h hs => ?_, fun h e hs => ?_, fun i => ?_, fun b => ?_,
    ?_, fun i => ?_, w.attempt, ?_⟩
  · rw [(tables_finish w q).1, k.under.fetches q hq]
    refine congrArg (Option.map · _) (funext fun f => ?_)
    by_cases hc : F.close f.handle ≠ none
    · rw [if_pos hc, if_pos (k.close_iff.mp hc)]
    · rw [if_neg hc, if_neg (mt k.close_iff.mpr hc)]
  · rw [houtputs, List.filter_eq_nil_iff]
    intro o ho hkept
    obtain ⟨e, t0, hs, ht, hd, hroute⟩ := hall o ho
    exact of_decide_eq_true hkept (.inl ⟨e, hs, t0, o.dest, ht, hd, hroute⟩)
  · have htransfers : v.transfers = u.transfers := by rw [← w.rest]
    rw [htransfers, l.transfers, ← hports]
  · have hdeliveries : v.deliveries = u.deliveries := by rw [← w.rest]
    rw [hdeliveries, k.under.deliveries]
    exact List.map_congr_left fun d _ => if_congr (k.lost_iff _) rfl rfl
  · rw [w.node, k.under.nodes, Node.dropReport_eq]
    have hsum : s.entries.map (F.unloads n) = s.entries.map fun he =>
        if (s.node n).route = some p ∨ closedByReset s p he.1 he.2 then he.2.targets.countP fun pt => decide (pt.2.dest = some n)
        else 0 := List.map_congr_left fun x hx => k.unloads (State.entry_of_mem k.under.rising_start hx) n
    rw [hsum]
  · rw [hentry]
    exact k.absent hs
  · rw [howes, hentry]
    exact k.entries hs
  · have hprofile : v.profile i = u.profile i := by rw [← w.rest]; rfl
    rw [hprofile, k.under.profiles]
    simp only [hentry]
  · have hbank : v.bank b = u.bank b := by rw [← w.rest]; rfl
    rw [hbank, k.under.banks]
    have hcount : ∀ x ∈ s.entries, (decide (F.close x.1 ≠ none ∧ x.2.plan.bind Plan.bank = some b) = true ↔
        decide (closedByReset s p x.1 x.2 ∧ x.2.plan.bind Plan.bank = some b) = true) := fun x hx => by
      rw [decide_eq_true_eq, decide_eq_true_eq, k.closed_iff (State.entry_of_mem k.under.rising_start hx)]
    rw [List.countP_congr hcount]
  · have hpark : v.park = u.park := by rw [← w.rest]
    rw [hpark, k.under.park]
    exact if_congr (exists_congr fun h => (and_congr_right fun _ => k.close_iff).trans exists_and_left.symm) rfl rfl
  · have hcounters : v.counters = u.counters := by rw [← w.rest]
    rw [hcounters, k.under.counters]
    refine congrArg (fun c => s.counters[i] + BitVec.ofNat 48 c) (List.countP_congr fun x hx => ?_)
    rw [decide_eq_true_eq, decide_eq_true_eq]
    exact k.counted_iff (State.entry_of_mem k.under.rising_start hx) i
  · rw [← w.rest]
    have hrest := l.rest
    rw [← hports] at hrest
    exact hrest

/-- R168: a reset of a port that begins in the state `s0`, which is `s` but for the port's own link, enable and requests. -/
theorem portResetFrame_beginReset {head : Nat} (hr : s.rising) (hports : { s with ports := s0.ports } = s0)
    (hown : s0.port p = { s.port p with reqHead := head, link := link, eventEnable := enable })
    (hothers : ∀ q, q ≠ p → s0.port q = s.port q) :
    portResetFrame s (countRises s (s0.beginReset p)) p link enable := by
  have htables : ∀ q, (s0.port q).fetches = (s.port q).fetches ∧ (s0.port q).outputs = (s.port q).outputs := fun q => by
    by_cases hq : q = p
    · rw [hq, hown]
      exact ⟨rfl, rfl⟩
    · rw [hothers q hq]
      exact ⟨rfl, rfl⟩
  obtain ⟨F, k⟩ := resetOver (p := p) hr hports htables
  have l := resetPorts s0 p
  rw [State.beginReset_eq]
  generalize ((s0.resetQueues p).resetFetching p).resetSubmitters p = u at k l ⊢
  have w := u.finishReset_spec p
  rw [countRises_finish k.under l w hown hothers]
  exact portResetFrame_of k l w hports hown hothers

end

theorem exec_portReset (p : PortId) (s : State) :
    exec (.portReset p) s = withRequest p (fun k => k == 23) s fun _ t => t.beginReset p := rfl

/-- Settles O24: each phase of the reset gives every entry its turn, and `Underway` sums up what the turns so far came to. -/
theorem portResetReturnsPortToDefaults : Obligations.PortResetReturnsPortToDefaults := by
  intro s p hr
  rw [exec_portReset, exec_linkLost]
  refine ⟨fun hoffers => ⟨_, withRequest_next (State.takes_of_offers hoffers), ?_⟩, fun hreset hup hlink => ?_⟩
  · exact portResetFrame_beginReset hr rfl (by rw [port_advance, if_pos rfl]) fun q hq => by rw [port_advance, if_neg hq]
  · refine ⟨_, event_next hreset hlink, ?_⟩
    rw [State.loseLink, if_pos hup]
    refine portResetFrame_beginReset (head := (s.port p).reqHead) hr rfl ?_ fun q hq => ?_
    · rw [port_modPort', if_pos rfl]
    · rw [port_modPort', if_neg hq]

end Sys2Proof.Machine
end

section
/-! PROOFS. The statistics: SNAPSHOT and READ-COUNTERS (O7). -/

namespace Sys2Proof.Machine

theorem exec_snapshot (p : PortId) (s : State) : exec (.snapshot p) s = withAnswer p 21 s (snapshotDecide p) := rfl

theorem exec_readCounters (p : PortId) (s : State) :
    exec (.readCounters p) s = withAnswer p 22 s (readCountersDecide p) := rfl

/-- R173: the counters copied are those before the request, whose record takes no part in them. -/
theorem snapshotDecide_advance (p : PortId) (r : Request) (s : State) :
    snapshotDecide p r (s.advance p) =
      ⟨s.setPort p ({ s.port p with baseline := s.counters } : Port).tookRequest, .ok, .none⟩ := by
  rw [snapshotDecide, modPort_advance]
  rfl

/-- R174: a delta and its baseline value make up the counter again, modulo 2^48. -/
theorem State.deltas_add_baseline (s : State) (p : PortId) (i : Fin 18) :
    (s.deltas p)[i] + (s.port p).baseline[i] = s.counters[i] := by
  have hdelta : (s.deltas p)[i] = s.counters[i] - (s.port p).baseline[i] := Vector.getElem_ofFn i.isLt
  rw [hdelta, BitVec.sub_add_cancel]

/-- R174: the taking of the request moves no counter and no baseline, so the deltas are those before it. -/
theorem State.deltas_advance (s : State) (p : PortId) : (s.advance p).deltas p = s.deltas p := by
  have hbaseline : ((s.advance p).port p).baseline = (s.port p).baseline := by
    rw [port_advance, if_pos rfl]
  rw [State.deltas, State.deltas, hbaseline]
  rfl

/-- Settles O7: SNAPSHOT changes its own port's baseline set alone (`snapshotDecide_advance`), and what READ-COUNTERS
answers are the deltas of `State.deltas_add_baseline`. -/
theorem snapshotAndReadCountersUseBaseline : Obligations.SnapshotAndReadCountersUseBaseline := by
  refine ⟨fun s p h => ?_, fun s p h => ⟨s.deltas p, fun i => ?_, ?_⟩⟩
  · rw [exec_snapshot]
    exact exec_own h _ .ok .none rfl rfl rfl (snapshotDecide_advance ..)
  · rw [← BitVec.toNat_add, State.deltas_add_baseline]
  · rw [exec_readCounters]
    exact exec_only h .ok _ (by rw [readCountersDecide, State.deltas_advance])

end Sys2Proof.Machine
end

section
/-! PROOFS. The queue of commands (O1). -/

namespace Sys2Proof.Machine

/-- Settles O1: of the two branches of `step`, the queue's front selects the one that executes it (log 1). -/
theorem stepExecutesFrontCommand : Obligations.StepExecutesFrontCommand := by
  intro s i rest hqueue
  rw [step, hqueue]

end Sys2Proof.Machine
end
